-- ==== Sys2Proof/Word.lean ====
section
/-! DEFINITION. The word types of the wire formats and registers (spec/00_scope.md R9). -/

namespace Sys2Proof

/-- A byte is 8 bits (R9). -/
abbrev Byte := BitVec 8

/-- The 16-bit registers and fields: offsets, lengths, ports, checksums, EtherType, message ID (R9). -/
abbrev Half := BitVec 16

end Sys2Proof
end

