-- ==== Sys2Proof/Machine/Bytes.lean ====
section
/-! DEFINITION. Byte strings and their integers (spec/00_scope.md R10, R11; spec/20_memory.md R60, R61). -/

namespace Sys2Proof.Machine

/-- `256 * acc + b` over the bytes in turn. -/
def beFrom : Nat → List Byte → Nat
  | acc, [] => acc
  | acc, b :: bs => beFrom (256 * acc + b.toNat) bs

/-- The unsigned integer of a byte string, most significant byte first: `be16`, `be32`, ... of R11. -/
def beNat (bs : List Byte) : Nat := beFrom 0 bs

/-- `bytes_be(v, n)` of R11: the `n`-byte big-endian string of `v` (its low `n` bytes when `v` needs more). -/
def bytesBE : Nat → Nat → List Byte
  | 0, _ => []
  | n + 1, v => BitVec.ofNat 8 (v / 256 ^ n) :: bytesBE n v

/-- The unsigned integer of a byte string, least significant byte first: `le16` of R11. -/
def leNat (bs : List Byte) : Nat := beNat bs.reverse

/-- `bytes_le(v, n)` of R11. -/
def bytesLE (n v : Nat) : List Byte := (bytesBE n v).reverse

/-- A big-endian field of `w` bits (R60). -/
def ofBE (w : Nat) (bs : List Byte) : BitVec w := BitVec.ofNat w (beNat bs)

/-- A little-endian field of `w` bits (R61). -/
def ofLE (w : Nat) (bs : List Byte) : BitVec w := BitVec.ofNat w (leNat bs)

/-- The `n` bytes of a field, most significant first (R60). -/
def toBE (n : Nat) {w : Nat} (v : BitVec w) : List Byte := bytesBE n v.toNat

/-- The `n` bytes of a field, least significant first (R61). -/
def toLE (n : Nat) {w : Nat} (v : BitVec w) : List Byte := bytesLE n v.toNat

/-- `s[a..b)` of R10. -/
def slice (s : List Byte) (a b : Nat) : List Byte := (s.drop a).take (b - a)

/-- Byte `i` of a string; every use is below the string's length, and past it this is 0. -/
def byteAt (s : List Byte) (i : Nat) : Byte := s.getD i 0#8

/-- The string with `v` written over it from offset `off` (`h[off..off+|v|) = v` in the spec's builders). -/
def patch (s : List Byte) (off : Nat) (v : List Byte) : List Byte :=
  s.take off ++ v ++ s.drop (off + v.length)

/-- `n` zero bytes. -/
def zeros (n : Nat) : List Byte := List.replicate n 0#8

end Sys2Proof.Machine
end

