-- ==== Sys2Proof/Syntax.lean ====
section
/-! DEFINITION. The stages (spec/10_state.md R24) and the operations, one constructor for each of the 44
rows of spec/opcode_table.json (spec/30_encoding.md R140, R141). -/

namespace Sys2Proof

/-- The values of the `STAGE` register (R24). Code 13 is reserved and has no constructor. -/
inductive Stage
  | idle
  | eth
  | mac154
  | arp
  | ipv4
  | ipv6
  | icmp4
  | icmp6
  | udp
  | coap
  | lowpan
  | build
  | txPending
  | haltFatal
  | haltAbort
  deriving DecidableEq, Repr, Inhabited

/-- An operation. The operands are what the row's encoding leaves open: the length of `RX_ACCEPT`, the bits
of a tag outside the row's mask, the tag of a default row. -/
inductive Instr
  /-- R400. The host hands over a frame of `len` bytes. -/
  | rxAccept (len : Half)
  /-- R403. The host takes the response. -/
  | txTake
  /-- R171. -/
  | ethParse
  /-- R172. -/
  | ethArp
  /-- R173. -/
  | ethIpv4
  /-- R174. -/
  | ethIpv6
  /-- R175, with the EtherType that selected it. -/
  | ethOther (ethertype : Half)
  /-- R176. -/
  | mac154Parse
  /-- R177. -/
  | mac154Data
  /-- R178, with the frame type that selected it. -/
  | mac154Other (ftype : BitVec 3)
  /-- R303. -/
  | lowpanParse
  /-- R302, with the fields of the dispatch byte (R131). -/
  | lowpanIphc (tf : BitVec 2) (nh : BitVec 1) (hlim : BitVec 2)
  /-- R301, with the dispatch byte that selected it. -/
  | lowpanOther (d : Byte)
  /-- R318, with the fields of the NHC byte (R137). -/
  | nhcUdp (c : BitVec 1) (p : BitVec 2)
  /-- R319, with the NHC byte that selected it. -/
  | nhcOther (c : Byte)
  /-- R191. -/
  | arpParse
  /-- R194. -/
  | arpRequest
  /-- R196. -/
  | arpReply
  /-- R197, with the operation field that selected it. -/
  | arpOther (oper : Half)
  /-- R211. -/
  | ip4Parse
  /-- R214. -/
  | ip4Icmp
  /-- R215. -/
  | ip4Udp
  /-- R216, with the protocol that selected it. -/
  | ip4Other (protocol : Byte)
  /-- R231. -/
  | ip6Parse
  /-- R235. -/
  | ip6Icmp6
  /-- R236. -/
  | ip6Udp
  /-- R237, with the next header that selected it. -/
  | ip6Other (nh : Byte)
  /-- R251. -/
  | icmp4Parse
  /-- R252. -/
  | icmp4Echo
  /-- R254, with the type and code that selected it. -/
  | icmp4Other (typeCode : Half)
  /-- R257. -/
  | icmp6Parse
  /-- R258. -/
  | icmp6Echo
  /-- R260. -/
  | icmp6Ns
  /-- R263, with the type and code that selected it. -/
  | icmp6Other (typeCode : Half)
  /-- R281. -/
  | udpParse
  /-- R285. -/
  | udpCoap
  /-- R286, with the destination port that selected it. -/
  | udpEcho (dport : Half)
  /-- R351. -/
  | coapParse
  /-- R362. -/
  | coapGetLed
  /-- R363. -/
  | coapPutLed
  /-- R364, with the method code. -/
  | coapNotFound (code : Byte)
  /-- R365, with the method code. -/
  | coapNotAllowed (code : Byte)
  /-- R359, with the code. -/
  | coapOther (code : Byte)
  /-- R407. -/
  | build
  deriving DecidableEq, Repr, Inhabited

end Sys2Proof
end

