-- ==== Sys2Proof/WellFormed.lean ====
section
/-! DEFINITION. Which operand values a row's encoding admits (spec/30_encoding.md R140, R141): a default row
takes only the tags no earlier row of its stage takes. -/

namespace Sys2Proof

/-- `true` iff some frame (or host request) selects exactly this operation when `CFG_COAP_PORT = port`. -/
def Instr.wf (port : Half) : Instr → Bool
  | .ethOther e => e ≠ 0x0806#16 && e ≠ 0x0800#16 && e ≠ 0x86DD#16
  | .mac154Other f => f ≠ 1#3
  | .lowpanOther d => d &&& 0xE0#8 ≠ 0x60#8
  | .nhcOther c => c &&& 0xF8#8 ≠ 0xF0#8
  | .arpOther o => o ≠ 1#16 && o ≠ 2#16
  | .ip4Other p => p ≠ 1#8 && p ≠ 17#8
  | .ip6Other n => n ≠ 58#8 && n ≠ 17#8
  | .icmp4Other t => t ≠ 0x0800#16
  | .icmp6Other t => t ≠ 0x8000#16 && t ≠ 0x8700#16
  | .udpEcho d => d ≠ port
  | .coapNotFound c => c &&& 0xE0#8 = 0#8 && c ≠ 0#8
  | .coapNotAllowed c => c &&& 0xE0#8 = 0#8 && c ≠ 0#8 && c ≠ 1#8 && c ≠ 3#8
  | .rxAccept _ | .txTake | .ethParse | .ethArp | .ethIpv4 | .ethIpv6 | .mac154Parse | .mac154Data
  | .lowpanParse | .lowpanIphc _ _ _ | .nhcUdp _ _ | .arpParse | .arpRequest | .arpReply | .ip4Parse
  | .ip4Icmp | .ip4Udp | .ip6Parse | .ip6Icmp6 | .ip6Udp | .icmp4Parse | .icmp4Echo | .icmp6Parse
  | .icmp6Echo | .icmp6Ns | .udpParse | .udpCoap | .coapParse | .coapGetLed | .coapPutLed
  | .coapOther _ | .build => true

end Sys2Proof
end

