-- ==== Sys2Proof/Decode.lean ====
section
/-! DEFINITION. Decoding and encoding of operations (spec/30_encoding.md R140, R141). What an operation's
words mean depends on where they are read: a `Selector` names the tag the sequencer reads (the table's columns
`stage` and `tag`, with the conditions of `cond`), and the words are the bytes of that tag. -/

namespace Sys2Proof

open Sys2Proof.Machine

/-- Which tag is read, or which host request or stage entry is at hand. -/
inductive Selector
  /-- The host asserts `rx_go` with this `rx_len`; no byte is read. -/
  | rxGo (len : Half)
  /-- The host asserts `tx_take`; no byte is read. -/
  | txTake
  /-- A stage is entered; its entry operation runs and no byte is read. -/
  | entry (stage : Stage)
  | ethertype
  /-- Bits 2:0 of the first byte of the frame control field (R127). -/
  | ftype
  | dispatch
  | nhc
  | oper
  | protocol
  | nextHeader
  | icmp4
  | icmp6
  /-- The destination port, compared with `CFG_COAP_PORT` (R119). -/
  | dport (coapPort : Half)
  /-- The CoAP code, with the message type and whether the path is known (R355, R356). -/
  | coap (t : BitVec 2) (known : Bool)
  deriving DecidableEq, Repr, Inhabited

/-- Why the decoder rejects. -/
inductive DecodeError
  /-- The bytes are not exactly the tag's width. -/
  | wrongWidth
  /-- The stage has no entry operation (it waits for the host, or is halted). -/
  | noEntry (stage : Stage)
  deriving DecidableEq, Repr, Inhabited

/-- How many bytes the selector's tag occupies. -/
def Selector.width : Selector → Nat
  | .rxGo _ | .txTake | .entry _ => 0
  | .ftype | .dispatch | .nhc | .protocol | .nextHeader | .coap _ _ => 1
  | .ethertype | .oper | .icmp4 | .icmp6 | .dport _ => 2

/-- The entry operation of a stage (the `entry` rows of the table). -/
def decodeEntry : Stage → Except DecodeError Instr
  | .eth => .ok .ethParse
  | .mac154 => .ok .mac154Parse
  | .arp => .ok .arpParse
  | .ipv4 => .ok .ip4Parse
  | .ipv6 => .ok .ip6Parse
  | .icmp4 => .ok .icmp4Parse
  | .icmp6 => .ok .icmp6Parse
  | .udp => .ok .udpParse
  | .coap => .ok .coapParse
  | .lowpan => .ok .lowpanParse
  | .build => .ok .build
  | .idle => .error (.noEntry .idle)
  | .txPending => .error (.noEntry .txPending)
  | .haltFatal => .error (.noEntry .haltFatal)
  | .haltAbort => .error (.noEntry .haltAbort)

/-- R140, stage `ETH`. -/
def decodeEthertype (v : Half) : Instr :=
  if v = 0x0806#16 then .ethArp
  else if v = 0x0800#16 then .ethIpv4
  else if v = 0x86DD#16 then .ethIpv6
  else .ethOther v

/-- R140, stage `MAC154`. -/
def decodeFtype (v : BitVec 3) : Instr := if v = 1#3 then .mac154Data else .mac154Other v

/-- R140, stage `LOWPAN`, dispatch byte; the operands are `TF`, `NH`, `HLIM` of R131. -/
def decodeDispatch (d : Byte) : Instr :=
  if d &&& 0xE0#8 = 0x60#8 then
    .lowpanIphc (d.extractLsb' 3 2) (d.extractLsb' 2 1) (d.extractLsb' 0 2)
  else .lowpanOther d

/-- R140, stage `LOWPAN`, NHC byte; the operands are `C`, `P` of R137. -/
def decodeNhc (c : Byte) : Instr :=
  if c &&& 0xF8#8 = 0xF0#8 then .nhcUdp (c.extractLsb' 2 1) (c.extractLsb' 0 2) else .nhcOther c

/-- R140, stage `ARP`. -/
def decodeOper (v : Half) : Instr :=
  if v = 1#16 then .arpRequest else if v = 2#16 then .arpReply else .arpOther v

/-- R140, stage `IPV4`. -/
def decodeProtocol (v : Byte) : Instr :=
  if v = 1#8 then .ip4Icmp else if v = 17#8 then .ip4Udp else .ip4Other v

/-- R140, stage `IPV6`. -/
def decodeNextHeader (v : Byte) : Instr :=
  if v = 58#8 then .ip6Icmp6 else if v = 17#8 then .ip6Udp else .ip6Other v

/-- R140, stage `ICMP4`. -/
def decodeIcmp4 (v : Half) : Instr := if v = 0x0800#16 then .icmp4Echo else .icmp4Other v

/-- R140, stage `ICMP6`. -/
def decodeIcmp6 (v : Half) : Instr :=
  if v = 0x8000#16 then .icmp6Echo else if v = 0x8700#16 then .icmp6Ns else .icmp6Other v

/-- R140, stage `UDP` (R119). -/
def decodeDport (coapPort v : Half) : Instr := if v = coapPort then .udpCoap else .udpEcho v

/-- R140, stage `COAP`: the rows in table order, with the conditions of `cond` (R355, R356). -/
def decodeCoap (t : BitVec 2) (known : Bool) (code : Byte) : Instr :=
  let request := t = 0#2 ∨ t = 1#2
  if code = 1#8 ∧ request ∧ known then .coapGetLed
  else if code = 3#8 ∧ request ∧ known then .coapPutLed
  else if code &&& 0xE0#8 = 0#8 ∧ request ∧ code ≠ 0#8 ∧ ¬ known then .coapNotFound code
  else if code &&& 0xE0#8 = 0#8 ∧ request ∧ code ≠ 0#8 ∧ known then .coapNotAllowed code
  else .coapOther code

/-- An operation that no byte selects. -/
def tagNone (i : Except DecodeError Instr) : List Byte → Except DecodeError Instr
  | [] => i
  | _ :: _ => .error .wrongWidth

/-- A tag of one byte. -/
def tagByte (f : Byte → Instr) : List Byte → Except DecodeError Instr
  | [a] => .ok (f a)
  | _ => .error .wrongWidth

/-- A tag of two bytes, most significant first (R60). -/
def tagHalf (f : Half → Instr) : List Byte → Except DecodeError Instr
  | [a, b] => .ok (f (ofBE 16 [a, b]))
  | _ => .error .wrongWidth

/-- The decoder: from a selector and the bytes of its tag to the operation, total on any bytes. -/
def decode (sel : Selector) (bytes : List Byte) : Except DecodeError Instr :=
  match sel with
  | .rxGo len => tagNone (.ok (.rxAccept len)) bytes
  | .txTake => tagNone (.ok .txTake) bytes
  | .entry st => tagNone (decodeEntry st) bytes
  | .ethertype => tagHalf decodeEthertype bytes
  | .ftype => tagByte (fun a => decodeFtype (a.extractLsb' 0 3)) bytes
  | .dispatch => tagByte decodeDispatch bytes
  | .nhc => tagByte decodeNhc bytes
  | .oper => tagHalf decodeOper bytes
  | .protocol => tagByte decodeProtocol bytes
  | .nextHeader => tagByte decodeNextHeader bytes
  | .icmp4 => tagHalf decodeIcmp4 bytes
  | .icmp6 => tagHalf decodeIcmp6 bytes
  | .dport port => tagHalf (decodeDport port) bytes
  | .coap t known => tagByte (decodeCoap t known) bytes

/-! ## Encoding -/

/-- The selector under which an operation is read (for a CoAP row, one message type and path it is taken
for), when `CFG_COAP_PORT = port`. -/
def selectorOf (port : Half) : Instr → Selector
  | .rxAccept len => .rxGo len
  | .txTake => .txTake
  | .ethParse => .entry .eth
  | .mac154Parse => .entry .mac154
  | .lowpanParse => .entry .lowpan
  | .arpParse => .entry .arp
  | .ip4Parse => .entry .ipv4
  | .ip6Parse => .entry .ipv6
  | .icmp4Parse => .entry .icmp4
  | .icmp6Parse => .entry .icmp6
  | .udpParse => .entry .udp
  | .coapParse => .entry .coap
  | .build => .entry .build
  | .ethArp | .ethIpv4 | .ethIpv6 | .ethOther _ => .ethertype
  | .mac154Data | .mac154Other _ => .ftype
  | .lowpanIphc _ _ _ | .lowpanOther _ => .dispatch
  | .nhcUdp _ _ | .nhcOther _ => .nhc
  | .arpRequest | .arpReply | .arpOther _ => .oper
  | .ip4Icmp | .ip4Udp | .ip4Other _ => .protocol
  | .ip6Icmp6 | .ip6Udp | .ip6Other _ => .nextHeader
  | .icmp4Echo | .icmp4Other _ => .icmp4
  | .icmp6Echo | .icmp6Ns | .icmp6Other _ => .icmp6
  | .udpCoap | .udpEcho _ => .dport port
  | .coapGetLed | .coapPutLed | .coapNotAllowed _ => .coap 0#2 true
  | .coapNotFound _ => .coap 0#2 false
  | .coapOther _ => .coap 2#2 false

/-- The tag bytes of an operation, as they stand in the frame (R60, R127). -/
def encode (port : Half) : Instr → List Byte
  | .ethArp => toBE 2 0x0806#16
  | .ethIpv4 => toBE 2 0x0800#16
  | .ethIpv6 => toBE 2 0x86DD#16
  | .ethOther e => toBE 2 e
  | .mac154Data => [1#8]
  | .mac154Other f => [f.setWidth 8]
  | .lowpanIphc tf nh hlim => [0b011#3 ++ tf ++ nh ++ hlim]
  | .lowpanOther d => [d]
  | .nhcUdp c p => [0b11110#5 ++ c ++ p]
  | .nhcOther c => [c]
  | .arpRequest => toBE 2 1#16
  | .arpReply => toBE 2 2#16
  | .arpOther o => toBE 2 o
  | .ip4Icmp => [1#8]
  | .ip4Udp => [17#8]
  | .ip4Other p => [p]
  | .ip6Icmp6 => [58#8]
  | .ip6Udp => [17#8]
  | .ip6Other n => [n]
  | .icmp4Echo => toBE 2 0x0800#16
  | .icmp4Other t => toBE 2 t
  | .icmp6Echo => toBE 2 0x8000#16
  | .icmp6Ns => toBE 2 0x8700#16
  | .icmp6Other t => toBE 2 t
  | .udpCoap => toBE 2 port
  | .udpEcho d => toBE 2 d
  | .coapGetLed => [1#8]
  | .coapPutLed => [3#8]
  | .coapNotFound c | .coapNotAllowed c | .coapOther c => [c]
  | .rxAccept _ | .txTake | .ethParse | .mac154Parse | .lowpanParse | .arpParse | .ip4Parse | .ip6Parse
  | .icmp4Parse | .icmp6Parse | .udpParse | .coapParse | .build => []

/-! ## The table's words without their stage -/

/-- `true` for a default row of the table. -/
def Instr.isDefaultRow : Instr → Bool
  | .ethOther _ | .mac154Other _ | .lowpanOther _ | .nhcOther _ | .arpOther _ | .ip4Other _ | .ip6Other _
  | .icmp4Other _ | .icmp6Other _ | .udpEcho _ | .coapOther _ => true
  | _ => false

/-- The selectors whose tag is a table word of `nbits` bits, in the table's order. A table word does not say
which stage reads it (DESIGN CHOICE, log 13): a word that is listed for several stages is taken for the first. -/
def tableSelectors (nbits w : Nat) : List Selector :=
  if nbits = 0 then [.rxGo 0#16]
  else if nbits ≤ 8 then
    (if w < 8 then [.ftype] else []) ++ [.dispatch, .nhc, .protocol, .nextHeader, .coap 0#2 (w == 1 || w == 3), .coap 0#2 true]
  else [.ethertype, .oper, .icmp4, .icmp6, .dport 5683#16]

/-- The bytes of a table word: the tag is one number, its most significant byte first in the frame. -/
def tableBytes (nbits w : Nat) : List Byte :=
  if nbits = 0 then [] else if nbits ≤ 8 then bytesBE 1 w else bytesBE 2 w

/-- The operation the decoder reads from a table word: in table order the first row that names the word
itself, else the first default row. -/
def decodeTableWord (nbits w : Nat) : Option Instr :=
  let read := (tableSelectors nbits w).filterMap fun sel => (decode sel (tableBytes nbits w)).toOption
  (read.find? fun i => !i.isDefaultRow) <|> read.head?

end Sys2Proof
end

