-- ==== Sys2Proof/Config.lean ====
section
/-! DEFINITION. Parameters, configuration straps and the free values of the model
(spec/00_scope.md R7, R8; spec/10_state.md R28). -/

namespace Sys2Proof

/-- Which link framer the instance has: `LINK` (R7, R28; the register's code is 0 `ETH`, 1 `LOWPAN`). -/
inductive Link
  | eth
  | lowpan
  deriving DecidableEq, Repr, Inhabited

/-- A link-layer address (R16, R22): a tagged value, the number formed by its bytes in canonical
most-significant-first order. -/
inductive LlAddr
  | mac48 (m : BitVec 48)
  | short (s : BitVec 16)
  | ext (e : BitVec 64)
  deriving DecidableEq, Repr, Inhabited

/-- The kind of link-layer address a link uses (R22): `MAC48` when `LINK = ETH`, `SHORT` or `EXT` when
`LINK = LOWPAN`. -/
def LlAddr.fits : LlAddr → Link → Bool
  | .mac48 _, .eth => true
  | .short _, .lowpan => true
  | .ext _, .lowpan => true
  | _, _ => false

/-- The configuration straps, latched into read-only registers at reset (R28). -/
structure Straps where
  link : Link
  mac : BitVec 48
  ipv4 : BitVec 32
  ipv6 : BitVec 128
  ext : BitVec 64
  coapPort : Half
  deriving DecidableEq, Repr, Inhabited

/-- The capacities of the instance, fixed when it is built (R7). -/
structure Params where
  bufCap : Nat
  arpCap : Nat
  nbrCap : Nat
  deriving DecidableEq, Repr, Inhabited

/-- The range R7 gives each capacity. -/
abbrev Params.ok (p : Params) : Prop :=
  128 ≤ p.bufCap ∧ p.bufCap ≤ 65535 ∧ 1 ≤ p.arpCap ∧ 1 ≤ p.nbrCap

namespace Config

/-- DESIGN CHOICE (log 1), unsafe: the strap values `State.reset` latches are OPEN in the spec; these are
fixture E of spec/95_test_vectors.md section 2. -/
def straps : Straps where
  link := .eth
  mac := 0x201803010000#48
  ipv4 := 0xC0A80121#32
  ipv6 := 0xFE80000000000000221803FFFE010000#128
  ext := 0x0102030405060708#64
  coapPort := 5683#16

/-- DESIGN CHOICE (log 1), unsafe: the capacities of `State.reset` are OPEN; these are the suggested ones. -/
def params : Params where
  bufCap := 1514
  arpCap := 8
  nbrCap := 8

/-- FREE VALUE (log 2): what a byte of `BUF` with no specified value holds, by epoch and address (R50, R66). -/
opaque freeBuf : Nat → Nat → Byte

/-- FREE VALUE (log 3): what a byte of `SCRATCH` with no specified value holds, by epoch and address (R50). -/
opaque freeScratch : Nat → Nat → Byte

/-- FREE VALUE (log 15): a 16-bit working register after an abort, by epoch and register (R436). -/
opaque freeHalf : Nat → Nat → Half

/-- FREE VALUE (log 15): a link-layer address latch after an abort, by epoch and register (R436). -/
opaque freeLl : Nat → Nat → LlAddr

/-- FREE VALUE (log 14): the interface identifier of a `MAC48`, which R136 does not define. -/
opaque freeIid : BitVec 48 → BitVec 64

/-- FREE VALUE (log 14): `mac(a)` of R407 for an address that is no `MAC48`, which the spec does not define. -/
opaque freeMac : LlAddr → BitVec 48

end Config

end Sys2Proof
end

