-- ==== Sys2Proof/Machine/State.lean ====
section
/-! DEFINITION. The state of one instance (spec/10_state.md R20), its reset value (R50), and the reasons a
step of the model can stop. -/

namespace Sys2Proof.Machine

/-- `OUTCOME` (R26): code 3 has no constructor. -/
inductive FrameOutcome
  | none
  | sent
  | dropped
  deriving DecidableEq, Repr, Inhabited

/-- `CAUSE` (R26, R421): codes 9 to 15 have no constructor; `none` is code 0. -/
inductive Cause
  | none
  | truncated
  | badLength
  | badVersion
  | unsupported
  | badChecksum
  | notForUs
  | noSpace
  | consumed
  deriving DecidableEq, Repr, Inhabited

/-- An event of the log port (R446). -/
inductive Event
  | valid (stage : Stage)
  | cache (stage : Stage)
  | send (stage : Stage) (n : Half)
  | drop (stage : Stage) (cause : Cause)
  deriving DecidableEq, Repr, Inhabited

/-- What the host presents at the input ports of R391 (DESIGN CHOICE, log 9). -/
inductive HostInput
  /-- `rst` with the configuration straps it samples (R460, R28). -/
  | reset (straps : Straps)
  /-- `buf_we` with `buf_addr` and `buf_wdata` (R391, R470). -/
  | bufWrite (addr : Half) (data : Byte)
  /-- The lines `link_fault`, `rx_go` with `rx_len`, `tx_take` as sampled together (R434, R435). With none
  asserted it is a look at the ports that finds nothing. -/
  | lines (linkFault : Bool) (rxGo : Option Half) (txTake : Bool)
  deriving DecidableEq, Repr, Inhabited

/-- Which operation of the stage comes next (DESIGN CHOICE, log 8). -/
inductive Phase
  /-- The entry operation. -/
  | entry
  /-- The operation the stage's tag selects. -/
  | dispatch
  /-- Stage `LOWPAN` only: the operation the NHC byte selects. -/
  | nhc
  deriving DecidableEq, Repr, Inhabited

/-! ## The parse records (R14, R47) -/

/-- `eth` (R91, R171). -/
structure EthRec where
  dst : BitVec 48
  src : BitVec 48
  ethertype : Half
  deriving DecidableEq, Repr, Inhabited

/-- `mac` (R126, R127, R176). -/
structure MacRec where
  fcf : Half
  seq : Byte
  deriving DecidableEq, Repr, Inhabited

/-- `arp` (R93, R191). -/
structure ArpRec where
  htype : Half
  ptype : Half
  hlen : Byte
  plen : Byte
  oper : Half
  sha : BitVec 48
  spa : BitVec 32
  tha : BitVec 48
  tpa : BitVec 32
  deriving DecidableEq, Repr, Inhabited

/-- `ip4` (R95, R211); `header` is all `4*ihl` bytes, kept for the reply. -/
structure Ip4Rec where
  version : BitVec 4
  ihl : BitVec 4
  totalLength : Half
  header : List Byte
  protocol : Byte
  src : BitVec 32
  dst : BitVec 32
  deriving DecidableEq, Repr, Inhabited

/-- `ip6` and the IPv6 header record of a response (R106, R107, R238). -/
structure Ip6Rec where
  tc : Byte
  fl : BitVec 20
  plen : Half
  nh : Byte
  hlim : Byte
  src : BitVec 128
  dst : BitVec 128
  deriving DecidableEq, Repr, Inhabited

/-- `udp` (R118, R281). -/
structure UdpRec where
  sport : Half
  dport : Half
  length : Half
  checksum : Half
  payload : List Byte
  deriving DecidableEq, Repr, Inhabited

/-- `coap` (R120, R352, R353); `segs` are the Uri-Path values. -/
structure CoapRec where
  ver : BitVec 2
  t : BitVec 2
  tkl : BitVec 4
  code : Byte
  mid : Half
  token : List Byte
  segs : List (List Byte)
  payload : List Byte
  deriving DecidableEq, Repr, Inhabited

/-- `iphc` (R131, R304 to R311): the tags of the stage, the reconstructed fields and the cursor `o`. -/
structure IphcRec where
  dispatch : Byte
  nhc : Byte
  tc : Byte
  fl : BitVec 20
  nh : Byte
  hlim : Byte
  src : BitVec 128
  dst : BitVec 128
  o : Nat
  deriving DecidableEq, Repr, Inhabited

/-- The network context of the `UDP` and `COAP` stages (R215, R236). -/
inductive Net
  | ip4
  | ip6
  deriving DecidableEq, Repr, Inhabited

/-- The response records (R406). -/
inductive Resp
  | arp (ip : BitVec 32) (pkt : List Byte)
  | ip4 (pkt : List Byte)
  | ip6 (r : Ip6Rec) (upper : List Byte)
  deriving DecidableEq, Repr, Inhabited

/-- What the pipeline holds of the layers already validated (R47). -/
structure Records where
  eth : EthRec
  mac : MacRec
  arp : ArpRec
  ip4 : Ip4Rec
  ip6 : Ip6Rec
  /-- The type and code of the `ICMP4` or `ICMP6` stage (R251, R257). -/
  icmp : Half
  udp : UdpRec
  coap : CoapRec
  iphc : IphcRec
  net : Net
  /-- `udp_nhc` of R312, R318. -/
  udpNhc : Bool
  /-- The response record `BUILD` serialises (R406). -/
  resp : Option Resp
  /-- The stage whose operation executed `STAGE <- BUILD` (R402). -/
  hstage : Stage
  deriving DecidableEq, Repr, Inhabited

/-- No layer is validated yet. R47 gives no values: DESIGN CHOICE (log 7), all zero and empty; safe, because
each record is written before it is read (R474). -/
def Records.empty : Records where
  eth := ⟨0, 0, 0⟩
  mac := ⟨0, 0⟩
  arp := ⟨0, 0, 0, 0, 0, 0, 0, 0, 0⟩
  ip4 := ⟨0, 0, 0, [], 0, 0, 0⟩
  ip6 := ⟨0, 0, 0, 0, 0, 0, 0⟩
  icmp := 0
  udp := ⟨0, 0, 0, 0, []⟩
  coap := ⟨0, 0, 0, 0, 0, [], [], []⟩
  iphc := ⟨0, 0, 0, 0, 0, 0, 0, 0, 0⟩
  net := .ip4
  udpNhc := false
  resp := Option.none
  hstage := .idle

/-- The state of one instance: the components of R20, the records of R47, and the model's own fields
`phase`, `host`, `log`, `epoch` and `scratchEpoch` (logs 8, 9, 11, 2, 3). -/
structure State where
  /-- `BUF`: the bytes with a specified value, addresses strictly rising. An address that is not listed
  holds an unspecified value (R50, R66). -/
  mem : List Host.Cell
  rxlen : Half
  txlen : Half
  stage : Stage
  vbase : Half
  vlen : Half
  llSrc : LlAddr
  llDst : LlAddr
  panSrc : Half
  panDst : Half
  outcome : FrameOutcome
  cause : Cause
  cstage : Stage
  /-- `FAULT` (R27): bit 0 `FATAL_IO`, bit 1 `INVARIANT`. -/
  fault : BitVec 2
  led : Bool
  dsn : Byte
  /-- `ARP` (R40, R43), most recently updated first. -/
  arp : List (BitVec 32 × BitVec 48)
  /-- `NBR` (R40, R44), most recently updated first. -/
  nbr : List (BitVec 128 × LlAddr)
  /-- `SCRATCH` (R45), in the form of `mem`. -/
  scratch : List Host.Cell
  /-- The configuration registers (R28). -/
  cfg : Straps
  /-- The capacities of the instance (R7). -/
  par : Params
  latched : Records
  /-- MODEL: which operation of the stage comes next (log 8). -/
  phase : Phase
  /-- MODEL: the input samples the host will present, soonest first (log 9). -/
  host : List HostInput
  /-- MODEL: the events emitted, oldest first (R446, log 11). -/
  log : List Event
  /-- MODEL: how often the contents of `BUF` became unspecified; the free values depend on it (log 2). -/
  epoch : Nat
  /-- MODEL: the same for `SCRATCH` (log 3). -/
  scratchEpoch : Nat
  deriving DecidableEq, Repr, Inhabited

/-- Why the model stops where the spec has no next state. -/
inductive Fault
  /-- Raised by `GET`, `SET` and the host's access to `BUF` for an address at or above `BUF_CAP`, which does
  not exist (R46). Safe: the spec gives such an access no effect; the pipeline never makes one (R476). -/
  | noSuchAddress
  /-- Raised by `BUILD` for a link and a response record that R407 has no case for, or with no response
  record. Safe: R406 says it does not occur. -/
  | noBuildCase
  deriving DecidableEq, Repr, Inhabited

/-- Why the model has no meaning for what is asked of it. -/
inductive Refusal
  /-- Raised by an arm of `exec` whose operation has no meaning yet. Safe. -/
  | notModelled (mnemonic : String)
  /-- Raised by a host write to `BUF` while `STAGE` is not `IDLE`: "a contract violation whose result is
  unspecified (treat as `refuse` ...)" (R470). Safe. -/
  | hostWriteWindow
  /-- Raised by a step whose fetched bytes the decoder rejects; the fetch never produces such bytes. Safe. -/
  | undecodable
  deriving DecidableEq, Repr, Inhabited

/-- The all-zero link-layer address of the kind a link uses (R22; DESIGN CHOICE, log 4). -/
def resetLl : Link → LlAddr
  | .eth => .mac48 0#48
  | .lowpan => .ext 0#64

/-- The machine right after reset, for given capacities and straps (R50, R460). The latches `LL_SRC`,
`LL_DST`, `PAN_SRC`, `PAN_DST` are unspecified there: DESIGN CHOICE zero (log 4), unsafe. `BUF` and `SCRATCH`
are unspecified: nothing is listed (logs 2 and 3). -/
def State.resetWith (par : Params) (straps : Straps) : State where
  mem := []
  rxlen := 0#16
  txlen := 0#16
  stage := .idle
  vbase := 0#16
  vlen := 0#16
  llSrc := resetLl straps.link
  llDst := resetLl straps.link
  panSrc := 0#16
  panDst := 0#16
  outcome := .none
  cause := .none
  cstage := .idle
  fault := 0#2
  led := false
  dsn := 0#8
  arp := []
  nbr := []
  scratch := []
  cfg := straps
  par := par
  latched := Records.empty
  phase := .entry
  host := []
  log := []
  epoch := 0
  scratchEpoch := 0

/-- The machine right after reset (R50), with the straps and capacities of log 1. -/
def State.reset : State := State.resetWith Config.params Config.straps

end Sys2Proof.Machine
end

