-- ==== Sys2Proof/Machine/Flags.lean ====
section
/-! DEFINITION. The Internet checksum (spec/40_view.md R156, R157), the status and fault registers
(spec/10_state.md R26, R27) and the codes their names stand for (R24, R26, R421, R446). -/

namespace Sys2Proof.Machine

/-! ## The Internet checksum -/

/-- The sum of the 16-bit big-endian words, an odd last byte padded on the right with zero (R156). -/
def wordSum : List Byte → Nat
  | [] => 0
  | [a] => 256 * a.toNat
  | a :: b :: s => 256 * a.toNat + b.toNat + wordSum s

/-- The end-around carry of R156; the first argument bounds the number of rounds. -/
def foldCarry : Nat → Nat → Nat
  | 0, t => t
  | n + 1, t => if t ≤ 0xFFFF then t else foldCarry n (t % 65536 + t / 65536)

/-- `ones_sum(s)` of R156. -/
def onesSum (s : List Byte) : Nat := foldCarry (wordSum s) (wordSum s)

/-- `cksum_ok(s)` of R157: the folded sum, checksum field included, is all ones. -/
def cksumOk (s : List Byte) : Bool := onesSum s = 0xFFFF

/-- `cksum_make(s0)` of R157. -/
def cksumMake (s0 : List Byte) : Nat := 0xFFFF - onesSum s0

/-- The string with its two-byte checksum field at `off`, zero before, set to `cksum_make` (R157). -/
def withCksum (s0 : List Byte) (off : Nat) : List Byte := patch s0 off (bytesBE 2 (cksumMake s0))

/-! ## Codes -/

/-- The code of a stage (R24). -/
def stageCode : Stage → BitVec 4
  | .idle => 0#4
  | .eth => 1#4
  | .mac154 => 2#4
  | .arp => 3#4
  | .ipv4 => 4#4
  | .ipv6 => 5#4
  | .icmp4 => 6#4
  | .icmp6 => 7#4
  | .udp => 8#4
  | .coap => 9#4
  | .lowpan => 10#4
  | .build => 11#4
  | .txPending => 12#4
  | .haltFatal => 14#4
  | .haltAbort => 15#4

/-- The code of a cause (R421). -/
def causeCode : Cause → BitVec 4
  | .none => 0#4
  | .truncated => 1#4
  | .badLength => 2#4
  | .badVersion => 3#4
  | .unsupported => 4#4
  | .badChecksum => 5#4
  | .notForUs => 6#4
  | .noSpace => 7#4
  | .consumed => 8#4

/-- The code of an outcome (R26). -/
def outcomeCode : FrameOutcome → BitVec 2
  | .none => 0#2
  | .sent => 1#2
  | .dropped => 2#2

/-- The triple `(kind, stage, arg)` of an event on the log port (R446). -/
def eventCode : Event → BitVec 2 × BitVec 4 × Half
  | .valid st => (0#2, stageCode st, 0#16)
  | .cache st => (1#2, stageCode st, 0#16)
  | .send st n => (2#2, stageCode st, n)
  | .drop st c => (3#2, stageCode st, (causeCode c).setWidth 16)

/-- A stage of a run: codes 1 to 11 (R401, R405). In the others the block waits for the host or is halted. -/
def stageRuns : Stage → Bool
  | .idle | .txPending | .haltFatal | .haltAbort => false
  | .eth | .mac154 | .arp | .ipv4 | .ipv6 | .icmp4 | .icmp6 | .udp | .coap | .lowpan | .build => true

/-! ## Status registers -/

/-- `OUTCOME`, `CAUSE`, `CSTAGE` at the end of a frame (R26). -/
def State.setStatus (o : FrameOutcome) (c : Cause) (st : Stage) (s : State) : State :=
  { s with outcome := o, cause := c, cstage := st }

/-- `FAULT.FATAL_IO <- 1` (R27, R434). -/
def State.setFatalIo (s : State) : State := { s with fault := s.fault ||| 1#2 }

/-- `FAULT.INVARIANT <- 1` (R27, R436). -/
def State.setInvariant (s : State) : State := { s with fault := s.fault ||| 2#2 }

end Sys2Proof.Machine
end

