-- ==== Sys2Proof/Machine/Ops.lean ====
section
/-! DEFINITION. The named operations over memory, caches, `STAGE` and the log port, and the exceptions of the
block: the drop, the abort, the fatal I/O error and reset (spec/60_exceptions.md, spec/10_state.md,
spec/70_reset_and_hazards.md). -/

namespace Sys2Proof.Machine

/-- What one operation answers. -/
abbrev Out := Host.Outcome State Fault Refusal

/-! ## Memory -/

/-- The specified value at an address, if there is one. -/
def memFind (a : Nat) : List Host.Cell → Option Byte
  | [] => none
  | c :: m => if c.1 = a then some c.2 else memFind a m

/-- Store one byte, keeping the addresses strictly rising. -/
def memWrite (a : Nat) (b : Byte) : List Host.Cell → List Host.Cell
  | [] => [(a, b)]
  | c :: m =>
    if a < c.1 then (a, b) :: c :: m
    else if a = c.1 then (a, b) :: m
    else c :: memWrite a b m

/-- `MemWrite(addr, n, v)` of R12: store a byte string from an address upwards. -/
def memWriteBytes : Nat → List Byte → List Host.Cell → List Host.Cell
  | _, [], m => m
  | a, b :: bs, m => memWriteBytes (a + 1) bs (memWrite a b m)

/-- The canonical form of a memory: addresses strictly rising. An unlisted address holds an unspecified value
(R50, R66), which no entry is known to equal. -/
abbrev Memory.wf (m : List Host.Cell) : Prop := m.Pairwise fun x y => x.1 < y.1

/-- Every listed address exists in a memory of `cap` bytes. -/
abbrev Memory.within (cap : Nat) (m : List Host.Cell) : Prop := ∀ c ∈ m, c.1 < cap

/-- One byte of `BUF`; a byte with no specified value is a free value (log 2). -/
def State.readBuf (s : State) (a : Nat) : Byte :=
  (memFind a s.mem).getD (Config.freeBuf s.epoch a)

/-- `MemRead(addr, n)` of R12. -/
def State.memRead (s : State) : Nat → Nat → List Byte
  | _, 0 => []
  | a, n + 1 => s.readBuf a :: s.memRead (a + 1) n

/-- One byte of `SCRATCH`; a byte with no specified value is a free value (log 3). -/
def State.readScratch (s : State) (a : Nat) : Byte :=
  (memFind a s.scratch).getD (Config.freeScratch s.scratchEpoch a)

/-- `SCRATCH[a..a+n)` (R45). -/
def State.scratchRead (s : State) : Nat → Nat → List Byte
  | _, 0 => []
  | a, n + 1 => s.readScratch a :: s.scratchRead (a + 1) n

/-- `SCRATCH[a..a+|v|) <- v` (R45). -/
def State.scratchWrite (a : Nat) (v : List Byte) (s : State) : State :=
  { s with scratch := memWriteBytes a v s.scratch }

/-- R66: once a frame has been processed, every byte of `BUF` at or above `keep` is unspecified (log 5). -/
def State.forgetBuf (keep : Nat) (s : State) : State :=
  { s with mem := s.mem.filter fun c => c.1 < keep, epoch := s.epoch + 1 }

/-! ## Caches -/

/-- `E` without the entry whose key is `k` (R41). -/
def cacheRemove {K V : Type} [DecidableEq K] (k : K) : List (K × V) → List (K × V)
  | [] => []
  | e :: es => if e.1 = k then es else e :: cacheRemove k es

/-- `cache.lookup(k)` (R42). -/
def cacheLookup {K V : Type} [DecidableEq K] (k : K) : List (K × V) → Option V
  | [] => none
  | e :: es => if e.1 = k then some e.2 else cacheLookup k es

/-- `cache.insert(k, v)` of a cache of capacity `cap` (R41). -/
def cacheInsert {K V : Type} [DecidableEq K] (cap : Nat) (k : K) (v : V) (es : List (K × V)) : List (K × V) :=
  if (cacheLookup k es).isSome then (k, v) :: cacheRemove k es
  else if es.length < cap then (k, v) :: es
  else (k, v) :: es.take (cap - 1)

/-! ## Stage and log port -/

/-- `emit(ev)` (R14, R446). -/
def State.emit (ev : Event) (s : State) : State := { s with log := s.log ++ [ev] }

/-- `STAGE <- st`; the stage's entry operation comes next. -/
def State.goto (st : Stage) (s : State) : State := { s with stage := st, phase := .entry }

/-- "dispatch on ...": the operation the stage's tag selects comes next (R141). -/
def State.toDispatch (s : State) : State := { s with phase := .dispatch }

/-- Latch a parse record (R47). -/
def State.latch (f : Records → Records) (s : State) : State := { s with latched := f s.latched }

/-- The parse records "are discarded when `STAGE` returns to `IDLE`" (R47). -/
def State.toIdle (s : State) : State := { s.goto .idle with latched := Records.empty }

/-! ## Exceptions -/

/-- `raise Drop(stage, cause)`: the trap entry of R424. The received frame is not preserved (R66, R423). There
is no return from it: the block is back in `IDLE` and the next `RX_ACCEPT` is the return (R437). -/
def State.raiseDrop (st : Stage) (c : Cause) (s : State) : State :=
  let s := s.setStatus .dropped c st
  let s := s.emit (.drop st c)
  let s := { s with txlen := 0#16 }
  s.toIdle.forgetBuf 0

/-- A drop as an operation's answer. -/
def State.drop (st : Stage) (c : Cause) (s : State) : Out := .next (s.raiseDrop st c)

/-- `raise Abort` (R436): `BUF`, the working registers and `SCRATCH` are unspecified afterwards, so they take
free values (log 15); every other register keeps its value. -/
def State.raiseAbort (s : State) : State :=
  let s := (s.setInvariant.goto .haltAbort).forgetBuf 0
  { s with
    vbase := Config.freeHalf s.epoch 0
    vlen := Config.freeHalf s.epoch 1
    panSrc := Config.freeHalf s.epoch 2
    panDst := Config.freeHalf s.epoch 3
    llSrc := Config.freeLl s.epoch 0
    llDst := Config.freeLl s.epoch 1
    scratch := []
    scratchEpoch := s.scratchEpoch + 1 }

/-- The fatal I/O error (R434), taken in `IDLE` or `TX_PENDING` only. -/
def State.raiseFatal (s : State) : State := s.setFatalIo.goto .haltFatal

/-- Reset in any stage (R460): the state of R50 with the straps sampled at the pins. The capacities are the
instance's; the log sink and the host's later samples are outside the block and stay; the epochs move on, so
that nothing is said about unspecified bytes across a reset (log 20). -/
def State.hardReset (straps : Straps) (later : List HostInput) (s : State) : State :=
  { State.resetWith s.par straps with
    host := later
    log := s.log
    epoch := s.epoch + 1
    scratchEpoch := s.scratchEpoch + 1 }

/-- The end of a frame with a response (R402); bytes of `BUF` outside it are unspecified (R66). -/
def State.finishSent (hstage : Stage) (s : State) : State :=
  let s := s.setStatus .sent .none hstage
  let s := s.emit (.send hstage s.txlen)
  (s.goto .txPending).forgetBuf s.txlen.toNat

/-- A handler's `STAGE <- BUILD` with its response record (R406); `hstage` is the handler's stage (R402). -/
def State.respond (hstage : Stage) (r : Resp) (s : State) : State :=
  (s.latch fun l => { l with resp := some r, hstage := hstage }).goto .build

end Sys2Proof.Machine
end

