-- ==== Sys2Proof/Machine/Operands.lean ====
section
/-! DEFINITION. How an operation reaches its operands: the Packet View micro-operations `NARROW`, `GET`,
`SET` (spec/40_view.md R151 to R153), the upper-layer message `U` (spec/44_ipv6.md R232) and the interface
identifier of an address (spec/30_encoding.md R136). Each takes the rest of the operation as its last
argument, since it may end the operation itself. -/

namespace Sys2Proof.Machine

/-- `NARROW(off, len)` (R151). -/
def State.narrow (s : State) (off len : Nat) (k : State → Out) : Out :=
  if off + len ≤ s.vlen.toNat then
    k { s with vbase := BitVec.ofNat 16 (s.vbase.toNat + off), vlen := BitVec.ofNat 16 len }
  else s.drop s.stage .truncated

/-- `GET(off, n)` (R152): `Abort` when the bound of R72 fails. An address at or above `BUF_CAP` does not exist
(R46); the view never reaches one (R21). -/
def State.get (s : State) (off n : Nat) (k : List Byte → Out) : Out :=
  if off + n ≤ s.vlen.toNat then
    if s.vbase.toNat + off + n ≤ s.par.bufCap then k (s.memRead (s.vbase.toNat + off) n)
    else .fault .noSuchAddress
  else .next s.raiseAbort

/-- `SET(off, |v|, v)` (R153), with the same checks as `GET`. -/
def State.set (s : State) (off : Nat) (v : List Byte) (k : State → Out) : Out :=
  if off + v.length ≤ s.vlen.toNat then
    if s.vbase.toNat + off + v.length ≤ s.par.bufCap then
      k { s with mem := memWriteBytes (s.vbase.toNat + off) v s.mem }
    else .fault .noSuchAddress
  else .next s.raiseAbort

/-- All bytes of the current view. -/
def State.getView (s : State) (k : List Byte → Out) : Out := s.get 0 s.vlen.toNat k

/-- The upper-layer message `U` (R232): with UDP next-header compression the reconstructed UDP header comes
from `SCRATCH[40..48)`, the rest from the view. -/
def State.getUpper (s : State) (k : List Byte → Out) : Out :=
  s.getView fun v =>
    if s.cfg.link = .lowpan ∧ s.latched.udpNhc then k (s.scratchRead 40 8 ++ v) else k v

/-- The bytes of a link-layer address in canonical order (R16, R128). -/
def llBytes : LlAddr → List Byte
  | .mac48 m => toBE 6 m
  | .short a => toBE 2 a
  | .ext e => toBE 8 e

/-- The prefix of an interface identifier made from a short address (R136). -/
def shortIidPrefix : List Byte := [0x00#8, 0x00#8, 0x00#8, 0xFF#8, 0xFE#8, 0x00#8]

/-- `iid(a)` of R136. A `MAC48` has none: a free value (log 14). -/
def iid : LlAddr → List Byte
  | .ext e => toBE 8 (e ^^^ 0x0200000000000000#64)
  | .short a => shortIidPrefix ++ toBE 2 a
  | .mac48 m => toBE 8 (Config.freeIid m)

/-- The link-local prefix `P` of R134. -/
def linkLocalPrefix : List Byte := [0xFE#8, 0x80#8, 0#8, 0#8, 0#8, 0#8, 0#8, 0#8]

end Sys2Proof.Machine
end

