-- ==== Sys2Proof/Machine/Ipv4.lean ====
section
/-! DEFINITION. The IPv4 header parser, validator and builder (spec/43_ipv4.md). -/

namespace Sys2Proof.Machine

/-- `hl = 4 * ihl` of a parsed header (R211). -/
def Ip4Rec.hl (h : Ip4Rec) : Nat := 4 * h.ihl.toNat

/-- `IP4.PARSE` (R211), the checks in its order. -/
def execIp4Parse (s : State) : Out :=
  if s.vlen.toNat < 20 then s.drop .ipv4 .truncated
  else
    s.get 0 1 fun b0 =>
    let version : BitVec 4 := (ofBE 8 b0).extractLsb' 4 4
    let ihl : BitVec 4 := (ofBE 8 b0).extractLsb' 0 4
    let hl := 4 * ihl.toNat
    if version ≠ 4#4 then s.drop .ipv4 .badVersion
    else if ihl.toNat < 5 then s.drop .ipv4 .badLength
    else if s.vlen.toNat < hl then s.drop .ipv4 .badLength
    else
      s.get 2 2 fun total =>
      let totalLength := ofBE 16 total
      if s.vlen.toNat < totalLength.toNat then s.drop .ipv4 .badLength
      else if totalLength.toNat < hl then s.drop .ipv4 .badLength
      else
        s.get 0 hl fun header =>
        if onesSum header ≠ 0xFFFF then s.drop .ipv4 .badChecksum
        else
          s.get 9 1 fun protocol =>
          s.get 12 4 fun src =>
          s.get 16 4 fun dst =>
          if ofBE 32 dst ≠ s.cfg.ipv4 then s.drop .ipv4 .notForUs
          else
            .next (s.latch fun l => { l with
              ip4 := ⟨version, ihl, totalLength, header, ofBE 8 protocol, ofBE 32 src, ofBE 32 dst⟩ }).toDispatch

/-- The common part of R214 and R215: the view becomes exactly the IPv4 payload. -/
def ip4HandOver (next : Stage) (s : State) : Out :=
  let h := s.latched.ip4
  (s.emit (.valid .ipv4)).narrow h.hl (h.totalLength.toNat - h.hl) fun s => .next (s.goto next)

/-- `IP4.ICMP` (R214). -/
def execIp4Icmp (s : State) : Out := ip4HandOver .icmp4 s

/-- `IP4.UDP` (R215), with the network context `net = IP4`. -/
def execIp4Udp (s : State) : Out := ip4HandOver .udp (s.latch fun l => { l with net := .ip4 })

/-- `IP4.OTHER` (R216): whatever the protocol. -/
def execIp4Other (_protocol : Byte) (s : State) : Out := s.drop .ipv4 .unsupported

/-- The reply's header of R218 with its checksum field zero. -/
def ip4ReplyHeader (h : Ip4Rec) (payloadLen : Nat) : List Byte :=
  let x := patch h.header 2 (bytesBE 2 (h.hl + payloadLen))
  let x := patch x 8 [64#8]
  let x := patch x 10 [0#8, 0#8]
  let x := patch x 12 (toBE 4 h.dst)
  patch x 16 (toBE 4 h.src)

/-- `ip4_reply(payload)` (R218). -/
def ip4Reply (h : Ip4Rec) (payload : List Byte) : List Byte :=
  withCksum (ip4ReplyHeader h payload.length) 10 ++ payload

end Sys2Proof.Machine
end

