-- ==== Sys2Proof/Machine/Ipv6.lean ====
section
/-! DEFINITION. The IPv6 header parser and builder, and the neighbour cache update (spec/44_ipv6.md). -/

namespace Sys2Proof.Machine

/-- The version field of an IPv6 header (R107). -/
def ip6Version (h : List Byte) : BitVec 4 := (ofBE 32 (slice h 0 4)).extractLsb' 28 4

/-- The field extraction of R231 (R106, R107). -/
def ip6Fields (h : List Byte) : Ip6Rec :=
  let w := ofBE 32 (slice h 0 4)
  { tc := w.extractLsb' 20 8
    fl := w.extractLsb' 0 20
    plen := ofBE 16 (slice h 4 6)
    nh := byteAt h 6
    hlim := byteAt h 7
    src := ofBE 128 (slice h 8 24)
    dst := ofBE 128 (slice h 24 40) }

/-- `ip6_bytes(r)` (R239, R107). -/
def ip6Bytes (r : Ip6Rec) : List Byte :=
  bytesBE 4 (6 * 2 ^ 28 + r.tc.toNat * 2 ^ 20 + r.fl.toNat) ++ toBE 2 r.plen ++ [r.nh] ++ [r.hlim]
    ++ toBE 16 r.src ++ toBE 16 r.dst

/-- `nbr_learn` (R233). -/
def State.nbrLearn (s : State) : State :=
  ({ s with nbr := cacheInsert s.par.nbrCap s.latched.ip6.src s.llSrc s.nbr }).emit (.cache .ipv6)

/-- `IP6.PARSE` (R231). -/
def execIp6Parse (s : State) : Out :=
  match s.cfg.link with
  | .eth =>
    if s.vlen.toNat < 40 then s.drop .ipv6 .truncated
    else
      s.get 0 40 fun h =>
      let r := ip6Fields h
      if ip6Version h ≠ 6#4 then s.drop .ipv6 .badVersion
      else if s.vlen.toNat - 40 < r.plen.toNat then s.drop .ipv6 .badLength
      else
        s.narrow 40 r.plen.toNat fun s =>
        .next (s.latch fun l => { l with ip6 := r }).nbrLearn.toDispatch
  | .lowpan =>
    let r := ip6Fields (s.scratchRead 0 40)
    .next (s.latch fun l => { l with ip6 := r }).nbrLearn.toDispatch

/-- `IP6.ICMP6` (R235). -/
def execIp6Icmp6 (s : State) : Out := .next ((s.emit (.valid .ipv6)).goto .icmp6)

/-- `IP6.UDP` (R236), with the network context `net = IP6`. -/
def execIp6Udp (s : State) : Out :=
  if s.latched.ip6.dst ≠ s.cfg.ipv6 then s.drop .ipv6 .notForUs
  else .next (((s.emit (.valid .ipv6)).latch fun l => { l with net := .ip6 }).goto .udp)

/-- `IP6.OTHER` (R237): whatever the next header. -/
def execIp6Other (_nh : Byte) (s : State) : Out := s.drop .ipv6 .unsupported

/-- `ip6_reply(nh, hlim, upper)` (R238). -/
def ip6Reply (cfg : Straps) (ip6 : Ip6Rec) (nh hlim : Byte) (upper : List Byte) : Ip6Rec where
  tc := 0#8
  fl := 0#20
  plen := BitVec.ofNat 16 upper.length
  nh := nh
  hlim := hlim
  src := cfg.ipv6
  dst := ip6.src

end Sys2Proof.Machine
end

