-- ==== Sys2Proof/Machine/Udp.lean ====
section
/-! DEFINITION. The UDP layer: pseudo-header checksum, port dispatch and the generic echo (spec/46_udp.md). -/

namespace Sys2Proof.Machine

/-- The pseudo-header of `udp_sum` (R283, R97, R109) for a datagram of `n` bytes. -/
def udpPseudo (net : Net) (src dst : List Byte) (n : Nat) : List Byte :=
  match net with
  | .ip4 => src ++ dst ++ [0x00#8, 0x11#8] ++ bytesBE 2 n
  | .ip6 => src ++ dst ++ bytesBE 4 n ++ [0x00#8, 0x00#8, 0x00#8, 0x11#8]

/-- `udp_sum(net, src, dst, u)` (R283). -/
def udpSum (net : Net) (src dst : List Byte) (u : List Byte) : Nat :=
  onesSum (udpPseudo net src dst u.length ++ u)

/-- The network addresses of the received datagram, source and destination (R281). -/
def Records.netAddrs (l : Records) : List Byte × List Byte :=
  match l.net with
  | .ip4 => (toBE 4 l.ip4.src, toBE 4 l.ip4.dst)
  | .ip6 => (toBE 16 l.ip6.src, toBE 16 l.ip6.dst)

/-- `UDP.PARSE` (R281, R282). -/
def execUdpParse (s : State) : Out :=
  s.getUpper fun u =>
  if u.length < 8 then s.drop .udp .truncated
  else
    let sport := ofBE 16 (slice u 0 2)
    let dport := ofBE 16 (slice u 2 4)
    let length := ofBE 16 (slice u 4 6)
    let checksum := ofBE 16 (slice u 6 8)
    if length.toNat < 8 then s.drop .udp .badLength
    else if u.length < length.toNat then s.drop .udp .badLength
    else
      let u := u.take length.toNat
      let addrs := s.latched.netAddrs
      if checksum ≠ 0#16 ∧ udpSum s.latched.net addrs.1 addrs.2 u ≠ 0xFFFF then
        s.drop .udp .badChecksum
      else
        .next (s.latch fun l => { l with
          udp := ⟨sport, dport, length, checksum, slice u 8 length.toNat⟩ }).toDispatch

/-- `UDP.COAP` (R285); the message `M` is `udp.payload`. -/
def execUdpCoap (s : State) : Out := .next ((s.emit (.valid .udp)).goto .coap)

/-- The outbound checksum (R288, R289): a computed zero is sent as all ones. -/
def udpCksumOut (net : Net) (src dst : List Byte) (u : List Byte) : Nat :=
  let c := 0xFFFF - udpSum net src dst u
  if c = 0 then 0xFFFF else c

/-- The response datagram of R288 with its checksum field zero. -/
def udpDatagram (sport dport : Half) (payload : List Byte) : List Byte :=
  toBE 2 sport ++ toBE 2 dport ++ bytesBE 2 (8 + payload.length) ++ [0#8, 0#8] ++ payload

/-- `udp_wrap(sport', dport', payload)` (R288). -/
def udpWrap (cfg : Straps) (l : Records) (sport dport : Half) (payload : List Byte) : Resp :=
  let u := udpDatagram sport dport payload
  match l.net with
  | .ip4 =>
    let c := udpCksumOut .ip4 (toBE 4 l.ip4.dst) (toBE 4 l.ip4.src) u
    .ip4 (ip4Reply l.ip4 (patch u 6 (bytesBE 2 c)))
  | .ip6 =>
    let r := ip6Reply cfg l.ip6 17#8 64#8 u
    let c := udpCksumOut .ip6 (toBE 16 r.src) (toBE 16 r.dst) u
    .ip6 r (patch u 6 (bytesBE 2 c))

/-- `UDP.ECHO` (R286): whatever the destination port. -/
def execUdpEcho (_dport : Half) (s : State) : Out :=
  let udp := s.latched.udp
  .next ((s.emit (.valid .udp)).respond .udp (udpWrap s.cfg s.latched udp.dport udp.sport udp.payload))

end Sys2Proof.Machine
end

