-- ==== Sys2Proof/Machine/Coap.lean ====
section
/-! DEFINITION. The CoAP message parser, the router's operations and the LED resource (spec/48_coap.md). -/

namespace Sys2Proof.Machine

/-! ## Parsing -/

/-- The header of a message (R352), its options and payload not yet parsed. -/
def coapHeader (m : List Byte) : Except Cause CoapRec :=
  if m.length < 4 then .error .truncated
  else
    let ver := (byteAt m 0).extractLsb' 6 2
    let t := (byteAt m 0).extractLsb' 4 2
    let tkl := (byteAt m 0).extractLsb' 0 4
    if ver ≠ 1#2 then .error .badVersion
    else if 8 < tkl.toNat then .error .badLength
    else if m.length < 4 + tkl.toNat then .error .badLength
    else .ok {
      ver := ver, t := t, tkl := tkl, code := byteAt m 1, mid := ofBE 16 (slice m 2 4),
      token := slice m 4 (4 + tkl.toNat), segs := [], payload := [] }

/-- The request test (R355). -/
def CoapRec.isRequest (c : CoapRec) : Bool :=
  !(c.code = 0x00#8 || 0x20 ≤ c.code.toNat) && !(c.t = 2#2 || c.t = 3#2)

/-- A delta or length with its extension bytes (R122, R353), the case split on the nibble. -/
def coapExtend (nibble : BitVec 4) (rest : List Byte) : Except Cause (Nat × List Byte) :=
  if nibble = 13#4 then
    match rest with
    | a :: rest => .ok (13 + a.toNat, rest)
    | _ => .error .truncated
  else if nibble = 14#4 then
    match rest with
    | a :: b :: rest => .ok (269 + beNat [a, b], rest)
    | _ => .error .truncated
  else .ok (nibble.toNat, rest)

/-- The option and payload parser (R353) over what is left of the message: `rest` is `M[p..|M|)` and `num` the
number of the option before. The first argument bounds the number of rounds; each round takes a byte, so the
length of `rest` is enough. -/
def coapOptions : Nat → Nat → List Byte → Except Cause (List (List Byte) × List Byte)
  | 0, _, _ => .ok ([], [])
  | _ + 1, _, [] => .ok ([], [])
  | fuel + 1, num, b :: rest =>
    if b = 0xFF#8 then
      if rest = [] then .error .badLength else .ok ([], rest)
    else
      let d : BitVec 4 := b.extractLsb' 4 4
      let l : BitVec 4 := b.extractLsb' 0 4
      if d = 15#4 ∨ l = 15#4 then .error .unsupported
      else
        match coapExtend d rest with
        | .error c => .error c
        | .ok (delta, rest) =>
          match coapExtend l rest with
          | .error c => .error c
          | .ok (len, rest) =>
            if rest.length < len then .error .badLength
            else
              match coapOptions fuel (num + delta) (rest.drop len) with
              | .error c => .error c
              | .ok (segs, payload) =>
                .ok (if num + delta = 11 then rest.take len :: segs else segs, payload)

/-- The Uri-Path of the LED resource is exactly the one segment `led` (R354, R125). -/
def ledPath : List (List Byte) := [[0x6C#8, 0x65#8, 0x64#8]]

/-- Whether the path is known (R354). -/
def CoapRec.known (c : CoapRec) : Bool := c.segs = ledPath

/-- `COAP.PARSE` (R351): header, request test, options. A message that is no request goes to its dispatch with
its options unread (R351, R141). -/
def execCoapParse (s : State) : Out :=
  let m := s.latched.udp.payload
  match coapHeader m with
  | .error c => s.drop .coap c
  | .ok r =>
    if r.isRequest then
      let rest := m.drop (4 + r.tkl.toNat)
      match coapOptions rest.length 0 rest with
      | .error c => s.drop .coap c
      | .ok (segs, payload) =>
        .next (s.latch fun l => { l with coap := { r with segs := segs, payload := payload } }).toDispatch
    else .next (s.latch fun l => { l with coap := r }).toDispatch

/-! ## Responses -/

/-- `coap_resp(rcode, body)` (R357). -/
def coapResp (c : CoapRec) (rcode : Byte) (body : List Byte) : List Byte :=
  let rtype := if c.t = 0#2 then 2 else 1
  [BitVec.ofNat 8 (0x40 + 16 * rtype + c.tkl.toNat), rcode] ++ toBE 2 c.mid ++ c.token
    ++ (if body = [] then [] else 0xFF#8 :: body)

/-- `respond(rcode, body)` (R358). -/
def coapRespond (rcode : Byte) (body : List Byte) (s : State) : Out :=
  let l := s.latched
  .next ((s.emit (.valid .coap)).respond .coap
    (udpWrap s.cfg l l.udp.dport l.udp.sport (coapResp l.coap rcode body)))

/-- The bodies of R362, R125. -/
def ledBody (led : Bool) : List Byte :=
  if led then [0x7B#8, 0x22#8, 0x6C#8, 0x65#8, 0x64#8, 0x22#8, 0x3A#8, 0x74#8, 0x72#8, 0x75#8, 0x65#8, 0x7D#8]
  else [0x7B#8, 0x22#8, 0x6C#8, 0x65#8, 0x64#8, 0x22#8, 0x3A#8, 0x66#8, 0x61#8, 0x6C#8, 0x73#8, 0x65#8, 0x7D#8]

/-- `COAP.GET_LED` (R362). -/
def execCoapGetLed (s : State) : Out := coapRespond 0x45#8 (ledBody s.led) s

/-- `ws` of R360. -/
def isWs (b : Byte) : Bool := b = 0x20#8 || b = 0x09#8 || b = 0x0A#8 || b = 0x0D#8

/-- Skip `ws*` (R360). -/
def skipWs (s : List Byte) : List Byte := s.dropWhile isWs

/-- Skip `ws*` and then the given bytes; `none` when they are not next. -/
def expect (lit s : List Byte) : Option (List Byte) :=
  if lit.isPrefixOf (skipWs s) then some ((skipWs s).drop lit.length) else none

/-- `'true' | 'false'` after `ws*` (R360). -/
def expectBool (s : List Byte) : Option (Bool × List Byte) :=
  match expect [0x74#8, 0x72#8, 0x75#8, 0x65#8] s with
  | some s => some (true, s)
  | none => (expect [0x66#8, 0x61#8, 0x6C#8, 0x73#8, 0x65#8] s).map fun s => (false, s)

/-- `parse_led(s)` (R360). -/
def parseLed (s : List Byte) : Option Bool := do
  let s ← expect [0x7B#8] s
  let s ← expect [0x22#8, 0x6C#8, 0x65#8, 0x64#8, 0x22#8] s
  let s ← expect [0x3A#8] s
  let (v, s) ← expectBool s
  let s ← expect [0x7D#8] s
  if skipWs s = [] then some v else none

/-- `COAP.PUT_LED` (R363). -/
def execCoapPutLed (s : State) : Out :=
  match parseLed s.latched.coap.payload with
  | some v => coapRespond 0x44#8 [] { s with led := v }
  | none => coapRespond 0x80#8 [] s

/-- `COAP.NOT_FOUND` (R364): whatever the method. -/
def execCoapNotFound (_code : Byte) (s : State) : Out := coapRespond 0x84#8 [] s

/-- `COAP.NOT_ALLOWED` (R365): whatever the method. -/
def execCoapNotAllowed (_code : Byte) (s : State) : Out := coapRespond 0x85#8 [] s

/-- `COAP.OTHER` (R359): whatever the code. -/
def execCoapOther (_code : Byte) (s : State) : Out := s.drop .coap .unsupported

end Sys2Proof.Machine
end

