-- ==== Sys2Proof/Machine/Fetch.lean ====
section
/-! DEFINITION. Which operation comes next in a run: the tag of the stage and its bytes (spec/30_encoding.md
R140, R141; spec/49_pipeline.md R401), and the inverse, a state in which a given operation comes next. -/

namespace Sys2Proof.Machine

/-- The tag the stage reads first (R140). `BUILD` has only its entry operation, the other stages have none. -/
def State.tagSelector (s : State) : Selector :=
  match s.stage with
  | .eth => .ethertype
  | .mac154 => .ftype
  | .lowpan => .dispatch
  | .arp => .oper
  | .ipv4 => .protocol
  | .ipv6 => .nextHeader
  | .icmp4 => .icmp4
  | .icmp6 => .icmp6
  | .udp => .dport s.cfg.coapPort
  | .coap => .coap s.latched.coap.t s.latched.coap.known
  | .build => .entry .build
  | .idle => .entry .idle
  | .txPending => .entry .txPending
  | .haltFatal => .entry .haltFatal
  | .haltAbort => .entry .haltAbort

/-- What selects the next operation, by phase: the entry of the stage, its tag, or its second tag, which only
`LOWPAN` has (R140, R141). -/
def State.selector (s : State) : Selector :=
  match s.phase with
  | .entry => .entry s.stage
  | .dispatch => s.tagSelector
  | .nhc => if s.stage = .lowpan then .nhc else s.tagSelector

/-- The bytes of the tag, as the stage's entry operation read them from the frame and latched them. -/
def State.tagBytes (s : State) : List Byte :=
  match s.selector with
  | .rxGo _ | .txTake | .entry _ => []
  | .ethertype => toBE 2 s.latched.eth.ethertype
  | .ftype => [s.latched.mac.fcf.extractLsb' 0 8]
  | .dispatch => [s.latched.iphc.dispatch]
  | .nhc => [s.latched.iphc.nhc]
  | .oper => toBE 2 s.latched.arp.oper
  | .protocol => [s.latched.ip4.protocol]
  | .nextHeader => [s.latched.ip6.nh]
  | .icmp4 | .icmp6 => toBE 2 s.latched.icmp
  | .dport _ => toBE 2 s.latched.udp.dport
  | .coap _ _ => [s.latched.coap.code]

/-- The state in which stage `st` runs the operation its tag selects, the tag given by `f`. -/
def State.atTag (st : Stage) (ph : Phase) (f : Records → Records) (s : State) : State :=
  { s.latch f with stage := st, phase := ph, host := [] }

/-- The state in which stage `st` is entered. -/
def State.atEntry (st : Stage) (s : State) : State := { s with stage := st, phase := .entry, host := [] }

/-- The state in which the host presents one request and nothing after it. -/
def State.atHost (st : Stage) (i : HostInput) (s : State) : State :=
  { s with stage := st, phase := .entry, host := [i] }

/-- The state that differs from `s` only in what makes `i` the next operation (log 12). -/
def State.placeInstr (i : Instr) (s : State) : State :=
  match i with
  | .rxAccept len => s.atHost .idle (.lines false (some len) false)
  | .txTake => s.atHost .txPending (.lines false none true)
  | .ethParse => s.atEntry .eth
  | .mac154Parse => s.atEntry .mac154
  | .lowpanParse => s.atEntry .lowpan
  | .arpParse => s.atEntry .arp
  | .ip4Parse => s.atEntry .ipv4
  | .ip6Parse => s.atEntry .ipv6
  | .icmp4Parse => s.atEntry .icmp4
  | .icmp6Parse => s.atEntry .icmp6
  | .udpParse => s.atEntry .udp
  | .coapParse => s.atEntry .coap
  | .build => s.atEntry .build
  | .ethArp | .ethIpv4 | .ethIpv6 | .ethOther _ =>
    s.atTag .eth .dispatch fun l => { l with eth := { l.eth with ethertype := ofBE 16 (encode s.cfg.coapPort i) } }
  | .mac154Data | .mac154Other _ =>
    s.atTag .mac154 .dispatch fun l =>
      { l with mac := { l.mac with fcf := l.mac.fcf.extractLsb' 3 13 ++ (ofBE 3 (encode s.cfg.coapPort i)) } }
  | .lowpanIphc _ _ _ | .lowpanOther _ =>
    s.atTag .lowpan .dispatch fun l =>
      { l with iphc := { l.iphc with dispatch := ofBE 8 (encode s.cfg.coapPort i) } }
  | .nhcUdp _ _ | .nhcOther _ =>
    s.atTag .lowpan .nhc fun l => { l with iphc := { l.iphc with nhc := ofBE 8 (encode s.cfg.coapPort i) } }
  | .arpRequest | .arpReply | .arpOther _ =>
    s.atTag .arp .dispatch fun l => { l with arp := { l.arp with oper := ofBE 16 (encode s.cfg.coapPort i) } }
  | .ip4Icmp | .ip4Udp | .ip4Other _ =>
    s.atTag .ipv4 .dispatch fun l => { l with ip4 := { l.ip4 with protocol := ofBE 8 (encode s.cfg.coapPort i) } }
  | .ip6Icmp6 | .ip6Udp | .ip6Other _ =>
    s.atTag .ipv6 .dispatch fun l => { l with ip6 := { l.ip6 with nh := ofBE 8 (encode s.cfg.coapPort i) } }
  | .icmp4Echo | .icmp4Other _ =>
    s.atTag .icmp4 .dispatch fun l => { l with icmp := ofBE 16 (encode s.cfg.coapPort i) }
  | .icmp6Echo | .icmp6Ns | .icmp6Other _ =>
    s.atTag .icmp6 .dispatch fun l => { l with icmp := ofBE 16 (encode s.cfg.coapPort i) }
  | .udpCoap | .udpEcho _ =>
    s.atTag .udp .dispatch fun l => { l with udp := { l.udp with dport := ofBE 16 (encode s.cfg.coapPort i) } }
  | .coapGetLed | .coapPutLed | .coapNotAllowed _ =>
    s.atTag .coap .dispatch fun l => { l with coap :=
      { l.coap with t := 0#2, code := ofBE 8 (encode s.cfg.coapPort i), segs := ledPath } }
  | .coapNotFound _ =>
    s.atTag .coap .dispatch fun l => { l with coap :=
      { l.coap with t := 0#2, code := ofBE 8 (encode s.cfg.coapPort i), segs := [] } }
  | .coapOther _ =>
    s.atTag .coap .dispatch fun l => { l with coap :=
      { l.coap with t := 2#2, code := ofBE 8 (encode s.cfg.coapPort i), segs := [] } }

end Sys2Proof.Machine
end

