-- ==== Sys2Proof/Machine/Arp.lean ====
section
/-! DEFINITION. The ARP request/reply codec and the ARP cache (spec/42_arp.md). -/

namespace Sys2Proof.Machine

/-- The validation of R192, in its order. -/
def arpValid (a : ArpRec) : Except Cause Unit :=
  if a.htype ≠ 1#16 then .error .unsupported
  else if a.ptype ≠ 0x0800#16 then .error .unsupported
  else if a.hlen ≠ 6#8 then .error .badLength
  else if a.plen ≠ 4#8 then .error .badLength
  else .ok ()

/-- `ARP.PARSE` (R191). -/
def execArpParse (s : State) : Out :=
  if s.vlen.toNat < 28 then s.drop .arp .truncated
  else
    s.get 0 2 fun htype =>
    s.get 2 2 fun ptype =>
    s.get 4 1 fun hlen =>
    s.get 5 1 fun plen =>
    s.get 6 2 fun oper =>
    s.get 8 6 fun sha =>
    s.get 14 4 fun spa =>
    s.get 18 6 fun tha =>
    s.get 24 4 fun tpa =>
    let a : ArpRec := ⟨ofBE 16 htype, ofBE 16 ptype, ofBE 8 hlen, ofBE 8 plen, ofBE 16 oper,
      ofBE 48 sha, ofBE 32 spa, ofBE 48 tha, ofBE 32 tpa⟩
    match arpValid a with
    | .error c => s.drop .arp c
    | .ok _ => .next (s.latch fun l => { l with arp := a }).toDispatch

/-- `arp_learn` (R193). -/
def State.arpLearn (s : State) : State :=
  ({ s with arp := cacheInsert s.par.arpCap s.latched.arp.spa s.latched.arp.sha s.arp }).emit (.cache .arp)

/-- The ARP reply (R195). -/
def arpReplyPacket (cfg : Straps) (a : ArpRec) : List Byte :=
  toBE 2 a.htype ++ toBE 2 a.ptype ++ toBE 1 a.hlen ++ toBE 1 a.plen ++ toBE 2 2#16
    ++ toBE 6 cfg.mac ++ toBE 4 a.tpa ++ toBE 6 a.sha ++ toBE 4 a.spa

/-- `ARP.REQUEST` (R194). -/
def execArpRequest (s : State) : Out :=
  let s := s.arpLearn
  let a := s.latched.arp
  if a.tpa ≠ s.cfg.ipv4 then s.drop .arp .notForUs
  else .next ((s.emit (.valid .arp)).respond .arp (.arp a.spa (arpReplyPacket s.cfg a)))

/-- `ARP.REPLY` (R196). -/
def execArpReply (s : State) : Out := s.arpLearn.drop .arp .consumed

/-- `ARP.OTHER` (R197): whatever the operation field; the cache is not updated. -/
def execArpOther (_oper : Half) (s : State) : Out := s.drop .arp .unsupported

end Sys2Proof.Machine
end

