-- ==== Sys2Proof/Machine/LinkLayer.lean ====
section
/-! DEFINITION. The link layer: the Ethernet framer and the 802.15.4 MAC framer (spec/41_link.md). -/

namespace Sys2Proof.Machine

/-! ## Ethernet -/

/-- `ETH.PARSE` (R171). -/
def execEthParse (s : State) : Out :=
  if s.vlen.toNat < 14 then s.drop .eth .truncated
  else
    s.get 0 6 fun dst =>
    s.get 6 6 fun src =>
    s.get 12 2 fun ethertype =>
    let s := s.latch fun l => { l with eth := ⟨ofBE 48 dst, ofBE 48 src, ofBE 16 ethertype⟩ }
    .next { s with llDst := .mac48 (ofBE 48 dst), llSrc := .mac48 (ofBE 48 src) }.toDispatch

/-- The common part of R172 to R174: the layer is valid and the view moves to its payload. -/
def ethHandOver (next : Stage) (s : State) : Out :=
  (s.emit (.valid .eth)).narrow 14 (s.vlen.toNat - 14) fun s => .next (s.goto next)

/-- `ETH.ARP` (R172). -/
def execEthArp (s : State) : Out := ethHandOver .arp s

/-- `ETH.IPV4` (R173). -/
def execEthIpv4 (s : State) : Out := ethHandOver .ipv4 s

/-- `ETH.IPV6` (R174). -/
def execEthIpv6 (s : State) : Out := ethHandOver .ipv6 s

/-- `ETH.OTHER` (R175): whatever the EtherType. -/
def execEthOther (_ethertype : Half) (s : State) : Out := s.drop .eth .unsupported

/-- `eth_build(dstmac, ethertype, payload)` (R179). -/
def ethBuild (cfg : Straps) (dstmac : BitVec 48) (ethertype : Half) (payload : List Byte) : List Byte :=
  toBE 6 dstmac ++ toBE 6 cfg.mac ++ toBE 2 ethertype ++ payload

/-! ## IEEE 802.15.4 MAC -/

/-- `MAC154.PARSE` (R176): the frame control field and the sequence number. -/
def execMac154Parse (s : State) : Out :=
  if s.vlen.toNat < 3 then s.drop .mac154 .truncated
  else
    s.get 0 2 fun f =>
    s.get 2 1 fun seq =>
    .next (s.latch fun l => { l with mac := ⟨ofLE 16 f, ofBE 8 seq⟩ }).toDispatch

/-- `security`, bit 3 of the frame control field (R127). -/
def fcfSecurity (f : Half) : BitVec 1 := f.extractLsb' 3 1

/-- `pan_comp`, bit 6 (R127). -/
def fcfPanComp (f : Half) : BitVec 1 := f.extractLsb' 6 1

/-- `dst_mode`, bits 11:10 (R127). -/
def fcfDstMode (f : Half) : BitVec 2 := f.extractLsb' 10 2

/-- `version`, bits 13:12 (R127). -/
def fcfVersion (f : Half) : BitVec 2 := f.extractLsb' 12 2

/-- `src_mode`, bits 15:14 (R127). -/
def fcfSrcMode (f : Half) : BitVec 2 := f.extractLsb' 14 2

/-- `alen` of R143, R176: the bytes of an address of mode 2 (short) or 3 (extended). -/
def addrLen (mode : BitVec 2) : Nat := if mode = 2#2 then 2 else 8

/-- An address of the given mode from its bytes on the wire, least significant first (R128, R176). -/
def wireAddr (mode : BitVec 2) (wire : List Byte) : LlAddr :=
  if mode = 2#2 then .short (ofLE 16 wire) else .ext (ofLE 64 wire)

/-- The length of the MAC header (R176). -/
def macHeaderLen (f : Half) : Nat :=
  3 + 2 + addrLen (fcfDstMode f) + (if fcfPanComp f = 0#1 then 2 else 0) + addrLen (fcfSrcMode f)

/-- `src_pan` (R176): in the header, or the destination's when `pan_comp = 1`. -/
def State.getSrcPan (s : State) (f : Half) (dstPan : Half) (k : Half → Out) : Out :=
  if fcfPanComp f = 0#1 then s.get (5 + addrLen (fcfDstMode f)) 2 fun p => k (ofLE 16 p) else k dstPan

/-- `MAC154.DATA` (R177, with the validation and latching of R176). -/
def execMac154Data (s : State) : Out :=
  let f := s.latched.mac.fcf
  if fcfSecurity f = 1#1 then s.drop .mac154 .unsupported
  else if 2 ≤ (fcfVersion f).toNat then s.drop .mac154 .unsupported
  else if (fcfDstMode f).toNat < 2 then s.drop .mac154 .unsupported
  else if (fcfSrcMode f).toNat < 2 then s.drop .mac154 .unsupported
  else
    let hl := macHeaderLen f
    if s.vlen.toNat < hl then s.drop .mac154 .truncated
    else
      s.get 3 2 fun dstPan =>
      s.get 5 (addrLen (fcfDstMode f)) fun dst =>
      s.getSrcPan f (ofLE 16 dstPan) fun srcPan =>
      s.get (hl - addrLen (fcfSrcMode f)) (addrLen (fcfSrcMode f)) fun src =>
      let s := { s with
        panDst := ofLE 16 dstPan
        panSrc := srcPan
        llDst := wireAddr (fcfDstMode f) dst
        llSrc := wireAddr (fcfSrcMode f) src }
      (s.emit (.valid .mac154)).narrow hl (s.vlen.toNat - hl) fun s => .next (s.goto .lowpan)

/-- `MAC154.OTHER` (R178): whatever the frame type. -/
def execMac154Other (_ftype : BitVec 3) (s : State) : Out := s.drop .mac154 .unsupported

/-- The frame of `mac154_build` (R330); `DSN` is advanced by R409, when the frame is emitted. -/
def mac154Build (cfg : Straps) (dsn : Byte) (panSrc : Half) (lld : LlAddr) (payload : List Byte) : List Byte :=
  let dm := match lld with
    | .short _ => 2
    | _ => 3
  bytesLE 2 (1 + 2 ^ 6 + dm * 2 ^ 10 + 0 * 2 ^ 12 + 3 * 2 ^ 14) ++ [dsn] ++ toLE 2 panSrc
    ++ (llBytes lld).reverse ++ (toBE 8 cfg.ext).reverse ++ payload

end Sys2Proof.Machine
end

