-- ==== Sys2Proof/Machine/Lowpan.lean ====
section
/-! DEFINITION. The 6LoWPAN IPHC/NHC decompressor and compressor (spec/47_sixlowpan.md). The decompressor works
on the bytes of the view that are not yet taken: the cursor `o` of R303 is how many are gone. -/

namespace Sys2Proof.Machine

/-! ## Decompression -/

/-- `take(n)` (R303). -/
def takeN (n : Nat) (rest : List Byte) : Except Cause (List Byte × List Byte) :=
  if rest.length < n then .error .truncated else .ok (rest.take n, rest.drop n)

/-- `LOWPAN.PARSE` (R303). -/
def execLowpanParse (s : State) : Out :=
  if s.vlen.toNat < 1 then s.drop .lowpan .truncated
  else
    s.get 0 1 fun d =>
    .next (s.latch fun l => { l with iphc := { l.iphc with dispatch := ofBE 8 d } }).toDispatch

/-- `LOWPAN.OTHER` (R301): whatever the dispatch byte. -/
def execLowpanOther (_d : Byte) (s : State) : Out := s.drop .lowpan .unsupported

/-- The unsupported forms of R308, on the second base byte. -/
def iphcUnsupported (b1 : Byte) : Bool :=
  b1.extractLsb' 7 1 = 1#1 || (b1.extractLsb' 6 1 = 1#1 && b1.extractLsb' 4 2 ≠ 0#2) || b1.extractLsb' 2 1 = 1#1

/-- Traffic class and flow label (R307). -/
def iphcTf (tf : BitVec 2) (rest : List Byte) : Except Cause (Byte × BitVec 20 × List Byte) :=
  if tf = 0#2 then do
    let (t, rest) ← takeN 4 rest
    let b := byteAt t 0
    .ok (b.extractLsb' 0 6 ++ b.extractLsb' 6 2, (ofBE 24 (slice t 1 4)).extractLsb' 0 20, rest)
  else if tf = 1#2 then do
    let (t, rest) ← takeN 3 rest
    let v := ofBE 24 t
    .ok (0#6 ++ v.extractLsb' 22 2, v.extractLsb' 0 20, rest)
  else if tf = 2#2 then do
    let (t, rest) ← takeN 1 rest
    let b := byteAt t 0
    .ok (b.extractLsb' 0 6 ++ b.extractLsb' 6 2, 0#20, rest)
  else .ok (0#8, 0#20, rest)

/-- The inline next header (R309); with `NH = 1` it is set later, by R318. -/
def iphcNh (nh : BitVec 1) (rest : List Byte) : Except Cause (Byte × List Byte) :=
  if nh = 0#1 then do
    let (t, rest) ← takeN 1 rest
    .ok (byteAt t 0, rest)
  else .ok (0#8, rest)

/-- The hop limit (R309). -/
def iphcHlim (hlim : BitVec 2) (rest : List Byte) : Except Cause (Byte × List Byte) :=
  if hlim = 0#2 then do
    let (t, rest) ← takeN 1 rest
    .ok (byteAt t 0, rest)
  else if hlim = 1#2 then .ok (1#8, rest)
  else if hlim = 2#2 then .ok (64#8, rest)
  else .ok (255#8, rest)

/-- The stateless unicast forms that R310 and R311 share, by `SAM` or `DAM`. -/
def iphcUnicast (mode : BitVec 2) (ll : LlAddr) (rest : List Byte) : Except Cause (List Byte × List Byte) :=
  if mode = 0#2 then takeN 16 rest
  else if mode = 1#2 then do
    let (i, rest) ← takeN 8 rest
    .ok (linkLocalPrefix ++ i, rest)
  else if mode = 2#2 then do
    let (i, rest) ← takeN 2 rest
    .ok (linkLocalPrefix ++ shortIidPrefix ++ i, rest)
  else .ok (linkLocalPrefix ++ iid ll, rest)

/-- The source address (R310). -/
def iphcSrc (sac : BitVec 1) (sam : BitVec 2) (ll : LlAddr) (rest : List Byte) :
    Except Cause (List Byte × List Byte) :=
  if sac = 1#1 then .ok (zeros 16, rest) else iphcUnicast sam ll rest

/-- The destination address (R311); `DAC = 0` here. -/
def iphcDst (m : BitVec 1) (dam : BitVec 2) (ll : LlAddr) (rest : List Byte) :
    Except Cause (List Byte × List Byte) :=
  if m = 0#1 then iphcUnicast dam ll rest
  else if dam = 0#2 then takeN 16 rest
  else if dam = 1#2 then do
    let (i, rest) ← takeN 6 rest
    .ok ([0xFF#8, byteAt i 0] ++ zeros 9 ++ slice i 1 6, rest)
  else if dam = 2#2 then do
    let (i, rest) ← takeN 4 rest
    .ok ([0xFF#8, byteAt i 0] ++ zeros 11 ++ slice i 1 4, rest)
  else do
    let (i, rest) ← takeN 1 rest
    .ok ([0xFF#8, 0x02#8] ++ zeros 13 ++ [byteAt i 0], rest)

/-- The whole IPHC header (R304, R308, R307, R309 to R311): the reconstructed fields and the bytes after it.
`v` is the view; the cursor is left in `o`. The tags `dispatch` and `nhc` are zero here. -/
def iphcDecode (tf : BitVec 2) (nh : BitVec 1) (hlim : BitVec 2) (llSrc llDst : LlAddr) (v : List Byte) :
    Except Cause (IphcRec × List Byte) := do
  let (_, rest) ← takeN 1 v
  let (t, rest) ← takeN 1 rest
  let b1 := byteAt t 0
  if iphcUnsupported b1 then .error .unsupported
  else do
    let (tc, fl, rest) ← iphcTf tf rest
    let (next, rest) ← iphcNh nh rest
    let (hl, rest) ← iphcHlim hlim rest
    let (src, rest) ← iphcSrc (b1.extractLsb' 6 1) (b1.extractLsb' 4 2) llSrc rest
    let (dst, rest) ← iphcDst (b1.extractLsb' 3 1) (b1.extractLsb' 0 2) llDst rest
    .ok (⟨0#8, 0#8, tc, fl, next, hl, ofBE 128 src, ofBE 128 dst, v.length - rest.length⟩, rest)

/-- The reconstructed IPv6 header record (R312). -/
def IphcRec.toIp6 (h : IphcRec) (plen : Nat) : Ip6Rec where
  tc := h.tc
  fl := h.fl
  plen := BitVec.ofNat 16 plen
  nh := h.nh
  hlim := h.hlim
  src := h.src
  dst := h.dst

/-- Reconstruction and hand-off (R312, R320): the IPv6 header goes to `SCRATCH`, the view to the bytes after
the compressed headers. -/
def lowpanHandOff (h : IphcRec) (plen : Nat) (s : State) : Out :=
  (s.scratchWrite 0 (ip6Bytes (h.toIp6 plen))).narrow h.o (s.vlen.toNat - h.o) fun s =>
  .next ((s.emit (.valid .lowpan)).goto .ipv6)

/-- `LOWPAN.IPHC` (R302). With `NH = 1` the NHC byte that selects the rest of the stage's work is read here
(DEDUCED, log 19): no byte left is the `TRUNCATED` of R319. -/
def execLowpanIphc (tf : BitVec 2) (nh : BitVec 1) (hlim : BitVec 2) (s : State) : Out :=
  let s := s.latch fun l => { l with udpNhc := false }
  s.getView fun v =>
  match iphcDecode tf nh hlim s.llSrc s.llDst v with
  | .error c => s.drop .lowpan c
  | .ok (h, rest) =>
    let h := { h with dispatch := s.latched.iphc.dispatch }
    if nh = 1#1 then
      match rest with
      | [] => s.drop .lowpan .truncated
      | c :: _ => .next { s.latch fun l => { l with iphc := { h with nhc := c } } with phase := .nhc }
    else lowpanHandOff h (s.vlen.toNat - h.o) (s.latch fun l => { l with iphc := h })

/-- The inline ports (R318, R137). -/
def nhcPorts (p : BitVec 2) (rest : List Byte) : Except Cause (Half × Half × List Byte) :=
  if p = 0#2 then do
    let (i, rest) ← takeN 4 rest
    .ok (ofBE 16 (slice i 0 2), ofBE 16 (slice i 2 4), rest)
  else if p = 1#2 then do
    let (i, rest) ← takeN 3 rest
    .ok (ofBE 16 (slice i 0 2), 0xF0#8 ++ byteAt i 2, rest)
  else if p = 2#2 then do
    let (i, rest) ← takeN 3 rest
    .ok (0xF0#8 ++ byteAt i 0, ofBE 16 (slice i 1 3), rest)
  else do
    let (i, rest) ← takeN 1 rest
    .ok (0xF0B#12 ++ (byteAt i 0).extractLsb' 4 4, 0xF0B#12 ++ (byteAt i 0).extractLsb' 0 4, rest)

/-- The checksum field, 0 when it is elided (R318). -/
def nhcCksum (c : BitVec 1) (rest : List Byte) : Except Cause (Half × List Byte) :=
  if c = 0#1 then do
    let (t, rest) ← takeN 2 rest
    .ok (ofBE 16 t, rest)
  else .ok (0#16, rest)

/-- The NHC header from its first byte on (R318): ports, checksum, and the payload after it. -/
def nhcDecode (c : BitVec 1) (p : BitVec 2) (rest : List Byte) :
    Except Cause (Half × Half × Half × List Byte) := do
  let (_, rest) ← takeN 1 rest
  let (sport, dport, rest) ← nhcPorts p rest
  let (ck, rest) ← nhcCksum c rest
  .ok (sport, dport, ck, rest)

/-- The reconstructed UDP header (R318). -/
def nhcHeader (sport dport : Half) (ulen : Nat) (ck : Half) : List Byte :=
  toBE 2 sport ++ toBE 2 dport ++ bytesBE 2 ulen ++ toBE 2 ck

/-- `NHC.UDP` (R318), with the reconstruction and hand-off that end the stage. -/
def execNhcUdp (c : BitVec 1) (p : BitVec 2) (s : State) : Out :=
  let h := s.latched.iphc
  s.getView fun v =>
  match nhcDecode c p (v.drop h.o) with
  | .error e => s.drop .lowpan e
  | .ok (sport, dport, ck, payload) =>
    let ulen := 8 + payload.length
    let h := { h with nh := 17#8, o := v.length - payload.length }
    let s := s.scratchWrite 40 (nhcHeader sport dport ulen ck)
    lowpanHandOff h ulen (s.latch fun l => { l with iphc := h, udpNhc := true })

/-- `NHC.OTHER` (R319): whatever the NHC byte. -/
def execNhcOther (_c : Byte) (s : State) : Out :=
  s.getView fun v =>
  match takeN 1 (v.drop s.latched.iphc.o) with
  | .error e => s.drop .lowpan e
  | .ok _ => s.drop .lowpan .unsupported

/-! ## Compression -/

/-- `TF` and its inline bytes (R326). -/
def compressTf (tc : Byte) (fl : BitVec 20) : BitVec 2 × List Byte :=
  let ecn : BitVec 2 := tc.extractLsb' 0 2
  let dscp : BitVec 6 := tc.extractLsb' 2 6
  if tc = 0#8 ∧ fl = 0#20 then (3#2, [])
  else if fl = 0#20 then (2#2, [ecn ++ dscp])
  else if dscp = 0#6 then (1#2, bytesBE 3 (ecn.toNat * 2 ^ 22 + fl.toNat))
  else (0#2, (ecn ++ dscp) :: bytesBE 3 fl.toNat)

/-- `HLIM` and its inline bytes (R325). -/
def compressHlim (hlim : Byte) : BitVec 2 × List Byte :=
  if hlim = 1#8 then (1#2, [])
  else if hlim = 64#8 then (2#2, [])
  else if hlim = 255#8 then (3#2, [])
  else (0#2, [hlim])

/-- The unicast forms R327 lists for both addresses: the mode and the inline bytes. -/
def compressUnicast (a : List Byte) (ll : LlAddr) : BitVec 2 × List Byte :=
  if a.take 8 = linkLocalPrefix ∧ a.drop 8 = iid ll then (3#2, [])
  else if a.take 8 = linkLocalPrefix ∧ slice a 8 14 = shortIidPrefix then (2#2, slice a 14 16)
  else if a.take 8 = linkLocalPrefix then (1#2, a.drop 8)
  else (0#2, a)

/-- `SAC`, `SAM` and the inline bytes of the source (R327). -/
def compressSrc (a : List Byte) (ll : LlAddr) : BitVec 1 × BitVec 2 × List Byte :=
  if a = zeros 16 then (1#1, 0#2, []) else (0#1, compressUnicast a ll)

/-- `M`, `DAM` and the inline bytes of the destination (R327); `DAC` is always 0. -/
def compressDst (a : List Byte) (ll : LlAddr) : BitVec 1 × BitVec 2 × List Byte :=
  if byteAt a 0 = 0xFF#8 ∧ byteAt a 1 = 0x02#8 ∧ slice a 2 15 = zeros 13 then (1#1, 3#2, [byteAt a 15])
  else if byteAt a 0 = 0xFF#8 ∧ slice a 2 13 = zeros 11 then (1#1, 2#2, byteAt a 1 :: slice a 13 16)
  else if byteAt a 0 = 0xFF#8 ∧ slice a 2 11 = zeros 9 then (1#1, 1#2, byteAt a 1 :: slice a 11 16)
  else if byteAt a 0 = 0xFF#8 then (1#1, 0#2, a)
  else (0#1, compressUnicast a ll)

/-- `P` and the inline ports (R328). -/
def compressPorts (sport dport : Half) : BitVec 2 × List Byte :=
  let s := sport.toNat
  let d := dport.toNat
  if 0xF0B0 ≤ s ∧ s ≤ 0xF0BF ∧ 0xF0B0 ≤ d ∧ d ≤ 0xF0BF then
    (3#2, bytesBE 1 (16 * (s - 0xF0B0) + (d - 0xF0B0)))
  else if 0xF000 ≤ d ∧ d ≤ 0xF0FF then (1#2, toBE 2 sport ++ bytesBE 1 (d - 0xF000))
  else if 0xF000 ≤ s ∧ s ≤ 0xF0FF then (2#2, bytesBE 1 (s - 0xF000) ++ toBE 2 dport)
  else (0#2, toBE 2 sport ++ toBE 2 dport)

/-- The NHC form of a UDP message (R328); the checksum is always inline. -/
def compressUdp (upper : List Byte) : List Byte :=
  let p := compressPorts (ofBE 16 (slice upper 0 2)) (ofBE 16 (slice upper 2 4))
  [0b11110#5 ++ 0#1 ++ p.1] ++ p.2 ++ slice upper 6 8 ++ upper.drop 8

/-- Whether UDP next-header compression is used (R325). -/
def nhcApplies (r : Ip6Rec) (upper : List Byte) : Bool :=
  r.nh = 17#8 && 8 ≤ upper.length && beNat (slice upper 4 6) = upper.length

/-- `iphc_compress(r, upper, lls, lld)` (R325). -/
def iphcCompress (r : Ip6Rec) (upper : List Byte) (lls lld : LlAddr) : List Byte :=
  let tf := compressTf r.tc r.fl
  let nhc := nhcApplies r upper
  let nh : BitVec 1 := if nhc then 1#1 else 0#1
  let hl := compressHlim r.hlim
  let src := compressSrc (toBE 16 r.src) lls
  let dst := compressDst (toBE 16 r.dst) lld
  [0b011#3 ++ tf.1 ++ nh ++ hl.1, 0#1 ++ src.1 ++ src.2.1 ++ dst.1 ++ 0#1 ++ dst.2.1]
    ++ tf.2 ++ (if nhc then [] else [r.nh]) ++ hl.2 ++ src.2.2 ++ dst.2.2
    ++ (if nhc then compressUdp upper else upper)

end Sys2Proof.Machine
end

