-- ==== Sys2Proof/Machine/Build.lean ====
section
/-! DEFINITION. The response frame: link-layer resolution, the length check and the store
(spec/49_pipeline.md R407 to R409, spec/00_scope.md R8). -/

namespace Sys2Proof.Machine

/-- `TX_MAX` (R8). -/
def txMax : Link → Nat
  | .eth => 1514
  | .lowpan => 125

/-- `TX_LIMIT` (R8). -/
def State.txLimit (s : State) : Nat := min s.par.bufCap (txMax s.cfg.link)

/-- `resolve4(ip)` (R408). -/
def State.resolve4 (s : State) (ip : BitVec 32) : LlAddr :=
  match cacheLookup ip s.arp with
  | some m => .mac48 m
  | none => s.llSrc

/-- `resolve6(ip)` (R408). -/
def State.resolve6 (s : State) (ip : BitVec 128) : LlAddr :=
  match cacheLookup ip s.nbr with
  | some a => a
  | none => s.llSrc

/-- `mac(MAC48(m)) = m` (R407); of another kind of address it is a free value (log 14). -/
def macOf : LlAddr → BitVec 48
  | .mac48 m => m
  | a => Config.freeMac a

/-- The response frame (R407); `none` for a pair of link and response record that R407 has no case for. -/
def State.frame (s : State) : Option (List Byte) :=
  match s.cfg.link, s.latched.resp with
  | .eth, some (.arp ip pkt) => some (ethBuild s.cfg (macOf (s.resolve4 ip)) 0x0806#16 pkt)
  | .eth, some (.ip4 pkt) => some (ethBuild s.cfg (macOf (s.resolve4 s.latched.ip4.src)) 0x0800#16 pkt)
  | .eth, some (.ip6 r upper) =>
    some (ethBuild s.cfg (macOf (s.resolve6 r.dst)) 0x86DD#16 (ip6Bytes r ++ upper))
  | .lowpan, some (.ip6 r upper) =>
    let lld := s.resolve6 r.dst
    some (mac154Build s.cfg s.dsn s.panSrc lld (iphcCompress r upper (.ext s.cfg.ext) lld))
  | _, _ => none

/-- `DSN <- (DSN + 1) mod 256` when `LINK = LOWPAN` (R409, R330). -/
def State.advanceDsn (s : State) : State :=
  match s.cfg.link with
  | .eth => s
  | .lowpan => { s with dsn := s.dsn + 1 }

/-- `BUILD` (R407, R409, R402). -/
def execBuild (s : State) : Out :=
  match s.frame with
  | none => .fault .noBuildCase
  | some frame =>
    if s.txLimit < frame.length then s.drop .build .noSpace
    else
      let s := { s with vbase := 0#16, vlen := BitVec.ofNat 16 s.txLimit }
      s.set 0 frame fun s =>
      let s := { s with txlen := BitVec.ofNat 16 frame.length }
      .next (s.advanceDsn.finishSent s.latched.hstage)

end Sys2Proof.Machine
end

