-- ==== Sys2Proof/Machine/HostOps.lean ====
section
/-! DEFINITION. The host operations `RX_ACCEPT` and `TX_TAKE` (spec/49_pipeline.md R400, R403). -/

namespace Sys2Proof.Machine

/-- `RX_ACCEPT(len)` (R400). A refused request changes no state (R400, R441). -/
def execRxAccept (len : Half) (s : State) : Out :=
  if s.stage = .idle ∧ len.toNat ≤ s.par.bufCap then
    .next <| ({ s with rxlen := len, txlen := 0#16, vbase := 0#16, vlen := len }).goto
      (match s.cfg.link with
        | .eth => .eth
        | .lowpan => .mac154)
  else .next s

/-- `TX_TAKE` (R403); the parse records are discarded with the return to `IDLE` (R47). -/
def execTxTake (s : State) : Out :=
  if s.stage = .txPending then .next s.toIdle else .next s

end Sys2Proof.Machine
end

