-- ==== Sys2Proof/Machine/Icmp.lean ====
section
/-! DEFINITION. The ICMPv4 and ICMPv6 handlers (spec/45_icmp.md). -/

namespace Sys2Proof.Machine

/-! ## ICMPv4 -/

/-- `ICMP4.PARSE` (R251); `U` is the view. -/
def execIcmp4Parse (s : State) : Out :=
  s.getView fun u =>
  if u.length < 4 then s.drop .icmp4 .truncated
  else .next (s.latch fun l => { l with icmp := ofBE 16 (slice u 0 2) }).toDispatch

/-- The ICMPv4 Echo Reply to the message `u` (R252). -/
def icmp4Reply (u : List Byte) : List Byte := withCksum (zeros 4 ++ u.drop 4) 2

/-- `ICMP4.ECHO` (R252). -/
def execIcmp4Echo (s : State) : Out :=
  s.getView fun u =>
  if u.length < 8 then s.drop .icmp4 .truncated
  else if onesSum u ≠ 0xFFFF then s.drop .icmp4 .badChecksum
  else .next ((s.emit (.valid .icmp4)).respond .icmp4 (.ip4 (ip4Reply s.latched.ip4 (icmp4Reply u))))

/-- `ICMP4.OTHER` (R254): whatever the type and code. -/
def execIcmp4Other (_typeCode : Half) (s : State) : Out := s.drop .icmp4 .unsupported

/-! ## ICMPv6 -/

/-- `icmp6_sum(src, dst, m)` (R259, R109). -/
def icmp6Sum (src dst : BitVec 128) (m : List Byte) : Nat :=
  onesSum (toBE 16 src ++ toBE 16 dst ++ bytesBE 4 m.length ++ [0#8, 0#8, 0#8, 0x3A#8] ++ m)

/-- A built message, checksum bytes zero before, with its checksum stored (R259). -/
def icmp6Finish (src dst : BitVec 128) (m : List Byte) : List Byte :=
  patch m 2 (bytesBE 2 (0xFFFF - icmp6Sum src dst m))

/-- The response record of R258 and R260 for a message `m` whose checksum bytes are zero. -/
def icmp6Resp (cfg : Straps) (ip6 : Ip6Rec) (hlim : Byte) (m : List Byte) : Resp :=
  let r := ip6Reply cfg ip6 58#8 hlim m
  .ip6 r (icmp6Finish r.src r.dst m)

/-- `ICMP6.PARSE` (R257). -/
def execIcmp6Parse (s : State) : Out :=
  s.getUpper fun u =>
  if u.length < 4 then s.drop .icmp6 .truncated
  else .next (s.latch fun l => { l with icmp := ofBE 16 (slice u 0 2) }).toDispatch

/-- The ICMPv6 Echo Reply to the message `u` of R258, its checksum bytes zero. -/
def icmp6EchoReply (u : List Byte) : List Byte := [0x81#8, 0#8, 0#8, 0#8] ++ u.drop 4

/-- `ICMP6.ECHO` (R258). -/
def execIcmp6Echo (s : State) : Out :=
  s.getUpper fun u =>
  let ip6 := s.latched.ip6
  if u.length < 8 then s.drop .icmp6 .truncated
  else if ip6.dst ≠ s.cfg.ipv6 then s.drop .icmp6 .notForUs
  else if icmp6Sum ip6.src ip6.dst u ≠ 0xFFFF then s.drop .icmp6 .badChecksum
  else
    .next ((s.emit (.valid .icmp6)).respond .icmp6 (icmp6Resp s.cfg ip6 64#8 (icmp6EchoReply u)))

/-- The Target Link-Layer Address option of R261, R115. -/
def ndOption (cfg : Straps) : List Byte :=
  match cfg.link with
  | .eth => [0x02#8, 0x01#8] ++ toBE 6 cfg.mac
  | .lowpan => [0x02#8, 0x02#8] ++ toBE 8 cfg.ext ++ zeros 6

/-- The Neighbor Advertisement of R261, its checksum bytes zero. -/
def neighborAdvert (cfg : Straps) : List Byte :=
  [0x88#8, 0#8, 0#8, 0#8, 0x60#8, 0#8, 0#8, 0#8] ++ toBE 16 cfg.ipv6 ++ ndOption cfg

/-- `ICMP6.NS` (R260). -/
def execIcmp6Ns (s : State) : Out :=
  s.getUpper fun u =>
  let ip6 := s.latched.ip6
  if u.length < 24 then s.drop .icmp6 .truncated
  else if icmp6Sum ip6.src ip6.dst u ≠ 0xFFFF then s.drop .icmp6 .badChecksum
  else if ofBE 128 (slice u 8 24) ≠ s.cfg.ipv6 then s.drop .icmp6 .notForUs
  else if ip6.src = 0#128 then s.drop .icmp6 .unsupported
  else
    .next ((s.emit (.valid .icmp6)).respond .icmp6 (icmp6Resp s.cfg ip6 255#8 (neighborAdvert s.cfg)))

/-- `ICMP6.OTHER` (R263): whatever the type and code. -/
def execIcmp6Other (_typeCode : Half) (s : State) : Out := s.drop .icmp6 .unsupported

end Sys2Proof.Machine
end

