-- ==== Sys2Proof/Machine/Dispatch.lean ====
section
/-! DEFINITION. The dispatch of operations to their meanings, one arm per row of spec/opcode_table.json. -/

namespace Sys2Proof.Machine

/-- The meaning of an operation. -/
def exec (i : Instr) (s : State) : Host.Outcome State Fault Refusal :=
  match i with
  | .rxAccept len => Sys2Proof.Machine.execRxAccept len s
  | .txTake => Sys2Proof.Machine.execTxTake s
  | .ethParse => Sys2Proof.Machine.execEthParse s
  | .ethArp => Sys2Proof.Machine.execEthArp s
  | .ethIpv4 => Sys2Proof.Machine.execEthIpv4 s
  | .ethIpv6 => Sys2Proof.Machine.execEthIpv6 s
  | .ethOther ethertype => Sys2Proof.Machine.execEthOther ethertype s
  | .mac154Parse => Sys2Proof.Machine.execMac154Parse s
  | .mac154Data => Sys2Proof.Machine.execMac154Data s
  | .mac154Other ftype => Sys2Proof.Machine.execMac154Other ftype s
  | .lowpanParse => Sys2Proof.Machine.execLowpanParse s
  | .lowpanIphc tf nh hlim => Sys2Proof.Machine.execLowpanIphc tf nh hlim s
  | .lowpanOther d => Sys2Proof.Machine.execLowpanOther d s
  | .nhcUdp c p => Sys2Proof.Machine.execNhcUdp c p s
  | .nhcOther c => Sys2Proof.Machine.execNhcOther c s
  | .arpParse => Sys2Proof.Machine.execArpParse s
  | .arpRequest => Sys2Proof.Machine.execArpRequest s
  | .arpReply => Sys2Proof.Machine.execArpReply s
  | .arpOther oper => Sys2Proof.Machine.execArpOther oper s
  | .ip4Parse => Sys2Proof.Machine.execIp4Parse s
  | .ip4Icmp => Sys2Proof.Machine.execIp4Icmp s
  | .ip4Udp => Sys2Proof.Machine.execIp4Udp s
  | .ip4Other protocol => Sys2Proof.Machine.execIp4Other protocol s
  | .ip6Parse => Sys2Proof.Machine.execIp6Parse s
  | .ip6Icmp6 => Sys2Proof.Machine.execIp6Icmp6 s
  | .ip6Udp => Sys2Proof.Machine.execIp6Udp s
  | .ip6Other nh => Sys2Proof.Machine.execIp6Other nh s
  | .icmp4Parse => Sys2Proof.Machine.execIcmp4Parse s
  | .icmp4Echo => Sys2Proof.Machine.execIcmp4Echo s
  | .icmp4Other typeCode => Sys2Proof.Machine.execIcmp4Other typeCode s
  | .icmp6Parse => Sys2Proof.Machine.execIcmp6Parse s
  | .icmp6Echo => Sys2Proof.Machine.execIcmp6Echo s
  | .icmp6Ns => Sys2Proof.Machine.execIcmp6Ns s
  | .icmp6Other typeCode => Sys2Proof.Machine.execIcmp6Other typeCode s
  | .udpParse => Sys2Proof.Machine.execUdpParse s
  | .udpCoap => Sys2Proof.Machine.execUdpCoap s
  | .udpEcho dport => Sys2Proof.Machine.execUdpEcho dport s
  | .coapParse => Sys2Proof.Machine.execCoapParse s
  | .coapGetLed => Sys2Proof.Machine.execCoapGetLed s
  | .coapPutLed => Sys2Proof.Machine.execCoapPutLed s
  | .coapNotFound code => Sys2Proof.Machine.execCoapNotFound code s
  | .coapNotAllowed code => Sys2Proof.Machine.execCoapNotAllowed code s
  | .coapOther code => Sys2Proof.Machine.execCoapOther code s
  | .build => Sys2Proof.Machine.execBuild s

end Sys2Proof.Machine
end

