-- ==== Sys2Proof/Machine/HostPort.lean ====
section
/-! DEFINITION. The host interface (spec/49_pipeline.md R391): what a sample of the inputs asks for, and the
outputs. -/

namespace Sys2Proof.Machine

/-- The host operation a sample of `rx_go` and `tx_take` selects. With both asserted the one the stage can
take goes first (DESIGN CHOICE, log 10); the other is refused, which changes nothing. -/
def hostSelector (stage : Stage) (rxGo : Option Half) (txTake : Bool) : Option Selector :=
  match rxGo, txTake, stage with
  | none, false, _ => none
  | none, true, _ => some .txTake
  | some _, true, .txPending => some .txTake
  | some len, _, _ => some (.rxGo len)

/-- A host write to `BUF` (R391): in `IDLE` only (R470); an address at or above `BUF_CAP` does not exist
(R46). -/
def State.hostWrite (addr : Half) (data : Byte) (s : State) : Out :=
  if s.stage ≠ .idle then .refused .hostWriteWindow
  else if addr.toNat < s.par.bufCap then .next { s with mem := memWrite addr.toNat data s.mem }
  else .fault .noSuchAddress

/-- `link_fault` is examined in `IDLE` and `TX_PENDING` only (R434). -/
def linkFaultSeen : Stage → Bool
  | .idle | .txPending => true
  | _ => false

/-- The output ports of R391 that are not the log port. -/
structure Ports where
  stage : BitVec 4
  txValid : Bool
  txLen : Half
  outcome : BitVec 2
  cause : BitVec 4
  cstage : BitVec 4
  fault : BitVec 2
  led : Bool
  deriving DecidableEq, Repr

/-- The outputs of R391 in a state. -/
def State.ports (s : State) : Ports where
  stage := stageCode s.stage
  txValid := s.stage = .txPending
  txLen := s.txlen
  outcome := outcomeCode s.outcome
  cause := causeCode s.cause
  cstage := stageCode s.cstage
  fault := s.fault
  led := s.led

/-- `buf_rdata` for `buf_addr` (R391); the host may look in `IDLE`, `TX_PENDING` and the halting stages only
(R470), and only at an address that exists. -/
def State.bufRdata (s : State) (addr : Half) : Option Byte :=
  if stageRuns s.stage ∨ s.par.bufCap ≤ addr.toNat then none else some (s.readBuf addr.toNat)

/-- The log port (R391, R446): the triples presented since the start, oldest first. -/
def State.logPort (s : State) : List (BitVec 2 × BitVec 4 × Half) := s.log.map eventCode

end Sys2Proof.Machine
end

