-- ==== Sys2Proof/Machine/Turn.lean ====
section
/-! DEFINITION. The two kinds of turn a step can be: one operation of a run (spec/49_pipeline.md R401), or, when
the block waits or is halted, one sample of the host's inputs (spec/60_exceptions.md R434, R435, R441). -/

namespace Sys2Proof.Machine

/-- Decode what the selector's bytes say and run it. -/
def runDecoded (sel : Selector) (bytes : List Byte) (s : State) : Out :=
  match decode sel bytes with
  | .ok i => exec i s
  | .error _ => .refused .undecodable

/-- One operation of a run. -/
def runTurn (s : State) : Out := runDecoded s.selector s.tagBytes s

/-- One sample of `link_fault`, `rx_go`, `tx_take`; `link_fault` wins (R435). -/
def linesTurn (linkFault : Bool) (rxGo : Option Half) (txTake : Bool) (s : State) : Out :=
  if linkFault ∧ linkFaultSeen s.stage then .next s.raiseFatal
  else
    match hostSelector s.stage rxGo txTake with
    | none => .next s
    | some sel => runDecoded sel [] s

/-- The host's turn: the next sample is used up. With no sample left the block waits (log 29). -/
def hostTurn (s : State) : Out :=
  match s.host with
  | [] => .next s
  | .reset straps :: later => .next (s.hardReset straps later)
  | .bufWrite addr data :: later => { s with host := later }.hostWrite addr data
  | .lines linkFault rxGo txTake :: later => linesTurn linkFault rxGo txTake { s with host := later }

/-- One step. Reset overrides everything, in every stage (R435, R460); otherwise a run goes on to its end
before the host is looked at (R401, R434). -/
def turn (s : State) : Out :=
  match s.host with
  | .reset straps :: later => .next (s.hardReset straps later)
  | _ => if stageRuns s.stage then runTurn s else hostTurn s

end Sys2Proof.Machine
end

