-- ==== Sys2Proof/Machine/Step.lean ====
section
/-! DEFINITION. The step function and the placing of a table word (spec/49_pipeline.md R401, R405). -/

namespace Sys2Proof.Machine

/-- One step of the machine. -/
def step (s : State) : Host.Outcome State Fault Refusal := turn s

/-- The state in which the operation a table word stands for is the next one (logs 12 and 13). -/
def State.withFetchWord (s : State) (nbits w : Nat) : State :=
  match decodeTableWord nbits w with
  | some i => s.placeInstr i
  | none => s

end Sys2Proof.Machine
end

