-- ==== Sys2Proof/Safety.lean ====
section
/-! DEFINITION. The terms claims are stated in: the invariant of the machine, the progress of a run, and the
tables of transitions and drops (spec/10_state.md, spec/49_pipeline.md R405, R412, spec/60_exceptions.md R422,
R446, R448, spec/70_reset_and_hazards.md R476). -/

namespace Sys2Proof.Machine

/-! ## The view -/

/-- The current view lies inside the buffer (R21). -/
abbrev State.viewOk (s : State) : Prop := s.vbase.toNat + s.vlen.toNat ≤ s.par.bufCap

/-- The bytes of the current view, `BUF[VBASE .. VBASE+VLEN)` (R21). -/
def State.view (s : State) : List Byte := s.memRead s.vbase.toNat s.vlen.toNat

/-- The upper-layer message `U` of R232. -/
def State.upper (s : State) : List Byte :=
  if s.cfg.link = .lowpan ∧ s.latched.udpNhc then s.scratchRead 40 8 ++ s.view else s.view

/-! ## Stages -/

/-- The parsing stages: those of a run before `BUILD` (R21, R81). -/
def stageParses : Stage → Bool
  | .build => false
  | st => stageRuns st

/-- The link a stage exists for (R405: from `RX_ACCEPT` on, the Ethernet stages are reached with `LINK = ETH`
and the 802.15.4 stages with `LINK = LOWPAN`). -/
def stageFits : Stage → Link → Bool
  | .eth, l | .arp, l | .ipv4, l | .icmp4, l => l = .eth
  | .mac154, l | .lowpan, l => l = .lowpan
  | _, _ => true

/-- The stages whose operation executes `STAGE <- BUILD` (R402). -/
def stageHandles : Stage → Bool
  | .arp | .icmp4 | .icmp6 | .udp | .coap => true
  | _ => false

/-- The transitions of `STAGE` that R405 tabulates, reset left out. -/
def legalMove : Stage → Stage → Bool
  | .idle, .eth | .idle, .mac154 => true
  | .eth, .arp | .eth, .ipv4 | .eth, .ipv6 => true
  | .mac154, .lowpan | .lowpan, .ipv6 => true
  | .arp, .build | .icmp4, .build | .icmp6, .build | .udp, .build | .coap, .build => true
  | .ipv4, .icmp4 | .ipv4, .udp | .ipv6, .icmp6 | .ipv6, .udp | .udp, .coap => true
  | .build, .txPending | .txPending, .idle => true
  | .idle, .haltFatal | .txPending, .haltFatal => true
  | st, .idle | st, .haltAbort => stageRuns st
  | _, _ => false

/-- Which stage can raise which cause (the matrix of R422). -/
def dropAllowed : Stage → Cause → Bool
  | .eth, .truncated | .eth, .unsupported => true
  | .mac154, .truncated | .mac154, .unsupported => true
  | .lowpan, .truncated | .lowpan, .unsupported => true
  | .arp, .truncated | .arp, .badLength | .arp, .unsupported | .arp, .notForUs | .arp, .consumed => true
  | .ipv4, .truncated | .ipv4, .badLength | .ipv4, .badVersion | .ipv4, .unsupported
  | .ipv4, .badChecksum | .ipv4, .notForUs => true
  | .ipv6, .truncated | .ipv6, .badLength | .ipv6, .badVersion | .ipv6, .unsupported | .ipv6, .notForUs => true
  | .icmp4, .truncated | .icmp4, .unsupported | .icmp4, .badChecksum => true
  | .icmp6, .truncated | .icmp6, .unsupported | .icmp6, .badChecksum | .icmp6, .notForUs => true
  | .udp, .truncated | .udp, .badLength | .udp, .badChecksum => true
  | .coap, .truncated | .coap, .badLength | .coap, .badVersion | .coap, .unsupported => true
  | .build, .noSpace => true
  | _, _ => false

/-- An event that ends a run (R446). -/
def Event.ends : Event → Bool
  | .send _ _ | .drop _ _ => true
  | .valid _ | .cache _ => false

/-- A bound on the operations left in a run: it falls with every operation (R412). -/
def runRank : Stage → Phase → Nat
  | .build, _ => 1
  | .arp, .entry | .icmp4, .entry | .icmp6, .entry | .coap, .entry => 3
  | .arp, _ | .icmp4, _ | .icmp6, _ | .coap, _ => 2
  | .udp, .entry => 5
  | .udp, _ => 4
  | .ipv4, .entry | .ipv6, .entry => 7
  | .ipv4, _ | .ipv6, _ => 6
  | .eth, .entry => 9
  | .eth, _ => 8
  | .lowpan, .nhc => 8
  | .lowpan, .dispatch => 9
  | .lowpan, .entry => 10
  | .mac154, .entry => 12
  | .mac154, _ => 11
  | .idle, _ | .txPending, _ | .haltFatal, _ | .haltAbort, _ => 0

/-! ## The host -/

/-- The next input sample is a reset. -/
def State.resetNext (s : State) : Bool :=
  match s.host with
  | .reset _ :: _ => true
  | _ => false

/-- The host keeps to its duties in the next sample: if the block would take a write to `BUF` now, it is in
`IDLE` and the address exists (R46, R470). -/
def State.inputOk (s : State) : Bool :=
  match s.host with
  | .bufWrite addr _ :: _ => stageRuns s.stage || (s.stage = .idle && addr.toNat < s.par.bufCap)
  | _ => true

/-- What the host presents to hand over the frame `f` (R463): it writes the bytes to `BUF[0..|f|)`, then issues
`RX_ACCEPT(|f|)`. -/
def frameInputs (f : List Byte) : List HostInput :=
  (f.zipIdx.map fun b => .bufWrite (BitVec.ofNat 16 b.2) b.1)
    ++ [.lines false (some (BitVec.ofNat 16 f.length)) false]

/-- The ports that the inline bytes `i` of an NHC header stand for (the table of R137). -/
def portsOfInline (p : BitVec 2) (i : List Byte) : Nat × Nat :=
  let b := fun k => (byteAt i k).toNat
  if p = 0#2 then (256 * b 0 + b 1, 256 * b 2 + b 3)
  else if p = 1#2 then (256 * b 0 + b 1, 0xF000 + b 2)
  else if p = 2#2 then (0xF000 + b 0, 256 * b 1 + b 2)
  else (0xF0B0 + b 0 / 16, 0xF0B0 + b 0 % 16)

/-- How many inline bytes carry the ports (the table of R137). -/
def inlinePortBytes (p : BitVec 2) : Nat := if p = 0#2 then 4 else if p = 3#2 then 1 else 3

/-- A delta or length as its nibble and its extension bytes (R122). -/
def coapNibble (n : Nat) : Nat × List Byte :=
  if n < 13 then (n, [])
  else if n < 269 then (13, bytesBE 1 (n - 13))
  else (14, bytesBE 2 (n - 269))

/-- An option of a CoAP message: its delta and its value (R122). -/
def coapOptionBytes (delta : Nat) (value : List Byte) : List Byte :=
  let d := coapNibble delta
  let l := coapNibble value.length
  BitVec.ofNat 8 (16 * d.1 + l.1) :: (d.2 ++ l.2 ++ value)

/-- The Uri-Path values of a sequence of options given by deltas: those whose number is 11 (R123, R353). -/
def uriPathOf : Nat → List (Nat × List Byte) → List (List Byte)
  | _, [] => []
  | num, o :: os => (if num + o.1 = 11 then [o.2] else []) ++ uriPathOf (num + o.1) os

/-! ## The invariant -/

/-- A cache holds at most its capacity, its keys distinct (R40). -/
def CacheOk {K V : Type} (cap : Nat) (es : List (K × V)) : Prop :=
  es.length ≤ cap ∧ (es.map Prod.fst).Nodup

/-- `RESP_ARP` and `RESP_IP4` occur only when `LINK = ETH` (R406). -/
def Resp.fits : Resp → Link → Bool
  | .arp _ _, l | .ip4 _, l => l = .eth
  | .ip6 _ _, _ => true

/-- `SCRATCH[a..b)` has been written since its contents last became unspecified. -/
def State.scratchReady (s : State) (a b : Nat) : Prop := ∀ i, a ≤ i → i < b → (memFind i s.scratch).isSome

/-- What holds in every state a run or the host can bring about. -/
structure Inv (s : State) : Prop where
  /-- R7. -/
  par : s.par.ok
  memWf : Memory.wf s.mem
  memWithin : Memory.within s.par.bufCap s.mem
  scratchWf : Memory.wf s.scratch
  /-- R45: `SCRATCH` has 48 bytes. -/
  scratchWithin : Memory.within 48 s.scratch
  /-- R21, R400. -/
  rxlen : s.rxlen.toNat ≤ s.par.bufCap
  /-- R8, R409. -/
  txlen : s.txlen.toNat ≤ s.txLimit
  /-- R476. -/
  view : s.viewOk
  /-- R21, R476: while a received frame is parsed the view lies inside it. -/
  parseView : stageParses s.stage → s.vbase.toNat + s.vlen.toNat ≤ s.rxlen.toNat
  /-- R476: the abort is unreachable. -/
  noAbort : s.stage ≠ .haltAbort
  /-- R405. -/
  link : stageFits s.stage s.cfg.link
  /-- The second tag exists in stage `LOWPAN` only (R140). -/
  nhcPhase : s.phase = .nhc → s.stage = .lowpan
  /-- A stage without a tag has only its entry. -/
  entryPhase : stageParses s.stage = false → s.phase = .entry
  /-- R22. -/
  llSrc : s.llSrc.fits s.cfg.link
  /-- R22. -/
  llDst : s.llDst.fits s.cfg.link
  /-- R40, R43. -/
  arp : CacheOk s.par.arpCap s.arp
  /-- R40, R44. -/
  nbr : CacheOk s.par.nbrCap s.nbr
  /-- R44. -/
  nbrFits : ∀ e ∈ s.nbr, e.2.fits s.cfg.link
  /-- R171: past `ETH.PARSE` the view holds the header. -/
  ethHeader : s.stage = .eth → s.phase = .dispatch → 14 ≤ s.vlen.toNat
  /-- R211: past `IP4.PARSE` the header has its 20 bytes, and it and the packet lie inside the view. -/
  ip4Header : s.stage = .ipv4 → s.phase = .dispatch → 20 ≤ s.latched.ip4.hl ∧
    s.latched.ip4.hl ≤ s.latched.ip4.totalLength.toNat ∧ s.latched.ip4.totalLength.toNat ≤ s.vlen.toNat
  /-- R303: the cursor stays inside the view. -/
  cursor : s.phase = .nhc → s.latched.iphc.o ≤ s.vlen.toNat
  /-- R474: `SCRATCH[0..40)` is written before the `IPV6` stage reads it. -/
  scratchIp6 : s.cfg.link = .lowpan → s.stage = .ipv6 → s.scratchReady 0 40
  /-- R474: `SCRATCH[40..48)` is written before it is read as part of `U`. -/
  scratchUdp : s.cfg.link = .lowpan → s.latched.udpNhc → s.stage ∈ [Stage.ipv6, .icmp6, .udp] → s.scratchReady 40 48
  /-- R215, R405: the IPv4 context occurs only when `LINK = ETH`. -/
  net : s.stage ∈ [Stage.udp, .coap] → s.latched.net = .ip4 → s.cfg.link = .eth
  /-- R406: `BUILD` has a response record it can serialise. -/
  resp : s.stage = .build → ∃ r, s.latched.resp = some r ∧ r.fits s.cfg.link
  /-- R402. -/
  handler : s.stage = .build → stageHandles s.latched.hstage
  /-- R26. -/
  status : s.outcome = .dropped ↔ s.cause ≠ .none
  /-- R27, R434: `FATAL_IO` is set exactly in `HALT_FATAL`, which only reset leaves. -/
  fatal : s.fault.getLsbD 0 = decide (s.stage = .haltFatal)
  /-- R27, R436, R476. -/
  invariant : s.fault.getLsbD 1 = false

end Sys2Proof.Machine
end

