-- ==== Sys2Proof/Certificates/Slice0/Obligations.lean ====
section
/-! DEFINITION. The statements for the provers. An equation `exec i s = .next (a record update of s)` is the
operation's result and its whole frame: every field it does not name is unchanged, so every register, cache,
flag and byte of `BUF` it does not name reads as before. -/

section

open Sys2Proof Sys2Proof.Machine

/-! ## Encoding and selection -/

/-- Decoding the tag bytes of a well-formed operation, at the selector they stand at, gives the operation back,
with every operand (R140, R141). -/
def Obligations.DecodeOfEncodeIsIdentity : Prop :=
  ∀ (port : Half) (i : Instr), i.wf port → decode (selectorOf port i) (encode port i) = .ok i

/-- Dispatch is total (R141): every tag of the right width selects an operation, and a well-formed one; a tag of
another width selects none. -/
def Obligations.DispatchIsTotal : Prop :=
  ∀ (port : Half) (sel : Selector) (bytes : List Byte), (∀ p, sel = .dport p → p = port) →
    (bytes.length = sel.width → (∀ st, sel = .entry st → stageRuns st) →
      ∃ i, decode sel bytes = .ok i ∧ i.wf port) ∧
    (bytes.length ≠ sel.width → decode sel bytes = .error .wrongWidth)

/-- The dispatch map of R140, row for row, on tags as they stand in the frame. -/
def Obligations.DispatchMapRowForRow : Prop :=
  (∀ v : Half, decode .ethertype (toBE 2 v) = .ok (if v = 0x0806#16 then .ethArp
    else if v = 0x0800#16 then .ethIpv4 else if v = 0x86DD#16 then .ethIpv6 else .ethOther v)) ∧
  (∀ a : Byte, decode .ftype [a] =
    .ok (if a.toNat % 8 = 1 then .mac154Data else .mac154Other (BitVec.ofNat 3 a.toNat))) ∧
  (∀ d : Byte, decode .dispatch [d] = .ok (if d.toNat / 32 = 3
    then .lowpanIphc (BitVec.ofNat 2 (d.toNat / 8)) (BitVec.ofNat 1 (d.toNat / 4)) (BitVec.ofNat 2 d.toNat)
    else .lowpanOther d)) ∧
  (∀ c : Byte, decode .nhc [c] = .ok (if c.toNat / 8 = 30
    then .nhcUdp (BitVec.ofNat 1 (c.toNat / 4)) (BitVec.ofNat 2 c.toNat) else .nhcOther c)) ∧
  (∀ v : Half, decode .oper (toBE 2 v) =
    .ok (if v = 1#16 then .arpRequest else if v = 2#16 then .arpReply else .arpOther v)) ∧
  (∀ v : Byte, decode .protocol [v] =
    .ok (if v = 1#8 then .ip4Icmp else if v = 17#8 then .ip4Udp else .ip4Other v)) ∧
  (∀ v : Byte, decode .nextHeader [v] =
    .ok (if v = 58#8 then .ip6Icmp6 else if v = 17#8 then .ip6Udp else .ip6Other v)) ∧
  (∀ v : Half, decode .icmp4 (toBE 2 v) = .ok (if v = 0x0800#16 then .icmp4Echo else .icmp4Other v)) ∧
  (∀ v : Half, decode .icmp6 (toBE 2 v) = .ok (if v = 0x8000#16 then .icmp6Echo
    else if v = 0x8700#16 then .icmp6Ns else .icmp6Other v)) ∧
  (∀ port v : Half, decode (.dport port) (toBE 2 v) = .ok (if v = port then .udpCoap else .udpEcho v)) ∧
  (∀ (t : BitVec 2) (known : Bool) (code : Byte), decode (.coap t known) [code] = .ok (
    if 2 ≤ t.toNat ∨ code.toNat = 0 ∨ 32 ≤ code.toNat then .coapOther code
    else if known = false then .coapNotFound code
    else if code.toNat = 1 then .coapGetLed
    else if code.toNat = 3 then .coapPutLed
    else .coapNotAllowed code))

/-- A few tags, byte for byte as the spec's formats give them, decode to their operations (R91, R93, R95, R106,
R110, R112, R118, R120, R126, R131, R137). -/
def Obligations.KnownTagsDecode : Prop :=
  decode .ethertype [0x86#8, 0xDD#8] = .ok .ethIpv6 ∧
  decode .ftype [0x41#8] = .ok .mac154Data ∧
  decode .dispatch [0x7E#8] = .ok (.lowpanIphc 3#2 1#1 2#2) ∧
  decode .nhc [0xF3#8] = .ok (.nhcUdp 0#1 3#2) ∧
  decode .oper [0x00#8, 0x01#8] = .ok .arpRequest ∧
  decode .protocol [0x11#8] = .ok .ip4Udp ∧
  decode .nextHeader [0x3A#8] = .ok .ip6Icmp6 ∧
  decode .icmp4 [0x08#8, 0x00#8] = .ok .icmp4Echo ∧
  decode .icmp6 [0x87#8, 0x00#8] = .ok .icmp6Ns ∧
  decode (.dport 5683#16) [0x16#8, 0x33#8] = .ok .udpCoap ∧
  decode (.coap 0#2 true) [0x01#8] = .ok .coapGetLed ∧
  decode .ethertype [0x88#8] = .error .wrongWidth

/-- In a run a step is the meaning of the operation that the stage's tag decodes to; at a host request it is the
meaning of `RX_ACCEPT` or `TX_TAKE` on the state whose next input sample is used up (R401, R400, R403). -/
def Obligations.StepRunsTheDecodedOperation : Prop :=
  (∀ (s : State) (i : Instr), stageRuns s.stage → s.resetNext = false →
    decode s.selector s.tagBytes = .ok i → step s = exec i s) ∧
  (∀ (s : State) (len : Half) (later : List HostInput), stageRuns s.stage = false →
    s.host = .lines false (some len) false :: later →
    step s = exec (.rxAccept len) { s with host := later }) ∧
  (∀ (s : State) (later : List HostInput), stageRuns s.stage = false →
    s.host = .lines false none true :: later → step s = exec .txTake { s with host := later })

/-- A stage's entry operation reads the tag that selects the next one from the frame: when it ends in the
stage's dispatch, the tag bytes are the frame's bytes at the tag's place (R91, R127, R130, R93, R95, R106, R110,
R112, R118, R120); the path half of CoAP's selector is R354's test, exactly the one segment `led`. -/
def Obligations.EntryReadsTheTagFromTheFrame : Prop :=
  (∀ s t : State, s.stage = .eth → exec .ethParse s = .next t → t.phase = .dispatch →
    t.selector = .ethertype ∧ t.tagBytes = slice s.view 12 14) ∧
  (∀ s t : State, s.stage = .mac154 → exec .mac154Parse s = .next t → t.phase = .dispatch →
    t.selector = .ftype ∧ t.tagBytes = slice s.view 0 1) ∧
  (∀ s t : State, s.stage = .lowpan → exec .lowpanParse s = .next t → t.phase = .dispatch →
    t.selector = .dispatch ∧ t.tagBytes = slice s.view 0 1) ∧
  (∀ s t : State, s.stage = .arp → exec .arpParse s = .next t → t.phase = .dispatch →
    t.selector = .oper ∧ t.tagBytes = slice s.view 6 8) ∧
  (∀ s t : State, s.stage = .ipv4 → exec .ip4Parse s = .next t → t.phase = .dispatch →
    t.selector = .protocol ∧ t.tagBytes = slice s.view 9 10) ∧
  (∀ s t : State, s.stage = .ipv6 → exec .ip6Parse s = .next t → t.phase = .dispatch →
    t.selector = .nextHeader ∧
      t.tagBytes = slice (if s.cfg.link = .eth then s.view else s.scratchRead 0 40) 6 7) ∧
  (∀ s t : State, s.stage = .icmp4 → exec .icmp4Parse s = .next t → t.phase = .dispatch →
    t.selector = .icmp4 ∧ t.tagBytes = slice s.view 0 2) ∧
  (∀ s t : State, s.stage = .icmp6 → exec .icmp6Parse s = .next t → t.phase = .dispatch →
    t.selector = .icmp6 ∧ t.tagBytes = slice s.upper 0 2) ∧
  (∀ s t : State, s.stage = .udp → exec .udpParse s = .next t → t.phase = .dispatch →
    t.selector = .dport s.cfg.coapPort ∧ t.tagBytes = slice s.upper 2 4) ∧
  (∀ s t : State, s.stage = .coap → exec .coapParse s = .next t → t.phase = .dispatch →
    t.tagBytes = slice s.latched.udp.payload 1 2 ∧
      t.selector = .coap ((byteAt s.latched.udp.payload 0).extractLsb' 4 2)
        (decide (t.latched.coap.segs = [[0x6C#8, 0x65#8, 0x64#8]])))

/-! ## Reset, the host and the exceptions -/

/-- R50: the value of every piece of state after reset, for any capacities and straps; `BUF` and `SCRATCH` hold
no specified byte; the values of `LL_SRC`, `LL_DST`, `PAN_SRC`, `PAN_DST` are unspecified and nothing is said of
them. -/
def Obligations.ResetLeavesTheTabulatedValues : Prop :=
  ∀ (par : Params) (straps : Straps), let s := State.resetWith par straps
    s.stage = .idle ∧ s.vbase = 0#16 ∧ s.vlen = 0#16 ∧ s.rxlen = 0#16 ∧ s.txlen = 0#16 ∧
    s.outcome = .none ∧ s.cause = .none ∧ s.cstage = .idle ∧ s.fault = 0#2 ∧ s.led = false ∧ s.dsn = 0#8 ∧
    s.arp = [] ∧ s.nbr = [] ∧ s.scratch = [] ∧ s.mem = [] ∧ s.cfg = straps ∧
    stageCode s.stage = 0#4 ∧ outcomeCode s.outcome = 0#2 ∧ causeCode s.cause = 0#4 ∧ stageCode s.cstage = 0#4

/-- R460, R462, R435: reset is taken in every stage, before anything else, and leaves the state of R50 with the
straps it samples; nothing of the block's state survives. The model's choices in it: R50 leaves `LL_SRC`, `LL_DST`,
`PAN_SRC` and `PAN_DST` unspecified and `State.resetWith` takes zero (log 4, unsafe), the parse records are empty
(log 7); the log, the host's later samples, the capacities and the epochs of the free values are not state of the
block (logs 9, 11, 20). -/
def Obligations.ResetOverridesEverything : Prop :=
  ∀ (s : State) (straps : Straps) (later : List HostInput), s.host = .reset straps :: later →
    step s = .next { State.resetWith s.par straps with
      host := later, log := s.log, epoch := s.epoch + 1, scratchEpoch := s.scratchEpoch + 1 }

/-- R400: `RX_ACCEPT`. R403: `TX_TAKE`; the parse records are discarded with the return to `IDLE` (R47). Out of their
stage both are refused: nothing changes. -/
def Obligations.HostRequestsMoveTheFrame : Prop :=
  (∀ s : State,
    (s.stage = .txPending → exec .txTake s = .next { s with
      stage := .idle, phase := .entry, latched := Records.empty }) ∧
    (s.stage ≠ .txPending → exec .txTake s = .next s)) ∧
  ∀ (len : Half) (s : State),
    (s.stage = .idle ∧ len.toNat ≤ s.par.bufCap → exec (.rxAccept len) s = .next { s with
      rxlen := len, txlen := 0#16, vbase := 0#16, vlen := len
      stage := if s.cfg.link = .eth then .eth else .mac154
      phase := .entry }) ∧
    (¬ (s.stage = .idle ∧ len.toNat ≤ s.par.bufCap) → exec (.rxAccept len) s = .next s)

/-- R434, R435: a fatal I/O error is taken in `IDLE` and `TX_PENDING`, wins over a request in the same sample and
changes `FAULT` and `STAGE` only; in the halting stages every sample of the lines changes nothing; a run is not
interrupted by it; the halting stages are left only by reset. That a sample which comes during a run is kept until
the run has ended, its `rx_go` and `tx_take` with it (`t.host = s.host`), is the model's choice (log 9, unsafe: R434
makes `link_fault` a level, and R400 and R473 refuse a request outside its stage). -/
def Obligations.LinkFaultHaltsBetweenRuns : Prop :=
  (∀ (s : State) (rx : Option Half) (take : Bool) (later : List HostInput),
    s.stage = .idle ∨ s.stage = .txPending → s.host = .lines true rx take :: later →
    step s = .next { s with host := later, fault := s.fault ||| 1#2, stage := .haltFatal, phase := .entry }) ∧
  (∀ (s : State) (fault : Bool) (rx : Option Half) (take : Bool) (later : List HostInput),
    s.stage = .haltFatal ∨ s.stage = .haltAbort → s.host = .lines fault rx take :: later →
    step s = .next { s with host := later }) ∧
  (∀ (s : State) (fault : Bool) (rx : Option Half) (take : Bool) (later : List HostInput),
    Inv s → stageRuns s.stage → s.host = .lines fault rx take :: later →
    ∃ t, step s = .next t ∧ t.host = s.host ∧ t.fault = s.fault) ∧
  (∀ s t : State, s.stage = .haltFatal ∨ s.stage = .haltAbort → s.resetNext = false → step s = .next t →
    t = { s with host := t.host })

/-- R470, R46, R391: in `IDLE` the host stores one byte and changes no other; it may read in `IDLE`, `TX_PENDING` and
the halting stages and sees the byte that is there. The rest is the model's reading: an address at or above
`BUF_CAP` does not exist, so a write there stops by the fault `noSuchAddress` and a read answers nothing (log 16); a
write in `TX_PENDING` or a halting stage, and a read in a run, are the violations R470 says to treat as refuse (log
17), although R391 calls `TX_PENDING` legal for every access (log 18). A write that comes during a run waits for its
end (log 9) and is not spoken of here. -/
def Obligations.HostWritesTheBufferInIdle : Prop :=
  (∀ (s : State) (a : Half),
    ((s.stage = .idle ∨ s.stage = .txPending ∨ s.stage = .haltFatal ∨ s.stage = .haltAbort) →
      a.toNat < s.par.bufCap → s.bufRdata a = some (s.readBuf a.toNat)) ∧
    (s.stage ≠ .idle → s.stage ≠ .txPending → s.stage ≠ .haltFatal → s.stage ≠ .haltAbort → s.bufRdata a = none) ∧
    (s.par.bufCap ≤ a.toNat → s.bufRdata a = none)) ∧
  ∀ (s : State) (a : Half) (b : Byte) (later : List HostInput), s.host = .bufWrite a b :: later →
    (s.stage = .idle → a.toNat < s.par.bufCap → ∃ m, step s = .next { s with host := later, mem := m } ∧
      ({ s with mem := m } : State).readBuf a.toNat = b ∧
      ∀ x, x ≠ a.toNat → ({ s with mem := m } : State).readBuf x = s.readBuf x) ∧
    (s.stage = .idle → s.par.bufCap ≤ a.toNat → step s = .fault .noSuchAddress) ∧
    (s.stage ≠ .idle → stageRuns s.stage = false → step s = .refused .hostWriteWindow)

/-- R424: the trap entry. `BUF` holds no specified byte afterwards (R66, R423) and the parse records are
discarded (R47); nothing else changes. -/
def Obligations.DropIsTheTrapEntry : Prop :=
  ∀ (s : State) (st : Stage) (c : Cause), s.drop st c = .next { s with
    outcome := .dropped, cause := c, cstage := st
    log := s.log ++ [.drop st c]
    txlen := 0#16
    stage := .idle, phase := .entry
    latched := Records.empty, mem := [], epoch := s.epoch + 1 }

/-- R436: the abort sets `FAULT.INVARIANT` and halts; `OUTCOME`, `CAUSE`, `CSTAGE` and every register that R436
does not name keep their values, and no event is emitted. After it every host request is refused. (`BUF`, the
working registers and `SCRATCH` are unspecified, so nothing is said of them: log 15.) -/
def Obligations.AbortHaltsAndKeepsTheStatus : Prop :=
  (∀ s : State, let t := s.raiseAbort
    t.fault = s.fault ||| 2#2 ∧ t.stage = .haltAbort ∧ t.outcome = s.outcome ∧ t.cause = s.cause ∧
    t.cstage = s.cstage ∧ t.log = s.log ∧ t.rxlen = s.rxlen ∧ t.txlen = s.txlen ∧ t.led = s.led ∧
    t.dsn = s.dsn ∧ t.arp = s.arp ∧ t.nbr = s.nbr ∧ t.cfg = s.cfg ∧ t.par = s.par ∧ t.host = s.host) ∧
  ∀ (s : State) (len : Half), s.stage = .haltAbort → exec (.rxAccept len) s = .next s ∧ exec .txTake s = .next s

/-- R151, R152, R153: the micro-operations over the view, inside the bound of R72 and outside it. R152 and R153 ask
for `n ≥ 1`; that a `GET` or `SET` of no byte has the result the same pseudocode gives is the model's choice
(log 27). -/
def Obligations.ViewAccessReadsAndWritesTheBuffer : Prop :=
  (∀ (s : State) (off len : Nat) (k : State → Out), s.viewOk → s.par.bufCap ≤ 65535 →
    (off + len ≤ s.vlen.toNat → ∃ t, s.narrow off len k = k t ∧
      t = { s with vbase := t.vbase, vlen := t.vlen } ∧
      t.vbase.toNat = s.vbase.toNat + off ∧ t.vlen.toNat = len) ∧
    (s.vlen.toNat < off + len → s.narrow off len k = s.drop s.stage .truncated)) ∧
  (∀ (s : State) (off n : Nat) (k : List Byte → Out), s.viewOk →
    (off + n ≤ s.vlen.toNat → s.get off n k = k (slice s.view off (off + n))) ∧
    (s.vlen.toNat < off + n → s.get off n k = .next s.raiseAbort)) ∧
  (∀ (s : State) (off : Nat) (v : List Byte) (k : State → Out), s.viewOk →
    (off + v.length ≤ s.vlen.toNat →
      ∃ t, s.set off v k = k t ∧ t = { s with mem := t.mem } ∧
        (∀ (i : Nat) (h : i < v.length), t.readBuf (s.vbase.toNat + off + i) = v[i]) ∧
        ∀ a, a < s.vbase.toNat + off ∨ s.vbase.toNat + off + v.length ≤ a → t.readBuf a = s.readBuf a) ∧
    (s.vlen.toNat < off + v.length → s.set off v k = .next s.raiseAbort))

/-- R175, R178, R301, R216, R237, R197, R254, R263, R359: the default branches that only drop, whatever the tag. -/
def Obligations.DefaultBranchesDropUnsupported : Prop :=
  ∀ s : State,
    (∀ e, exec (.ethOther e) s = .next (s.raiseDrop .eth .unsupported)) ∧
    (∀ f, exec (.mac154Other f) s = .next (s.raiseDrop .mac154 .unsupported)) ∧
    (∀ d, exec (.lowpanOther d) s = .next (s.raiseDrop .lowpan .unsupported)) ∧
    (∀ o, exec (.arpOther o) s = .next (s.raiseDrop .arp .unsupported)) ∧
    (∀ p, exec (.ip4Other p) s = .next (s.raiseDrop .ipv4 .unsupported)) ∧
    (∀ n, exec (.ip6Other n) s = .next (s.raiseDrop .ipv6 .unsupported)) ∧
    (∀ t, exec (.icmp4Other t) s = .next (s.raiseDrop .icmp4 .unsupported)) ∧
    (∀ t, exec (.icmp6Other t) s = .next (s.raiseDrop .icmp6 .unsupported)) ∧
    (∀ c, exec (.coapOther c) s = .next (s.raiseDrop .coap .unsupported))

/-! ## Link layer -/

/-- R171 to R174: `ETH.PARSE`; then the view moves to the Ethernet payload, the next stage is entered and one event is
emitted. -/
def Obligations.EthLatchesAndHandsOver : Prop :=
  (∀ (s : State) (i : Instr) (st : Stage),
    (i, st) ∈ [(Instr.ethArp, Stage.arp), (.ethIpv4, .ipv4), (.ethIpv6, .ipv6)] →
    14 ≤ s.vlen.toNat → exec i s = .next { s with
      vbase := s.vbase + 14#16, vlen := s.vlen - 14#16
      log := s.log ++ [.valid .eth], stage := st, phase := .entry }) ∧
  ∀ s : State, s.viewOk →
    (s.vlen.toNat < 14 → exec .ethParse s = .next (s.raiseDrop .eth .truncated)) ∧
    (14 ≤ s.vlen.toNat → exec .ethParse s = .next { s with
      llDst := .mac48 (ofBE 48 (slice s.view 0 6))
      llSrc := .mac48 (ofBE 48 (slice s.view 6 12))
      latched := { s.latched with
        eth := ⟨ofBE 48 (slice s.view 0 6), ofBE 48 (slice s.view 6 12), ofBE 16 (slice s.view 12 14)⟩ }
      phase := .dispatch })

/-- R176, R177: `MAC154.PARSE` and `MAC154.DATA`; every field of the 802.15.4 header is least significant byte
first (R61). -/
def Obligations.Mac154DataLatchesTheAddresses : Prop :=
  ∀ s : State, s.viewOk →
    (s.vlen.toNat < 3 → exec .mac154Parse s = .next (s.raiseDrop .mac154 .truncated)) ∧
    (3 ≤ s.vlen.toNat → exec .mac154Parse s = .next { s with
      latched := { s.latched with mac := ⟨ofLE 16 (slice s.view 0 2), byteAt s.view 2⟩ }
      phase := .dispatch }) ∧
    (let f := s.latched.mac.fcf
     let dm : BitVec 2 := f.extractLsb' 10 2
     let sm : BitVec 2 := f.extractLsb' 14 2
     let panIn : Bool := !f.getLsbD 6
     let da := if dm = 2#2 then 2 else 8
     let sa := if sm = 2#2 then 2 else 8
     let hl := 3 + 2 + da + (if panIn then 2 else 0) + sa
     let reject := f.getLsbD 3 = true ∨ 2 ≤ (f.extractLsb' 12 2).toNat ∨ dm.toNat < 2 ∨ sm.toNat < 2
     (reject → exec .mac154Data s = .next (s.raiseDrop .mac154 .unsupported)) ∧
     (¬ reject → s.vlen.toNat < hl → exec .mac154Data s = .next (s.raiseDrop .mac154 .truncated)) ∧
     (¬ reject → hl ≤ s.vlen.toNat → exec .mac154Data s = .next { s with
        panDst := ofLE 16 (slice s.view 3 5)
        panSrc := if panIn then ofLE 16 (slice s.view (5 + da) (7 + da)) else ofLE 16 (slice s.view 3 5)
        llDst := if dm = 2#2 then .short (ofLE 16 (slice s.view 5 7)) else .ext (ofLE 64 (slice s.view 5 13))
        llSrc := if sm = 2#2 then .short (ofLE 16 (slice s.view (hl - 2) hl))
          else .ext (ofLE 64 (slice s.view (hl - 8) hl))
        vbase := s.vbase + BitVec.ofNat 16 hl, vlen := s.vlen - BitVec.ofNat 16 hl
        log := s.log ++ [.valid .mac154], stage := .lowpan, phase := .entry }))

/-! ## ARP -/

/-- R191, R192: `ARP.PARSE`, the checks in their order. -/
def Obligations.ArpParseValidatesThePacket : Prop :=
  ∀ s : State, s.viewOk →
    let v := s.view
    let a : ArpRec := ⟨ofBE 16 (slice v 0 2), ofBE 16 (slice v 2 4), byteAt v 4, byteAt v 5, ofBE 16 (slice v 6 8),
      ofBE 48 (slice v 8 14), ofBE 32 (slice v 14 18), ofBE 48 (slice v 18 24), ofBE 32 (slice v 24 28)⟩
    let reject : Option Cause :=
      if v.length < 28 then some .truncated
      else if a.htype ≠ 1#16 then some .unsupported
      else if a.ptype ≠ 0x0800#16 then some .unsupported
      else if a.hlen ≠ 6#8 then some .badLength
      else if a.plen ≠ 4#8 then some .badLength
      else none
    (∀ c, reject = some c → exec .arpParse s = .next (s.raiseDrop .arp c)) ∧
    (reject = none → exec .arpParse s = .next { s with latched := { s.latched with arp := a }, phase := .dispatch })

/-- R193, R194, R196: both message kinds learn the sender; a request for the device's address is answered with
the 28 bytes of R195, any other is dropped with the cache update kept. -/
def Obligations.ArpLearnsAndAnswers : Prop :=
  ∀ s : State,
    let a := s.latched.arp
    let learnt : State := { s with
      arp := cacheInsert s.par.arpCap a.spa a.sha s.arp
      log := s.log ++ [.cache .arp] }
    (a.tpa = s.cfg.ipv4 → exec .arpRequest s = .next { learnt with
      log := s.log ++ [.cache .arp, .valid .arp]
      latched := { s.latched with
        resp := some (.arp a.spa (toBE 2 a.htype ++ toBE 2 a.ptype ++ [a.hlen, a.plen, 0x00#8, 0x02#8]
          ++ toBE 6 s.cfg.mac ++ toBE 4 a.tpa ++ toBE 6 a.sha ++ toBE 4 a.spa))
        hstage := .arp }
      stage := .build, phase := .entry }) ∧
    (a.tpa ≠ s.cfg.ipv4 → exec .arpRequest s = .next (learnt.raiseDrop .arp .notForUs)) ∧
    exec .arpReply s = .next (learnt.raiseDrop .arp .consumed)

/-! ## IPv4 and ICMPv4 -/

/-- R211: `IP4.PARSE`, the checks in their order. -/
def Obligations.Ip4ParseValidatesTheHeader : Prop :=
  ∀ s : State, s.viewOk →
    let v := s.view
    let version : BitVec 4 := (byteAt v 0).extractLsb' 4 4
    let ihl : BitVec 4 := (byteAt v 0).extractLsb' 0 4
    let hl := 4 * ihl.toNat
    let total := ofBE 16 (slice v 2 4)
    let reject : Option Cause :=
      if v.length < 20 then some .truncated
      else if version ≠ 4#4 then some .badVersion
      else if ihl.toNat < 5 then some .badLength
      else if v.length < hl then some .badLength
      else if v.length < total.toNat then some .badLength
      else if total.toNat < hl then some .badLength
      else if onesSum (slice v 0 hl) ≠ 0xFFFF then some .badChecksum
      else if ofBE 32 (slice v 16 20) ≠ s.cfg.ipv4 then some .notForUs
      else none
    (∀ c, reject = some c → exec .ip4Parse s = .next (s.raiseDrop .ipv4 c)) ∧
    (reject = none → exec .ip4Parse s = .next { s with
      latched := { s.latched with ip4 := ⟨version, ihl, total, slice v 0 hl, byteAt v 9,
        ofBE 32 (slice v 12 16), ofBE 32 (slice v 16 20)⟩ }
      phase := .dispatch })

/-- R214, R215: the view becomes exactly the IPv4 payload. -/
def Obligations.Ip4HandsOverThePayload : Prop :=
  ∀ s : State,
    let h := s.latched.ip4
    let hl := 4 * h.ihl.toNat
    hl ≤ h.totalLength.toNat → h.totalLength.toNat ≤ s.vlen.toNat →
    exec .ip4Icmp s = .next { s with
      vbase := s.vbase + BitVec.ofNat 16 hl, vlen := h.totalLength - BitVec.ofNat 16 hl
      log := s.log ++ [.valid .ipv4], stage := .icmp4, phase := .entry } ∧
    exec .ip4Udp s = .next { s with
      vbase := s.vbase + BitVec.ofNat 16 hl, vlen := h.totalLength - BitVec.ofNat 16 hl
      latched := { s.latched with net := .ip4 }
      log := s.log ++ [.valid .ipv4], stage := .udp, phase := .entry }

/-- R218, R219: the packet of an IPv4 response, byte by byte; its header checksum is stored as computed over the
header with the field zero (R157; law 5 of R158: a computed `0x0000` stays `0x0000`), and verifies. -/
def Obligations.Ip4ReplyRewritesTheHeader : Prop :=
  ∀ (h : Ip4Rec) (payload : List Byte), 5 ≤ h.ihl.toNat → h.header.length = 4 * h.ihl.toNat →
    let hl := 4 * h.ihl.toNat
    let p := ip4Reply h payload
    p.length = hl + payload.length ∧ p.drop hl = payload ∧
    slice p 0 2 = slice h.header 0 2 ∧
    slice p 2 4 = bytesBE 2 (hl + payload.length) ∧
    slice p 4 8 = slice h.header 4 8 ∧
    byteAt p 8 = 64#8 ∧ byteAt p 9 = byteAt h.header 9 ∧
    slice p 10 12 = bytesBE 2 (0xFFFF - onesSum (slice p 0 10 ++ [0x00#8, 0x00#8] ++ slice p 12 hl)) ∧
    slice p 12 16 = toBE 4 h.dst ∧ slice p 16 20 = toBE 4 h.src ∧
    slice p 20 hl = slice h.header 20 hl ∧
    onesSum (p.take hl) = 0xFFFF

/-- R251, R252: `ICMP4.PARSE` and `ICMP4.ECHO`. -/
def Obligations.Icmp4EchoIsAnswered : Prop :=
  ∀ s : State, s.viewOk →
    let u := s.view
    let m := [0x00#8, 0x00#8, 0x00#8, 0x00#8] ++ u.drop 4
    (u.length < 4 → exec .icmp4Parse s = .next (s.raiseDrop .icmp4 .truncated)) ∧
    (4 ≤ u.length → exec .icmp4Parse s = .next { s with
      latched := { s.latched with icmp := ofBE 16 (slice u 0 2) }, phase := .dispatch }) ∧
    (u.length < 8 → exec .icmp4Echo s = .next (s.raiseDrop .icmp4 .truncated)) ∧
    (8 ≤ u.length → onesSum u ≠ 0xFFFF → exec .icmp4Echo s = .next (s.raiseDrop .icmp4 .badChecksum)) ∧
    (8 ≤ u.length → onesSum u = 0xFFFF → exec .icmp4Echo s = .next { s with
      log := s.log ++ [.valid .icmp4]
      latched := { s.latched with
        resp := some (.ip4 (ip4Reply s.latched.ip4 (patch m 2 (bytesBE 2 (0xFFFF - onesSum m)))))
        hstage := .icmp4 }
      stage := .build, phase := .entry })

/-! ## IPv6 and ICMPv6 -/

/-- R231, R233: `IP6.PARSE` on both links; the neighbour cache learns the sender of every packet that passes. -/
def Obligations.Ip6ParseLearnsTheNeighbour : Prop :=
  ∀ s : State, s.viewOk →
    let fields : List Byte → Ip6Rec := fun h =>
      { tc := BitVec.ofNat 8 (beNat (slice h 0 4) / 2 ^ 20), fl := BitVec.ofNat 20 (beNat (slice h 0 4))
        plen := ofBE 16 (slice h 4 6), nh := byteAt h 6, hlim := byteAt h 7
        src := ofBE 128 (slice h 8 24), dst := ofBE 128 (slice h 24 40) }
    let v := s.view
    let reject : Option Cause :=
      if v.length < 40 then some .truncated
      else if beNat (slice v 0 4) / 2 ^ 28 ≠ 6 then some .badVersion
      else if v.length - 40 < (fields v).plen.toNat then some .badLength
      else none
    (s.cfg.link = .eth → ∀ c, reject = some c → exec .ip6Parse s = .next (s.raiseDrop .ipv6 c)) ∧
    (s.cfg.link = .eth → reject = none → exec .ip6Parse s = .next { s with
      vbase := s.vbase + 40#16, vlen := (fields v).plen
      latched := { s.latched with ip6 := fields v }
      nbr := cacheInsert s.par.nbrCap (fields v).src s.llSrc s.nbr
      log := s.log ++ [.cache .ipv6], phase := .dispatch }) ∧
    (s.cfg.link = .lowpan → let h := s.scratchRead 0 40
      exec .ip6Parse s = .next { s with
        latched := { s.latched with ip6 := fields h }
        nbr := cacheInsert s.par.nbrCap (fields h).src s.llSrc s.nbr
        log := s.log ++ [.cache .ipv6], phase := .dispatch })

/-- R235, R236: the hand-over to ICMPv6 and, for the device's own address, to UDP. -/
def Obligations.Ip6HandsOverTheMessage : Prop :=
  ∀ s : State,
    exec .ip6Icmp6 s = .next { s with log := s.log ++ [.valid .ipv6], stage := .icmp6, phase := .entry } ∧
    (s.latched.ip6.dst = s.cfg.ipv6 → exec .ip6Udp s = .next { s with
      log := s.log ++ [.valid .ipv6], latched := { s.latched with net := .ip6 }
      stage := .udp, phase := .entry }) ∧
    (s.latched.ip6.dst ≠ s.cfg.ipv6 → exec .ip6Udp s = .next (s.raiseDrop .ipv6 .notForUs))

/-- R257, R258: `ICMP6.PARSE` and `ICMP6.ECHO`, with the pseudo-header of R259 and the reply header of R238. -/
def Obligations.Icmp6EchoIsAnswered : Prop :=
  ∀ s : State, s.viewOk →
    let u := s.upper
    let ip6 := s.latched.ip6
    let pseudo : BitVec 128 → BitVec 128 → List Byte → List Byte := fun src dst m =>
      toBE 16 src ++ toBE 16 dst ++ bytesBE 4 m.length ++ [0x00#8, 0x00#8, 0x00#8, 0x3A#8] ++ m
    let m := [0x81#8, 0x00#8, 0x00#8, 0x00#8] ++ u.drop 4
    (u.length < 4 → exec .icmp6Parse s = .next (s.raiseDrop .icmp6 .truncated)) ∧
    (4 ≤ u.length → exec .icmp6Parse s = .next { s with
      latched := { s.latched with icmp := ofBE 16 (slice u 0 2) }, phase := .dispatch }) ∧
    (u.length < 8 → exec .icmp6Echo s = .next (s.raiseDrop .icmp6 .truncated)) ∧
    (8 ≤ u.length → ip6.dst ≠ s.cfg.ipv6 → exec .icmp6Echo s = .next (s.raiseDrop .icmp6 .notForUs)) ∧
    (8 ≤ u.length → ip6.dst = s.cfg.ipv6 → onesSum (pseudo ip6.src ip6.dst u) ≠ 0xFFFF →
      exec .icmp6Echo s = .next (s.raiseDrop .icmp6 .badChecksum)) ∧
    (8 ≤ u.length → ip6.dst = s.cfg.ipv6 → onesSum (pseudo ip6.src ip6.dst u) = 0xFFFF →
      exec .icmp6Echo s = .next { s with
        log := s.log ++ [.valid .icmp6]
        latched := { s.latched with
          resp := some (.ip6
            { tc := 0#8, fl := 0#20, plen := BitVec.ofNat 16 m.length, nh := 58#8, hlim := 64#8
              src := s.cfg.ipv6, dst := ip6.src }
            (patch m 2 (bytesBE 2 (0xFFFF - onesSum (pseudo s.cfg.ipv6 ip6.src m)))))
          hstage := .icmp6 }
        stage := .build, phase := .entry })

/-- R260, R261: `ICMP6.NS`, the checks in their order and the Neighbor Advertisement. -/
def Obligations.NeighborSolicitationIsAnswered : Prop :=
  ∀ s : State, s.viewOk →
    let u := s.upper
    let ip6 := s.latched.ip6
    let pseudo : BitVec 128 → BitVec 128 → List Byte → List Byte := fun src dst m =>
      toBE 16 src ++ toBE 16 dst ++ bytesBE 4 m.length ++ [0x00#8, 0x00#8, 0x00#8, 0x3A#8] ++ m
    let m := [0x88#8, 0x00#8, 0x00#8, 0x00#8, 0x60#8, 0x00#8, 0x00#8, 0x00#8] ++ toBE 16 s.cfg.ipv6 ++
      (if s.cfg.link = .eth then [0x02#8, 0x01#8] ++ toBE 6 s.cfg.mac
       else [0x02#8, 0x02#8] ++ toBE 8 s.cfg.ext ++ [0x00#8, 0x00#8, 0x00#8, 0x00#8, 0x00#8, 0x00#8])
    let reject : Option Cause :=
      if u.length < 24 then some .truncated
      else if onesSum (pseudo ip6.src ip6.dst u) ≠ 0xFFFF then some .badChecksum
      else if ofBE 128 (slice u 8 24) ≠ s.cfg.ipv6 then some .notForUs
      else if ip6.src = 0#128 then some .unsupported
      else none
    (∀ c, reject = some c → exec .icmp6Ns s = .next (s.raiseDrop .icmp6 c)) ∧
    (reject = none → exec .icmp6Ns s = .next { s with
      log := s.log ++ [.valid .icmp6]
      latched := { s.latched with
        resp := some (.ip6
          { tc := 0#8, fl := 0#20, plen := BitVec.ofNat 16 m.length, nh := 58#8, hlim := 255#8
            src := s.cfg.ipv6, dst := ip6.src }
          (patch m 2 (bytesBE 2 (0xFFFF - onesSum (pseudo s.cfg.ipv6 ip6.src m)))))
        hstage := .icmp6 }
      stage := .build, phase := .entry })

/-! ## UDP -/

/-- R281, R282, R283: `UDP.PARSE`, the checks in their order; a zero checksum is not verified. -/
def Obligations.UdpParseValidatesTheDatagram : Prop :=
  ∀ s : State, s.viewOk →
    let u := s.upper
    let length := ofBE 16 (slice u 4 6)
    let checksum := ofBE 16 (slice u 6 8)
    let d := u.take length.toNat
    let l := s.latched
    let sum := match l.net with
      | .ip4 => onesSum (toBE 4 l.ip4.src ++ toBE 4 l.ip4.dst ++ [0x00#8, 0x11#8] ++ bytesBE 2 d.length ++ d)
      | .ip6 => onesSum (toBE 16 l.ip6.src ++ toBE 16 l.ip6.dst ++ bytesBE 4 d.length
          ++ [0x00#8, 0x00#8, 0x00#8, 0x11#8] ++ d)
    let reject : Option Cause :=
      if u.length < 8 then some .truncated
      else if length.toNat < 8 then some .badLength
      else if u.length < length.toNat then some .badLength
      else if checksum ≠ 0#16 ∧ sum ≠ 0xFFFF then some .badChecksum
      else none
    (∀ c, reject = some c → exec .udpParse s = .next (s.raiseDrop .udp c)) ∧
    (reject = none → exec .udpParse s = .next { s with
      latched := { l with udp := ⟨ofBE 16 (slice u 0 2), ofBE 16 (slice u 2 4), length, checksum,
        slice u 8 length.toNat⟩ }
      phase := .dispatch })

/-- R285, R286: the hand-over to CoAP, and the echo with the ports swapped and the payload unchanged. -/
def Obligations.UdpHandsOverOrEchoes : Prop :=
  ∀ s : State,
    exec .udpCoap s = .next { s with log := s.log ++ [.valid .udp], stage := .coap, phase := .entry } ∧
    ∀ d, exec (.udpEcho d) s = .next { s with
      log := s.log ++ [.valid .udp]
      latched := { s.latched with
        resp := some (udpWrap s.cfg s.latched s.latched.udp.dport s.latched.udp.sport s.latched.udp.payload)
        hstage := .udp }
      stage := .build, phase := .entry }

/-- R288, R289: the response datagram, its addresses swapped; its checksum is never zero and verifies. R286: `UDP.ECHO`
answers with that datagram, its ports swapped and the payload unchanged. -/
def Obligations.UdpResponseIsWellFormed : Prop :=
  (∀ (s : State) (d : Half), 8 + s.latched.udp.payload.length ≤ 65535 →
    ∃ ck : Half, ck ≠ 0#16 ∧
      let l := s.latched
      let u := toBE 2 l.udp.dport ++ toBE 2 l.udp.sport ++ bytesBE 2 (8 + l.udp.payload.length) ++ toBE 2 ck
        ++ l.udp.payload
      exec (.udpEcho d) s = .next { s with
        log := s.log ++ [.valid .udp]
        latched := { l with
          resp := some (match l.net with
            | .ip4 => .ip4 (ip4Reply l.ip4 u)
            | .ip6 => .ip6 { tc := 0#8, fl := 0#20, plen := BitVec.ofNat 16 u.length, nh := 17#8, hlim := 64#8
                             src := s.cfg.ipv6, dst := l.ip6.src } u)
          hstage := .udp }
        stage := .build, phase := .entry }) ∧
  ∀ (cfg : Straps) (l : Records) (sport dport : Half) (payload : List Byte), 8 + payload.length ≤ 65535 →
    ∃ ck : Half, ck ≠ 0#16 ∧
      let u := toBE 2 sport ++ toBE 2 dport ++ bytesBE 2 (8 + payload.length) ++ toBE 2 ck ++ payload
      (l.net = .ip4 → udpWrap cfg l sport dport payload = .ip4 (ip4Reply l.ip4 u) ∧
        onesSum (toBE 4 l.ip4.dst ++ toBE 4 l.ip4.src ++ [0x00#8, 0x11#8] ++ bytesBE 2 u.length ++ u) = 0xFFFF) ∧
      (l.net = .ip6 → udpWrap cfg l sport dport payload = .ip6
          { tc := 0#8, fl := 0#20, plen := BitVec.ofNat 16 u.length, nh := 17#8, hlim := 64#8
            src := cfg.ipv6, dst := l.ip6.src } u ∧
        onesSum (toBE 16 cfg.ipv6 ++ toBE 16 l.ip6.src ++ bytesBE 4 u.length
          ++ [0x00#8, 0x00#8, 0x00#8, 0x11#8] ++ u) = 0xFFFF)

/-! ## CoAP -/

/-- R351, R352, R355: `COAP.PARSE`: the header checks in their order, the request test before the options, and
the options and payload of a request (their parser is the subject of `CoapOptionsAreReadBack`). -/
def Obligations.CoapParseValidatesTheMessage : Prop :=
  ∀ s : State,
    let m := s.latched.udp.payload
    let tkl : BitVec 4 := (byteAt m 0).extractLsb' 0 4
    let r : CoapRec :=
      { ver := (byteAt m 0).extractLsb' 6 2, t := (byteAt m 0).extractLsb' 4 2, tkl := tkl, code := byteAt m 1
        mid := ofBE 16 (slice m 2 4), token := slice m 4 (4 + tkl.toNat), segs := [], payload := [] }
    let rest := m.drop (4 + tkl.toNat)
    let reject : Option Cause :=
      if m.length < 4 then some .truncated
      else if r.ver ≠ 1#2 then some .badVersion
      else if 8 < tkl.toNat then some .badLength
      else if m.length < 4 + tkl.toNat then some .badLength
      else none
    let request := r.code ≠ 0x00#8 ∧ r.code.toNat < 0x20 ∧ r.t.toNat < 2
    (∀ c, reject = some c → exec .coapParse s = .next (s.raiseDrop .coap c)) ∧
    (reject = none → ¬ request → exec .coapParse s = .next { s with
      latched := { s.latched with coap := r }, phase := .dispatch }) ∧
    (reject = none → request → ∀ c, coapOptions rest.length 0 rest = .error c →
      exec .coapParse s = .next (s.raiseDrop .coap c)) ∧
    (reject = none → request → ∀ segs payload, coapOptions rest.length 0 rest = .ok (segs, payload) →
      exec .coapParse s = .next { s with
        latched := { s.latched with coap := { r with segs := segs, payload := payload } }, phase := .dispatch })

/-- R353, R122 to R124: the parser reads back every sequence of options, whatever form their deltas and lengths
take, and the payload after the marker: the Uri-Path values are those of the options numbered 11. An error met after
good options is the answer. And what ends it with a drop, at an option whose nibbles are `d` and `l` (`num` is the
number of the option before): a marker with nothing after it, a reserved nibble, an extension byte missing of the
delta or, after a whole delta, of the length, and a value that runs past the end, whichever form its length takes. -/
def Obligations.CoapOptionsAreReadBack : Prop :=
  (∀ (opts : List (Nat × List Byte)) (payload : List Byte),
    (∀ o ∈ opts, o.1 < 65805 ∧ o.2.length < 65805) →
    let m := (opts.flatMap fun o => coapOptionBytes o.1 o.2) ++ (if payload = [] then [] else 0xFF#8 :: payload)
    coapOptions m.length 0 m = .ok (uriPathOf 0 opts, payload)) ∧
  (∀ (opts : List (Nat × List Byte)) (num : Nat) (tail : List Byte) (c : Cause),
    (∀ o ∈ opts, o.1 < 65805 ∧ o.2.length < 65805) →
    coapOptions tail.length (num + (opts.map Prod.fst).sum) tail = .error c →
    let m := (opts.flatMap fun o => coapOptionBytes o.1 o.2) ++ tail
    coapOptions m.length num m = .error c) ∧
  ∀ (fuel num : Nat) (b : Byte) (rest : List Byte),
    let d := b.toNat / 16
    let l := b.toNat % 16
    let ext : Nat → Nat := fun nibble => if nibble = 13 then 1 else if nibble = 14 then 2 else 0
    let len := if l = 13 then 13 + beNat (slice rest (ext d) (ext d + 1))
      else if l = 14 then 269 + beNat (slice rest (ext d) (ext d + 2)) else l
    (b = 0xFF#8 → rest = [] → coapOptions (fuel + 1) num (b :: rest) = .error .badLength) ∧
    (b ≠ 0xFF#8 → (d = 15 ∨ l = 15) → coapOptions (fuel + 1) num (b :: rest) = .error .unsupported) ∧
    (d ≠ 15 → l ≠ 15 → rest.length < ext d + ext l → coapOptions (fuel + 1) num (b :: rest) = .error .truncated) ∧
    (d ≠ 15 → l ≠ 15 → ext d + ext l ≤ rest.length → rest.length < ext d + ext l + len →
      coapOptions (fuel + 1) num (b :: rest) = .error .badLength)

/-- R362 to R365 with R357, R358: the routed operations, their response messages byte for byte, and `LED`, which
only a PUT whose body parses writes. -/
def Obligations.CoapRequestsAreAnswered : Prop :=
  ∀ s : State,
    let l := s.latched
    let msg : Byte → List Byte → List Byte := fun rcode body =>
      [BitVec.ofNat 8 (0x40 + 16 * (if l.coap.t = 0#2 then 2 else 1) + l.coap.tkl.toNat), rcode]
        ++ toBE 2 l.coap.mid ++ l.coap.token ++ (if body.length = 0 then [] else [0xFF#8] ++ body)
    let answered : Byte → List Byte → Bool → Out := fun rcode body led => .next { s with
      led := led
      log := s.log ++ [.valid .coap]
      latched := { l with
        resp := some (udpWrap s.cfg l l.udp.dport l.udp.sport (msg rcode body)), hstage := .coap }
      stage := .build, phase := .entry }
    exec .coapGetLed s = answered 0x45#8
      (if s.led
        then [0x7B#8, 0x22#8, 0x6C#8, 0x65#8, 0x64#8, 0x22#8, 0x3A#8, 0x74#8, 0x72#8, 0x75#8, 0x65#8, 0x7D#8]
        else [0x7B#8, 0x22#8, 0x6C#8, 0x65#8, 0x64#8, 0x22#8, 0x3A#8, 0x66#8, 0x61#8, 0x6C#8, 0x73#8, 0x65#8, 0x7D#8])
      s.led ∧
    (∀ v, parseLed l.coap.payload = some v → exec .coapPutLed s = answered 0x44#8 [] v) ∧
    (parseLed l.coap.payload = none → exec .coapPutLed s = answered 0x80#8 [] s.led) ∧
    (∀ code, exec (.coapNotFound code) s = answered 0x84#8 [] s.led) ∧
    (∀ code, exec (.coapNotAllowed code) s = answered 0x85#8 [] s.led)

/-- R360: `parse_led` accepts exactly the grammar. -/
def Obligations.ParseLedAcceptsTheGrammar : Prop :=
  ∀ (s : List Byte) (v : Bool), parseLed s = some v ↔
    ∃ w0 w1 w2 w3 w4 w5 : List Byte,
      (∀ w ∈ [w0, w1, w2, w3, w4, w5], ∀ b ∈ w, b ∈ [0x20#8, 0x09#8, 0x0A#8, 0x0D#8]) ∧
      s = w0 ++ [0x7B#8] ++ w1 ++ [0x22#8, 0x6C#8, 0x65#8, 0x64#8, 0x22#8] ++ w2 ++ [0x3A#8] ++ w3
        ++ (if v then [0x74#8, 0x72#8, 0x75#8, 0x65#8] else [0x66#8, 0x61#8, 0x6C#8, 0x73#8, 0x65#8])
        ++ w4 ++ [0x7D#8] ++ w5

/-! ## 6LoWPAN -/

/-- R303: `LOWPAN.PARSE`, and `take`. -/
def Obligations.LowpanParseReadsTheDispatchByte : Prop :=
  (∀ s : State, s.viewOk →
    (s.vlen.toNat < 1 → exec .lowpanParse s = .next (s.raiseDrop .lowpan .truncated)) ∧
    (1 ≤ s.vlen.toNat → exec .lowpanParse s = .next { s with
      latched := { s.latched with iphc := { s.latched.iphc with dispatch := byteAt s.view 0 } }
      phase := .dispatch })) ∧
  (∀ (n : Nat) (rest : List Byte), rest.length < n → takeN n rest = .error .truncated) ∧
  (∀ taken rest : List Byte, takeN taken.length (taken ++ rest) = .ok (taken, rest))

/-- R307, R309, R310, R311, R136: the traffic class and flow label, the next header, the hop limit, the source and the
destination address, by their mode bits; padding bits are ignored and a missing inline byte is `TRUNCATED`. -/
def Obligations.IphcInlineFieldForms : Prop :=
  (∀ (a b c d : Byte) (rest : List Byte), iphcTf 0#2 (a :: b :: c :: d :: rest) =
    .ok (BitVec.ofNat 8 (4 * (a.toNat % 64) + a.toNat / 64),
      BitVec.ofNat 20 ((65536 * b.toNat + 256 * c.toNat + d.toNat) % 2 ^ 20), rest)) ∧
  (∀ (a b c : Byte) (rest : List Byte), iphcTf 1#2 (a :: b :: c :: rest) =
    .ok (BitVec.ofNat 8 (a.toNat / 64),
      BitVec.ofNat 20 ((65536 * a.toNat + 256 * b.toNat + c.toNat) % 2 ^ 20), rest)) ∧
  (∀ (a : Byte) (rest : List Byte), iphcTf 2#2 (a :: rest) =
    .ok (BitVec.ofNat 8 (4 * (a.toNat % 64) + a.toNat / 64), 0#20, rest)) ∧
  (∀ rest : List Byte, iphcTf 3#2 rest = .ok (0#8, 0#20, rest)) ∧
  (∀ (tf : BitVec 2) (rest : List Byte),
    rest.length < (if tf = 0#2 then 4 else if tf = 1#2 then 3 else if tf = 2#2 then 1 else 0) →
    iphcTf tf rest = .error .truncated) ∧
  (∀ (a : Byte) (rest : List Byte), iphcNh 0#1 (a :: rest) = .ok (a, rest) ∧
    iphcHlim 0#2 (a :: rest) = .ok (a, rest)) ∧
  (∀ rest : List Byte, iphcNh 1#1 rest = .ok (0#8, rest) ∧ iphcHlim 1#2 rest = .ok (1#8, rest) ∧
    iphcHlim 2#2 rest = .ok (64#8, rest) ∧ iphcHlim 3#2 rest = .ok (255#8, rest)) ∧
  iphcNh 0#1 [] = .error .truncated ∧ iphcHlim 0#2 [] = .error .truncated ∧
  (∀ (e : BitVec 64), iid (.ext e) = (byteAt (toBE 8 e) 0 ^^^ 0x02#8) :: (toBE 8 e).drop 1) ∧
  (∀ (a : BitVec 16), iid (.short a) = [0x00#8, 0x00#8, 0x00#8, 0xFF#8, 0xFE#8, 0x00#8] ++ toBE 2 a) ∧
  (∀ (ll : LlAddr) (sam : BitVec 2) (rest : List Byte), iphcSrc 1#1 sam ll rest = .ok (zeros 16, rest)) ∧
  (∀ (ll : LlAddr) (mode : BitVec 2) (i rest : List Byte),
    let p := [0xFE#8, 0x80#8, 0#8, 0#8, 0#8, 0#8, 0#8, 0#8]
    let n := if mode = 0#2 then 16 else if mode = 1#2 then 8 else if mode = 2#2 then 2 else 0
    let a := if mode = 0#2 then i else if mode = 1#2 then p ++ i
      else if mode = 2#2 then p ++ [0x00#8, 0x00#8, 0x00#8, 0xFF#8, 0xFE#8, 0x00#8] ++ i else p ++ iid ll
    (i.length = n → iphcSrc 0#1 mode ll (i ++ rest) = .ok (a, rest) ∧
      iphcDst 0#1 mode ll (i ++ rest) = .ok (a, rest)) ∧
    (rest.length < n → iphcSrc 0#1 mode ll rest = .error .truncated ∧
      iphcDst 0#1 mode ll rest = .error .truncated)) ∧
  (∀ (ll : LlAddr) (dam : BitVec 2) (i rest : List Byte),
    let n := if dam = 0#2 then 16 else if dam = 1#2 then 6 else if dam = 2#2 then 4 else 1
    let a := if dam = 0#2 then i
      else if dam = 1#2 then [0xFF#8] ++ slice i 0 1 ++ List.replicate 9 0#8 ++ slice i 1 6
      else if dam = 2#2 then [0xFF#8] ++ slice i 0 1 ++ List.replicate 11 0#8 ++ slice i 1 4
      else [0xFF#8, 0x02#8] ++ List.replicate 13 0#8 ++ i
    (i.length = n → iphcDst 1#1 dam ll (i ++ rest) = .ok (a, rest)) ∧
    (rest.length < n → iphcDst 1#1 dam ll rest = .error .truncated))

/-- R304, R308: the base header, the unsupported forms before any inline field, and the inline fields in their
order. -/
def Obligations.IphcHeaderIsReadInOrder : Prop :=
  ∀ (tf : BitVec 2) (nh : BitVec 1) (hl : BitVec 2) (lls lld : LlAddr),
    (∀ v : List Byte, v.length < 2 → iphcDecode tf nh hl lls lld v = .error .truncated) ∧
    ∀ (b0 b1 : Byte) (r0 : List Byte),
      let bad := b1.getLsbD 7 = true ∨ (b1.getLsbD 6 = true ∧ (b1.toNat / 16) % 4 ≠ 0) ∨ b1.getLsbD 2 = true
      (bad → iphcDecode tf nh hl lls lld (b0 :: b1 :: r0) = .error .unsupported) ∧
      (¬ bad → iphcDecode tf nh hl lls lld (b0 :: b1 :: r0) =
        match iphcTf tf r0 with
        | .error c => .error c
        | .ok (tc, fl, r1) =>
          match iphcNh nh r1 with
          | .error c => .error c
          | .ok (next, r2) =>
            match iphcHlim hl r2 with
            | .error c => .error c
            | .ok (hop, r3) =>
              match iphcSrc (b1.extractLsb' 6 1) (b1.extractLsb' 4 2) lls r3 with
              | .error c => .error c
              | .ok (src, r4) =>
                match iphcDst (b1.extractLsb' 3 1) (b1.extractLsb' 0 2) lld r4 with
                | .error c => .error c
                | .ok (dst, r5) =>
                  .ok (⟨0#8, 0#8, tc, fl, next, hop, ofBE 128 src, ofBE 128 dst, 2 + r0.length - r5.length⟩, r5))

/-- R302, R312, R320: `LOWPAN.IPHC`. With the next header inline the reconstructed IPv6 header goes to
`SCRATCH[0..40)` and the view to the bytes after the compressed header; with it compressed the NHC byte is read
next (DEDUCED, log 19). -/
def Obligations.IphcReconstructsTheHeader : Prop :=
  ∀ (s : State) (tf : BitVec 2) (nh : BitVec 1) (hl : BitVec 2), s.viewOk →
    (∀ c, iphcDecode tf nh hl s.llSrc s.llDst s.view = .error c →
      exec (.lowpanIphc tf nh hl) s = .next (s.raiseDrop .lowpan c)) ∧
    (∀ h rest, iphcDecode tf nh hl s.llSrc s.llDst s.view = .ok (h, rest) → nh = 0#1 →
      exec (.lowpanIphc tf nh hl) s = .next { s with
        scratch := memWriteBytes 0 (ip6Bytes
          { tc := h.tc, fl := h.fl, plen := BitVec.ofNat 16 rest.length, nh := h.nh, hlim := h.hlim
            src := h.src, dst := h.dst }) s.scratch
        vbase := s.vbase + BitVec.ofNat 16 (s.vlen.toNat - rest.length), vlen := BitVec.ofNat 16 rest.length
        latched := { s.latched with
          iphc := { h with dispatch := s.latched.iphc.dispatch }, udpNhc := false }
        log := s.log ++ [.valid .lowpan], stage := .ipv6, phase := .entry }) ∧
    (∀ h c rest, iphcDecode tf nh hl s.llSrc s.llDst s.view = .ok (h, c :: rest) → nh = 1#1 →
      exec (.lowpanIphc tf nh hl) s = .next { s with
        latched := { s.latched with
          iphc := { h with dispatch := s.latched.iphc.dispatch, nhc := c }, udpNhc := false }
        phase := .nhc }) ∧
    (∀ h, iphcDecode tf nh hl s.llSrc s.llDst s.view = .ok (h, []) → nh = 1#1 →
      exec (.lowpanIphc tf nh hl) s = .next (s.raiseDrop .lowpan .truncated))

/-- R318 with R312 and R320: `NHC.UDP`: ports, checksum and length reconstructed into `SCRATCH[40..48)`, then the
IPv6 header into `SCRATCH[0..40)`. R319: `NHC.OTHER`. That they are steps of their own, the first going on to the
reconstruction and hand-off that R302 performs within `LOWPAN.IPHC`, is the model's reading (DEDUCED, log 19). -/
def Obligations.NhcReconstructsTheUdpHeader : Prop :=
  (∀ (s : State) (c : Byte), s.viewOk →
    (s.latched.iphc.o < s.vlen.toNat → exec (.nhcOther c) s = .next (s.raiseDrop .lowpan .unsupported)) ∧
    (s.vlen.toNat ≤ s.latched.iphc.o → exec (.nhcOther c) s = .next (s.raiseDrop .lowpan .truncated))) ∧
  ∀ (s : State) (c : BitVec 1) (p : BitVec 2), s.viewOk →
    let h := s.latched.iphc
    let n := inlinePortBytes p
    let k := if c = 0#1 then 2 else 0
    ((s.view.drop h.o).length < 1 + n + k → exec (.nhcUdp c p) s = .next (s.raiseDrop .lowpan .truncated)) ∧
    ∀ (b : Byte) (ports ck payload : List Byte), s.view.drop h.o = b :: (ports ++ ck ++ payload) →
      ports.length = n → ck.length = k →
      let ulen := 8 + payload.length
      exec (.nhcUdp c p) s = .next { s with
        scratch := memWriteBytes 0 (ip6Bytes
            { tc := h.tc, fl := h.fl, plen := BitVec.ofNat 16 ulen, nh := 17#8, hlim := h.hlim
              src := h.src, dst := h.dst })
          (memWriteBytes 40 (bytesBE 2 (portsOfInline p ports).1 ++ bytesBE 2 (portsOfInline p ports).2
            ++ bytesBE 2 ulen ++ (if c = 0#1 then ck else [0x00#8, 0x00#8])) s.scratch)
        vbase := s.vbase + BitVec.ofNat 16 (s.vlen.toNat - payload.length), vlen := BitVec.ofNat 16 payload.length
        latched := { s.latched with
          iphc := { h with nh := 17#8, o := s.vlen.toNat - payload.length }, udpNhc := true }
        log := s.log ++ [.valid .lowpan], stage := .ipv6, phase := .entry }

/-- R332: decompression of a compressed header and message, by the operations of stage `LOWPAN`, gives the IPv6
header in `SCRATCH[0..40)` and the message as `U`, for every header record, message and pair of 802.15.4
addresses. -/
def Obligations.DecompressionInvertsCompression : Prop :=
  ∀ (s : State) (r : Ip6Rec) (upper : List Byte),
    Inv s → s.cfg.link = .lowpan → s.stage = .lowpan → s.phase = .entry → s.host = [] →
    r.plen.toNat = upper.length → s.view = iphcCompress r upper s.llSrc s.llDst →
    ∃ n t, n ≤ 3 ∧ Host.Core.run Sys2Proof.core n s = .next t ∧ t.stage = .ipv6 ∧
      t.scratchRead 0 40 = ip6Bytes r ∧ t.upper = upper ∧ t.log = s.log ++ [.valid .lowpan]

/-- R231, R239, R107: the IPv6 field extraction inverts the serialisation, which has version 6. -/
def Obligations.Ip6FieldsInvertSerialisation : Prop :=
  ∀ (r : Ip6Rec) (payload : List Byte), (ip6Bytes r).length = 40 ∧ ip6Version (ip6Bytes r ++ payload) = 6#4 ∧
    ip6Fields (ip6Bytes r ++ payload) = r

/-! ## The response -/

/-- R407, R408, R179, R330: the response frame for each pair of link and record, byte for byte, with the
link-layer destination from the cache or, on a miss, from the frame. R406 says that no other pair occurs: there
the model stops by name (log 16). And R325 to R328: what `iphc_compress` makes of a header and its message, the two
base bytes and the form of each field case by case in the order of the rules, the first case that holds taken. -/
def Obligations.ResponseFrameIsResolvedAndFramed : Prop :=
  (∀ (tc : Byte) (fl : BitVec 20),
    let ecn := tc.toNat % 4
    let dscp := tc.toNat / 4
    compressTf tc fl =
      if tc = 0#8 ∧ fl = 0#20 then (3#2, [])
      else if fl = 0#20 then (2#2, [BitVec.ofNat 8 (64 * ecn + dscp)])
      else if dscp = 0 then (1#2, bytesBE 3 (ecn * 2 ^ 22 + fl.toNat))
      else (0#2, [BitVec.ofNat 8 (64 * ecn + dscp)] ++ bytesBE 3 fl.toNat)) ∧
  (∀ hlim : Byte, compressHlim hlim =
    if hlim.toNat = 1 then (1#2, []) else if hlim.toNat = 64 then (2#2, [])
    else if hlim.toNat = 255 then (3#2, []) else (0#2, [hlim])) ∧
  (∀ (a : List Byte) (ll : LlAddr), a.length = 16 →
    let local_ := slice a 0 8 = [0xFE#8, 0x80#8, 0x00#8, 0x00#8, 0x00#8, 0x00#8, 0x00#8, 0x00#8]
    let short := slice a 8 14 = [0x00#8, 0x00#8, 0x00#8, 0xFF#8, 0xFE#8, 0x00#8]
    let zero : Nat → Nat → Prop := fun i j => ∀ b ∈ slice a i j, b = 0x00#8
    ((∀ b ∈ a, b = 0x00#8) → compressSrc a ll = (1#1, 0#2, [])) ∧
    (¬ (∀ b ∈ a, b = 0x00#8) → local_ → slice a 8 16 = iid ll → compressSrc a ll = (0#1, 3#2, [])) ∧
    (local_ → slice a 8 16 ≠ iid ll → short → compressSrc a ll = (0#1, 2#2, slice a 14 16)) ∧
    (local_ → slice a 8 16 ≠ iid ll → ¬ short → compressSrc a ll = (0#1, 1#2, slice a 8 16)) ∧
    (¬ (∀ b ∈ a, b = 0x00#8) → ¬ local_ → compressSrc a ll = (0#1, 0#2, a)) ∧
    (byteAt a 0 = 0xFF#8 → byteAt a 1 = 0x02#8 → zero 2 15 → compressDst a ll = (1#1, 3#2, slice a 15 16)) ∧
    (byteAt a 0 = 0xFF#8 → ¬ (byteAt a 1 = 0x02#8 ∧ zero 2 15) → zero 2 13 →
      compressDst a ll = (1#1, 2#2, slice a 1 2 ++ slice a 13 16)) ∧
    (byteAt a 0 = 0xFF#8 → ¬ zero 2 13 → zero 2 11 →
      compressDst a ll = (1#1, 1#2, slice a 1 2 ++ slice a 11 16)) ∧
    (byteAt a 0 = 0xFF#8 → ¬ zero 2 11 → compressDst a ll = (1#1, 0#2, a)) ∧
    (local_ → slice a 8 16 = iid ll → compressDst a ll = (0#1, 3#2, [])) ∧
    (local_ → slice a 8 16 ≠ iid ll → short → compressDst a ll = (0#1, 2#2, slice a 14 16)) ∧
    (local_ → slice a 8 16 ≠ iid ll → ¬ short → compressDst a ll = (0#1, 1#2, slice a 8 16)) ∧
    (byteAt a 0 ≠ 0xFF#8 → ¬ local_ → compressDst a ll = (0#1, 0#2, a))) ∧
  (∀ (sport dport : Half) (check data : List Byte) (l0 l1 : Byte), check.length = 2 →
    let s := sport.toNat
    let d := dport.toNat
    compressUdp (toBE 2 sport ++ toBE 2 dport ++ [l0, l1] ++ check ++ data) =
      (if 0xF0B0 ≤ s ∧ s ≤ 0xF0BF ∧ 0xF0B0 ≤ d ∧ d ≤ 0xF0BF then
        [0xF3#8, BitVec.ofNat 8 (16 * (s - 0xF0B0) + (d - 0xF0B0))]
      else if 0xF000 ≤ d ∧ d ≤ 0xF0FF then [0xF1#8] ++ toBE 2 sport ++ [BitVec.ofNat 8 (d - 0xF000)]
      else if 0xF000 ≤ s ∧ s ≤ 0xF0FF then [0xF2#8, BitVec.ofNat 8 (s - 0xF000)] ++ toBE 2 dport
      else [0xF0#8] ++ toBE 2 sport ++ toBE 2 dport) ++ check ++ data) ∧
  (∀ (r : Ip6Rec) (upper : List Byte) (lls lld : LlAddr),
    let tf := compressTf r.tc r.fl
    let hop := compressHlim r.hlim
    let src := compressSrc (toBE 16 r.src) lls
    let dst := compressDst (toBE 16 r.dst) lld
    let base : Nat → List Byte := fun nh =>
      [BitVec.ofNat 8 (0x60 + 8 * tf.1.toNat + 4 * nh + hop.1.toNat),
        BitVec.ofNat 8 (64 * src.1.toNat + 16 * src.2.1.toNat + 8 * dst.1.toNat + dst.2.1.toNat)]
    let udp := r.nh = 17#8 ∧ 8 ≤ upper.length ∧ beNat (slice upper 4 6) = upper.length
    (udp → iphcCompress r upper lls lld = base 1 ++ tf.2 ++ hop.2 ++ src.2.2 ++ dst.2.2 ++ compressUdp upper) ∧
    (¬ udp → iphcCompress r upper lls lld = base 0 ++ tf.2 ++ [r.nh] ++ hop.2 ++ src.2.2 ++ dst.2.2 ++ upper)) ∧
  ∀ s : State,
    (∀ ip pkt m, s.cfg.link = .eth → s.latched.resp = some (.arp ip pkt) →
      (match cacheLookup ip s.arp with
        | some a => LlAddr.mac48 a
        | none => s.llSrc) = .mac48 m →
      s.frame = some (toBE 6 m ++ toBE 6 s.cfg.mac ++ [0x08#8, 0x06#8] ++ pkt)) ∧
    (∀ pkt m, s.cfg.link = .eth → s.latched.resp = some (.ip4 pkt) →
      (match cacheLookup s.latched.ip4.src s.arp with
        | some a => LlAddr.mac48 a
        | none => s.llSrc) = .mac48 m →
      s.frame = some (toBE 6 m ++ toBE 6 s.cfg.mac ++ [0x08#8, 0x00#8] ++ pkt)) ∧
    (∀ r upper m, s.cfg.link = .eth → s.latched.resp = some (.ip6 r upper) →
      (cacheLookup r.dst s.nbr).getD s.llSrc = .mac48 m →
      s.frame = some (toBE 6 m ++ toBE 6 s.cfg.mac ++ [0x86#8, 0xDD#8] ++ ip6Bytes r ++ upper)) ∧
    (∀ r upper e, s.cfg.link = .lowpan → s.latched.resp = some (.ip6 r upper) →
      (cacheLookup r.dst s.nbr).getD s.llSrc = .ext e →
      s.frame = some ([0x41#8, 0xCC#8, s.dsn] ++ toLE 2 s.panSrc ++ (toBE 8 e).reverse
        ++ (toBE 8 s.cfg.ext).reverse ++ iphcCompress r upper (.ext s.cfg.ext) (.ext e))) ∧
    (∀ r upper a, s.cfg.link = .lowpan → s.latched.resp = some (.ip6 r upper) →
      (cacheLookup r.dst s.nbr).getD s.llSrc = .short a →
      s.frame = some ([0x41#8, 0xC8#8, s.dsn] ++ toLE 2 s.panSrc ++ (toBE 2 a).reverse
        ++ (toBE 8 s.cfg.ext).reverse ++ iphcCompress r upper (.ext s.cfg.ext) (.short a))) ∧
    (s.latched.resp = none ∨ (∃ r, s.latched.resp = some r ∧ r.fits s.cfg.link = false) →
      exec .build s = .fault .noBuildCase)

/-- R409, R402: the length check, the store and the end of the frame (a pair of link and record that R407 has no
case for stops by name: `ResponseFrameIsResolvedAndFramed`). Bytes of `BUF` outside the response are
unspecified afterwards (R66). -/
def Obligations.BuildStoresTheResponse : Prop :=
  ∀ (s : State) (f : List Byte), s.par.bufCap ≤ 65535 → s.frame = some f →
    let limit := min s.par.bufCap (if s.cfg.link = .eth then 1514 else 125)
    (limit < f.length → exec .build s = .next (s.raiseDrop .build .noSpace)) ∧
    (f.length ≤ limit → ∃ t, exec .build s = .next t ∧
      t = { s with
        mem := t.mem, epoch := s.epoch + 1
        vbase := 0#16, vlen := BitVec.ofNat 16 limit, txlen := BitVec.ofNat 16 f.length
        dsn := if s.cfg.link = .lowpan then s.dsn + 1 else s.dsn
        outcome := .sent, cause := .none, cstage := s.latched.hstage
        log := s.log ++ [.send s.latched.hstage (BitVec.ofNat 16 f.length)]
        stage := .txPending, phase := .entry } ∧
      t.memRead 0 t.txlen.toNat = f ∧ t.txlen.toNat = f.length ∧
      ∀ c ∈ t.mem, c.1 < f.length)

/-! ## Caches and checksums -/

/-- R41, R40: `insert` updates in place and refreshes the recency, appends, or evicts the least recently updated
entry; it keeps the keys distinct and the capacity. -/
def Obligations.CacheInsertFollowsRecency : Prop :=
  ∀ (K V : Type) (_ : DecidableEq K) (cap : Nat) (k : K) (v : V) (es : List (K × V)),
    1 ≤ cap → CacheOk cap es →
    (k ∈ es.map Prod.fst → cacheInsert cap k v es = (k, v) :: es.filter fun e => e.1 ≠ k) ∧
    (k ∉ es.map Prod.fst → es.length < cap → cacheInsert cap k v es = (k, v) :: es) ∧
    (k ∉ es.map Prod.fst → es.length = cap → cacheInsert cap k v es = (k, v) :: es.dropLast) ∧
    CacheOk cap (cacheInsert cap k v es)

/-- R42: `lookup` answers exactly the entries, and after an insert it answers the new entry and, for any other key,
nothing that was not there. -/
def Obligations.CacheLookupAnswersTheEntries : Prop :=
  ∀ (K V : Type) (_ : DecidableEq K) (cap : Nat) (k : K) (v : V) (es : List (K × V)),
    1 ≤ cap → CacheOk cap es →
    (cacheLookup k es = some v ↔ (k, v) ∈ es) ∧
    cacheLookup k (cacheInsert cap k v es) = some v ∧
    ∀ (k' : K) (v' : V), k' ≠ k →
      cacheLookup k' (cacheInsert cap k v es) = some v' → cacheLookup k' es = some v'

/-- R156: `ones_sum` is the sum of the 16-bit big-endian words, padded to an even length, with the carries folded
in: at most `0xFFFF`, equal to the sum modulo `0xFFFF`, and zero only for a zero sum. R158: the laws a model may rely
on, the five in their order. -/
def Obligations.OnesSumLaws : Prop :=
  (∀ s : List Byte,
    let padded := if s.length % 2 = 1 then s ++ [0#8] else s
    let t := ((List.range (padded.length / 2)).map fun i => beNat (slice padded (2 * i) (2 * i + 2))).sum
    onesSum s ≤ 0xFFFF ∧ onesSum s % 0xFFFF = t % 0xFFFF ∧ (onesSum s = 0 ↔ t = 0)) ∧
  (∀ s : List Byte, onesSum s ≤ 0xFFFF ∧ (onesSum s = 0 ↔ ∀ b ∈ s, b = 0#8) ∧
    ((∀ b ∈ s, b = 0#8) → cksumOk s = false) ∧ (cksumMake s = 0xFFFF ↔ ∀ b ∈ s, b = 0#8)) ∧
  (∀ (ws ws' : List (Byte × Byte)) (tail : List Byte), ws.Perm ws' →
    onesSum (ws.flatMap (fun w => [w.1, w.2]) ++ tail) = onesSum (ws'.flatMap (fun w => [w.1, w.2]) ++ tail)) ∧
  (∀ a b : List Byte, a.length % 2 = 0 →
    onesSum (a ++ b) = foldCarry (onesSum a + onesSum b) (onesSum a + onesSum b)) ∧
  (∀ a b : List Byte, a.length % 2 = 0 →
    cksumOk (a ++ bytesBE 2 (cksumMake (a ++ [0#8, 0#8] ++ b)) ++ b) = true) ∧
  (∀ s : List Byte, cksumMake s = 0 ↔ onesSum s = 0xFFFF)

/-- R252, R258, R261: the checksum of every reply validates, and an echo keeps the identifier, the sequence number
and the data. -/
def Obligations.EchoRepliesValidateAndEcho : Prop :=
  (∀ u : List Byte, 8 ≤ u.length →
    onesSum (icmp4Reply u) = 0xFFFF ∧ (icmp4Reply u).drop 4 = u.drop 4 ∧ (icmp4Reply u).length = u.length) ∧
  (∀ (cfg : Straps) (ip6 : Ip6Rec) (hlim : Byte) (u : List Byte), 8 ≤ u.length →
    ∃ r m, icmp6Resp cfg ip6 hlim (icmp6EchoReply u) = .ip6 r m ∧ icmp6Sum r.src r.dst m = 0xFFFF ∧
      m.drop 4 = u.drop 4 ∧ m.length = u.length) ∧
  (∀ (cfg : Straps) (ip6 : Ip6Rec) (hlim : Byte),
    ∃ r m, icmp6Resp cfg ip6 hlim (neighborAdvert cfg) = .ip6 r m ∧ icmp6Sum r.src r.dst m = 0xFFFF ∧
      m.drop 4 = (neighborAdvert cfg).drop 4 ∧ m.length = if cfg.link = .eth then 32 else 40)

/-! ## The machine -/

/-- The invariant holds right after reset (R50). -/
def Obligations.ResetMeetsTheMachineInvariant : Prop := Inv State.reset

/-- Every step keeps the invariant: the buffer and scratch memories keep their canonical form, the caches their
bounds, the view stays inside the frame, and no abort happens (R21, R40, R44, R474, R476). -/
def Obligations.StepKeepsTheMachineInvariant : Prop :=
  ∀ s t : State, Inv s → step s = .next t → Inv t

/-- From every state that meets the invariant, with a host that keeps to its window, the machine steps (R448). -/
def Obligations.StepNeverGetsStuck : Prop :=
  ∀ s : State, Inv s → s.inputOk → ∃ t, step s = .next t

/-- R448, R401, R412, R446: a frame handed over in `IDLE` is processed to its end, for every content: the block
ends in `IDLE`, dropped, or in `TX_PENDING`, sent, never in `HALT_ABORT`, with exactly one `SEND` or `DROP` event, the
last. The bound on the steps is the model's: one for each byte the host writes and one for its request, which it
presents as samples (logs 9, 12), and at most twelve for the run, counted in rows of the opcode table (log 8; R412
counts at most 6 stage operations, of one or more rows each). -/
def Obligations.EveryFrameIsSentOrDropped : Prop :=
  ∀ (s : State) (f : List Byte), Inv s → s.stage = .idle → f.length ≤ s.par.bufCap →
    ∃ n t, n ≤ f.length + 13 ∧
      Host.Core.run Sys2Proof.core n { s with host := frameInputs f } = .next t ∧ Inv t ∧ t.host = [] ∧
      (t.stage = .idle ∧ t.outcome = .dropped ∨ t.stage = .txPending ∧ t.outcome = .sent) ∧
      ∃ evs ev, t.log = s.log ++ evs ++ [ev] ∧ (∀ e ∈ evs, e.ends = false) ∧ ev.ends = true

/-- Every operation of a run takes the run nearer to its end, and the run ends when no reset comes. Twelve is the
model's count: an operation here is one row of the opcode table (DESIGN CHOICE, log 8), where R412 counts the stages of
a run and says at most 6; that the host's samples stay as they are meanwhile is log 9's choice. -/
def Obligations.EveryRunEndsWithinTwelveOperations : Prop :=
  ∀ s : State, Inv s → stageRuns s.stage → s.resetNext = false →
    (∃ t, step s = .next t ∧ runRank t.stage t.phase < runRank s.stage s.phase) ∧
    ∃ n t, n ≤ 12 ∧ Host.Core.run Sys2Proof.core n s = .next t ∧
      (t.stage = .idle ∨ t.stage = .txPending) ∧ t.host = s.host

/-- R405: no transition of `STAGE` other than those tabulated, from any state of the invariant. -/
def Obligations.OnlyTabulatedStageTransitions : Prop :=
  ∀ s t : State, Inv s → s.resetNext = false → step s = .next t →
    t.stage = s.stage ∨ legalMove s.stage t.stage = true

/-- R422, R26: a run that ends in `IDLE` records a drop that the matrix allows, raised in the stage it was in; one
that ends in `TX_PENDING` records the handler's stage. -/
def Obligations.DropsLieInsideTheMatrix : Prop :=
  ∀ s t : State, Inv s → stageRuns s.stage → s.resetNext = false → step s = .next t →
    (t.stage = .idle → t.outcome = .dropped ∧ t.cstage = s.stage ∧ dropAllowed s.stage t.cause = true ∧
      ∃ evs, t.log = s.log ++ evs ++ [.drop s.stage t.cause]) ∧
    (t.stage = .txPending → t.outcome = .sent ∧ t.cause = .none ∧ t.cstage = s.latched.hstage ∧
      stageHandles t.cstage = true ∧ t.log = s.log ++ [.send t.cstage t.txlen])

/-- R26, R27: the status is written at the end of a frame and by nothing else but reset; a `FAULT` bit, once set, is
cleared by reset only; `FATAL_IO` is set only on entry to `HALT_FATAL`, `INVARIANT` only on entry to `HALT_ABORT`.
And how the host sees them, R24, R26, R421, R391, R446: the code of every stage, outcome and cause, the output ports,
and the triples of the log port, in the order of the events. -/
def Obligations.StatusAndFaultFlagsAreStable : Prop :=
  ([Stage.idle, .eth, .mac154, .arp, .ipv4, .ipv6, .icmp4, .icmp6, .udp, .coap, .lowpan, .build, .txPending,
      .haltFatal, .haltAbort].map stageCode
    = [0#4, 1#4, 2#4, 3#4, 4#4, 5#4, 6#4, 7#4, 8#4, 9#4, 10#4, 11#4, 12#4, 14#4, 15#4]) ∧
  ([FrameOutcome.none, .sent, .dropped].map outcomeCode = [0#2, 1#2, 2#2]) ∧
  ([Cause.none, .truncated, .badLength, .badVersion, .unsupported, .badChecksum, .notForUs, .noSpace, .consumed].map
      causeCode = [0#4, 1#4, 2#4, 3#4, 4#4, 5#4, 6#4, 7#4, 8#4]) ∧
  (∀ (st : Stage) (n : Half) (c : Cause),
    eventCode (.valid st) = (0#2, stageCode st, 0#16) ∧ eventCode (.cache st) = (1#2, stageCode st, 0#16) ∧
    eventCode (.send st n) = (2#2, stageCode st, n) ∧
    eventCode (.drop st c) = (3#2, stageCode st, BitVec.ofNat 16 (causeCode c).toNat)) ∧
  (∀ s : State, s.logPort = s.log.map eventCode ∧ s.ports =
    { stage := stageCode s.stage, txValid := decide (s.stage = .txPending), txLen := s.txlen
      outcome := outcomeCode s.outcome, cause := causeCode s.cause, cstage := stageCode s.cstage
      fault := s.fault, led := s.led }) ∧
  ∀ s t : State, s.resetNext = false → step s = .next t →
    ((t.outcome, t.cause, t.cstage) ≠ (s.outcome, s.cause, s.cstage) →
      stageRuns s.stage ∧ (t.stage = .idle ∨ t.stage = .txPending)) ∧
    s.fault &&& t.fault = s.fault ∧
    (t.fault ≠ s.fault → t.fault = s.fault ||| 1#2 ∧ t.stage = .haltFatal ∨
      t.fault = s.fault ||| 2#2 ∧ t.stage = .haltAbort)

/-- R21, R28, R29, R30, R31, R43, R44, R45: which operation can write which register, for every operation and every
state; `VBASE` and `VLEN` are written by `RX_ACCEPT`, by the operations that narrow the view, and by `BUILD` (R409). -/
def Obligations.RegistersHaveTheirOnlyWriters : Prop :=
  ∀ (i : Instr) (s t : State), exec i s = .next t →
    t.cfg = s.cfg ∧ t.par = s.par ∧ t.host = s.host ∧
    ((t.vbase, t.vlen) ≠ (s.vbase, s.vlen) →
      (∃ len, i = .rxAccept len) ∨ i ∈ [Instr.ethArp, .ethIpv4, .ethIpv6, .mac154Data, .ip4Icmp, .ip4Udp, .ip6Parse] ∨
      (∃ tf nh hl, i = .lowpanIphc tf nh hl) ∨ (∃ c p, i = .nhcUdp c p) ∨ i = .build ∨ t.stage = .haltAbort) ∧
    (t.led ≠ s.led → i = .coapPutLed) ∧
    (t.dsn ≠ s.dsn → i = .build ∧ s.cfg.link = .lowpan) ∧
    (t.arp ≠ s.arp → i = .arpRequest ∨ i = .arpReply) ∧
    (t.nbr ≠ s.nbr → i = .ip6Parse) ∧
    (t.rxlen ≠ s.rxlen → ∃ len, i = .rxAccept len) ∧
    (t.txlen ≠ s.txlen → (∃ len, i = .rxAccept len) ∨ i = .build ∨ t.stage = .idle) ∧
    (t.scratch ≠ s.scratch →
      (∃ tf nh hl, i = .lowpanIphc tf nh hl) ∨ (∃ c p, i = .nhcUdp c p) ∨ t.stage = .haltAbort) ∧
    ((t.llSrc, t.llDst) ≠ (s.llSrc, s.llDst) → i = .ethParse ∨ i = .mac154Data ∨ t.stage = .haltAbort) ∧
    ((t.panSrc, t.panDst) ≠ (s.panSrc, s.panDst) → i = .mac154Data ∨ t.stage = .haltAbort)

/-- R81, R65: until the run ends no operation writes the buffer: every byte reads as before. -/
def Obligations.NoByteIsWrittenBeforeTheEnd : Prop :=
  ∀ (i : Instr) (s t : State), exec i s = .next t → stageRuns t.stage → ∀ a, t.readBuf a = s.readBuf a

/-- R74: while a frame is parsed the view only shrinks; it is strictly smaller when a header is consumed, that is
when the stage `ETH`, `MAC154`, `LOWPAN` or `IPV4` hands over, and at the entry of `IPV6` on Ethernet (with
`LINK = LOWPAN` the IPv6 header is in `SCRATCH`, and the stages above `IPV6` do not narrow). -/
def Obligations.NarrowingOnlyShrinksTheView : Prop :=
  ∀ s t : State, Inv s → stageRuns s.stage → s.resetNext = false → step s = .next t → stageRuns t.stage →
    s.vbase.toNat ≤ t.vbase.toNat ∧
    t.vbase.toNat + t.vlen.toNat ≤ s.vbase.toNat + s.vlen.toNat ∧
    ((s.stage ∈ [Stage.eth, .mac154, .lowpan, .ipv4] ∧ t.stage ≠ s.stage ∨
        s.stage = .ipv6 ∧ s.phase = .entry ∧ s.cfg.link = .eth) →
      t.vlen.toNat < s.vlen.toNat)

/-- R73: nothing depends on a byte of `BUF` at or above `RXLEN`: two states that differ only there take the same
step, and a response holds the same bytes. -/
def Obligations.BytesBeyondTheFrameAreNotRead : Prop :=
  ∀ (s : State) (m : List Host.Cell), Inv s → stageRuns s.stage → s.resetNext = false →
    (∀ a, a < s.rxlen.toNat → ({ s with mem := m } : State).readBuf a = s.readBuf a) →
    ∃ t t', step s = .next t ∧ step { s with mem := m } = .next t' ∧ t' = { t with mem := t'.mem } ∧
      (stageRuns t.stage → ∀ a, a < t.rxlen.toNat → t'.readBuf a = t.readBuf a) ∧
      (t.stage = .txPending → t'.memRead 0 t'.txlen.toNat = t.memRead 0 t.txlen.toNat)

/-- R194, R195, R193, R41: from the entry of the ARP stage, an ARP request for the device's address is answered by
the one frame of R195 to the sender, and the cache holds the sender's mapping. -/
def Obligations.ArpRequestIsAnsweredToItsSender : Prop :=
  ∀ (s : State) (sha tha : BitVec 48) (spa : BitVec 32) (padding : List Byte),
    Inv s → s.stage = .arp → s.phase = .entry → s.host = [] →
    s.view = [0x00#8, 0x01#8, 0x08#8, 0x00#8, 0x06#8, 0x04#8, 0x00#8, 0x01#8] ++ toBE 6 sha ++ toBE 4 spa
      ++ toBE 6 tha ++ toBE 4 s.cfg.ipv4 ++ padding →
    ∃ t, Host.Core.run Sys2Proof.core 3 s = .next t ∧ t.stage = .txPending ∧ t.txlen = 42#16 ∧
      t.memRead 0 42 = toBE 6 sha ++ toBE 6 s.cfg.mac ++ [0x08#8, 0x06#8]
        ++ [0x00#8, 0x01#8, 0x08#8, 0x00#8, 0x06#8, 0x04#8, 0x00#8, 0x02#8] ++ toBE 6 s.cfg.mac
        ++ toBE 4 s.cfg.ipv4 ++ toBE 6 sha ++ toBE 4 spa ∧
      cacheLookup spa t.arp = some sha ∧
      t.log = s.log ++ [.cache .arp, .valid .arp, .send .arp 42#16]

end
end

