-- ==== Sys2Proof/Laws/Bytes.lean ====
section
/-! SUPPORT. Byte strings and their integers: lengths and round trips. -/

namespace Sys2Proof.Machine

@[simp] theorem bytesBE_length (n v : Nat) : (bytesBE n v).length = n := by
  induction n generalizing v with
  | zero => rfl
  | succ n ih => simp [bytesBE, ih]

@[simp] theorem bytesLE_length (n v : Nat) : (bytesLE n v).length = n := by simp [bytesLE]

@[simp] theorem toBE_length (n : Nat) {w : Nat} (v : BitVec w) : (toBE n v).length = n := by simp [toBE]

@[simp] theorem toLE_length (n : Nat) {w : Nat} (v : BitVec w) : (toLE n v).length = n := by simp [toLE]

@[simp] theorem zeros_length (n : Nat) : (zeros n).length = n := by simp [zeros]

@[simp] theorem slice_length (s : List Byte) (a b : Nat) : (slice s a b).length = min (b - a) (s.length - a) := by
  simp [slice]

theorem patch_length {s v : List Byte} {off : Nat} (h : off + v.length ≤ s.length) :
    (patch s off v).length = s.length := by
  simp [patch]; omega

theorem beFrom_eq (acc : Nat) (bs : List Byte) : beFrom acc bs = acc * 256 ^ bs.length + beFrom 0 bs := by
  induction bs generalizing acc with
  | nil => simp [beFrom]
  | cons b bs ih =>
    rw [beFrom, ih, beFrom, ih (256 * 0 + b.toNat), List.length_cons, Nat.pow_succ]
    ring

@[simp] theorem beNat_nil : beNat [] = 0 := by rfl

@[simp] theorem beNat_cons (b : Byte) (bs : List Byte) :
    beNat (b :: bs) = b.toNat * 256 ^ bs.length + beNat bs := by
  unfold beNat
  rw [beFrom, beFrom_eq]
  simp

theorem beNat_lt (bs : List Byte) : beNat bs < 256 ^ bs.length := by
  induction bs with
  | nil => simp
  | cons b bs ih =>
    have hb := b.isLt
    have : b.toNat * 256 ^ bs.length ≤ 255 * 256 ^ bs.length := Nat.mul_le_mul_right _ (by omega)
    simp only [beNat_cons, List.length_cons, Nat.pow_succ]
    omega

theorem beNat_append (a b : List Byte) : beNat (a ++ b) = beNat a * 256 ^ b.length + beNat b := by
  induction a with
  | nil => simp
  | cons x a ih => simp [ih, Nat.pow_add, Nat.add_mul, Nat.mul_assoc, Nat.add_assoc]

/-- Reading back a stored field gives its low `8n` bits. -/
theorem beNat_bytesBE (n v : Nat) : beNat (bytesBE n v) = v % 256 ^ n := by
  induction n with
  | zero => simp [bytesBE, Nat.mod_one]
  | succ n ih =>
    have h8 : (2 : Nat) ^ 8 = 256 := rfl
    simp only [bytesBE, beNat_cons, bytesBE_length, BitVec.toNat_ofNat, ih, h8]
    rw [Nat.pow_succ, Nat.mod_mul, Nat.mul_comm (v / 256 ^ n % 256), Nat.add_comm]

/-- Storing what was read from `n` bytes gives the bytes again. -/
theorem bytesBE_beNat (bs : List Byte) : bytesBE bs.length (beNat bs) = bs := by
  induction bs with
  | nil => rfl
  | cons b bs ih =>
    have hlt := beNat_lt bs
    have key : ∀ n k v, bytesBE n (k * 256 ^ n + v) = bytesBE n v := by
      intro n
      induction n with
      | zero => intros; rfl
      | succ n ihn =>
        intro k v
        simp only [bytesBE]
        congr 1
        · apply BitVec.eq_of_toNat_eq
          simp only [BitVec.toNat_ofNat, Nat.reducePow]
          rw [Nat.pow_succ, Nat.mul_comm (256 ^ n) 256, ← Nat.mul_assoc, Nat.add_comm,
            Nat.add_mul_div_right _ _ (Nat.pow_pos (by decide))]
          omega
        · have := ihn (k * 256) v
          rw [Nat.pow_succ, Nat.mul_comm (256 ^ n) 256, ← Nat.mul_assoc]
          exact this
    simp only [List.length_cons, bytesBE, beNat_cons]
    congr 1
    · apply BitVec.eq_of_toNat_eq
      have hb := b.isLt
      simp only [BitVec.toNat_ofNat, Nat.reducePow]
      rw [Nat.add_comm, Nat.add_mul_div_right _ _ (Nat.pow_pos (by decide)), Nat.div_eq_of_lt hlt]
      omega
    · rw [key, ih]

theorem ofBE_toBE {n w : Nat} (h : w = 8 * n) (v : BitVec w) : ofBE w (toBE n v) = v := by
  subst h
  apply BitVec.eq_of_toNat_eq
  have hp : 256 ^ n = 2 ^ (8 * n) := by rw [Nat.pow_mul]
  simp only [ofBE, toBE, BitVec.toNat_ofNat, beNat_bytesBE, hp, Nat.mod_mod]
  exact Nat.mod_eq_of_lt v.isLt

theorem toBE_ofBE {n w : Nat} (h : w = 8 * n) {bs : List Byte} (hl : bs.length = n) : toBE n (ofBE w bs) = bs := by
  subst h hl
  have hp : 256 ^ bs.length = 2 ^ (8 * bs.length) := by rw [Nat.pow_mul]
  have hlt := beNat_lt bs
  simp only [toBE, ofBE, BitVec.toNat_ofNat]
  rw [Nat.mod_eq_of_lt (by rwa [← hp]), bytesBE_beNat]

theorem ofLE_toLE {n w : Nat} (h : w = 8 * n) (v : BitVec w) : ofLE w (toLE n v) = v := by
  have := ofBE_toBE h v
  simpa [ofLE, toLE, leNat, bytesLE, ofBE, toBE] using this

end Sys2Proof.Machine
end

