-- ==== Sys2Proof/Laws/Cache.lean ====
section
/-! SUPPORT. The caches: an insert keeps the invariant of a cache (R40) and adds nothing but its entry. -/

namespace Sys2Proof.Machine

variable {K V : Type} [DecidableEq K]

theorem cacheRemove_sublist (k : K) (es : List (K × V)) : (cacheRemove k es).Sublist es := by
  induction es with
  | nil => exact List.Sublist.refl _
  | cons e es ih =>
    unfold cacheRemove; split
    · exact List.sublist_cons_self e es
    · exact ih.cons_cons e

theorem cacheLookup_isSome_iff (k : K) (es : List (K × V)) : (cacheLookup k es).isSome ↔ k ∈ es.map Prod.fst := by
  induction es with
  | nil => simp [cacheLookup]
  | cons e es ih =>
    unfold cacheLookup; split
    · simp [‹e.1 = k›.symm]
    · rw [ih, List.map_cons, List.mem_cons, or_iff_right (Ne.symm ‹_›)]

theorem cacheRemove_length {k : K} {es : List (K × V)} (h : k ∈ es.map Prod.fst) :
    (cacheRemove k es).length + 1 = es.length := by
  induction es with
  | nil => simp at h
  | cons e es ih =>
    unfold cacheRemove; split
    · simp
    · have : k ∈ es.map Prod.fst := by
        rw [List.map_cons, List.mem_cons, or_iff_right (Ne.symm ‹_›)] at h
        exact h
      simp [ih this]

theorem not_mem_cacheRemove {k : K} {es : List (K × V)} (h : (es.map Prod.fst).Nodup) :
    k ∉ (cacheRemove k es).map Prod.fst := by
  induction es with
  | nil => simp [cacheRemove]
  | cons e es ih =>
    rw [List.map_cons, List.nodup_cons] at h
    unfold cacheRemove; split
    · simpa [‹e.1 = k›.symm] using h.1
    · rw [List.map_cons, List.mem_cons, not_or]
      exact ⟨Ne.symm ‹_›, ih h.2⟩

/-- An insert leaves only its own entry and entries that were there (R41). -/
theorem mem_cacheInsert {cap : Nat} {k : K} {v : V} {es : List (K × V)} {e : K × V}
    (h : e ∈ cacheInsert cap k v es) : e = (k, v) ∨ e ∈ es := by
  unfold cacheInsert at h
  split at h
  · rcases List.mem_cons.mp h with h | h
    · exact .inl h
    · exact .inr ((cacheRemove_sublist k es).mem h)
  · split at h
    · exact List.mem_cons.mp h
    · rcases List.mem_cons.mp h with h | h
      · exact .inl h
      · exact .inr (List.mem_of_mem_take h)

/-- An insert keeps the cache within its capacity, its keys distinct (R40, R41). -/
theorem cacheInsert_ok {cap : Nat} (hc : 1 ≤ cap) {k : K} {v : V} {es : List (K × V)} (h : CacheOk cap es) :
    CacheOk cap (cacheInsert cap k v es) := by
  obtain ⟨hl, hn⟩ := h
  unfold cacheInsert
  split
  · have hk := (cacheLookup_isSome_iff k es).mp ‹_›
    have := cacheRemove_length hk
    refine ⟨by simp; omega, ?_⟩
    rw [List.map_cons, List.nodup_cons]
    exact ⟨not_mem_cacheRemove hn, hn.sublist ((cacheRemove_sublist k es).map _)⟩
  · have hk : k ∉ es.map Prod.fst := fun hk => ‹¬ _› ((cacheLookup_isSome_iff k es).mpr hk)
    split
    · refine ⟨by simp; omega, ?_⟩
      rw [List.map_cons, List.nodup_cons]
      exact ⟨hk, hn⟩
    · refine ⟨by simp; omega, ?_⟩
      rw [List.map_cons, List.nodup_cons]
      have hs : ((es.take (cap - 1)).map Prod.fst).Sublist (es.map Prod.fst) := (List.take_sublist _ _).map _
      exact ⟨fun h => hk (hs.mem h), hn.sublist hs⟩

/-- The entry just inserted is at the front (R41). -/
theorem cacheLookup_cacheInsert_self (cap : Nat) (k : K) (v : V) (es : List (K × V)) :
    cacheLookup k (cacheInsert cap k v es) = some v := by
  unfold cacheInsert
  split
  · simp [cacheLookup]
  · split <;> simp [cacheLookup]

end Sys2Proof.Machine
end

