-- ==== Sys2Proof/Laws/Checksum.lean ====
section
/-! SUPPORT. The Internet checksum in closed form: folding is reduction modulo `0xFFFF`, with `0xFFFF` for the
positive multiples. -/

namespace Sys2Proof.Machine

/-- What folding a sum gives. -/
def folded (t : Nat) : Nat := if t = 0 then 0 else (t - 1) % 0xFFFF + 1

theorem folded_of_le {t : Nat} (h : t ≤ 0xFFFF) : folded t = t := by
  unfold folded; split
  · omega
  · rw [Nat.mod_eq_of_lt (by omega)]; omega

theorem foldCarry_eq_folded {n t : Nat} (h : t ≤ n) : foldCarry n t = folded t := by
  induction n generalizing t with
  | zero => rw [folded_of_le (by omega)]; rfl
  | succ n ih =>
    rw [foldCarry]
    split
    · rw [folded_of_le ‹_›]
    · have hlt : t % 65536 + t / 65536 ≤ n := by omega
      rw [ih hlt]
      simp only [folded]
      rw [if_neg (by omega), if_neg (by omega)]
      omega

/-- `ones_sum` in closed form. -/
theorem onesSum_eq_folded (s : List Byte) : onesSum s = folded (wordSum s) := foldCarry_eq_folded (Nat.le_refl _)

theorem folded_le (t : Nat) : folded t ≤ 0xFFFF := by
  unfold folded; split
  · omega
  · have := Nat.mod_lt (t - 1) (show 0 < 0xFFFF by decide); omega

theorem onesSum_le (s : List Byte) : onesSum s ≤ 0xFFFF := by rw [onesSum_eq_folded]; exact folded_le _

/-- The sum over a concatenation at an even offset is the sum of the sums. -/
theorem wordSum_append (a b : List Byte) (h : 2 ∣ a.length) : wordSum (a ++ b) = wordSum a + wordSum b := by
  induction a using wordSum.induct with
  | case1 => simp [wordSum]
  | case2 x => simp at h
  | case3 x y s ih =>
    have : 2 ∣ s.length := by simp only [List.length_cons] at h; omega
    simp [wordSum, ih this, Nat.add_assoc]

end Sys2Proof.Machine
end

