-- ==== Sys2Proof/Laws/Memory.lean ====
section
/-! SUPPORT. The memories: what a write leaves, that every operation keeps the canonical form, and what a read
of several bytes gives. -/

namespace Sys2Proof.Machine

/-! ## One byte -/

theorem memFind_memWrite_self (a : Nat) (b : Byte) (m : List Host.Cell) :
    memFind a (memWrite a b m) = some b := by
  induction m with
  | nil => simp [memWrite, memFind]
  | cons c m ih =>
    unfold memWrite; split
    · simp [memFind]
    · split
      · simp [memFind]
      · rw [memFind, if_neg (by omega), ih]

theorem memFind_memWrite_ne {a x : Nat} (h : x ≠ a) (b : Byte) (m : List Host.Cell) :
    memFind x (memWrite a b m) = memFind x m := by
  induction m with
  | nil => simp [memWrite, memFind, Ne.symm h]
  | cons c m ih =>
    unfold memWrite; split
    · rw [memFind, if_neg (by simpa using Ne.symm h)]
    · split
      · subst_vars; rw [memFind, if_neg (by simpa using Ne.symm h), memFind, if_neg (Ne.symm h)]
      · rw [memFind, memFind, ih]

theorem mem_memWrite {a : Nat} {b : Byte} {m : List Host.Cell} {c : Host.Cell} (h : c ∈ memWrite a b m) :
    c = (a, b) ∨ c ∈ m := by
  induction m with
  | nil => simp [memWrite] at h; exact .inl h
  | cons d m ih =>
    unfold memWrite at h; split at h
    · simpa using h
    · split at h
      · simp only [List.mem_cons] at h ⊢; tauto
      · simp only [List.mem_cons] at h ⊢
        rcases h with h | h
        · exact .inr (.inl h)
        · rcases ih h with h | h
          · exact .inl h
          · exact .inr (.inr h)

theorem memWrite_wf {m : List Host.Cell} (h : Memory.wf m) (a : Nat) (b : Byte) : Memory.wf (memWrite a b m) := by
  induction m with
  | nil => simp [memWrite, Memory.wf]
  | cons c m ih =>
    have hm := List.pairwise_cons.mp h
    unfold memWrite; split
    · refine List.pairwise_cons.mpr ⟨fun d hd => ?_, h⟩
      rcases List.mem_cons.mp hd with rfl | hd
      · assumption
      · exact Nat.lt_trans ‹_› (hm.1 d hd)
    · split
      · refine List.pairwise_cons.mpr ⟨fun d hd => ?_, hm.2⟩
        have := hm.1 d hd; simpa [‹a = c.1›] using this
      · refine List.pairwise_cons.mpr ⟨fun d hd => ?_, ih hm.2⟩
        rcases mem_memWrite hd with rfl | hd
        · show c.1 < a; omega
        · exact hm.1 d hd

theorem memWrite_within {m : List Host.Cell} {cap a : Nat} (h : Memory.within cap m) (ha : a < cap) (b : Byte) :
    Memory.within cap (memWrite a b m) := by
  intro c hc
  rcases mem_memWrite hc with rfl | hc
  · exact ha
  · exact h c hc

/-! ## A byte string -/

theorem memWriteBytes_wf {m : List Host.Cell} (h : Memory.wf m) (a : Nat) (bs : List Byte) :
    Memory.wf (memWriteBytes a bs m) := by
  induction bs generalizing a m with
  | nil => exact h
  | cons b bs ih => exact ih (memWrite_wf h a b) _

theorem memWriteBytes_within {m : List Host.Cell} {cap a : Nat} {bs : List Byte} (h : Memory.within cap m)
    (ha : a + bs.length ≤ cap) : Memory.within cap (memWriteBytes a bs m) := by
  induction bs generalizing a m with
  | nil => exact h
  | cons b bs ih =>
    simp only [List.length_cons] at ha
    exact ih (memWrite_within h (by omega) b) (by omega)

/-- A store leaves every address outside it alone. -/
theorem memFind_memWriteBytes_outside {a x : Nat} {bs : List Byte} (h : x < a ∨ a + bs.length ≤ x)
    (m : List Host.Cell) : memFind x (memWriteBytes a bs m) = memFind x m := by
  induction bs generalizing a m with
  | nil => rfl
  | cons b bs ih =>
    simp only [List.length_cons] at h
    rw [memWriteBytes, ih (by omega), memFind_memWrite_ne (by omega)]

/-- A store leaves its bytes. -/
theorem memFind_memWriteBytes_inside {a i : Nat} {bs : List Byte} (h : i < bs.length) (m : List Host.Cell) :
    memFind (a + i) (memWriteBytes a bs m) = some bs[i] := by
  induction bs generalizing a i m with
  | nil => simp at h
  | cons b bs ih =>
    rw [memWriteBytes]
    match i with
    | 0 => rw [memFind_memWriteBytes_outside (by omega)]; simp [memFind_memWrite_self]
    | i + 1 =>
      have := ih (a := a + 1) (i := i) (by simpa using h) (memWrite a b m)
      simpa [Nat.add_assoc, Nat.add_comm 1 i] using this

theorem memory_filter_wf {m : List Host.Cell} (h : Memory.wf m) (p : Host.Cell → Bool) : Memory.wf (m.filter p) :=
  List.Pairwise.filter p h

theorem memory_filter_within {m : List Host.Cell} {cap : Nat} (h : Memory.within cap m) (p : Host.Cell → Bool) :
    Memory.within cap (m.filter p) := fun c hc => h c (List.mem_filter.mp hc).1

@[simp] theorem filter_below_zero (m : List Host.Cell) : (m.filter fun c => c.1 < 0) = [] := by simp

theorem memFind_filter_below {x keep : Nat} (h : x < keep) (m : List Host.Cell) :
    memFind x (m.filter fun c => c.1 < keep) = memFind x m := by
  induction m with
  | nil => rfl
  | cons c m ih =>
    by_cases hc : c.1 < keep
    · simp only [List.filter_cons, hc, decide_true, if_true, memFind, ih]
    · simp only [List.filter_cons, hc, decide_false, memFind]
      rw [if_neg (by simp), if_neg (by omega), ih]

/-! ## Reading -/

@[simp] theorem memRead_length (s : State) (a n : Nat) : (s.memRead a n).length = n := by
  induction n generalizing a with
  | zero => rfl
  | succ n ih => simp [State.memRead, ih]

@[simp] theorem scratchRead_length (s : State) (a n : Nat) : (s.scratchRead a n).length = n := by
  induction n generalizing a with
  | zero => rfl
  | succ n ih => simp [State.scratchRead, ih]

theorem memRead_getElem (s : State) (a n i : Nat) (h : i < (s.memRead a n).length) :
    (s.memRead a n)[i] = s.readBuf (a + i) := by
  induction n generalizing a i with
  | zero => simp [State.memRead] at h
  | succ n ih =>
    match i with
    | 0 => simp [State.memRead]
    | i + 1 =>
      simp only [State.memRead, List.getElem_cons_succ]
      rw [ih]; congr 1; omega

theorem scratchRead_getElem (s : State) (a n i : Nat) (h : i < (s.scratchRead a n).length) :
    (s.scratchRead a n)[i] = s.readScratch (a + i) := by
  induction n generalizing a i with
  | zero => simp [State.scratchRead] at h
  | succ n ih =>
    match i with
    | 0 => simp [State.scratchRead]
    | i + 1 =>
      simp only [State.scratchRead, List.getElem_cons_succ]
      rw [ih]; congr 1; omega

/-- A read depends on the bytes it covers only. -/
theorem memRead_congr {s t : State} {a n : Nat} (h : ∀ i, i < n → s.readBuf (a + i) = t.readBuf (a + i)) :
    s.memRead a n = t.memRead a n := by
  induction n generalizing a with
  | zero => rfl
  | succ n ih =>
    simp only [State.memRead]
    rw [show s.readBuf a = t.readBuf a from h 0 (by omega),
      ih fun i hi => by simpa [Nat.add_assoc, Nat.add_comm 1 i] using h (i + 1) (by omega)]

theorem scratchRead_congr {s t : State} {a n : Nat} (h : ∀ i, i < n → s.readScratch (a + i) = t.readScratch (a + i)) :
    s.scratchRead a n = t.scratchRead a n := by
  induction n generalizing a with
  | zero => rfl
  | succ n ih =>
    simp only [State.scratchRead]
    rw [show s.readScratch a = t.readScratch a from h 0 (by omega),
      ih fun i hi => by simpa [Nat.add_assoc, Nat.add_comm 1 i] using h (i + 1) (by omega)]

/-- A part of a read is a read. -/
theorem memRead_drop_take (s : State) (a n i k : Nat) (h : i + k ≤ n) :
    ((s.memRead a n).drop i).take k = s.memRead (a + i) k := by
  apply List.ext_getElem
  · simp; omega
  · intro j h1 h2
    simp only [List.getElem_take, List.getElem_drop, memRead_getElem]
    congr 1; omega

end Sys2Proof.Machine
end

