-- ==== Sys2Proof/Laws/State.lean ====
section
/-! SUPPORT. One lemma per field per update of the state, so that no proof unfolds an update. Each is true by `rfl`. -/

namespace Sys2Proof.Machine

/-- The state after a successful `NARROW` (R151). -/
def State.narrowed (s : State) (off len : Nat) : State :=
  { s with vbase := BitVec.ofNat 16 (s.vbase.toNat + off), vlen := BitVec.ofNat 16 len }

/-! ## `State.narrowed` -/

@[simp] theorem State.narrowed_mem (s : State) (off len : Nat) : (s.narrowed off len).mem = s.mem := by rfl
@[simp] theorem State.narrowed_rxlen (s : State) (off len : Nat) : (s.narrowed off len).rxlen = s.rxlen := by rfl
@[simp] theorem State.narrowed_txlen (s : State) (off len : Nat) : (s.narrowed off len).txlen = s.txlen := by rfl
@[simp] theorem State.narrowed_stage (s : State) (off len : Nat) : (s.narrowed off len).stage = s.stage := by rfl
@[simp] theorem State.narrowed_vbase (s : State) (off len : Nat) :
    (s.narrowed off len).vbase = BitVec.ofNat 16 (s.vbase.toNat + off) := by rfl
@[simp] theorem State.narrowed_vlen (s : State) (off len : Nat) :
    (s.narrowed off len).vlen = BitVec.ofNat 16 len := by rfl
@[simp] theorem State.narrowed_llSrc (s : State) (off len : Nat) : (s.narrowed off len).llSrc = s.llSrc := by rfl
@[simp] theorem State.narrowed_llDst (s : State) (off len : Nat) : (s.narrowed off len).llDst = s.llDst := by rfl
@[simp] theorem State.narrowed_panSrc (s : State) (off len : Nat) : (s.narrowed off len).panSrc = s.panSrc := by rfl
@[simp] theorem State.narrowed_panDst (s : State) (off len : Nat) : (s.narrowed off len).panDst = s.panDst := by rfl
@[simp] theorem State.narrowed_outcome (s : State) (off len : Nat) :
    (s.narrowed off len).outcome = s.outcome := by rfl
@[simp] theorem State.narrowed_cause (s : State) (off len : Nat) : (s.narrowed off len).cause = s.cause := by rfl
@[simp] theorem State.narrowed_cstage (s : State) (off len : Nat) : (s.narrowed off len).cstage = s.cstage := by rfl
@[simp] theorem State.narrowed_fault (s : State) (off len : Nat) : (s.narrowed off len).fault = s.fault := by rfl
@[simp] theorem State.narrowed_led (s : State) (off len : Nat) : (s.narrowed off len).led = s.led := by rfl
@[simp] theorem State.narrowed_dsn (s : State) (off len : Nat) : (s.narrowed off len).dsn = s.dsn := by rfl
@[simp] theorem State.narrowed_arp (s : State) (off len : Nat) : (s.narrowed off len).arp = s.arp := by rfl
@[simp] theorem State.narrowed_nbr (s : State) (off len : Nat) : (s.narrowed off len).nbr = s.nbr := by rfl
@[simp] theorem State.narrowed_scratch (s : State) (off len : Nat) :
    (s.narrowed off len).scratch = s.scratch := by rfl
@[simp] theorem State.narrowed_cfg (s : State) (off len : Nat) : (s.narrowed off len).cfg = s.cfg := by rfl
@[simp] theorem State.narrowed_par (s : State) (off len : Nat) : (s.narrowed off len).par = s.par := by rfl
@[simp] theorem State.narrowed_latched (s : State) (off len : Nat) :
    (s.narrowed off len).latched = s.latched := by rfl
@[simp] theorem State.narrowed_phase (s : State) (off len : Nat) : (s.narrowed off len).phase = s.phase := by rfl
@[simp] theorem State.narrowed_host (s : State) (off len : Nat) : (s.narrowed off len).host = s.host := by rfl
@[simp] theorem State.narrowed_log (s : State) (off len : Nat) : (s.narrowed off len).log = s.log := by rfl
@[simp] theorem State.narrowed_epoch (s : State) (off len : Nat) : (s.narrowed off len).epoch = s.epoch := by rfl
@[simp] theorem State.narrowed_scratchEpoch (s : State) (off len : Nat) :
    (s.narrowed off len).scratchEpoch = s.scratchEpoch := by rfl

/-! ## `State.latch` -/

@[simp] theorem State.latch_mem (s : State) (f : Records → Records) : (s.latch f).mem = s.mem := by rfl
@[simp] theorem State.latch_rxlen (s : State) (f : Records → Records) : (s.latch f).rxlen = s.rxlen := by rfl
@[simp] theorem State.latch_txlen (s : State) (f : Records → Records) : (s.latch f).txlen = s.txlen := by rfl
@[simp] theorem State.latch_stage (s : State) (f : Records → Records) : (s.latch f).stage = s.stage := by rfl
@[simp] theorem State.latch_vbase (s : State) (f : Records → Records) : (s.latch f).vbase = s.vbase := by rfl
@[simp] theorem State.latch_vlen (s : State) (f : Records → Records) : (s.latch f).vlen = s.vlen := by rfl
@[simp] theorem State.latch_llSrc (s : State) (f : Records → Records) : (s.latch f).llSrc = s.llSrc := by rfl
@[simp] theorem State.latch_llDst (s : State) (f : Records → Records) : (s.latch f).llDst = s.llDst := by rfl
@[simp] theorem State.latch_panSrc (s : State) (f : Records → Records) : (s.latch f).panSrc = s.panSrc := by rfl
@[simp] theorem State.latch_panDst (s : State) (f : Records → Records) : (s.latch f).panDst = s.panDst := by rfl
@[simp] theorem State.latch_outcome (s : State) (f : Records → Records) : (s.latch f).outcome = s.outcome := by rfl
@[simp] theorem State.latch_cause (s : State) (f : Records → Records) : (s.latch f).cause = s.cause := by rfl
@[simp] theorem State.latch_cstage (s : State) (f : Records → Records) : (s.latch f).cstage = s.cstage := by rfl
@[simp] theorem State.latch_fault (s : State) (f : Records → Records) : (s.latch f).fault = s.fault := by rfl
@[simp] theorem State.latch_led (s : State) (f : Records → Records) : (s.latch f).led = s.led := by rfl
@[simp] theorem State.latch_dsn (s : State) (f : Records → Records) : (s.latch f).dsn = s.dsn := by rfl
@[simp] theorem State.latch_arp (s : State) (f : Records → Records) : (s.latch f).arp = s.arp := by rfl
@[simp] theorem State.latch_nbr (s : State) (f : Records → Records) : (s.latch f).nbr = s.nbr := by rfl
@[simp] theorem State.latch_scratch (s : State) (f : Records → Records) : (s.latch f).scratch = s.scratch := by rfl
@[simp] theorem State.latch_cfg (s : State) (f : Records → Records) : (s.latch f).cfg = s.cfg := by rfl
@[simp] theorem State.latch_par (s : State) (f : Records → Records) : (s.latch f).par = s.par := by rfl
@[simp] theorem State.latch_latched (s : State) (f : Records → Records) : (s.latch f).latched = f s.latched := by rfl
@[simp] theorem State.latch_phase (s : State) (f : Records → Records) : (s.latch f).phase = s.phase := by rfl
@[simp] theorem State.latch_host (s : State) (f : Records → Records) : (s.latch f).host = s.host := by rfl
@[simp] theorem State.latch_log (s : State) (f : Records → Records) : (s.latch f).log = s.log := by rfl
@[simp] theorem State.latch_epoch (s : State) (f : Records → Records) : (s.latch f).epoch = s.epoch := by rfl
@[simp] theorem State.latch_scratchEpoch (s : State) (f : Records → Records) :
    (s.latch f).scratchEpoch = s.scratchEpoch := by rfl

/-! ## `State.goto` -/

@[simp] theorem State.goto_mem (s : State) (st : Stage) : (s.goto st).mem = s.mem := by rfl
@[simp] theorem State.goto_rxlen (s : State) (st : Stage) : (s.goto st).rxlen = s.rxlen := by rfl
@[simp] theorem State.goto_txlen (s : State) (st : Stage) : (s.goto st).txlen = s.txlen := by rfl
@[simp] theorem State.goto_stage (s : State) (st : Stage) : (s.goto st).stage = st := by rfl
@[simp] theorem State.goto_vbase (s : State) (st : Stage) : (s.goto st).vbase = s.vbase := by rfl
@[simp] theorem State.goto_vlen (s : State) (st : Stage) : (s.goto st).vlen = s.vlen := by rfl
@[simp] theorem State.goto_llSrc (s : State) (st : Stage) : (s.goto st).llSrc = s.llSrc := by rfl
@[simp] theorem State.goto_llDst (s : State) (st : Stage) : (s.goto st).llDst = s.llDst := by rfl
@[simp] theorem State.goto_panSrc (s : State) (st : Stage) : (s.goto st).panSrc = s.panSrc := by rfl
@[simp] theorem State.goto_panDst (s : State) (st : Stage) : (s.goto st).panDst = s.panDst := by rfl
@[simp] theorem State.goto_outcome (s : State) (st : Stage) : (s.goto st).outcome = s.outcome := by rfl
@[simp] theorem State.goto_cause (s : State) (st : Stage) : (s.goto st).cause = s.cause := by rfl
@[simp] theorem State.goto_cstage (s : State) (st : Stage) : (s.goto st).cstage = s.cstage := by rfl
@[simp] theorem State.goto_fault (s : State) (st : Stage) : (s.goto st).fault = s.fault := by rfl
@[simp] theorem State.goto_led (s : State) (st : Stage) : (s.goto st).led = s.led := by rfl
@[simp] theorem State.goto_dsn (s : State) (st : Stage) : (s.goto st).dsn = s.dsn := by rfl
@[simp] theorem State.goto_arp (s : State) (st : Stage) : (s.goto st).arp = s.arp := by rfl
@[simp] theorem State.goto_nbr (s : State) (st : Stage) : (s.goto st).nbr = s.nbr := by rfl
@[simp] theorem State.goto_scratch (s : State) (st : Stage) : (s.goto st).scratch = s.scratch := by rfl
@[simp] theorem State.goto_cfg (s : State) (st : Stage) : (s.goto st).cfg = s.cfg := by rfl
@[simp] theorem State.goto_par (s : State) (st : Stage) : (s.goto st).par = s.par := by rfl
@[simp] theorem State.goto_latched (s : State) (st : Stage) : (s.goto st).latched = s.latched := by rfl
@[simp] theorem State.goto_phase (s : State) (st : Stage) : (s.goto st).phase = .entry := by rfl
@[simp] theorem State.goto_host (s : State) (st : Stage) : (s.goto st).host = s.host := by rfl
@[simp] theorem State.goto_log (s : State) (st : Stage) : (s.goto st).log = s.log := by rfl
@[simp] theorem State.goto_epoch (s : State) (st : Stage) : (s.goto st).epoch = s.epoch := by rfl
@[simp] theorem State.goto_scratchEpoch (s : State) (st : Stage) : (s.goto st).scratchEpoch = s.scratchEpoch := by rfl

/-! ## `State.toDispatch` -/

@[simp] theorem State.toDispatch_mem (s : State) : s.toDispatch.mem = s.mem := by rfl
@[simp] theorem State.toDispatch_rxlen (s : State) : s.toDispatch.rxlen = s.rxlen := by rfl
@[simp] theorem State.toDispatch_txlen (s : State) : s.toDispatch.txlen = s.txlen := by rfl
@[simp] theorem State.toDispatch_stage (s : State) : s.toDispatch.stage = s.stage := by rfl
@[simp] theorem State.toDispatch_vbase (s : State) : s.toDispatch.vbase = s.vbase := by rfl
@[simp] theorem State.toDispatch_vlen (s : State) : s.toDispatch.vlen = s.vlen := by rfl
@[simp] theorem State.toDispatch_llSrc (s : State) : s.toDispatch.llSrc = s.llSrc := by rfl
@[simp] theorem State.toDispatch_llDst (s : State) : s.toDispatch.llDst = s.llDst := by rfl
@[simp] theorem State.toDispatch_panSrc (s : State) : s.toDispatch.panSrc = s.panSrc := by rfl
@[simp] theorem State.toDispatch_panDst (s : State) : s.toDispatch.panDst = s.panDst := by rfl
@[simp] theorem State.toDispatch_outcome (s : State) : s.toDispatch.outcome = s.outcome := by rfl
@[simp] theorem State.toDispatch_cause (s : State) : s.toDispatch.cause = s.cause := by rfl
@[simp] theorem State.toDispatch_cstage (s : State) : s.toDispatch.cstage = s.cstage := by rfl
@[simp] theorem State.toDispatch_fault (s : State) : s.toDispatch.fault = s.fault := by rfl
@[simp] theorem State.toDispatch_led (s : State) : s.toDispatch.led = s.led := by rfl
@[simp] theorem State.toDispatch_dsn (s : State) : s.toDispatch.dsn = s.dsn := by rfl
@[simp] theorem State.toDispatch_arp (s : State) : s.toDispatch.arp = s.arp := by rfl
@[simp] theorem State.toDispatch_nbr (s : State) : s.toDispatch.nbr = s.nbr := by rfl
@[simp] theorem State.toDispatch_scratch (s : State) : s.toDispatch.scratch = s.scratch := by rfl
@[simp] theorem State.toDispatch_cfg (s : State) : s.toDispatch.cfg = s.cfg := by rfl
@[simp] theorem State.toDispatch_par (s : State) : s.toDispatch.par = s.par := by rfl
@[simp] theorem State.toDispatch_latched (s : State) : s.toDispatch.latched = s.latched := by rfl
@[simp] theorem State.toDispatch_phase (s : State) : s.toDispatch.phase = .dispatch := by rfl
@[simp] theorem State.toDispatch_host (s : State) : s.toDispatch.host = s.host := by rfl
@[simp] theorem State.toDispatch_log (s : State) : s.toDispatch.log = s.log := by rfl
@[simp] theorem State.toDispatch_epoch (s : State) : s.toDispatch.epoch = s.epoch := by rfl
@[simp] theorem State.toDispatch_scratchEpoch (s : State) : s.toDispatch.scratchEpoch = s.scratchEpoch := by rfl

/-! ## `State.emit` -/

@[simp] theorem State.emit_mem (s : State) (ev : Event) : (s.emit ev).mem = s.mem := by rfl
@[simp] theorem State.emit_rxlen (s : State) (ev : Event) : (s.emit ev).rxlen = s.rxlen := by rfl
@[simp] theorem State.emit_txlen (s : State) (ev : Event) : (s.emit ev).txlen = s.txlen := by rfl
@[simp] theorem State.emit_stage (s : State) (ev : Event) : (s.emit ev).stage = s.stage := by rfl
@[simp] theorem State.emit_vbase (s : State) (ev : Event) : (s.emit ev).vbase = s.vbase := by rfl
@[simp] theorem State.emit_vlen (s : State) (ev : Event) : (s.emit ev).vlen = s.vlen := by rfl
@[simp] theorem State.emit_llSrc (s : State) (ev : Event) : (s.emit ev).llSrc = s.llSrc := by rfl
@[simp] theorem State.emit_llDst (s : State) (ev : Event) : (s.emit ev).llDst = s.llDst := by rfl
@[simp] theorem State.emit_panSrc (s : State) (ev : Event) : (s.emit ev).panSrc = s.panSrc := by rfl
@[simp] theorem State.emit_panDst (s : State) (ev : Event) : (s.emit ev).panDst = s.panDst := by rfl
@[simp] theorem State.emit_outcome (s : State) (ev : Event) : (s.emit ev).outcome = s.outcome := by rfl
@[simp] theorem State.emit_cause (s : State) (ev : Event) : (s.emit ev).cause = s.cause := by rfl
@[simp] theorem State.emit_cstage (s : State) (ev : Event) : (s.emit ev).cstage = s.cstage := by rfl
@[simp] theorem State.emit_fault (s : State) (ev : Event) : (s.emit ev).fault = s.fault := by rfl
@[simp] theorem State.emit_led (s : State) (ev : Event) : (s.emit ev).led = s.led := by rfl
@[simp] theorem State.emit_dsn (s : State) (ev : Event) : (s.emit ev).dsn = s.dsn := by rfl
@[simp] theorem State.emit_arp (s : State) (ev : Event) : (s.emit ev).arp = s.arp := by rfl
@[simp] theorem State.emit_nbr (s : State) (ev : Event) : (s.emit ev).nbr = s.nbr := by rfl
@[simp] theorem State.emit_scratch (s : State) (ev : Event) : (s.emit ev).scratch = s.scratch := by rfl
@[simp] theorem State.emit_cfg (s : State) (ev : Event) : (s.emit ev).cfg = s.cfg := by rfl
@[simp] theorem State.emit_par (s : State) (ev : Event) : (s.emit ev).par = s.par := by rfl
@[simp] theorem State.emit_latched (s : State) (ev : Event) : (s.emit ev).latched = s.latched := by rfl
@[simp] theorem State.emit_phase (s : State) (ev : Event) : (s.emit ev).phase = s.phase := by rfl
@[simp] theorem State.emit_host (s : State) (ev : Event) : (s.emit ev).host = s.host := by rfl
@[simp] theorem State.emit_log (s : State) (ev : Event) : (s.emit ev).log = s.log ++ [ev] := by rfl
@[simp] theorem State.emit_epoch (s : State) (ev : Event) : (s.emit ev).epoch = s.epoch := by rfl
@[simp] theorem State.emit_scratchEpoch (s : State) (ev : Event) : (s.emit ev).scratchEpoch = s.scratchEpoch := by rfl

/-! ## `State.setStatus` -/

@[simp] theorem State.setStatus_mem (s : State) (o : FrameOutcome) (c : Cause) (st : Stage) :
    (s.setStatus o c st).mem = s.mem := by rfl
@[simp] theorem State.setStatus_rxlen (s : State) (o : FrameOutcome) (c : Cause) (st : Stage) :
    (s.setStatus o c st).rxlen = s.rxlen := by rfl
@[simp] theorem State.setStatus_txlen (s : State) (o : FrameOutcome) (c : Cause) (st : Stage) :
    (s.setStatus o c st).txlen = s.txlen := by rfl
@[simp] theorem State.setStatus_stage (s : State) (o : FrameOutcome) (c : Cause) (st : Stage) :
    (s.setStatus o c st).stage = s.stage := by rfl
@[simp] theorem State.setStatus_vbase (s : State) (o : FrameOutcome) (c : Cause) (st : Stage) :
    (s.setStatus o c st).vbase = s.vbase := by rfl
@[simp] theorem State.setStatus_vlen (s : State) (o : FrameOutcome) (c : Cause) (st : Stage) :
    (s.setStatus o c st).vlen = s.vlen := by rfl
@[simp] theorem State.setStatus_llSrc (s : State) (o : FrameOutcome) (c : Cause) (st : Stage) :
    (s.setStatus o c st).llSrc = s.llSrc := by rfl
@[simp] theorem State.setStatus_llDst (s : State) (o : FrameOutcome) (c : Cause) (st : Stage) :
    (s.setStatus o c st).llDst = s.llDst := by rfl
@[simp] theorem State.setStatus_panSrc (s : State) (o : FrameOutcome) (c : Cause) (st : Stage) :
    (s.setStatus o c st).panSrc = s.panSrc := by rfl
@[simp] theorem State.setStatus_panDst (s : State) (o : FrameOutcome) (c : Cause) (st : Stage) :
    (s.setStatus o c st).panDst = s.panDst := by rfl
@[simp] theorem State.setStatus_outcome (s : State) (o : FrameOutcome) (c : Cause) (st : Stage) :
    (s.setStatus o c st).outcome = o := by rfl
@[simp] theorem State.setStatus_cause (s : State) (o : FrameOutcome) (c : Cause) (st : Stage) :
    (s.setStatus o c st).cause = c := by rfl
@[simp] theorem State.setStatus_cstage (s : State) (o : FrameOutcome) (c : Cause) (st : Stage) :
    (s.setStatus o c st).cstage = st := by rfl
@[simp] theorem State.setStatus_fault (s : State) (o : FrameOutcome) (c : Cause) (st : Stage) :
    (s.setStatus o c st).fault = s.fault := by rfl
@[simp] theorem State.setStatus_led (s : State) (o : FrameOutcome) (c : Cause) (st : Stage) :
    (s.setStatus o c st).led = s.led := by rfl
@[simp] theorem State.setStatus_dsn (s : State) (o : FrameOutcome) (c : Cause) (st : Stage) :
    (s.setStatus o c st).dsn = s.dsn := by rfl
@[simp] theorem State.setStatus_arp (s : State) (o : FrameOutcome) (c : Cause) (st : Stage) :
    (s.setStatus o c st).arp = s.arp := by rfl
@[simp] theorem State.setStatus_nbr (s : State) (o : FrameOutcome) (c : Cause) (st : Stage) :
    (s.setStatus o c st).nbr = s.nbr := by rfl
@[simp] theorem State.setStatus_scratch (s : State) (o : FrameOutcome) (c : Cause) (st : Stage) :
    (s.setStatus o c st).scratch = s.scratch := by rfl
@[simp] theorem State.setStatus_cfg (s : State) (o : FrameOutcome) (c : Cause) (st : Stage) :
    (s.setStatus o c st).cfg = s.cfg := by rfl
@[simp] theorem State.setStatus_par (s : State) (o : FrameOutcome) (c : Cause) (st : Stage) :
    (s.setStatus o c st).par = s.par := by rfl
@[simp] theorem State.setStatus_latched (s : State) (o : FrameOutcome) (c : Cause) (st : Stage) :
    (s.setStatus o c st).latched = s.latched := by rfl
@[simp] theorem State.setStatus_phase (s : State) (o : FrameOutcome) (c : Cause) (st : Stage) :
    (s.setStatus o c st).phase = s.phase := by rfl
@[simp] theorem State.setStatus_host (s : State) (o : FrameOutcome) (c : Cause) (st : Stage) :
    (s.setStatus o c st).host = s.host := by rfl
@[simp] theorem State.setStatus_log (s : State) (o : FrameOutcome) (c : Cause) (st : Stage) :
    (s.setStatus o c st).log = s.log := by rfl
@[simp] theorem State.setStatus_epoch (s : State) (o : FrameOutcome) (c : Cause) (st : Stage) :
    (s.setStatus o c st).epoch = s.epoch := by rfl
@[simp] theorem State.setStatus_scratchEpoch (s : State) (o : FrameOutcome) (c : Cause) (st : Stage) :
    (s.setStatus o c st).scratchEpoch = s.scratchEpoch := by rfl

/-! ## `State.setFatalIo` -/

@[simp] theorem State.setFatalIo_mem (s : State) : s.setFatalIo.mem = s.mem := by rfl
@[simp] theorem State.setFatalIo_rxlen (s : State) : s.setFatalIo.rxlen = s.rxlen := by rfl
@[simp] theorem State.setFatalIo_txlen (s : State) : s.setFatalIo.txlen = s.txlen := by rfl
@[simp] theorem State.setFatalIo_stage (s : State) : s.setFatalIo.stage = s.stage := by rfl
@[simp] theorem State.setFatalIo_vbase (s : State) : s.setFatalIo.vbase = s.vbase := by rfl
@[simp] theorem State.setFatalIo_vlen (s : State) : s.setFatalIo.vlen = s.vlen := by rfl
@[simp] theorem State.setFatalIo_llSrc (s : State) : s.setFatalIo.llSrc = s.llSrc := by rfl
@[simp] theorem State.setFatalIo_llDst (s : State) : s.setFatalIo.llDst = s.llDst := by rfl
@[simp] theorem State.setFatalIo_panSrc (s : State) : s.setFatalIo.panSrc = s.panSrc := by rfl
@[simp] theorem State.setFatalIo_panDst (s : State) : s.setFatalIo.panDst = s.panDst := by rfl
@[simp] theorem State.setFatalIo_outcome (s : State) : s.setFatalIo.outcome = s.outcome := by rfl
@[simp] theorem State.setFatalIo_cause (s : State) : s.setFatalIo.cause = s.cause := by rfl
@[simp] theorem State.setFatalIo_cstage (s : State) : s.setFatalIo.cstage = s.cstage := by rfl
@[simp] theorem State.setFatalIo_fault (s : State) : s.setFatalIo.fault = s.fault ||| 1#2 := by rfl
@[simp] theorem State.setFatalIo_led (s : State) : s.setFatalIo.led = s.led := by rfl
@[simp] theorem State.setFatalIo_dsn (s : State) : s.setFatalIo.dsn = s.dsn := by rfl
@[simp] theorem State.setFatalIo_arp (s : State) : s.setFatalIo.arp = s.arp := by rfl
@[simp] theorem State.setFatalIo_nbr (s : State) : s.setFatalIo.nbr = s.nbr := by rfl
@[simp] theorem State.setFatalIo_scratch (s : State) : s.setFatalIo.scratch = s.scratch := by rfl
@[simp] theorem State.setFatalIo_cfg (s : State) : s.setFatalIo.cfg = s.cfg := by rfl
@[simp] theorem State.setFatalIo_par (s : State) : s.setFatalIo.par = s.par := by rfl
@[simp] theorem State.setFatalIo_latched (s : State) : s.setFatalIo.latched = s.latched := by rfl
@[simp] theorem State.setFatalIo_phase (s : State) : s.setFatalIo.phase = s.phase := by rfl
@[simp] theorem State.setFatalIo_host (s : State) : s.setFatalIo.host = s.host := by rfl
@[simp] theorem State.setFatalIo_log (s : State) : s.setFatalIo.log = s.log := by rfl
@[simp] theorem State.setFatalIo_epoch (s : State) : s.setFatalIo.epoch = s.epoch := by rfl
@[simp] theorem State.setFatalIo_scratchEpoch (s : State) : s.setFatalIo.scratchEpoch = s.scratchEpoch := by rfl

/-! ## `State.setInvariant` -/

@[simp] theorem State.setInvariant_mem (s : State) : s.setInvariant.mem = s.mem := by rfl
@[simp] theorem State.setInvariant_rxlen (s : State) : s.setInvariant.rxlen = s.rxlen := by rfl
@[simp] theorem State.setInvariant_txlen (s : State) : s.setInvariant.txlen = s.txlen := by rfl
@[simp] theorem State.setInvariant_stage (s : State) : s.setInvariant.stage = s.stage := by rfl
@[simp] theorem State.setInvariant_vbase (s : State) : s.setInvariant.vbase = s.vbase := by rfl
@[simp] theorem State.setInvariant_vlen (s : State) : s.setInvariant.vlen = s.vlen := by rfl
@[simp] theorem State.setInvariant_llSrc (s : State) : s.setInvariant.llSrc = s.llSrc := by rfl
@[simp] theorem State.setInvariant_llDst (s : State) : s.setInvariant.llDst = s.llDst := by rfl
@[simp] theorem State.setInvariant_panSrc (s : State) : s.setInvariant.panSrc = s.panSrc := by rfl
@[simp] theorem State.setInvariant_panDst (s : State) : s.setInvariant.panDst = s.panDst := by rfl
@[simp] theorem State.setInvariant_outcome (s : State) : s.setInvariant.outcome = s.outcome := by rfl
@[simp] theorem State.setInvariant_cause (s : State) : s.setInvariant.cause = s.cause := by rfl
@[simp] theorem State.setInvariant_cstage (s : State) : s.setInvariant.cstage = s.cstage := by rfl
@[simp] theorem State.setInvariant_fault (s : State) : s.setInvariant.fault = s.fault ||| 2#2 := by rfl
@[simp] theorem State.setInvariant_led (s : State) : s.setInvariant.led = s.led := by rfl
@[simp] theorem State.setInvariant_dsn (s : State) : s.setInvariant.dsn = s.dsn := by rfl
@[simp] theorem State.setInvariant_arp (s : State) : s.setInvariant.arp = s.arp := by rfl
@[simp] theorem State.setInvariant_nbr (s : State) : s.setInvariant.nbr = s.nbr := by rfl
@[simp] theorem State.setInvariant_scratch (s : State) : s.setInvariant.scratch = s.scratch := by rfl
@[simp] theorem State.setInvariant_cfg (s : State) : s.setInvariant.cfg = s.cfg := by rfl
@[simp] theorem State.setInvariant_par (s : State) : s.setInvariant.par = s.par := by rfl
@[simp] theorem State.setInvariant_latched (s : State) : s.setInvariant.latched = s.latched := by rfl
@[simp] theorem State.setInvariant_phase (s : State) : s.setInvariant.phase = s.phase := by rfl
@[simp] theorem State.setInvariant_host (s : State) : s.setInvariant.host = s.host := by rfl
@[simp] theorem State.setInvariant_log (s : State) : s.setInvariant.log = s.log := by rfl
@[simp] theorem State.setInvariant_epoch (s : State) : s.setInvariant.epoch = s.epoch := by rfl
@[simp] theorem State.setInvariant_scratchEpoch (s : State) : s.setInvariant.scratchEpoch = s.scratchEpoch := by rfl

/-! ## `State.scratchWrite` -/

@[simp] theorem State.scratchWrite_mem (s : State) (a : Nat) (v : List Byte) :
    (s.scratchWrite a v).mem = s.mem := by rfl
@[simp] theorem State.scratchWrite_rxlen (s : State) (a : Nat) (v : List Byte) :
    (s.scratchWrite a v).rxlen = s.rxlen := by rfl
@[simp] theorem State.scratchWrite_txlen (s : State) (a : Nat) (v : List Byte) :
    (s.scratchWrite a v).txlen = s.txlen := by rfl
@[simp] theorem State.scratchWrite_stage (s : State) (a : Nat) (v : List Byte) :
    (s.scratchWrite a v).stage = s.stage := by rfl
@[simp] theorem State.scratchWrite_vbase (s : State) (a : Nat) (v : List Byte) :
    (s.scratchWrite a v).vbase = s.vbase := by rfl
@[simp] theorem State.scratchWrite_vlen (s : State) (a : Nat) (v : List Byte) :
    (s.scratchWrite a v).vlen = s.vlen := by rfl
@[simp] theorem State.scratchWrite_llSrc (s : State) (a : Nat) (v : List Byte) :
    (s.scratchWrite a v).llSrc = s.llSrc := by rfl
@[simp] theorem State.scratchWrite_llDst (s : State) (a : Nat) (v : List Byte) :
    (s.scratchWrite a v).llDst = s.llDst := by rfl
@[simp] theorem State.scratchWrite_panSrc (s : State) (a : Nat) (v : List Byte) :
    (s.scratchWrite a v).panSrc = s.panSrc := by rfl
@[simp] theorem State.scratchWrite_panDst (s : State) (a : Nat) (v : List Byte) :
    (s.scratchWrite a v).panDst = s.panDst := by rfl
@[simp] theorem State.scratchWrite_outcome (s : State) (a : Nat) (v : List Byte) :
    (s.scratchWrite a v).outcome = s.outcome := by rfl
@[simp] theorem State.scratchWrite_cause (s : State) (a : Nat) (v : List Byte) :
    (s.scratchWrite a v).cause = s.cause := by rfl
@[simp] theorem State.scratchWrite_cstage (s : State) (a : Nat) (v : List Byte) :
    (s.scratchWrite a v).cstage = s.cstage := by rfl
@[simp] theorem State.scratchWrite_fault (s : State) (a : Nat) (v : List Byte) :
    (s.scratchWrite a v).fault = s.fault := by rfl
@[simp] theorem State.scratchWrite_led (s : State) (a : Nat) (v : List Byte) :
    (s.scratchWrite a v).led = s.led := by rfl
@[simp] theorem State.scratchWrite_dsn (s : State) (a : Nat) (v : List Byte) :
    (s.scratchWrite a v).dsn = s.dsn := by rfl
@[simp] theorem State.scratchWrite_arp (s : State) (a : Nat) (v : List Byte) :
    (s.scratchWrite a v).arp = s.arp := by rfl
@[simp] theorem State.scratchWrite_nbr (s : State) (a : Nat) (v : List Byte) :
    (s.scratchWrite a v).nbr = s.nbr := by rfl
@[simp] theorem State.scratchWrite_scratch (s : State) (a : Nat) (v : List Byte) :
    (s.scratchWrite a v).scratch = memWriteBytes a v s.scratch := by rfl
@[simp] theorem State.scratchWrite_cfg (s : State) (a : Nat) (v : List Byte) :
    (s.scratchWrite a v).cfg = s.cfg := by rfl
@[simp] theorem State.scratchWrite_par (s : State) (a : Nat) (v : List Byte) :
    (s.scratchWrite a v).par = s.par := by rfl
@[simp] theorem State.scratchWrite_latched (s : State) (a : Nat) (v : List Byte) :
    (s.scratchWrite a v).latched = s.latched := by rfl
@[simp] theorem State.scratchWrite_phase (s : State) (a : Nat) (v : List Byte) :
    (s.scratchWrite a v).phase = s.phase := by rfl
@[simp] theorem State.scratchWrite_host (s : State) (a : Nat) (v : List Byte) :
    (s.scratchWrite a v).host = s.host := by rfl
@[simp] theorem State.scratchWrite_log (s : State) (a : Nat) (v : List Byte) :
    (s.scratchWrite a v).log = s.log := by rfl
@[simp] theorem State.scratchWrite_epoch (s : State) (a : Nat) (v : List Byte) :
    (s.scratchWrite a v).epoch = s.epoch := by rfl
@[simp] theorem State.scratchWrite_scratchEpoch (s : State) (a : Nat) (v : List Byte) :
    (s.scratchWrite a v).scratchEpoch = s.scratchEpoch := by rfl

/-! ## `State.forgetBuf` -/

@[simp] theorem State.forgetBuf_mem (s : State) (keep : Nat) :
    (s.forgetBuf keep).mem = s.mem.filter fun c => c.1 < keep := by rfl
@[simp] theorem State.forgetBuf_rxlen (s : State) (keep : Nat) : (s.forgetBuf keep).rxlen = s.rxlen := by rfl
@[simp] theorem State.forgetBuf_txlen (s : State) (keep : Nat) : (s.forgetBuf keep).txlen = s.txlen := by rfl
@[simp] theorem State.forgetBuf_stage (s : State) (keep : Nat) : (s.forgetBuf keep).stage = s.stage := by rfl
@[simp] theorem State.forgetBuf_vbase (s : State) (keep : Nat) : (s.forgetBuf keep).vbase = s.vbase := by rfl
@[simp] theorem State.forgetBuf_vlen (s : State) (keep : Nat) : (s.forgetBuf keep).vlen = s.vlen := by rfl
@[simp] theorem State.forgetBuf_llSrc (s : State) (keep : Nat) : (s.forgetBuf keep).llSrc = s.llSrc := by rfl
@[simp] theorem State.forgetBuf_llDst (s : State) (keep : Nat) : (s.forgetBuf keep).llDst = s.llDst := by rfl
@[simp] theorem State.forgetBuf_panSrc (s : State) (keep : Nat) : (s.forgetBuf keep).panSrc = s.panSrc := by rfl
@[simp] theorem State.forgetBuf_panDst (s : State) (keep : Nat) : (s.forgetBuf keep).panDst = s.panDst := by rfl
@[simp] theorem State.forgetBuf_outcome (s : State) (keep : Nat) : (s.forgetBuf keep).outcome = s.outcome := by rfl
@[simp] theorem State.forgetBuf_cause (s : State) (keep : Nat) : (s.forgetBuf keep).cause = s.cause := by rfl
@[simp] theorem State.forgetBuf_cstage (s : State) (keep : Nat) : (s.forgetBuf keep).cstage = s.cstage := by rfl
@[simp] theorem State.forgetBuf_fault (s : State) (keep : Nat) : (s.forgetBuf keep).fault = s.fault := by rfl
@[simp] theorem State.forgetBuf_led (s : State) (keep : Nat) : (s.forgetBuf keep).led = s.led := by rfl
@[simp] theorem State.forgetBuf_dsn (s : State) (keep : Nat) : (s.forgetBuf keep).dsn = s.dsn := by rfl
@[simp] theorem State.forgetBuf_arp (s : State) (keep : Nat) : (s.forgetBuf keep).arp = s.arp := by rfl
@[simp] theorem State.forgetBuf_nbr (s : State) (keep : Nat) : (s.forgetBuf keep).nbr = s.nbr := by rfl
@[simp] theorem State.forgetBuf_scratch (s : State) (keep : Nat) : (s.forgetBuf keep).scratch = s.scratch := by rfl
@[simp] theorem State.forgetBuf_cfg (s : State) (keep : Nat) : (s.forgetBuf keep).cfg = s.cfg := by rfl
@[simp] theorem State.forgetBuf_par (s : State) (keep : Nat) : (s.forgetBuf keep).par = s.par := by rfl
@[simp] theorem State.forgetBuf_latched (s : State) (keep : Nat) : (s.forgetBuf keep).latched = s.latched := by rfl
@[simp] theorem State.forgetBuf_phase (s : State) (keep : Nat) : (s.forgetBuf keep).phase = s.phase := by rfl
@[simp] theorem State.forgetBuf_host (s : State) (keep : Nat) : (s.forgetBuf keep).host = s.host := by rfl
@[simp] theorem State.forgetBuf_log (s : State) (keep : Nat) : (s.forgetBuf keep).log = s.log := by rfl
@[simp] theorem State.forgetBuf_epoch (s : State) (keep : Nat) : (s.forgetBuf keep).epoch = s.epoch + 1 := by rfl
@[simp] theorem State.forgetBuf_scratchEpoch (s : State) (keep : Nat) :
    (s.forgetBuf keep).scratchEpoch = s.scratchEpoch := by rfl

/-! ## `State.toIdle` -/

@[simp] theorem State.toIdle_mem (s : State) : s.toIdle.mem = s.mem := by rfl
@[simp] theorem State.toIdle_rxlen (s : State) : s.toIdle.rxlen = s.rxlen := by rfl
@[simp] theorem State.toIdle_txlen (s : State) : s.toIdle.txlen = s.txlen := by rfl
@[simp] theorem State.toIdle_stage (s : State) : s.toIdle.stage = .idle := by rfl
@[simp] theorem State.toIdle_vbase (s : State) : s.toIdle.vbase = s.vbase := by rfl
@[simp] theorem State.toIdle_vlen (s : State) : s.toIdle.vlen = s.vlen := by rfl
@[simp] theorem State.toIdle_llSrc (s : State) : s.toIdle.llSrc = s.llSrc := by rfl
@[simp] theorem State.toIdle_llDst (s : State) : s.toIdle.llDst = s.llDst := by rfl
@[simp] theorem State.toIdle_panSrc (s : State) : s.toIdle.panSrc = s.panSrc := by rfl
@[simp] theorem State.toIdle_panDst (s : State) : s.toIdle.panDst = s.panDst := by rfl
@[simp] theorem State.toIdle_outcome (s : State) : s.toIdle.outcome = s.outcome := by rfl
@[simp] theorem State.toIdle_cause (s : State) : s.toIdle.cause = s.cause := by rfl
@[simp] theorem State.toIdle_cstage (s : State) : s.toIdle.cstage = s.cstage := by rfl
@[simp] theorem State.toIdle_fault (s : State) : s.toIdle.fault = s.fault := by rfl
@[simp] theorem State.toIdle_led (s : State) : s.toIdle.led = s.led := by rfl
@[simp] theorem State.toIdle_dsn (s : State) : s.toIdle.dsn = s.dsn := by rfl
@[simp] theorem State.toIdle_arp (s : State) : s.toIdle.arp = s.arp := by rfl
@[simp] theorem State.toIdle_nbr (s : State) : s.toIdle.nbr = s.nbr := by rfl
@[simp] theorem State.toIdle_scratch (s : State) : s.toIdle.scratch = s.scratch := by rfl
@[simp] theorem State.toIdle_cfg (s : State) : s.toIdle.cfg = s.cfg := by rfl
@[simp] theorem State.toIdle_par (s : State) : s.toIdle.par = s.par := by rfl
@[simp] theorem State.toIdle_latched (s : State) : s.toIdle.latched = Records.empty := by rfl
@[simp] theorem State.toIdle_phase (s : State) : s.toIdle.phase = .entry := by rfl
@[simp] theorem State.toIdle_host (s : State) : s.toIdle.host = s.host := by rfl
@[simp] theorem State.toIdle_log (s : State) : s.toIdle.log = s.log := by rfl
@[simp] theorem State.toIdle_epoch (s : State) : s.toIdle.epoch = s.epoch := by rfl
@[simp] theorem State.toIdle_scratchEpoch (s : State) : s.toIdle.scratchEpoch = s.scratchEpoch := by rfl

/-! ## `State.raiseDrop` -/

@[simp] theorem State.raiseDrop_mem (s : State) (st : Stage) (c : Cause) :
    (s.raiseDrop st c).mem = s.mem.filter fun x => x.1 < 0 := by rfl
@[simp] theorem State.raiseDrop_rxlen (s : State) (st : Stage) (c : Cause) :
    (s.raiseDrop st c).rxlen = s.rxlen := by rfl
@[simp] theorem State.raiseDrop_txlen (s : State) (st : Stage) (c : Cause) : (s.raiseDrop st c).txlen = 0#16 := by rfl
@[simp] theorem State.raiseDrop_stage (s : State) (st : Stage) (c : Cause) :
    (s.raiseDrop st c).stage = .idle := by rfl
@[simp] theorem State.raiseDrop_vbase (s : State) (st : Stage) (c : Cause) :
    (s.raiseDrop st c).vbase = s.vbase := by rfl
@[simp] theorem State.raiseDrop_vlen (s : State) (st : Stage) (c : Cause) : (s.raiseDrop st c).vlen = s.vlen := by rfl
@[simp] theorem State.raiseDrop_llSrc (s : State) (st : Stage) (c : Cause) :
    (s.raiseDrop st c).llSrc = s.llSrc := by rfl
@[simp] theorem State.raiseDrop_llDst (s : State) (st : Stage) (c : Cause) :
    (s.raiseDrop st c).llDst = s.llDst := by rfl
@[simp] theorem State.raiseDrop_panSrc (s : State) (st : Stage) (c : Cause) :
    (s.raiseDrop st c).panSrc = s.panSrc := by rfl
@[simp] theorem State.raiseDrop_panDst (s : State) (st : Stage) (c : Cause) :
    (s.raiseDrop st c).panDst = s.panDst := by rfl
@[simp] theorem State.raiseDrop_outcome (s : State) (st : Stage) (c : Cause) :
    (s.raiseDrop st c).outcome = .dropped := by rfl
@[simp] theorem State.raiseDrop_cause (s : State) (st : Stage) (c : Cause) : (s.raiseDrop st c).cause = c := by rfl
@[simp] theorem State.raiseDrop_cstage (s : State) (st : Stage) (c : Cause) : (s.raiseDrop st c).cstage = st := by rfl
@[simp] theorem State.raiseDrop_fault (s : State) (st : Stage) (c : Cause) :
    (s.raiseDrop st c).fault = s.fault := by rfl
@[simp] theorem State.raiseDrop_led (s : State) (st : Stage) (c : Cause) : (s.raiseDrop st c).led = s.led := by rfl
@[simp] theorem State.raiseDrop_dsn (s : State) (st : Stage) (c : Cause) : (s.raiseDrop st c).dsn = s.dsn := by rfl
@[simp] theorem State.raiseDrop_arp (s : State) (st : Stage) (c : Cause) : (s.raiseDrop st c).arp = s.arp := by rfl
@[simp] theorem State.raiseDrop_nbr (s : State) (st : Stage) (c : Cause) : (s.raiseDrop st c).nbr = s.nbr := by rfl
@[simp] theorem State.raiseDrop_scratch (s : State) (st : Stage) (c : Cause) :
    (s.raiseDrop st c).scratch = s.scratch := by rfl
@[simp] theorem State.raiseDrop_cfg (s : State) (st : Stage) (c : Cause) : (s.raiseDrop st c).cfg = s.cfg := by rfl
@[simp] theorem State.raiseDrop_par (s : State) (st : Stage) (c : Cause) : (s.raiseDrop st c).par = s.par := by rfl
@[simp] theorem State.raiseDrop_latched (s : State) (st : Stage) (c : Cause) :
    (s.raiseDrop st c).latched = Records.empty := by rfl
@[simp] theorem State.raiseDrop_phase (s : State) (st : Stage) (c : Cause) :
    (s.raiseDrop st c).phase = .entry := by rfl
@[simp] theorem State.raiseDrop_host (s : State) (st : Stage) (c : Cause) : (s.raiseDrop st c).host = s.host := by rfl
@[simp] theorem State.raiseDrop_log (s : State) (st : Stage) (c : Cause) :
    (s.raiseDrop st c).log = s.log ++ [.drop st c] := by rfl
@[simp] theorem State.raiseDrop_epoch (s : State) (st : Stage) (c : Cause) :
    (s.raiseDrop st c).epoch = s.epoch + 1 := by rfl
@[simp] theorem State.raiseDrop_scratchEpoch (s : State) (st : Stage) (c : Cause) :
    (s.raiseDrop st c).scratchEpoch = s.scratchEpoch := by rfl

/-! ## `State.raiseFatal` -/

@[simp] theorem State.raiseFatal_mem (s : State) : s.raiseFatal.mem = s.mem := by rfl
@[simp] theorem State.raiseFatal_rxlen (s : State) : s.raiseFatal.rxlen = s.rxlen := by rfl
@[simp] theorem State.raiseFatal_txlen (s : State) : s.raiseFatal.txlen = s.txlen := by rfl
@[simp] theorem State.raiseFatal_stage (s : State) : s.raiseFatal.stage = .haltFatal := by rfl
@[simp] theorem State.raiseFatal_vbase (s : State) : s.raiseFatal.vbase = s.vbase := by rfl
@[simp] theorem State.raiseFatal_vlen (s : State) : s.raiseFatal.vlen = s.vlen := by rfl
@[simp] theorem State.raiseFatal_llSrc (s : State) : s.raiseFatal.llSrc = s.llSrc := by rfl
@[simp] theorem State.raiseFatal_llDst (s : State) : s.raiseFatal.llDst = s.llDst := by rfl
@[simp] theorem State.raiseFatal_panSrc (s : State) : s.raiseFatal.panSrc = s.panSrc := by rfl
@[simp] theorem State.raiseFatal_panDst (s : State) : s.raiseFatal.panDst = s.panDst := by rfl
@[simp] theorem State.raiseFatal_outcome (s : State) : s.raiseFatal.outcome = s.outcome := by rfl
@[simp] theorem State.raiseFatal_cause (s : State) : s.raiseFatal.cause = s.cause := by rfl
@[simp] theorem State.raiseFatal_cstage (s : State) : s.raiseFatal.cstage = s.cstage := by rfl
@[simp] theorem State.raiseFatal_fault (s : State) : s.raiseFatal.fault = s.fault ||| 1#2 := by rfl
@[simp] theorem State.raiseFatal_led (s : State) : s.raiseFatal.led = s.led := by rfl
@[simp] theorem State.raiseFatal_dsn (s : State) : s.raiseFatal.dsn = s.dsn := by rfl
@[simp] theorem State.raiseFatal_arp (s : State) : s.raiseFatal.arp = s.arp := by rfl
@[simp] theorem State.raiseFatal_nbr (s : State) : s.raiseFatal.nbr = s.nbr := by rfl
@[simp] theorem State.raiseFatal_scratch (s : State) : s.raiseFatal.scratch = s.scratch := by rfl
@[simp] theorem State.raiseFatal_cfg (s : State) : s.raiseFatal.cfg = s.cfg := by rfl
@[simp] theorem State.raiseFatal_par (s : State) : s.raiseFatal.par = s.par := by rfl
@[simp] theorem State.raiseFatal_latched (s : State) : s.raiseFatal.latched = s.latched := by rfl
@[simp] theorem State.raiseFatal_phase (s : State) : s.raiseFatal.phase = .entry := by rfl
@[simp] theorem State.raiseFatal_host (s : State) : s.raiseFatal.host = s.host := by rfl
@[simp] theorem State.raiseFatal_log (s : State) : s.raiseFatal.log = s.log := by rfl
@[simp] theorem State.raiseFatal_epoch (s : State) : s.raiseFatal.epoch = s.epoch := by rfl
@[simp] theorem State.raiseFatal_scratchEpoch (s : State) : s.raiseFatal.scratchEpoch = s.scratchEpoch := by rfl

/-! ## `State.respond` -/

@[simp] theorem State.respond_mem (s : State) (st : Stage) (r : Resp) : (s.respond st r).mem = s.mem := by rfl
@[simp] theorem State.respond_rxlen (s : State) (st : Stage) (r : Resp) : (s.respond st r).rxlen = s.rxlen := by rfl
@[simp] theorem State.respond_txlen (s : State) (st : Stage) (r : Resp) : (s.respond st r).txlen = s.txlen := by rfl
@[simp] theorem State.respond_stage (s : State) (st : Stage) (r : Resp) : (s.respond st r).stage = .build := by rfl
@[simp] theorem State.respond_vbase (s : State) (st : Stage) (r : Resp) : (s.respond st r).vbase = s.vbase := by rfl
@[simp] theorem State.respond_vlen (s : State) (st : Stage) (r : Resp) : (s.respond st r).vlen = s.vlen := by rfl
@[simp] theorem State.respond_llSrc (s : State) (st : Stage) (r : Resp) : (s.respond st r).llSrc = s.llSrc := by rfl
@[simp] theorem State.respond_llDst (s : State) (st : Stage) (r : Resp) : (s.respond st r).llDst = s.llDst := by rfl
@[simp] theorem State.respond_panSrc (s : State) (st : Stage) (r : Resp) :
    (s.respond st r).panSrc = s.panSrc := by rfl
@[simp] theorem State.respond_panDst (s : State) (st : Stage) (r : Resp) :
    (s.respond st r).panDst = s.panDst := by rfl
@[simp] theorem State.respond_outcome (s : State) (st : Stage) (r : Resp) :
    (s.respond st r).outcome = s.outcome := by rfl
@[simp] theorem State.respond_cause (s : State) (st : Stage) (r : Resp) : (s.respond st r).cause = s.cause := by rfl
@[simp] theorem State.respond_cstage (s : State) (st : Stage) (r : Resp) :
    (s.respond st r).cstage = s.cstage := by rfl
@[simp] theorem State.respond_fault (s : State) (st : Stage) (r : Resp) : (s.respond st r).fault = s.fault := by rfl
@[simp] theorem State.respond_led (s : State) (st : Stage) (r : Resp) : (s.respond st r).led = s.led := by rfl
@[simp] theorem State.respond_dsn (s : State) (st : Stage) (r : Resp) : (s.respond st r).dsn = s.dsn := by rfl
@[simp] theorem State.respond_arp (s : State) (st : Stage) (r : Resp) : (s.respond st r).arp = s.arp := by rfl
@[simp] theorem State.respond_nbr (s : State) (st : Stage) (r : Resp) : (s.respond st r).nbr = s.nbr := by rfl
@[simp] theorem State.respond_scratch (s : State) (st : Stage) (r : Resp) :
    (s.respond st r).scratch = s.scratch := by rfl
@[simp] theorem State.respond_cfg (s : State) (st : Stage) (r : Resp) : (s.respond st r).cfg = s.cfg := by rfl
@[simp] theorem State.respond_par (s : State) (st : Stage) (r : Resp) : (s.respond st r).par = s.par := by rfl
@[simp] theorem State.respond_latched (s : State) (st : Stage) (r : Resp) :
    (s.respond st r).latched = { s.latched with resp := some r, hstage := st } := by rfl
@[simp] theorem State.respond_phase (s : State) (st : Stage) (r : Resp) : (s.respond st r).phase = .entry := by rfl
@[simp] theorem State.respond_host (s : State) (st : Stage) (r : Resp) : (s.respond st r).host = s.host := by rfl
@[simp] theorem State.respond_log (s : State) (st : Stage) (r : Resp) : (s.respond st r).log = s.log := by rfl
@[simp] theorem State.respond_epoch (s : State) (st : Stage) (r : Resp) : (s.respond st r).epoch = s.epoch := by rfl
@[simp] theorem State.respond_scratchEpoch (s : State) (st : Stage) (r : Resp) :
    (s.respond st r).scratchEpoch = s.scratchEpoch := by rfl

/-! ## `State.finishSent` -/

@[simp] theorem State.finishSent_mem (s : State) (st : Stage) :
    (s.finishSent st).mem = s.mem.filter fun c => c.1 < s.txlen.toNat := by rfl
@[simp] theorem State.finishSent_rxlen (s : State) (st : Stage) : (s.finishSent st).rxlen = s.rxlen := by rfl
@[simp] theorem State.finishSent_txlen (s : State) (st : Stage) : (s.finishSent st).txlen = s.txlen := by rfl
@[simp] theorem State.finishSent_stage (s : State) (st : Stage) : (s.finishSent st).stage = .txPending := by rfl
@[simp] theorem State.finishSent_vbase (s : State) (st : Stage) : (s.finishSent st).vbase = s.vbase := by rfl
@[simp] theorem State.finishSent_vlen (s : State) (st : Stage) : (s.finishSent st).vlen = s.vlen := by rfl
@[simp] theorem State.finishSent_llSrc (s : State) (st : Stage) : (s.finishSent st).llSrc = s.llSrc := by rfl
@[simp] theorem State.finishSent_llDst (s : State) (st : Stage) : (s.finishSent st).llDst = s.llDst := by rfl
@[simp] theorem State.finishSent_panSrc (s : State) (st : Stage) : (s.finishSent st).panSrc = s.panSrc := by rfl
@[simp] theorem State.finishSent_panDst (s : State) (st : Stage) : (s.finishSent st).panDst = s.panDst := by rfl
@[simp] theorem State.finishSent_outcome (s : State) (st : Stage) : (s.finishSent st).outcome = .sent := by rfl
@[simp] theorem State.finishSent_cause (s : State) (st : Stage) : (s.finishSent st).cause = .none := by rfl
@[simp] theorem State.finishSent_cstage (s : State) (st : Stage) : (s.finishSent st).cstage = st := by rfl
@[simp] theorem State.finishSent_fault (s : State) (st : Stage) : (s.finishSent st).fault = s.fault := by rfl
@[simp] theorem State.finishSent_led (s : State) (st : Stage) : (s.finishSent st).led = s.led := by rfl
@[simp] theorem State.finishSent_dsn (s : State) (st : Stage) : (s.finishSent st).dsn = s.dsn := by rfl
@[simp] theorem State.finishSent_arp (s : State) (st : Stage) : (s.finishSent st).arp = s.arp := by rfl
@[simp] theorem State.finishSent_nbr (s : State) (st : Stage) : (s.finishSent st).nbr = s.nbr := by rfl
@[simp] theorem State.finishSent_scratch (s : State) (st : Stage) : (s.finishSent st).scratch = s.scratch := by rfl
@[simp] theorem State.finishSent_cfg (s : State) (st : Stage) : (s.finishSent st).cfg = s.cfg := by rfl
@[simp] theorem State.finishSent_par (s : State) (st : Stage) : (s.finishSent st).par = s.par := by rfl
@[simp] theorem State.finishSent_latched (s : State) (st : Stage) : (s.finishSent st).latched = s.latched := by rfl
@[simp] theorem State.finishSent_phase (s : State) (st : Stage) : (s.finishSent st).phase = .entry := by rfl
@[simp] theorem State.finishSent_host (s : State) (st : Stage) : (s.finishSent st).host = s.host := by rfl
@[simp] theorem State.finishSent_log (s : State) (st : Stage) :
    (s.finishSent st).log = s.log ++ [.send st s.txlen] := by rfl
@[simp] theorem State.finishSent_epoch (s : State) (st : Stage) : (s.finishSent st).epoch = s.epoch + 1 := by rfl
@[simp] theorem State.finishSent_scratchEpoch (s : State) (st : Stage) :
    (s.finishSent st).scratchEpoch = s.scratchEpoch := by rfl

/-! ## `State.arpLearn` -/

@[simp] theorem State.arpLearn_mem (s : State) : s.arpLearn.mem = s.mem := by rfl
@[simp] theorem State.arpLearn_rxlen (s : State) : s.arpLearn.rxlen = s.rxlen := by rfl
@[simp] theorem State.arpLearn_txlen (s : State) : s.arpLearn.txlen = s.txlen := by rfl
@[simp] theorem State.arpLearn_stage (s : State) : s.arpLearn.stage = s.stage := by rfl
@[simp] theorem State.arpLearn_vbase (s : State) : s.arpLearn.vbase = s.vbase := by rfl
@[simp] theorem State.arpLearn_vlen (s : State) : s.arpLearn.vlen = s.vlen := by rfl
@[simp] theorem State.arpLearn_llSrc (s : State) : s.arpLearn.llSrc = s.llSrc := by rfl
@[simp] theorem State.arpLearn_llDst (s : State) : s.arpLearn.llDst = s.llDst := by rfl
@[simp] theorem State.arpLearn_panSrc (s : State) : s.arpLearn.panSrc = s.panSrc := by rfl
@[simp] theorem State.arpLearn_panDst (s : State) : s.arpLearn.panDst = s.panDst := by rfl
@[simp] theorem State.arpLearn_outcome (s : State) : s.arpLearn.outcome = s.outcome := by rfl
@[simp] theorem State.arpLearn_cause (s : State) : s.arpLearn.cause = s.cause := by rfl
@[simp] theorem State.arpLearn_cstage (s : State) : s.arpLearn.cstage = s.cstage := by rfl
@[simp] theorem State.arpLearn_fault (s : State) : s.arpLearn.fault = s.fault := by rfl
@[simp] theorem State.arpLearn_led (s : State) : s.arpLearn.led = s.led := by rfl
@[simp] theorem State.arpLearn_dsn (s : State) : s.arpLearn.dsn = s.dsn := by rfl
@[simp] theorem State.arpLearn_arp (s : State) :
    s.arpLearn.arp = cacheInsert s.par.arpCap s.latched.arp.spa s.latched.arp.sha s.arp := by rfl
@[simp] theorem State.arpLearn_nbr (s : State) : s.arpLearn.nbr = s.nbr := by rfl
@[simp] theorem State.arpLearn_scratch (s : State) : s.arpLearn.scratch = s.scratch := by rfl
@[simp] theorem State.arpLearn_cfg (s : State) : s.arpLearn.cfg = s.cfg := by rfl
@[simp] theorem State.arpLearn_par (s : State) : s.arpLearn.par = s.par := by rfl
@[simp] theorem State.arpLearn_latched (s : State) : s.arpLearn.latched = s.latched := by rfl
@[simp] theorem State.arpLearn_phase (s : State) : s.arpLearn.phase = s.phase := by rfl
@[simp] theorem State.arpLearn_host (s : State) : s.arpLearn.host = s.host := by rfl
@[simp] theorem State.arpLearn_log (s : State) : s.arpLearn.log = s.log ++ [.cache .arp] := by rfl
@[simp] theorem State.arpLearn_epoch (s : State) : s.arpLearn.epoch = s.epoch := by rfl
@[simp] theorem State.arpLearn_scratchEpoch (s : State) : s.arpLearn.scratchEpoch = s.scratchEpoch := by rfl

/-! ## `State.nbrLearn` -/

@[simp] theorem State.nbrLearn_mem (s : State) : s.nbrLearn.mem = s.mem := by rfl
@[simp] theorem State.nbrLearn_rxlen (s : State) : s.nbrLearn.rxlen = s.rxlen := by rfl
@[simp] theorem State.nbrLearn_txlen (s : State) : s.nbrLearn.txlen = s.txlen := by rfl
@[simp] theorem State.nbrLearn_stage (s : State) : s.nbrLearn.stage = s.stage := by rfl
@[simp] theorem State.nbrLearn_vbase (s : State) : s.nbrLearn.vbase = s.vbase := by rfl
@[simp] theorem State.nbrLearn_vlen (s : State) : s.nbrLearn.vlen = s.vlen := by rfl
@[simp] theorem State.nbrLearn_llSrc (s : State) : s.nbrLearn.llSrc = s.llSrc := by rfl
@[simp] theorem State.nbrLearn_llDst (s : State) : s.nbrLearn.llDst = s.llDst := by rfl
@[simp] theorem State.nbrLearn_panSrc (s : State) : s.nbrLearn.panSrc = s.panSrc := by rfl
@[simp] theorem State.nbrLearn_panDst (s : State) : s.nbrLearn.panDst = s.panDst := by rfl
@[simp] theorem State.nbrLearn_outcome (s : State) : s.nbrLearn.outcome = s.outcome := by rfl
@[simp] theorem State.nbrLearn_cause (s : State) : s.nbrLearn.cause = s.cause := by rfl
@[simp] theorem State.nbrLearn_cstage (s : State) : s.nbrLearn.cstage = s.cstage := by rfl
@[simp] theorem State.nbrLearn_fault (s : State) : s.nbrLearn.fault = s.fault := by rfl
@[simp] theorem State.nbrLearn_led (s : State) : s.nbrLearn.led = s.led := by rfl
@[simp] theorem State.nbrLearn_dsn (s : State) : s.nbrLearn.dsn = s.dsn := by rfl
@[simp] theorem State.nbrLearn_arp (s : State) : s.nbrLearn.arp = s.arp := by rfl
@[simp] theorem State.nbrLearn_nbr (s : State) :
    s.nbrLearn.nbr = cacheInsert s.par.nbrCap s.latched.ip6.src s.llSrc s.nbr := by rfl
@[simp] theorem State.nbrLearn_scratch (s : State) : s.nbrLearn.scratch = s.scratch := by rfl
@[simp] theorem State.nbrLearn_cfg (s : State) : s.nbrLearn.cfg = s.cfg := by rfl
@[simp] theorem State.nbrLearn_par (s : State) : s.nbrLearn.par = s.par := by rfl
@[simp] theorem State.nbrLearn_latched (s : State) : s.nbrLearn.latched = s.latched := by rfl
@[simp] theorem State.nbrLearn_phase (s : State) : s.nbrLearn.phase = s.phase := by rfl
@[simp] theorem State.nbrLearn_host (s : State) : s.nbrLearn.host = s.host := by rfl
@[simp] theorem State.nbrLearn_log (s : State) : s.nbrLearn.log = s.log ++ [.cache .ipv6] := by rfl
@[simp] theorem State.nbrLearn_epoch (s : State) : s.nbrLearn.epoch = s.epoch := by rfl
@[simp] theorem State.nbrLearn_scratchEpoch (s : State) : s.nbrLearn.scratchEpoch = s.scratchEpoch := by rfl

/-! ## `State.hardReset` -/

@[simp] theorem State.hardReset_mem (s : State) (straps : Straps) (later : List HostInput) :
    (s.hardReset straps later).mem = [] := by rfl
@[simp] theorem State.hardReset_rxlen (s : State) (straps : Straps) (later : List HostInput) :
    (s.hardReset straps later).rxlen = 0#16 := by rfl
@[simp] theorem State.hardReset_txlen (s : State) (straps : Straps) (later : List HostInput) :
    (s.hardReset straps later).txlen = 0#16 := by rfl
@[simp] theorem State.hardReset_stage (s : State) (straps : Straps) (later : List HostInput) :
    (s.hardReset straps later).stage = .idle := by rfl
@[simp] theorem State.hardReset_vbase (s : State) (straps : Straps) (later : List HostInput) :
    (s.hardReset straps later).vbase = 0#16 := by rfl
@[simp] theorem State.hardReset_vlen (s : State) (straps : Straps) (later : List HostInput) :
    (s.hardReset straps later).vlen = 0#16 := by rfl
@[simp] theorem State.hardReset_llSrc (s : State) (straps : Straps) (later : List HostInput) :
    (s.hardReset straps later).llSrc = resetLl straps.link := by rfl
@[simp] theorem State.hardReset_llDst (s : State) (straps : Straps) (later : List HostInput) :
    (s.hardReset straps later).llDst = resetLl straps.link := by rfl
@[simp] theorem State.hardReset_panSrc (s : State) (straps : Straps) (later : List HostInput) :
    (s.hardReset straps later).panSrc = 0#16 := by rfl
@[simp] theorem State.hardReset_panDst (s : State) (straps : Straps) (later : List HostInput) :
    (s.hardReset straps later).panDst = 0#16 := by rfl
@[simp] theorem State.hardReset_outcome (s : State) (straps : Straps) (later : List HostInput) :
    (s.hardReset straps later).outcome = .none := by rfl
@[simp] theorem State.hardReset_cause (s : State) (straps : Straps) (later : List HostInput) :
    (s.hardReset straps later).cause = .none := by rfl
@[simp] theorem State.hardReset_cstage (s : State) (straps : Straps) (later : List HostInput) :
    (s.hardReset straps later).cstage = .idle := by rfl
@[simp] theorem State.hardReset_fault (s : State) (straps : Straps) (later : List HostInput) :
    (s.hardReset straps later).fault = 0#2 := by rfl
@[simp] theorem State.hardReset_led (s : State) (straps : Straps) (later : List HostInput) :
    (s.hardReset straps later).led = false := by rfl
@[simp] theorem State.hardReset_dsn (s : State) (straps : Straps) (later : List HostInput) :
    (s.hardReset straps later).dsn = 0#8 := by rfl
@[simp] theorem State.hardReset_arp (s : State) (straps : Straps) (later : List HostInput) :
    (s.hardReset straps later).arp = [] := by rfl
@[simp] theorem State.hardReset_nbr (s : State) (straps : Straps) (later : List HostInput) :
    (s.hardReset straps later).nbr = [] := by rfl
@[simp] theorem State.hardReset_scratch (s : State) (straps : Straps) (later : List HostInput) :
    (s.hardReset straps later).scratch = [] := by rfl
@[simp] theorem State.hardReset_cfg (s : State) (straps : Straps) (later : List HostInput) :
    (s.hardReset straps later).cfg = straps := by rfl
@[simp] theorem State.hardReset_par (s : State) (straps : Straps) (later : List HostInput) :
    (s.hardReset straps later).par = s.par := by rfl
@[simp] theorem State.hardReset_latched (s : State) (straps : Straps) (later : List HostInput) :
    (s.hardReset straps later).latched = Records.empty := by rfl
@[simp] theorem State.hardReset_phase (s : State) (straps : Straps) (later : List HostInput) :
    (s.hardReset straps later).phase = .entry := by rfl
@[simp] theorem State.hardReset_host (s : State) (straps : Straps) (later : List HostInput) :
    (s.hardReset straps later).host = later := by rfl
@[simp] theorem State.hardReset_log (s : State) (straps : Straps) (later : List HostInput) :
    (s.hardReset straps later).log = s.log := by rfl
@[simp] theorem State.hardReset_epoch (s : State) (straps : Straps) (later : List HostInput) :
    (s.hardReset straps later).epoch = s.epoch + 1 := by rfl
@[simp] theorem State.hardReset_scratchEpoch (s : State) (straps : Straps) (later : List HostInput) :
    (s.hardReset straps later).scratchEpoch = s.scratchEpoch + 1 := by rfl

/-! ## `State.raiseAbort` -/

@[simp] theorem State.raiseAbort_mem (s : State) : s.raiseAbort.mem = s.mem.filter fun c => c.1 < 0 := by rfl
@[simp] theorem State.raiseAbort_rxlen (s : State) : s.raiseAbort.rxlen = s.rxlen := by rfl
@[simp] theorem State.raiseAbort_txlen (s : State) : s.raiseAbort.txlen = s.txlen := by rfl
@[simp] theorem State.raiseAbort_stage (s : State) : s.raiseAbort.stage = .haltAbort := by rfl
@[simp] theorem State.raiseAbort_vbase (s : State) : s.raiseAbort.vbase = Config.freeHalf (s.epoch + 1) 0 := by rfl
@[simp] theorem State.raiseAbort_vlen (s : State) : s.raiseAbort.vlen = Config.freeHalf (s.epoch + 1) 1 := by rfl
@[simp] theorem State.raiseAbort_llSrc (s : State) : s.raiseAbort.llSrc = Config.freeLl (s.epoch + 1) 0 := by rfl
@[simp] theorem State.raiseAbort_llDst (s : State) : s.raiseAbort.llDst = Config.freeLl (s.epoch + 1) 1 := by rfl
@[simp] theorem State.raiseAbort_panSrc (s : State) : s.raiseAbort.panSrc = Config.freeHalf (s.epoch + 1) 2 := by rfl
@[simp] theorem State.raiseAbort_panDst (s : State) : s.raiseAbort.panDst = Config.freeHalf (s.epoch + 1) 3 := by rfl
@[simp] theorem State.raiseAbort_outcome (s : State) : s.raiseAbort.outcome = s.outcome := by rfl
@[simp] theorem State.raiseAbort_cause (s : State) : s.raiseAbort.cause = s.cause := by rfl
@[simp] theorem State.raiseAbort_cstage (s : State) : s.raiseAbort.cstage = s.cstage := by rfl
@[simp] theorem State.raiseAbort_fault (s : State) : s.raiseAbort.fault = s.fault ||| 2#2 := by rfl
@[simp] theorem State.raiseAbort_led (s : State) : s.raiseAbort.led = s.led := by rfl
@[simp] theorem State.raiseAbort_dsn (s : State) : s.raiseAbort.dsn = s.dsn := by rfl
@[simp] theorem State.raiseAbort_arp (s : State) : s.raiseAbort.arp = s.arp := by rfl
@[simp] theorem State.raiseAbort_nbr (s : State) : s.raiseAbort.nbr = s.nbr := by rfl
@[simp] theorem State.raiseAbort_scratch (s : State) : s.raiseAbort.scratch = [] := by rfl
@[simp] theorem State.raiseAbort_cfg (s : State) : s.raiseAbort.cfg = s.cfg := by rfl
@[simp] theorem State.raiseAbort_par (s : State) : s.raiseAbort.par = s.par := by rfl
@[simp] theorem State.raiseAbort_latched (s : State) : s.raiseAbort.latched = s.latched := by rfl
@[simp] theorem State.raiseAbort_phase (s : State) : s.raiseAbort.phase = .entry := by rfl
@[simp] theorem State.raiseAbort_host (s : State) : s.raiseAbort.host = s.host := by rfl
@[simp] theorem State.raiseAbort_log (s : State) : s.raiseAbort.log = s.log := by rfl
@[simp] theorem State.raiseAbort_epoch (s : State) : s.raiseAbort.epoch = s.epoch + 1 := by rfl
@[simp] theorem State.raiseAbort_scratchEpoch (s : State) : s.raiseAbort.scratchEpoch = s.scratchEpoch + 1 := by rfl

/-! ## `State.resetWith` -/

@[simp] theorem State.resetWith_mem (par : Params) (straps : Straps) :
    (State.resetWith par straps).mem = [] := by rfl
@[simp] theorem State.resetWith_rxlen (par : Params) (straps : Straps) :
    (State.resetWith par straps).rxlen = 0#16 := by rfl
@[simp] theorem State.resetWith_txlen (par : Params) (straps : Straps) :
    (State.resetWith par straps).txlen = 0#16 := by rfl
@[simp] theorem State.resetWith_stage (par : Params) (straps : Straps) :
    (State.resetWith par straps).stage = .idle := by rfl
@[simp] theorem State.resetWith_vbase (par : Params) (straps : Straps) :
    (State.resetWith par straps).vbase = 0#16 := by rfl
@[simp] theorem State.resetWith_vlen (par : Params) (straps : Straps) :
    (State.resetWith par straps).vlen = 0#16 := by rfl
@[simp] theorem State.resetWith_llSrc (par : Params) (straps : Straps) :
    (State.resetWith par straps).llSrc = resetLl straps.link := by rfl
@[simp] theorem State.resetWith_llDst (par : Params) (straps : Straps) :
    (State.resetWith par straps).llDst = resetLl straps.link := by rfl
@[simp] theorem State.resetWith_panSrc (par : Params) (straps : Straps) :
    (State.resetWith par straps).panSrc = 0#16 := by rfl
@[simp] theorem State.resetWith_panDst (par : Params) (straps : Straps) :
    (State.resetWith par straps).panDst = 0#16 := by rfl
@[simp] theorem State.resetWith_outcome (par : Params) (straps : Straps) :
    (State.resetWith par straps).outcome = .none := by rfl
@[simp] theorem State.resetWith_cause (par : Params) (straps : Straps) :
    (State.resetWith par straps).cause = .none := by rfl
@[simp] theorem State.resetWith_cstage (par : Params) (straps : Straps) :
    (State.resetWith par straps).cstage = .idle := by rfl
@[simp] theorem State.resetWith_fault (par : Params) (straps : Straps) :
    (State.resetWith par straps).fault = 0#2 := by rfl
@[simp] theorem State.resetWith_led (par : Params) (straps : Straps) :
    (State.resetWith par straps).led = false := by rfl
@[simp] theorem State.resetWith_dsn (par : Params) (straps : Straps) :
    (State.resetWith par straps).dsn = 0#8 := by rfl
@[simp] theorem State.resetWith_arp (par : Params) (straps : Straps) :
    (State.resetWith par straps).arp = [] := by rfl
@[simp] theorem State.resetWith_nbr (par : Params) (straps : Straps) :
    (State.resetWith par straps).nbr = [] := by rfl
@[simp] theorem State.resetWith_scratch (par : Params) (straps : Straps) :
    (State.resetWith par straps).scratch = [] := by rfl
@[simp] theorem State.resetWith_cfg (par : Params) (straps : Straps) :
    (State.resetWith par straps).cfg = straps := by rfl
@[simp] theorem State.resetWith_par (par : Params) (straps : Straps) :
    (State.resetWith par straps).par = par := by rfl
@[simp] theorem State.resetWith_latched (par : Params) (straps : Straps) :
    (State.resetWith par straps).latched = Records.empty := by rfl
@[simp] theorem State.resetWith_phase (par : Params) (straps : Straps) :
    (State.resetWith par straps).phase = .entry := by rfl
@[simp] theorem State.resetWith_host (par : Params) (straps : Straps) :
    (State.resetWith par straps).host = [] := by rfl
@[simp] theorem State.resetWith_log (par : Params) (straps : Straps) :
    (State.resetWith par straps).log = [] := by rfl
@[simp] theorem State.resetWith_epoch (par : Params) (straps : Straps) :
    (State.resetWith par straps).epoch = 0 := by rfl
@[simp] theorem State.resetWith_scratchEpoch (par : Params) (straps : Straps) :
    (State.resetWith par straps).scratchEpoch = 0 := by rfl

/-! ## `State.advanceDsn` -/

@[simp] theorem State.advanceDsn_mem (s : State) : s.advanceDsn.mem = s.mem := by
  unfold State.advanceDsn; split <;> rfl
@[simp] theorem State.advanceDsn_rxlen (s : State) : s.advanceDsn.rxlen = s.rxlen := by
  unfold State.advanceDsn; split <;> rfl
@[simp] theorem State.advanceDsn_txlen (s : State) : s.advanceDsn.txlen = s.txlen := by
  unfold State.advanceDsn; split <;> rfl
@[simp] theorem State.advanceDsn_stage (s : State) : s.advanceDsn.stage = s.stage := by
  unfold State.advanceDsn; split <;> rfl
@[simp] theorem State.advanceDsn_vbase (s : State) : s.advanceDsn.vbase = s.vbase := by
  unfold State.advanceDsn; split <;> rfl
@[simp] theorem State.advanceDsn_vlen (s : State) : s.advanceDsn.vlen = s.vlen := by
  unfold State.advanceDsn; split <;> rfl
@[simp] theorem State.advanceDsn_llSrc (s : State) : s.advanceDsn.llSrc = s.llSrc := by
  unfold State.advanceDsn; split <;> rfl
@[simp] theorem State.advanceDsn_llDst (s : State) : s.advanceDsn.llDst = s.llDst := by
  unfold State.advanceDsn; split <;> rfl
@[simp] theorem State.advanceDsn_panSrc (s : State) : s.advanceDsn.panSrc = s.panSrc := by
  unfold State.advanceDsn; split <;> rfl
@[simp] theorem State.advanceDsn_panDst (s : State) : s.advanceDsn.panDst = s.panDst := by
  unfold State.advanceDsn; split <;> rfl
@[simp] theorem State.advanceDsn_outcome (s : State) : s.advanceDsn.outcome = s.outcome := by
  unfold State.advanceDsn; split <;> rfl
@[simp] theorem State.advanceDsn_cause (s : State) : s.advanceDsn.cause = s.cause := by
  unfold State.advanceDsn; split <;> rfl
@[simp] theorem State.advanceDsn_cstage (s : State) : s.advanceDsn.cstage = s.cstage := by
  unfold State.advanceDsn; split <;> rfl
@[simp] theorem State.advanceDsn_fault (s : State) : s.advanceDsn.fault = s.fault := by
  unfold State.advanceDsn; split <;> rfl
@[simp] theorem State.advanceDsn_led (s : State) : s.advanceDsn.led = s.led := by
  unfold State.advanceDsn; split <;> rfl
@[simp] theorem State.advanceDsn_dsn (s : State) :
    s.advanceDsn.dsn = (match s.cfg.link with | .eth => s.dsn | .lowpan => s.dsn + 1) := by
  unfold State.advanceDsn; split <;> simp_all
@[simp] theorem State.advanceDsn_arp (s : State) : s.advanceDsn.arp = s.arp := by
  unfold State.advanceDsn; split <;> rfl
@[simp] theorem State.advanceDsn_nbr (s : State) : s.advanceDsn.nbr = s.nbr := by
  unfold State.advanceDsn; split <;> rfl
@[simp] theorem State.advanceDsn_scratch (s : State) : s.advanceDsn.scratch = s.scratch := by
  unfold State.advanceDsn; split <;> rfl
@[simp] theorem State.advanceDsn_cfg (s : State) : s.advanceDsn.cfg = s.cfg := by
  unfold State.advanceDsn; split <;> rfl
@[simp] theorem State.advanceDsn_par (s : State) : s.advanceDsn.par = s.par := by
  unfold State.advanceDsn; split <;> rfl
@[simp] theorem State.advanceDsn_latched (s : State) : s.advanceDsn.latched = s.latched := by
  unfold State.advanceDsn; split <;> rfl
@[simp] theorem State.advanceDsn_phase (s : State) : s.advanceDsn.phase = s.phase := by
  unfold State.advanceDsn; split <;> rfl
@[simp] theorem State.advanceDsn_host (s : State) : s.advanceDsn.host = s.host := by
  unfold State.advanceDsn; split <;> rfl
@[simp] theorem State.advanceDsn_log (s : State) : s.advanceDsn.log = s.log := by
  unfold State.advanceDsn; split <;> rfl
@[simp] theorem State.advanceDsn_epoch (s : State) : s.advanceDsn.epoch = s.epoch := by
  unfold State.advanceDsn; split <;> rfl
@[simp] theorem State.advanceDsn_scratchEpoch (s : State) : s.advanceDsn.scratchEpoch = s.scratchEpoch := by
  unfold State.advanceDsn; split <;> rfl

end Sys2Proof.Machine
end

