-- ==== Sys2Proof/Laws/Operands.lean ====
section
/-! SUPPORT. What each micro-operation over the view does: one lemma that says all it can answer, and the
lemma for the case its caller has checked. -/

namespace Sys2Proof.Machine

/-- Everything `NARROW` can answer (R151). -/
theorem narrow_cases (s : State) (off len : Nat) (k : State → Out) :
    (off + len ≤ s.vlen.toNat ∧ s.narrow off len k = k (s.narrowed off len)) ∨
    (s.vlen.toNat < off + len ∧ s.narrow off len k = .next (s.raiseDrop s.stage .truncated)) := by
  unfold State.narrow State.drop State.narrowed
  split
  · exact .inl ⟨‹_›, rfl⟩
  · exact .inr ⟨by omega, rfl⟩

theorem narrow_ok {s : State} {off len : Nat} (h : off + len ≤ s.vlen.toNat) (k : State → Out) :
    s.narrow off len k = k (s.narrowed off len) := if_pos h

/-- Everything `GET` can answer (R152, R46). -/
theorem get_cases (s : State) (off n : Nat) (k : List Byte → Out) :
    (off + n ≤ s.vlen.toNat ∧ s.vbase.toNat + off + n ≤ s.par.bufCap ∧
      s.get off n k = k (s.memRead (s.vbase.toNat + off) n)) ∨
    (off + n ≤ s.vlen.toNat ∧ s.par.bufCap < s.vbase.toNat + off + n ∧ s.get off n k = .fault .noSuchAddress) ∨
    (s.vlen.toNat < off + n ∧ s.get off n k = .next s.raiseAbort) := by
  unfold State.get
  split
  · split
    · exact .inl ⟨‹_›, ‹_›, rfl⟩
    · exact .inr (.inl ⟨‹_›, by omega, rfl⟩)
  · exact .inr (.inr ⟨by omega, rfl⟩)

/-- With the view inside the buffer a checked `GET` reads it. -/
theorem get_ok {s : State} {off n : Nat} (hv : s.viewOk) (h : off + n ≤ s.vlen.toNat) (k : List Byte → Out) :
    s.get off n k = k (s.memRead (s.vbase.toNat + off) n) := by
  unfold State.viewOk at hv
  unfold State.get
  rw [if_pos h, if_pos (by omega)]

/-- Everything `SET` can answer (R153, R46). -/
theorem set_cases (s : State) (off : Nat) (v : List Byte) (k : State → Out) :
    (off + v.length ≤ s.vlen.toNat ∧ s.vbase.toNat + off + v.length ≤ s.par.bufCap ∧
      s.set off v k = k { s with mem := memWriteBytes (s.vbase.toNat + off) v s.mem }) ∨
    (off + v.length ≤ s.vlen.toNat ∧ s.par.bufCap < s.vbase.toNat + off + v.length ∧
      s.set off v k = .fault .noSuchAddress) ∨
    (s.vlen.toNat < off + v.length ∧ s.set off v k = .next s.raiseAbort) := by
  unfold State.set
  split
  · split
    · exact .inl ⟨‹_›, ‹_›, rfl⟩
    · exact .inr (.inl ⟨‹_›, by omega, rfl⟩)
  · exact .inr (.inr ⟨by omega, rfl⟩)

theorem set_ok {s : State} {off : Nat} {v : List Byte} (hv : s.viewOk) (h : off + v.length ≤ s.vlen.toNat)
    (k : State → Out) :
    s.set off v k = k { s with mem := memWriteBytes (s.vbase.toNat + off) v s.mem } := by
  unfold State.viewOk at hv
  unfold State.set
  rw [if_pos h, if_pos (by omega)]

/-- Reading the whole view never aborts. -/
theorem getView_cases (s : State) (k : List Byte → Out) :
    (s.viewOk ∧ s.getView k = k s.view) ∨ (¬ s.viewOk ∧ s.getView k = .fault .noSuchAddress) := by
  unfold State.getView State.get State.view State.viewOk
  rw [if_pos (by omega)]
  by_cases h : s.vbase.toNat + s.vlen.toNat ≤ s.par.bufCap
  · exact .inl ⟨h, by rw [if_pos (by omega)]; rfl⟩
  · exact .inr ⟨h, if_neg (by omega)⟩

theorem getView_ok {s : State} (hv : s.viewOk) (k : List Byte → Out) : s.getView k = k s.view := by
  rcases getView_cases s k with h | h
  · exact h.2
  · exact absurd hv h.1

/-- Reading the upper-layer message never aborts (R232). -/
theorem getUpper_cases (s : State) (k : List Byte → Out) :
    (s.viewOk ∧ s.getUpper k = k s.upper) ∨ (¬ s.viewOk ∧ s.getUpper k = .fault .noSuchAddress) := by
  unfold State.getUpper State.upper
  rcases getView_cases s (fun v => if s.cfg.link = .lowpan ∧ s.latched.udpNhc
    then k (s.scratchRead 40 8 ++ v) else k v) with h | h
  · refine .inl ⟨h.1, h.2.trans ?_⟩
    split <;> rfl
  · exact .inr h

theorem getUpper_ok {s : State} (hv : s.viewOk) (k : List Byte → Out) : s.getUpper k = k s.upper := by
  rcases getUpper_cases s k with h | h
  · exact h.2
  · exact absurd hv h.1

@[simp] theorem view_length (s : State) : s.view.length = s.vlen.toNat := by simp [State.view]

end Sys2Proof.Machine
end

