-- ==== Sys2Proof/Laws/PerInstr.lean ====
section
/-! SUPPORT. Laws stated once per operation: the encoder writes exactly as many bytes as the tag has that the
decoder reads the operation from (spec/30_encoding.md R140). -/

namespace Sys2Proof.Laws.EncodeWidth

open Sys2Proof Sys2Proof.Machine

/-- The tag bytes of `i` have the width of the selector `i` is read under. -/
def Statement (i : Instr) : Prop := ∀ port : Half, (encode port i).length = (selectorOf port i).width

theorem rxAccept (len : Half) : Statement (.rxAccept len) := fun _ => rfl

theorem txTake : Statement (.txTake) := fun _ => rfl

theorem ethParse : Statement (.ethParse) := fun _ => rfl

theorem ethArp : Statement (.ethArp) := fun _ => rfl

theorem ethIpv4 : Statement (.ethIpv4) := fun _ => rfl

theorem ethIpv6 : Statement (.ethIpv6) := fun _ => rfl

theorem ethOther (ethertype : Half) : Statement (.ethOther ethertype) := fun _ => rfl

theorem mac154Parse : Statement (.mac154Parse) := fun _ => rfl

theorem mac154Data : Statement (.mac154Data) := fun _ => rfl

theorem mac154Other (ftype : BitVec 3) : Statement (.mac154Other ftype) := fun _ => rfl

theorem lowpanParse : Statement (.lowpanParse) := fun _ => rfl

theorem lowpanIphc (tf : BitVec 2) (nh : BitVec 1) (hlim : BitVec 2) : Statement (.lowpanIphc tf nh hlim) := fun _ => rfl

theorem lowpanOther (d : Byte) : Statement (.lowpanOther d) := fun _ => rfl

theorem nhcUdp (c : BitVec 1) (p : BitVec 2) : Statement (.nhcUdp c p) := fun _ => rfl

theorem nhcOther (c : Byte) : Statement (.nhcOther c) := fun _ => rfl

theorem arpParse : Statement (.arpParse) := fun _ => rfl

theorem arpRequest : Statement (.arpRequest) := fun _ => rfl

theorem arpReply : Statement (.arpReply) := fun _ => rfl

theorem arpOther (oper : Half) : Statement (.arpOther oper) := fun _ => rfl

theorem ip4Parse : Statement (.ip4Parse) := fun _ => rfl

theorem ip4Icmp : Statement (.ip4Icmp) := fun _ => rfl

theorem ip4Udp : Statement (.ip4Udp) := fun _ => rfl

theorem ip4Other (protocol : Byte) : Statement (.ip4Other protocol) := fun _ => rfl

theorem ip6Parse : Statement (.ip6Parse) := fun _ => rfl

theorem ip6Icmp6 : Statement (.ip6Icmp6) := fun _ => rfl

theorem ip6Udp : Statement (.ip6Udp) := fun _ => rfl

theorem ip6Other (nh : Byte) : Statement (.ip6Other nh) := fun _ => rfl

theorem icmp4Parse : Statement (.icmp4Parse) := fun _ => rfl

theorem icmp4Echo : Statement (.icmp4Echo) := fun _ => rfl

theorem icmp4Other (typeCode : Half) : Statement (.icmp4Other typeCode) := fun _ => rfl

theorem icmp6Parse : Statement (.icmp6Parse) := fun _ => rfl

theorem icmp6Echo : Statement (.icmp6Echo) := fun _ => rfl

theorem icmp6Ns : Statement (.icmp6Ns) := fun _ => rfl

theorem icmp6Other (typeCode : Half) : Statement (.icmp6Other typeCode) := fun _ => rfl

theorem udpParse : Statement (.udpParse) := fun _ => rfl

theorem udpCoap : Statement (.udpCoap) := fun _ => rfl

theorem udpEcho (dport : Half) : Statement (.udpEcho dport) := fun _ => rfl

theorem coapParse : Statement (.coapParse) := fun _ => rfl

theorem coapGetLed : Statement (.coapGetLed) := fun _ => rfl

theorem coapPutLed : Statement (.coapPutLed) := fun _ => rfl

theorem coapNotFound (code : Byte) : Statement (.coapNotFound code) := fun _ => rfl

theorem coapNotAllowed (code : Byte) : Statement (.coapNotAllowed code) := fun _ => rfl

theorem coapOther (code : Byte) : Statement (.coapOther code) := fun _ => rfl

theorem build : Statement (.build) := fun _ => rfl

end Sys2Proof.Laws.EncodeWidth
end

