-- ==== Sys2Proof/Tests/Slice0.lean ====
section
/-! SUPPORT. Tests: the checks of WellFormed, the tags of spec/30_encoding.md written out, vectors of
spec/95_test_vectors.md and spec/96_test_vectors_lowpan.md on single operations, and a witness for the hypotheses
of each statement of Certificates/Slice0/Obligations.lean. -/

namespace Sys2Proof.Tests

open Sys2Proof Sys2Proof.Machine

set_option Elab.async false

/-! ## Helpers -/

/-- Bytes from numbers. -/
def bs (l : List Nat) : List Byte := l.map (BitVec.ofNat 8)

/-- A memory that holds the bytes from an address upwards. -/
def cells : Nat → List Byte → List Host.Cell
  | _, [] => []
  | a, b :: r => (a, b) :: cells (a + 1) r

/-- Fixture L of spec/95_test_vectors.md section 2. -/
def lowStraps : Straps where
  link := .lowpan
  mac := 0#48
  ipv4 := 0#32
  ipv6 := 0xFE800000000000000302030405060708#128
  ext := 0x0102030405060708#64
  coapPort := 5683#16

/-- A received frame of `f` in a given stage and phase, the view at `off`, on a given reset state. -/
def at_ (s : State) (st : Stage) (ph : Phase) (off : Nat) (f : List Byte) : State :=
  { s with
    mem := cells 0 f, rxlen := BitVec.ofNat 16 f.length, vbase := BitVec.ofNat 16 off
    vlen := BitVec.ofNat 16 (f.length - off), stage := st, phase := ph }

/-- A frame on fixture E. -/
def onEth := at_ State.reset

/-- A frame on fixture L. -/
def onLow := at_ (State.resetWith ⟨128, 8, 8⟩ lowStraps)

/-- What is seen of a next state. -/
def got {A : Type} (f : State → A) : Out → Option A
  | .next t => some (f t)
  | .fault _ => none
  | .refused _ => none

/-! ## WellFormed: an ill-formed term for each check -/

theorem test_wf_ethOther_arp : Instr.wf 5683#16 (.ethOther 0x0806#16) = false := by decide

theorem test_wf_ethOther_ipv4 : Instr.wf 5683#16 (.ethOther 0x0800#16) = false := by decide

theorem test_wf_ethOther_ipv6 : Instr.wf 5683#16 (.ethOther 0x86DD#16) = false := by decide

theorem test_wf_mac154Other : Instr.wf 5683#16 (.mac154Other 1#3) = false := by decide

theorem test_wf_lowpanOther : Instr.wf 5683#16 (.lowpanOther 0x7F#8) = false := by decide

theorem test_wf_nhcOther : Instr.wf 5683#16 (.nhcOther 0xF7#8) = false := by decide

theorem test_wf_arpOther_request : Instr.wf 5683#16 (.arpOther 1#16) = false := by decide

theorem test_wf_arpOther_reply : Instr.wf 5683#16 (.arpOther 2#16) = false := by decide

theorem test_wf_ip4Other_icmp : Instr.wf 5683#16 (.ip4Other 1#8) = false := by decide

theorem test_wf_ip4Other_udp : Instr.wf 5683#16 (.ip4Other 17#8) = false := by decide

theorem test_wf_ip6Other_icmp6 : Instr.wf 5683#16 (.ip6Other 58#8) = false := by decide

theorem test_wf_ip6Other_udp : Instr.wf 5683#16 (.ip6Other 17#8) = false := by decide

theorem test_wf_icmp4Other : Instr.wf 5683#16 (.icmp4Other 0x0800#16) = false := by decide

theorem test_wf_icmp6Other_echo : Instr.wf 5683#16 (.icmp6Other 0x8000#16) = false := by decide

theorem test_wf_icmp6Other_ns : Instr.wf 5683#16 (.icmp6Other 0x8700#16) = false := by decide

theorem test_wf_udpEcho : Instr.wf 5683#16 (.udpEcho 5683#16) = false := by decide

theorem test_wf_coapNotFound_empty : Instr.wf 5683#16 (.coapNotFound 0#8) = false := by decide

theorem test_wf_coapNotFound_class : Instr.wf 5683#16 (.coapNotFound 0x20#8) = false := by decide

theorem test_wf_coapNotAllowed_empty : Instr.wf 5683#16 (.coapNotAllowed 0#8) = false := by decide

theorem test_wf_coapNotAllowed_get : Instr.wf 5683#16 (.coapNotAllowed 1#8) = false := by decide

theorem test_wf_coapNotAllowed_put : Instr.wf 5683#16 (.coapNotAllowed 3#8) = false := by decide

theorem test_wf_coapNotAllowed_class : Instr.wf 5683#16 (.coapNotAllowed 0x40#8) = false := by decide

theorem test_wf_accepts : Instr.wf 5683#16 (.udpEcho 7#16) = true := by decide

/-! ## Decoding: a tag of every operation, written out from spec/30_encoding.md (R91 to R140) -/

theorem test_decode_rxAccept : decode (.rxGo 60#16) [] = .ok (.rxAccept 60#16) := by rfl

theorem test_decode_txTake : decode (.txTake) [] = .ok (.txTake) := by rfl

theorem test_decode_ethParse : decode (.entry .eth) [] = .ok (.ethParse) := by rfl

theorem test_decode_ethArp : decode (.ethertype) [0x08#8, 0x06#8] = .ok (.ethArp) := by rfl

theorem test_decode_ethIpv4 : decode (.ethertype) [0x08#8, 0x00#8] = .ok (.ethIpv4) := by rfl

theorem test_decode_ethIpv6 : decode (.ethertype) [0x86#8, 0xDD#8] = .ok (.ethIpv6) := by rfl

theorem test_decode_ethOther : decode (.ethertype) [0x88#8, 0xCC#8] = .ok (.ethOther 0x88CC#16) := by rfl

theorem test_decode_mac154Parse : decode (.entry .mac154) [] = .ok (.mac154Parse) := by rfl

theorem test_decode_mac154Data : decode (.ftype) [0b01000001#8] = .ok (.mac154Data) := by rfl

theorem test_decode_mac154Other : decode (.ftype) [0b00000010#8] = .ok (.mac154Other 2#3) := by rfl

theorem test_decode_lowpanParse : decode (.entry .lowpan) [] = .ok (.lowpanParse) := by rfl

theorem test_decode_lowpanIphc : decode (.dispatch) [0b01111010#8] = .ok (.lowpanIphc 0b11#2 0b0#1 0b10#2) := by rfl

theorem test_decode_lowpanOther : decode (.dispatch) [0b11000000#8] = .ok (.lowpanOther 0xC0#8) := by rfl

theorem test_decode_nhcUdp : decode (.nhc) [0b11110011#8] = .ok (.nhcUdp 0#1 3#2) := by rfl

theorem test_decode_nhcOther : decode (.nhc) [0b11100000#8] = .ok (.nhcOther 0xE0#8) := by rfl

theorem test_decode_arpParse : decode (.entry .arp) [] = .ok (.arpParse) := by rfl

theorem test_decode_arpRequest : decode (.oper) [0x00#8, 0x01#8] = .ok (.arpRequest) := by rfl

theorem test_decode_arpReply : decode (.oper) [0x00#8, 0x02#8] = .ok (.arpReply) := by rfl

theorem test_decode_arpOther : decode (.oper) [0x00#8, 0x03#8] = .ok (.arpOther 3#16) := by rfl

theorem test_decode_ip4Parse : decode (.entry .ipv4) [] = .ok (.ip4Parse) := by rfl

theorem test_decode_ip4Icmp : decode (.protocol) [0x01#8] = .ok (.ip4Icmp) := by rfl

theorem test_decode_ip4Udp : decode (.protocol) [0x11#8] = .ok (.ip4Udp) := by rfl

theorem test_decode_ip4Other : decode (.protocol) [0x06#8] = .ok (.ip4Other 6#8) := by rfl

theorem test_decode_ip6Parse : decode (.entry .ipv6) [] = .ok (.ip6Parse) := by rfl

theorem test_decode_ip6Icmp6 : decode (.nextHeader) [0x3A#8] = .ok (.ip6Icmp6) := by rfl

theorem test_decode_ip6Udp : decode (.nextHeader) [0x11#8] = .ok (.ip6Udp) := by rfl

theorem test_decode_ip6Other : decode (.nextHeader) [0x00#8] = .ok (.ip6Other 0#8) := by rfl

theorem test_decode_icmp4Parse : decode (.entry .icmp4) [] = .ok (.icmp4Parse) := by rfl

theorem test_decode_icmp4Echo : decode (.icmp4) [0x08#8, 0x00#8] = .ok (.icmp4Echo) := by rfl

theorem test_decode_icmp4Other : decode (.icmp4) [0x00#8, 0x00#8] = .ok (.icmp4Other 0#16) := by rfl

theorem test_decode_icmp6Parse : decode (.entry .icmp6) [] = .ok (.icmp6Parse) := by rfl

theorem test_decode_icmp6Echo : decode (.icmp6) [0x80#8, 0x00#8] = .ok (.icmp6Echo) := by rfl

theorem test_decode_icmp6Ns : decode (.icmp6) [0x87#8, 0x00#8] = .ok (.icmp6Ns) := by rfl

theorem test_decode_icmp6Other : decode (.icmp6) [0x88#8, 0x00#8] = .ok (.icmp6Other 0x8800#16) := by rfl

theorem test_decode_udpParse : decode (.entry .udp) [] = .ok (.udpParse) := by rfl

theorem test_decode_udpCoap : decode (.dport 5683#16) [0x16#8, 0x33#8] = .ok (.udpCoap) := by rfl

theorem test_decode_udpEcho : decode (.dport 5683#16) [0x00#8, 0x07#8] = .ok (.udpEcho 7#16) := by rfl

theorem test_decode_coapParse : decode (.entry .coap) [] = .ok (.coapParse) := by rfl

theorem test_decode_coapGetLed : decode (.coap 0#2 true) [0x01#8] = .ok (.coapGetLed) := by rfl

theorem test_decode_coapPutLed : decode (.coap 1#2 true) [0x03#8] = .ok (.coapPutLed) := by rfl

theorem test_decode_coapNotFound : decode (.coap 0#2 false) [0x01#8] = .ok (.coapNotFound 1#8) := by rfl

theorem test_decode_coapNotAllowed : decode (.coap 0#2 true) [0x1F#8] = .ok (.coapNotAllowed 0x1F#8) := by rfl

theorem test_decode_coapOther : decode (.coap 2#2 true) [0x45#8] = .ok (.coapOther 0x45#8) := by rfl

theorem test_decode_build : decode (.entry .build) [] = .ok (.build) := by rfl

/-! ## Frames of the vectors -/

/-- T-ARP-1. -/
def arpFrame : List Byte := bs [255, 255, 255, 255, 255, 255, 82, 84, 0, 18, 52, 86, 8, 6, 0, 1, 8, 0, 6, 4, 0, 1,
  82, 84, 0, 18, 52, 86, 192, 168, 1, 10, 0, 0, 0, 0, 0, 0, 192, 168, 1, 33, 0, 0, 0, 0, 0, 0, 0, 0, 0, 0, 0, 0, 0,
  0, 0, 0, 0, 0]

/-- T-P4-1. -/
def pingFrame : List Byte := bs [32, 24, 3, 1, 0, 0, 82, 84, 0, 18, 52, 86, 8, 0, 69, 0, 0, 36, 171, 205, 64, 0, 64,
  1, 11, 144, 192, 168, 1, 10, 192, 168, 1, 33, 8, 0, 84, 53, 18, 52, 0, 1, 97, 98, 99, 100, 101, 102, 103, 104]

/-- T-U4-1. -/
def udpFrame : List Byte := bs [32, 24, 3, 1, 0, 0, 82, 84, 0, 18, 52, 86, 8, 0, 69, 0, 0, 34, 1, 1, 64, 0, 64, 17,
  182, 78, 192, 168, 1, 10, 192, 168, 1, 33, 156, 64, 0, 7, 0, 14, 156, 50, 104, 101, 108, 108, 111, 10]

/-- T-P6-1. -/
def ping6Frame : List Byte := bs [32, 24, 3, 1, 0, 0, 82, 84, 0, 18, 52, 86, 134, 221, 96, 0, 0, 0, 0, 16, 58, 64,
  254, 128, 0, 0, 0, 0, 0, 0, 80, 84, 0, 255, 254, 18, 52, 86, 254, 128, 0, 0, 0, 0, 0, 0, 34, 24, 3, 255, 254, 1, 0,
  0, 128, 0, 55, 19, 18, 52, 0, 1, 97, 98, 99, 100, 101, 102, 103, 104]

/-- T-NS-1. -/
def nsFrame : List Byte := bs [51, 51, 255, 1, 0, 0, 82, 84, 0, 18, 52, 86, 134, 221, 96, 0, 0, 0, 0, 32, 58, 255,
  254, 128, 0, 0, 0, 0, 0, 0, 80, 84, 0, 255, 254, 18, 52, 86, 255, 2, 0, 0, 0, 0, 0, 0, 0, 0, 0, 1, 255, 1, 0, 0,
  135, 0, 78, 10, 0, 0, 0, 0, 254, 128, 0, 0, 0, 0, 0, 0, 34, 24, 3, 255, 254, 1, 0, 0, 1, 1, 82, 84, 0, 18, 52, 86]

/-- T-LP-1: an echo request. -/
def lpFrame : List Byte := bs [65, 204, 42, 205, 171, 8, 7, 6, 5, 4, 3, 2, 1, 24, 23, 22, 21, 20, 19, 18, 17, 122, 51,
  58, 128, 0, 71, 83, 18, 52, 0, 1, 97, 98, 99, 100]

/-- T-LP-2: a UDP datagram with next-header compression. -/
def lpUdpFrame : List Byte := bs [65, 204, 43, 205, 171, 8, 7, 6, 5, 4, 3, 2, 1, 24, 23, 22, 21, 20, 19, 18, 17, 126,
  51, 243, 18, 84, 162, 104, 105]

/-- The peer's IPv6 address of fixture E. -/
def peer6 : BitVec 128 := 0xFE80000000000000505400FFFE123456#128

/-- The IPv6 record of T-P6-1. -/
def ping6Rec : Ip6Rec := ⟨0#8, 0#20, 16#16, 58#8, 64#8, peer6, Config.straps.ipv6⟩

/-- The IPv4 record of T-U4-1. -/
def udpIp4 : Ip4Rec := ⟨4#4, 5#4, 34#16, slice udpFrame 14 34, 17#8, 0xC0A8010A#32, 0xC0A80121#32⟩

/-- The UDP stage of T-U4-1, before its entry. -/
def udpStage : State := onEth .udp .entry 34 udpFrame |>.latch fun l => { l with ip4 := udpIp4, net := .ip4 }

/-- The ICMPv6 stage of T-P6-1, before its entry. -/
def icmp6Stage : State := onEth .icmp6 .entry 54 ping6Frame |>.latch fun l => { l with ip6 := ping6Rec }

/-- The ICMPv6 stage of T-NS-1, before its entry. -/
def nsStage : State := onEth .icmp6 .entry 54 nsFrame |>.latch fun l =>
  { l with ip6 := ⟨0#8, 0#20, 32#16, 58#8, 255#8, peer6, 0xFF0200000000000000000001FF010000#128⟩ }

/-- The COAP stage with a given message, on the IPv4 context of T-U4-1. -/
def coapStage (m : List Byte) : State := onEth .coap .entry 42 udpFrame |>.latch fun l =>
  { l with ip4 := udpIp4, net := .ip4, udp := ⟨50000#16, 5683#16, 16#16, 0xFECB#16, m⟩ }

/-- The message of T-C4-1, `GET /led` with message ID 19248 (R362). -/
def getLed : List Byte := bs [0x40, 0x01, 0x4B, 0x30, 0xB3, 0x6C, 0x65, 0x64]

/-- The record of that message. -/
def getLedRec : CoapRec := ⟨1#2, 0#2, 0#4, 1#8, 0x4B30#16, [], ledPath, []⟩

/-- The LOWPAN stage of a frame, its link-layer addresses latched. -/
def lowStage (f : List Byte) : State :=
  { onLow .lowpan .entry 21 f with
    llDst := .ext 0x0102030405060708#64, llSrc := .ext 0x1112131415161718#64, panSrc := 0xABCD#16, panDst := 0xABCD#16 }

/-! ## Vectors and worked examples -/

/-- R156. -/
def r156 : List Byte := bs [0x45, 0, 0, 0x73, 0, 0, 0x40, 0, 0x40, 0x11, 0, 0, 0xC0, 0xA8, 0, 1, 0xC0, 0xA8, 0, 0xC7]

theorem test_onesSum_R156 : onesSum r156 = 0x479E := by decide +kernel

theorem test_cksumMake_R157 : cksumMake r156 = 0xB861 := by decide +kernel

theorem test_cksumMake_R159 : cksumMake (r156.set 8 0x3F#8) = 0xB961 := by decide +kernel

theorem test_onesSum_odd : onesSum (bs [0x12]) = 0x1200 := by decide +kernel

/-- R171: a 13-byte frame. -/
theorem test_ethParse_short : got (fun t => (t.outcome, t.cause, t.cstage, t.log))
    (exec .ethParse (onEth .eth .entry 0 (arpFrame.take 13)))
    = some (.dropped, .truncated, .eth, [.drop .eth .truncated]) := by decide +kernel

/-- R172: a 60-byte frame gives the ARP view 14, 46. -/
theorem test_ethArp_view : got (fun t => (t.vbase, t.vlen, t.stage, t.log)) (exec .ethArp (onEth .eth .dispatch 0 arpFrame))
    = some (14#16, 46#16, .arp, [.valid .eth]) := by decide +kernel

/-- T-ARP-1. -/
theorem test_arpParse : got (fun t => t.latched.arp) (exec .arpParse (onEth .arp .entry 14 arpFrame))
    = some ⟨1#16, 0x0800#16, 6#8, 4#8, 1#16, 0x525400123456#48, 0xC0A8010A#32, 0#48, 0xC0A80121#32⟩ := by
  decide +kernel

/-- R195, T-ARP-1. -/
theorem test_arpReplyPacket : arpReplyPacket Config.straps
      ⟨1#16, 0x0800#16, 6#8, 4#8, 1#16, 0x525400123456#48, 0xC0A8010A#32, 0#48, 0xC0A80121#32⟩
    = bs [0, 1, 8, 0, 6, 4, 0, 2, 32, 24, 3, 1, 0, 0, 192, 168, 1, 33, 82, 84, 0, 18, 52, 86, 192, 168, 1, 10] := by
  decide +kernel

/-- R176's example. -/
theorem test_mac154Data : got (fun t => (t.llDst, t.llSrc, t.panDst, t.panSrc, t.vbase))
    (exec .mac154Data (onLow .mac154 .dispatch 0 lpFrame |>.latch fun l => { l with mac := ⟨0xCC41#16, 42#8⟩ }))
    = some (.ext 0x0102030405060708#64, .ext 0x1112131415161718#64, 0xABCD#16, 0xABCD#16, 21#16) := by decide +kernel

theorem test_mac154Parse : got (fun t => t.latched.mac) (exec .mac154Parse (onLow .mac154 .entry 0 lpFrame))
    = some ⟨0xCC41#16, 42#8⟩ := by decide +kernel

/-- T-P4-1. -/
theorem test_ip4Parse : got (fun t => (t.latched.ip4.totalLength, t.latched.ip4.protocol, t.latched.ip4.src))
    (exec .ip4Parse (onEth .ipv4 .entry 14 pingFrame)) = some (36#16, 1#8, 0xC0A8010A#32) := by decide +kernel

/-- T-P4-1. -/
theorem test_icmp4Reply : icmp4Reply (pingFrame.drop 34)
    = bs [0, 0, 92, 53, 18, 52, 0, 1, 97, 98, 99, 100, 101, 102, 103, 104] := by decide +kernel

/-- T-U4-1: the packet of the echo. -/
theorem test_udpWrap : udpWrap Config.straps { Records.empty with ip4 := udpIp4, net := .ip4 } 7#16 40000#16
      (bs [104, 101, 108, 108, 111, 10])
    = .ip4 (bs [69, 0, 0, 34, 1, 1, 64, 0, 64, 17, 182, 78, 192, 168, 1, 33, 192, 168, 1, 10, 0, 7, 156, 64, 0, 14, 156,
      50, 104, 101, 108, 108, 111, 10]) := by decide +kernel

/-- T-P6-1: the record of the reply. -/
theorem test_icmp6Echo : got (fun t => t.latched.resp) (exec .icmp6Echo icmp6Stage)
    = some (some (.ip6 ⟨0#8, 0#20, 16#16, 58#8, 64#8, Config.straps.ipv6, peer6⟩
      (bs [129, 0, 54, 19, 18, 52, 0, 1, 97, 98, 99, 100, 101, 102, 103, 104]))) := by decide +kernel

/-- R239's example. -/
theorem test_ip6Bytes : (ip6Bytes ⟨0#8, 0#20, 16#16, 58#8, 64#8, Config.straps.ipv6, peer6⟩).take 8
    = bs [0x60, 0, 0, 0, 0, 0x10, 0x3A, 0x40] := by decide +kernel

/-- T-NS-1: the message of the advertisement. -/
theorem test_icmp6Ns : got (fun t => t.latched.resp) (exec .icmp6Ns nsStage)
    = some (some (.ip6 ⟨0#8, 0#20, 32#16, 58#8, 255#8, Config.straps.ipv6, peer6⟩
      (bs [136, 0, 43, 25, 96, 0, 0, 0, 254, 128, 0, 0, 0, 0, 0, 0, 34, 24, 3, 255, 254, 1, 0, 0, 2, 1, 32, 24, 3, 1, 0,
        0]))) := by decide +kernel

/-- R362's example. -/
theorem test_coapResp : coapResp getLedRec 0x45#8 (ledBody true)
    = bs [0x60, 0x45, 0x4B, 0x30, 0xFF, 0x7B, 0x22, 0x6C, 0x65, 0x64, 0x22, 0x3A, 0x74, 0x72, 0x75, 0x65, 0x7D] := by
  decide +kernel

theorem test_coapParse : got (fun t => (t.latched.coap, t.selector)) (exec .coapParse (coapStage getLed))
    = some (getLedRec, .coap 0#2 true) := by decide +kernel

/-- R364's example, `GET /brightness`. -/
theorem test_coapOptions : coapOptions 11 0 (bs [0xBA, 0x62, 0x72, 0x69, 0x67, 0x68, 0x74, 0x6E, 0x65, 0x73, 0x73])
    = .ok ([bs [0x62, 0x72, 0x69, 0x67, 0x68, 0x74, 0x6E, 0x65, 0x73, 0x73]], []) := by decide +kernel

/-- R360's examples. -/
theorem test_parseLed_true : parseLed (ledBody true) = some true := by decide +kernel

theorem test_parseLed_spaces : parseLed (bs [0x7B, 0x20, 0x22, 0x6C, 0x65, 0x64, 0x22, 0x20, 0x3A, 0x20, 0x66, 0x61, 0x6C,
    0x73, 0x65, 0x20, 0x7D]) = some false := by decide +kernel

theorem test_parseLed_number : parseLed (bs [0x7B, 0x22, 0x6C, 0x65, 0x64, 0x22, 0x3A, 0x31, 0x7D]) = none := by
  decide +kernel

/-- R318's example: sport 55555, dport 5683, checksum 0xABCD. -/
theorem test_nhcDecode : nhcDecode 0#1 0#2 (bs [0xF0, 0xD9, 0x03, 0x16, 0x33, 0xAB, 0xCD])
    = .ok (55555#16, 5683#16, 0xABCD#16, []) := by decide +kernel

/-- T-LP-1: the reconstructed header. -/
theorem test_lowpanIphc : got (fun t => (t.scratchRead 0 8, t.vbase, t.stage)) (exec (.lowpanIphc 3#2 0#1 2#2) (lowStage lpFrame))
    = some (bs [0x60, 0, 0, 0, 0, 12, 58, 64], 24#16, .ipv6) := by decide +kernel

/-- T-LP-1: the compressed header of the reply. -/
theorem test_iphcCompress : (iphcCompress
      ⟨0#8, 0#20, 0#16, 58#8, 64#8, lowStraps.ipv6, 0xFE800000000000001312131415161718#128⟩ []
      (.ext lowStraps.ext) (.ext 0x1112131415161718#64)) = bs [122, 51, 58] := by decide +kernel

/-- T-LP-2: the compressed UDP header of the reply. -/
theorem test_compressUdp : compressUdp (bs [0xF0, 0xB2, 0xF0, 0xB1, 0, 10, 84, 162, 104, 105])
    = bs [243, 33, 84, 162, 104, 105] := by decide +kernel

/-- T-ARP-1: the stored response. -/
theorem test_build : got (fun t => (t.memRead 0 12, t.txlen, t.stage, t.log))
    (exec .build { onEth .build .entry 14 arpFrame with
      arp := [(0xC0A8010A#32, 0x525400123456#48)]
      latched := { Records.empty with resp := some (.arp 0xC0A8010A#32 (zeros 28)), hstage := .arp } })
    = some (bs [82, 84, 0, 18, 52, 86, 32, 24, 3, 1, 0, 0], 42#16, .txPending, [.send .arp 42#16]) := by decide +kernel

/-! ## Witnesses: a state and operands that meet the hypotheses of each statement, clause by clause -/

theorem witness_DecodeOfEncodeIsIdentity : Instr.wf 5683#16 (.nhcOther 0xEF#8) = true := by decide

theorem witness_DispatchIsTotal_tag : (∀ p, Selector.dport 7#16 = .dport p → p = 7#16) ∧
    (bs [0, 7]).length = (Selector.dport 7#16).width := ⟨fun _ h => (Selector.dport.inj h).symm, rfl⟩

theorem witness_DispatchIsTotal_entry : ([] : List Byte).length = (Selector.entry .build).width ∧
    stageRuns .build := by decide

theorem witness_DispatchIsTotal_width : (bs [8]).length ≠ Selector.ethertype.width := by decide

theorem witness_StepRunsTheDecodedOperation_run :
    let s := onEth .lowpan .nhc 0 lpUdpFrame |>.latch fun l => { l with iphc := { l.iphc with nhc := 0xF3#8 } }
    stageRuns s.stage = true ∧ s.resetNext = false ∧ decode s.selector s.tagBytes = .ok (.nhcUdp 0#1 3#2) :=
  ⟨rfl, rfl, rfl⟩

theorem witness_StepRunsTheDecodedOperation_host :
    let s := { State.reset with host := [.lines false (some 60#16) false] }
    let t := { State.reset with stage := .txPending, host := [.lines false none true] }
    stageRuns s.stage = false ∧ s.host = .lines false (some 60#16) false :: [] ∧
    stageRuns t.stage = false ∧ t.host = .lines false none true :: [] := ⟨rfl, rfl, rfl, rfl⟩

/-! ### `EntryReadsTheTagFromTheFrame`: each entry operation ends in its stage's dispatch -/

theorem witness_EntryReadsTheTag_eth : got (·.phase) (exec .ethParse (onEth .eth .entry 0 (arpFrame.take 14)))
    = some .dispatch := by decide +kernel

theorem witness_EntryReadsTheTag_mac154 : got (·.phase) (exec .mac154Parse (onLow .mac154 .entry 0 (lpFrame.take 3)))
    = some .dispatch := by decide +kernel

theorem witness_EntryReadsTheTag_lowpan : got (·.phase) (exec .lowpanParse (onLow .lowpan .entry 0 [0x41#8]))
    = some .dispatch := by decide +kernel

theorem witness_EntryReadsTheTag_arp : got (·.phase) (exec .arpParse (onEth .arp .entry 14 (arpFrame.take 42)))
    = some .dispatch := by decide +kernel

theorem witness_EntryReadsTheTag_ipv4 : got (·.phase) (exec .ip4Parse (onEth .ipv4 .entry 14 udpFrame))
    = some .dispatch := by decide +kernel

theorem witness_EntryReadsTheTag_ipv6 : got (·.phase) (exec .ip6Parse (onEth .ipv6 .entry 14 ping6Frame))
    = some .dispatch := by decide +kernel

theorem witness_EntryReadsTheTag_ipv6_lowpan :
    got (·.phase) (exec .ip6Parse { onLow .ipv6 .entry 24 lpFrame with scratch := cells 0 (ip6Bytes ping6Rec) })
    = some .dispatch := by decide +kernel

theorem witness_EntryReadsTheTag_icmp4 : got (·.phase) (exec .icmp4Parse (onEth .icmp4 .entry 34 (pingFrame.take 38)))
    = some .dispatch := by decide +kernel

theorem witness_EntryReadsTheTag_icmp6 : got (·.phase) (exec .icmp6Parse icmp6Stage) = some .dispatch := by decide +kernel

theorem witness_EntryReadsTheTag_udp : got (·.phase) (exec .udpParse udpStage) = some .dispatch := by decide +kernel

theorem witness_EntryReadsTheTag_coap : got (·.phase) (exec .coapParse (coapStage getLed)) = some .dispatch := by
  decide +kernel

/-! ### Reset, the host and the exceptions -/

theorem witness_ResetOverridesEverything : ({ onLow .udp .dispatch 3 lpFrame with host := [.reset Config.straps] } : State).host
    = .reset Config.straps :: [] := rfl

theorem witness_HostRequestsMoveTheFrame : State.reset.stage = .idle ∧ (1514#16).toNat ≤ State.reset.par.bufCap ∧
    ¬ (1515#16).toNat ≤ State.reset.par.bufCap ∧ (onEth .txPending .entry 0 []).stage = .txPending ∧
    (onEth .build .entry 0 []).stage ≠ .txPending := by decide

theorem witness_LinkFaultHaltsBetweenRuns :
    let s := fun st => { onEth st .entry 0 arpFrame with host := [.lines true (some 60#16) true] }
    (s .idle).stage = .idle ∧ (s .txPending).stage = .txPending ∧ (s .haltFatal).stage = .haltFatal ∧
    (s .haltAbort).stage = .haltAbort ∧ (s .idle).host = .lines true (some 60#16) true :: [] ∧
    (s .haltFatal).resetNext = false ∧ got (·.fault) (step (s .haltFatal)) = some 0#2 := by decide +kernel

theorem witness_HostWritesTheBufferInIdle :
    let s := fun st a => { onEth st .entry 0 arpFrame with host := [.bufWrite a 0xAA#8] }
    (s .idle 1513#16).stage = .idle ∧ (1513#16).toNat < (s .idle 1513#16).par.bufCap ∧
    (s .idle 1514#16).par.bufCap ≤ (1514#16).toNat ∧ (s .txPending 0#16).stage ≠ .idle ∧
    stageRuns (s .txPending 0#16).stage = false := by decide

/-- The read window of R470: the bounds of the stages and of the addresses. -/
theorem witness_HostReadsTheBufferBetweenRuns :
    let s := fun st => onEth st .entry 0 arpFrame
    [Stage.idle, .txPending, .haltFatal, .haltAbort].map (fun st => (s st).bufRdata 6#16)
      = List.replicate 4 (some 82#8) ∧
    (s .idle).bufRdata 1514#16 = none ∧ [Stage.eth, .build].map (fun st => (s st).bufRdata 6#16) = [none, none] := by
  decide +kernel

theorem witness_AbortHaltsAndKeepsTheStatus : (State.reset.raiseAbort).stage = .haltAbort := rfl

theorem witness_ViewAccessReadsAndWritesTheBuffer :
    let s := onEth .build .entry 14 arpFrame
    s.viewOk ∧ s.par.bufCap ≤ 65535 ∧ 14 + 32 ≤ s.vlen.toNat ∧ s.vlen.toNat < 14 + 33 ∧
    6 + (bs [0, 2]).length ≤ s.vlen.toNat ∧ s.vlen.toNat < 45 + (bs [0, 2]).length := by decide

/-! ### Link layer -/

theorem witness_EthLatchesAndHandsOver :
    let s := onEth .eth .entry 0 (arpFrame.take 13)
    let t := onEth .eth .dispatch 0 (arpFrame.take 14)
    s.viewOk ∧ s.vlen.toNat < 14 ∧ t.viewOk ∧ 14 ≤ t.vlen.toNat ∧
    (Instr.ethArp, Stage.arp) ∈ [(Instr.ethArp, Stage.arp), (.ethIpv4, .ipv4), (.ethIpv6, .ipv6)] := by decide

/-- The MAC154 stage with a frame control field and a frame of `n` bytes. -/
def macStage (f : Half) (n : Nat) : State :=
  onLow .mac154 .dispatch 0 (lpFrame.take n) |>.latch fun l => { l with mac := ⟨f, 42#8⟩ }

theorem witness_Mac154Data_parse : (macStage 0#16 2).viewOk ∧ (macStage 0#16 2).vlen.toNat < 3 ∧
    (macStage 0#16 3).viewOk ∧ 3 ≤ (macStage 0#16 3).vlen.toNat := by decide

/-- Security, version 2, destination mode 1, source mode 0: each is unsupported. -/
theorem witness_Mac154Data_reject :
    [0xCC49#16, 0xEC41#16, 0xC441#16, 0x0C41#16].map (fun f => got (·.cause) (exec .mac154Data (macStage f 36)))
    = List.replicate 4 (some .unsupported) := by decide +kernel

/-- The header is 21 bytes: 20 are too few. -/
theorem witness_Mac154Data_length : got (·.cause) (exec .mac154Data (macStage 0xCC41#16 20)) = some .truncated ∧
    got (·.stage) (exec .mac154Data (macStage 0xCC41#16 21)) = some .lowpan := by decide +kernel

/-! ### ARP -/

/-- The ARP stage with byte `i` of the packet replaced, and `n` bytes of it. -/
def arpStage (n i v : Nat) : State := onEth .arp .entry 14 ((arpFrame.set (14 + i) (BitVec.ofNat 8 v)).take (14 + n))

theorem witness_ArpParse_rejects : ([(27, 0, 0), (28, 1, 2), (28, 2, 9), (28, 4, 5), (28, 5, 16)].map fun x =>
      let s := arpStage x.1 x.2.1 x.2.2
      (decide s.viewOk, got (·.cause) (exec .arpParse s)))
    = [(true, some .truncated), (true, some .unsupported), (true, some .unsupported), (true, some .badLength),
      (true, some .badLength)] := by decide +kernel

theorem witness_ArpParse_accepts : (arpStage 28 0 0).viewOk ∧
    got (·.phase) (exec .arpParse (arpStage 28 0 0)) = some .dispatch := by decide +kernel

theorem witness_ArpLearnsAndAnswers :
    let s := onEth .arp .dispatch 14 arpFrame |>.latch fun l => { l with arp := { l.arp with tpa := Config.straps.ipv4 } }
    s.latched.arp.tpa = s.cfg.ipv4 ∧ (onEth .arp .dispatch 14 arpFrame).latched.arp.tpa ≠ Config.straps.ipv4 := by decide

/-! ### IPv4 and ICMPv4 -/

/-- The IPV4 stage with byte `i` of the packet of T-P4-1 replaced, and `n` bytes of it. -/
def ip4Stage (n i v : Nat) : State := onEth .ipv4 .entry 14 ((pingFrame.set (14 + i) (BitVec.ofNat 8 v)).take (14 + n))

/-- Too short; version 5; header length 16; header beyond the view; packet beyond the view; packet inside the
header; a wrong checksum. -/
theorem witness_Ip4Parse_rejects : ([(19, 0, 69), (20, 0, 0x55), (20, 0, 0x44), (20, 0, 0x46), (35, 0, 69), (36, 3, 19),
      (36, 11, 0)].map fun x =>
      let s := ip4Stage x.1 x.2.1 x.2.2
      (decide s.viewOk, got (·.cause) (exec .ip4Parse s)))
    = [(true, some .truncated), (true, some .badVersion), (true, some .badLength), (true, some .badLength),
      (true, some .badLength), (true, some .badLength), (true, some .badChecksum)] := by decide +kernel

/-- The same packet to 192.168.1.34, its checksum adjusted. -/
theorem witness_Ip4Parse_notForUs :
    let s := onEth .ipv4 .entry 14 ((pingFrame.set 33 34#8).set 25 143#8)
    s.viewOk ∧ got (·.cause) (exec .ip4Parse s) = some .notForUs := by decide +kernel

theorem witness_Ip4Parse_accepts : (ip4Stage 36 0 69).viewOk ∧
    got (·.phase) (exec .ip4Parse (ip4Stage 36 0 69)) = some .dispatch := by decide +kernel

theorem witness_Ip4HandsOverThePayload :
    let s := onEth .ipv4 .dispatch 14 udpFrame |>.latch fun l => { l with ip4 := udpIp4 }
    4 * s.latched.ip4.ihl.toNat ≤ s.latched.ip4.totalLength.toNat ∧ s.latched.ip4.totalLength.toNat ≤ s.vlen.toNat := by
  decide

theorem witness_Ip4ReplyRewritesTheHeader : 5 ≤ udpIp4.ihl.toNat ∧ udpIp4.header.length = 4 * udpIp4.ihl.toNat := by decide

theorem witness_Icmp4EchoIsAnswered :
    let s := fun n => onEth .icmp4 .entry 34 (pingFrame.take (34 + n))
    (s 3).viewOk ∧ (s 3).view.length < 4 ∧ (s 4).viewOk ∧ 4 ≤ (s 4).view.length ∧ (s 7).viewOk ∧ (s 7).view.length < 8 ∧
    (s 8).viewOk ∧ 8 ≤ (s 8).view.length ∧ onesSum (s 8).view ≠ 0xFFFF ∧
    (s 16).viewOk ∧ 8 ≤ (s 16).view.length ∧ onesSum (s 16).view = 0xFFFF := by decide +kernel

/-! ### IPv6 and ICMPv6 -/

/-- The IPV6 stage with byte `i` of the packet of T-P6-1 replaced, and `n` bytes of it. -/
def ip6Stage (n i v : Nat) : State := onEth .ipv6 .entry 14 ((ping6Frame.set (14 + i) (BitVec.ofNat 8 v)).take (14 + n))

theorem witness_Ip6Parse_rejects : ([(39, 0, 0x60), (40, 0, 0x40), (55, 0, 0x60)].map fun x =>
      let s := ip6Stage x.1 x.2.1 x.2.2
      (decide s.viewOk, s.cfg.link, got (·.cause) (exec .ip6Parse s)))
    = [(true, .eth, some .truncated), (true, .eth, some .badVersion), (true, .eth, some .badLength)] := by decide +kernel

theorem witness_Ip6Parse_accepts : (ip6Stage 56 0 0x60).viewOk ∧ (ip6Stage 56 0 0x60).cfg.link = .eth ∧
    got (·.phase) (exec .ip6Parse (ip6Stage 56 0 0x60)) = some .dispatch := by decide +kernel

theorem witness_Ip6Parse_lowpan : (onLow .ipv6 .entry 24 lpFrame).viewOk ∧ (onLow .ipv6 .entry 24 lpFrame).cfg.link = .lowpan := by
  decide

theorem witness_Ip6HandsOverTheMessage : icmp6Stage.latched.ip6.dst = icmp6Stage.cfg.ipv6 ∧
    nsStage.latched.ip6.dst ≠ nsStage.cfg.ipv6 := by decide

theorem witness_Icmp6EchoIsAnswered :
    let s := fun n => { icmp6Stage with vlen := BitVec.ofNat 16 n }
    (s 3).viewOk ∧ (s 3).upper.length < 4 ∧ (s 4).viewOk ∧ 4 ≤ (s 4).upper.length ∧ (s 7).viewOk ∧ (s 7).upper.length < 8 ∧
    nsStage.viewOk ∧ 8 ≤ nsStage.upper.length ∧ nsStage.latched.ip6.dst ≠ nsStage.cfg.ipv6 ∧
    (s 8).viewOk ∧ 8 ≤ (s 8).upper.length ∧ (s 8).latched.ip6.dst = (s 8).cfg.ipv6 ∧
    got (·.cause) (exec .icmp6Echo (s 8)) = some .badChecksum ∧
    (s 16).viewOk ∧ 8 ≤ (s 16).upper.length ∧ (s 16).latched.ip6.dst = (s 16).cfg.ipv6 ∧
    got (·.stage) (exec .icmp6Echo (s 16)) = some .build := by decide +kernel

/-- Too short; a wrong checksum; another target; the unspecified source (T-NS-1's checksum adjusted by hand to
each). -/
theorem witness_NeighborSolicitation_rejects :
    let s := fun (n : Nat) (f : List Byte) (src : BitVec 128) =>
      { onEth .icmp6 .entry 54 (f.take (54 + n)) with latched := { nsStage.latched with
        ip6 := { nsStage.latched.ip6 with src := src } } }
    [s 23 nsFrame peer6, s 24 (nsFrame.set 56 0#8) peer6, s 32 ((nsFrame.set 77 1#8).set 57 9#8) peer6,
      s 32 ((nsFrame.set 56 0xD0#8).set 57 0x47#8) 0#128].map (fun s => (decide s.viewOk, got (·.cause) (exec .icmp6Ns s)))
    = [(true, some .truncated), (true, some .badChecksum), (true, some .notForUs), (true, some .unsupported)] := by
  decide +kernel

theorem witness_NeighborSolicitation_accepts : nsStage.viewOk ∧
    got (·.stage) (exec .icmp6Ns nsStage) = some .build := by decide +kernel

/-! ### UDP -/

/-- The UDP stage with byte `i` of the datagram of T-U4-1 replaced, and `n` bytes of it. -/
def udpWith (n i v : Nat) : State :=
  { udpStage with mem := cells 0 (udpFrame.set (34 + i) (BitVec.ofNat 8 v)), vlen := BitVec.ofNat 16 n }

theorem witness_UdpParse_rejects : ([(7, 5, 14), (8, 5, 7), (13, 5, 14), (14, 7, 0)].map fun x =>
      let s := udpWith x.1 x.2.1 x.2.2
      (decide s.viewOk, got (·.cause) (exec .udpParse s)))
    = [(true, some .truncated), (true, some .badLength), (true, some .badLength), (true, some .badChecksum)] := by
  decide +kernel

/-- A good checksum, and a zero one. -/
theorem witness_UdpParse_accepts : (udpWith 14 5 14).viewOk ∧
    got (·.phase) (exec .udpParse (udpWith 14 5 14)) = some .dispatch ∧
    got (·.phase) (exec .udpParse { udpStage with mem := cells 0 ((udpFrame.set 40 0#8).set 41 0#8) }) = some .dispatch := by
  decide +kernel

theorem witness_UdpResponse_echo : 8 + (udpStage.latched.udp.payload).length ≤ 65535 ∧
    got (·.stage) (exec (.udpEcho 7#16) udpStage) = some .build := by decide +kernel

theorem witness_UdpResponseIsWellFormed : 8 + (List.replicate 65527 0#8).length ≤ 65535 ∧
    { Records.empty with net := .ip4 }.net = .ip4 ∧ { Records.empty with net := .ip6 }.net = .ip6 :=
  ⟨by rw [List.length_replicate], rfl, rfl⟩

/-! ### CoAP -/

theorem witness_CoapParse_rejects : ([bs [0x40, 1, 0], bs [0x80, 1, 0, 0], bs [0x49, 1, 0, 0, 0, 0, 0, 0, 0, 0, 0, 0, 0],
      bs [0x44, 1, 0, 0, 1, 2, 3]].map fun m => got (·.cause) (exec .coapParse (coapStage m)))
    = [some .truncated, some .badVersion, some .badLength, some .badLength] := by decide +kernel

/-- No request: an empty message, a response code, an acknowledgement. A request with options in error, and one
without. -/
theorem witness_CoapParse_requests : ([bs [0x40, 0, 0, 1], bs [0x40, 0x20, 0, 1], bs [0x60, 1, 0, 1], bs [0x40, 0x1F, 0, 1, 0xFF],
      getLed].map fun m => got (fun t => (t.phase, t.cause)) (exec .coapParse (coapStage m)))
    = [some (.dispatch, .none), some (.dispatch, .none), some (.dispatch, .none), some (.entry, .badLength),
      some (.dispatch, .none)] := by decide +kernel

theorem witness_CoapOptionsAreReadBack : (∀ o ∈ [(11, bs [0x6C]), (65804, []), (269, List.replicate 300 0#8)],
      o.1 < 65805 ∧ o.2.length < 65805) ∧
    coapOptions (bs [0xFF]).length (0 + [11, 65804, 269].sum) (bs [0xFF]) = .error .badLength := by decide +kernel

/-- R353, an error at one option: a bare marker, a reserved nibble; no delta extension, one of its two bytes, no
length extension after a whole delta extension, one of its two bytes; a value one byte short, plain and extended, and
those values whole. -/
theorem witness_CoapOptions_errors :
    ([[0xFF], [0xF0], [0xD0], [0xE0, 1], [0xDD, 0], [0xEE, 0, 0, 0], [0xC2, 7], 0x0D :: 0 :: List.replicate 12 7,
      0xDE :: 0 :: 0 :: 0 :: List.replicate 268 7].map fun m => coapOptions m.length 0 (bs m))
    = [.error .badLength, .error .unsupported, .error .truncated, .error .truncated, .error .truncated,
      .error .truncated, .error .badLength, .error .badLength, .error .badLength] ∧
    ([[0xC1, 7], 0x0D :: 0 :: List.replicate 13 7, 0xDE :: 0 :: 0 :: 0 :: List.replicate 269 7].map fun m =>
      coapOptions m.length 0 (bs m)) = [.ok ([], []), .ok ([], []), .ok ([], [])] := by decide +kernel

theorem witness_CoapRequestsAreAnswered : parseLed (ledBody false) = some false ∧ parseLed [] = none := by decide +kernel

/-! ### 6LoWPAN -/

theorem witness_LowpanParseReadsTheDispatchByte : (onLow .lowpan .entry 0 []).viewOk ∧
    (onLow .lowpan .entry 0 []).vlen.toNat < 1 ∧ (onLow .lowpan .entry 0 [0x7A#8]).viewOk ∧
    1 ≤ (onLow .lowpan .entry 0 [0x7A#8]).vlen.toNat ∧ (bs [1]).length < 2 := by decide

theorem witness_IphcInlineFieldForms : (bs [1, 2, 3]).length < 4 ∧ (bs [1, 2]).length < 3 ∧ ([] : List Byte).length < 1 ∧
    (zeros 16).length = 16 ∧ (zeros 15).length < 16 ∧ (zeros 6).length = 6 ∧ (zeros 5).length < 6 := by decide

theorem witness_IphcHeaderIsReadInOrder : (bs [0x7A]).length < 2 ∧ (0x80#8).getLsbD 7 = true ∧
    ((0x50#8).getLsbD 6 = true ∧ ((0x50#8).toNat / 16) % 4 ≠ 0) ∧ (0x04#8).getLsbD 2 = true ∧
    ¬ ((0x33#8).getLsbD 7 = true ∨ ((0x33#8).getLsbD 6 = true ∧ ((0x33#8).toNat / 16) % 4 ≠ 0) ∨ (0x33#8).getLsbD 2 = true) := by
  decide

/-- An error; an inline next header; an NHC byte; a missing NHC byte. -/
theorem witness_IphcReconstructsTheHeader : ((lowStage (lpFrame.take 22)).viewOk ∧
      got (·.cause) (exec (.lowpanIphc 3#2 0#1 2#2) (lowStage (lpFrame.take 22))) = some .truncated) ∧
    ((lowStage lpFrame).viewOk ∧ got (·.stage) (exec (.lowpanIphc 3#2 0#1 2#2) (lowStage lpFrame)) = some .ipv6) ∧
    ((lowStage lpUdpFrame).viewOk ∧
      got (fun t => (t.phase, t.latched.iphc.nhc)) (exec (.lowpanIphc 3#2 1#1 2#2) (lowStage lpUdpFrame)) = some (.nhc, 0xF3#8)) ∧
    got (·.cause) (exec (.lowpanIphc 3#2 1#1 2#2) (lowStage (lpUdpFrame.take 23))) = some .truncated := by decide +kernel

/-- The LOWPAN stage of T-LP-2 at its NHC byte, `n` bytes of the frame. -/
def nhcStage (n : Nat) : State :=
  { lowStage (lpUdpFrame.take n) with phase := .nhc } |>.latch fun l => { l with iphc := { l.iphc with o := 2, nhc := 0xF3#8 } }

theorem witness_NhcReconstructsTheUdpHeader : (nhcStage 24).viewOk ∧ (nhcStage 24).latched.iphc.o < (nhcStage 24).vlen.toNat ∧
    (nhcStage 23).viewOk ∧ (nhcStage 23).vlen.toNat ≤ (nhcStage 23).latched.iphc.o ∧
    (nhcStage 26).viewOk ∧ ((nhcStage 26).view.drop 2).length < 1 + 1 + 2 ∧
    (nhcStage 29).viewOk ∧ (nhcStage 29).view.drop 2 = 0xF3#8 :: (bs [0x12] ++ bs [84, 162] ++ bs [104, 105]) ∧
    (bs [0x12]).length = inlinePortBytes 3#2 := by decide +kernel

/-! ### The response -/

/-- `BUILD` with a response record, on fixture E and on fixture L. -/
def buildEth (r : Resp) : State :=
  { onEth .build .entry 14 arpFrame with
    llSrc := .mac48 0x525400123456#48, latched := { Records.empty with resp := some r, hstage := .arp } }

/-- The same on fixture L. -/
def buildLow (r : Resp) (a : LlAddr) : State :=
  { lowStage lpFrame with
    stage := .build, llSrc := a, latched := { Records.empty with resp := some r, hstage := .icmp6 } }

theorem witness_ResponseFrame_eth :
    let s := buildEth (.arp 0xC0A8010A#32 (zeros 28))
    s.cfg.link = .eth ∧ s.latched.resp = some (.arp 0xC0A8010A#32 (zeros 28)) ∧
    (match cacheLookup 0xC0A8010A#32 s.arp with | some a => LlAddr.mac48 a | none => s.llSrc) = .mac48 0x525400123456#48 ∧
    (match cacheLookup (buildEth (.ip4 [])).latched.ip4.src (buildEth (.ip4 [])).arp with
      | some a => LlAddr.mac48 a | none => (buildEth (.ip4 [])).llSrc) = .mac48 0x525400123456#48 ∧
    (cacheLookup peer6 (buildEth (.ip6 ping6Rec [])).nbr).getD (buildEth (.ip6 ping6Rec [])).llSrc = .mac48 0x525400123456#48 := by
  decide

theorem witness_ResponseFrame_lowpan :
    let s := buildLow (.ip6 ping6Rec (zeros 16)) (.ext 5#64)
    let t := buildLow (.ip6 ping6Rec (zeros 16)) (.short 5#16)
    s.cfg.link = .lowpan ∧ s.latched.resp = some (.ip6 ping6Rec (zeros 16)) ∧
    (cacheLookup ping6Rec.dst s.nbr).getD s.llSrc = .ext 5#64 ∧
    (cacheLookup ping6Rec.dst t.nbr).getD t.llSrc = .short 5#16 ∧ Resp.fits (.ip4 []) s.cfg.link = false := by decide

/-- Every form of R327 occurs: `SAM` and `DAM` for an address, with the peer's link-layer address; then every `P` of
R328 at the bounds of its ranges. -/
theorem witness_ResponseFrame_compress :
    let ll := LlAddr.ext 0x1112131415161718#64
    let p := linkLocalPrefix
    let as := [zeros 16, p ++ iid ll, p ++ shortIidPrefix ++ bs [1, 2], p ++ bs [0, 0, 0, 0xFF, 0xFE, 1, 1, 2],
      bs [0x20] ++ zeros 15, bs [0xFF, 2] ++ zeros 13 ++ bs [9], bs [0xFF, 2] ++ zeros 12 ++ bs [1, 9],
      bs [0xFF, 5] ++ zeros 10 ++ bs [1, 1, 9, 9], bs [0xFF, 5] ++ zeros 8 ++ bs [1, 1, 1, 1, 9, 9]]
    as.map List.length = List.replicate 9 16 ∧
    as.map (fun a => ((compressSrc a ll).1, (compressSrc a ll).2.1)) = [(1#1, 0#2), (0#1, 3#2), (0#1, 2#2), (0#1, 1#2),
      (0#1, 0#2), (0#1, 0#2), (0#1, 0#2), (0#1, 0#2), (0#1, 0#2)] ∧
    as.map (fun a => ((compressDst a ll).1, (compressDst a ll).2.1)) = [(0#1, 0#2), (0#1, 3#2), (0#1, 2#2), (0#1, 1#2),
      (0#1, 0#2), (1#1, 3#2), (1#1, 2#2), (1#1, 1#2), (1#1, 0#2)] ∧
    ([(0xF0B0#16, 0xF0BF#16), (0xF0BF#16, 0xF0C0#16), (0xF0FF#16, 0xF100#16), (0xF100#16, 0xEFFF#16)].map fun q =>
      (compressPorts q.1 q.2).1) = [3#2, 1#2, 2#2, 0#2] ∧ (bs [0, 0]).length = 2 := by decide +kernel

/-- The longest frame, and one byte more. -/
theorem witness_BuildStoresTheResponse : State.reset.par.bufCap ≤ 65535 ∧
    ((buildEth (.arp 1#32 (zeros 1500))).frame.map List.length) = some 1514 ∧
    ((buildEth (.arp 1#32 (zeros 1501))).frame.map List.length) = some 1515 := by decide +kernel

/-! ### Caches and checksums -/

theorem witness_CacheInsertFollowsRecency : 1 ≤ 2 ∧ CacheOk 2 [(7, 'a'), (8, 'b')] ∧ CacheOk 2 [(7, 'a')] ∧
    8 ∈ [(7, 'a'), (8, 'b')].map Prod.fst ∧ 9 ∉ [(7, 'a')].map Prod.fst ∧ [(7, 'a')].length < 2 ∧
    9 ∉ [(7, 'a'), (8, 'b')].map Prod.fst ∧ [(7, 'a'), (8, 'b')].length = 2 := by
  refine ⟨by decide, ⟨by decide, by decide⟩, ⟨by decide, by decide⟩, ?_⟩
  decide

theorem witness_CacheLookupAnswersTheEntries : 1 ≤ 2 ∧ CacheOk 2 [(7, 'a'), (8, 'b')] ∧ 7 ≠ 9 ∧
    cacheLookup 7 (cacheInsert 2 9 'c' [(7, 'a'), (8, 'b')]) = some 'a' := by
  refine ⟨by decide, ⟨by decide, by decide⟩, ?_⟩
  decide

theorem witness_OnesSumLaws : [(1#8, 2#8), (3#8, 4#8)].Perm [(3#8, 4#8), (1#8, 2#8)] ∧ (bs [1, 2]).length % 2 = 0 ∧
    (∀ b ∈ zeros 3, b = 0#8) := by decide

theorem witness_EchoRepliesValidateAndEcho : 8 ≤ (zeros 8).length := by decide

/-! ### The machine -/

/-- The first step of T-ARP-1's run. -/
def runState : State := onEth .eth .entry 0 arpFrame

theorem inv_runState : Inv runState := by
  constructor
  case scratchIp6 | scratchUdp => intro h; exact absurd h (by decide)
  case arp | nbr => exact ⟨by decide, by decide⟩
  all_goals decide +kernel

/-- The ARP stage of T-ARP-1. -/
def arpState : State := arpStage 46 0 0

theorem inv_arpState : Inv arpState := by
  constructor
  case scratchIp6 | scratchUdp => intro h; exact absurd h (by decide)
  case arp | nbr => exact ⟨by decide, by decide⟩
  all_goals decide +kernel

/-- The BUILD stage with an ARP reply. -/
def buildState : State := buildEth (.arp 0xC0A8010A#32 (zeros 28))

theorem inv_buildState : Inv buildState := by
  constructor
  case scratchIp6 | scratchUdp => intro h; exact absurd h (by decide)
  case arp | nbr => exact ⟨by decide, by decide⟩
  case resp => exact fun _ => ⟨_, rfl, rfl⟩
  all_goals decide +kernel

/-- The block in `IDLE` after a PUT, a response taken. -/
def idleState : State := { State.reset with led := true, outcome := .sent, cstage := .coap }

theorem inv_idleState : Inv idleState := by
  constructor
  case scratchIp6 | scratchUdp => intro h; exact absurd h (by decide)
  case arp | nbr => exact ⟨by decide, by decide⟩
  all_goals decide +kernel

/-- The LOWPAN stage of T-LP-1. -/
def lowState : State := lowStage lpFrame

theorem inv_lowState : Inv lowState := by
  constructor
  case scratchIp6 => intro _ h; exact absurd h (by decide)
  case scratchUdp => intro _ h; exact absurd h (by decide)
  case arp | nbr => exact ⟨by decide, by decide⟩
  all_goals decide +kernel

theorem witness_LinkFaultHaltsBetweenRuns_run : Inv { runState with host := [.lines true none false] } ∧
    stageRuns runState.stage = true := by
  refine ⟨?_, by decide⟩
  constructor
  case scratchIp6 | scratchUdp => intro h; exact absurd h (by decide)
  case arp | nbr => exact ⟨by decide, by decide⟩
  all_goals decide +kernel

theorem witness_DecompressionInvertsCompression :
    let r : Ip6Rec := ⟨0#8, 0#20, 12#16, 58#8, 64#8, 0xFE800000000000001312131415161718#128, lowStraps.ipv6⟩
    Inv lowState ∧ lowState.cfg.link = .lowpan ∧ lowState.stage = .lowpan ∧ lowState.phase = .entry ∧ lowState.host = [] ∧
    r.plen.toNat = (lpFrame.drop 24).length ∧ lowState.view = iphcCompress r (lpFrame.drop 24) lowState.llSrc lowState.llDst :=
  ⟨inv_lowState, by decide +kernel⟩

theorem witness_StepKeepsTheMachineInvariant : Inv runState ∧ got (·.phase) (step runState) = some .dispatch :=
  ⟨inv_runState, by decide +kernel⟩

theorem witness_StepNeverGetsStuck : Inv idleState ∧ idleState.inputOk = true := ⟨inv_idleState, rfl⟩

theorem witness_EveryFrameIsSentOrDropped : Inv idleState ∧ idleState.stage = .idle ∧
    (List.replicate 1514 0#8).length ≤ idleState.par.bufCap := ⟨inv_idleState, rfl, by rw [List.length_replicate]; decide⟩

theorem witness_EveryRunEndsWithinTwelveOperations : Inv runState ∧ stageRuns runState.stage = true ∧
    runState.resetNext = false := ⟨inv_runState, rfl, rfl⟩

theorem witness_OnlyTabulatedStageTransitions : Inv runState ∧ runState.resetNext = false ∧
    got (·.stage) (step runState) = some .eth := ⟨inv_runState, rfl, by decide +kernel⟩

/-- A drop at the end of the ARP stage's validation, and a response stored. -/
theorem witness_DropsLieInsideTheMatrix : Inv buildState ∧ stageRuns buildState.stage = true ∧ buildState.resetNext = false ∧
    got (·.stage) (step buildState) = some .txPending ∧
    got (·.stage) (step { runState with vlen := 13#16 }) = some .idle := ⟨inv_buildState, rfl, rfl, by decide +kernel⟩

theorem witness_StatusAndFaultFlagsAreStable : buildState.resetNext = false ∧
    got (·.outcome) (step buildState) = some .sent ∧
    got (·.fault) (step { idleState with host := [.lines true none false] }) = some 1#2 := by decide +kernel

/-- Each register changes under the operation that may write it. -/
theorem witness_RegistersHaveTheirOnlyWriters :
    got (fun t => decide (t.led ≠ false)) (exec .coapPutLed (coapStage [] |>.latch fun l =>
      { l with coap := { l.coap with payload := ledBody true } })) = some true ∧
    got (fun t => decide (t.dsn ≠ 0#8 ∧ t.txlen ≠ 0#16)) (exec .build (buildLow (.ip6 ping6Rec (zeros 16)) (.ext 5#64))) = some true ∧
    got (fun t => decide (t.arp ≠ [])) (exec .arpReply arpState) = some true ∧
    got (fun t => decide ((t.vbase, t.vlen) ≠ (0#16, 60#16))) (exec .ethArp { runState with phase := .dispatch })
      = some true ∧
    got (fun t => decide (t.nbr ≠ [])) (exec .ip6Parse (ip6Stage 56 0 0x60)) = some true ∧
    got (fun t => decide (t.rxlen ≠ 0#16)) (exec (.rxAccept 60#16) State.reset) = some true ∧
    got (fun t => decide (t.scratch ≠ [])) (exec (.lowpanIphc 3#2 0#1 2#2) lowState) = some true ∧
    got (fun t => decide ((t.llSrc, t.llDst) ≠ (resetLl .eth, resetLl .eth))) (exec .ethParse runState) = some true ∧
    got (fun t => decide ((t.panSrc, t.panDst) ≠ (0#16, 0#16))) (exec .mac154Data (macStage 0xCC41#16 21)) = some true := by
  decide +kernel

theorem witness_NoByteIsWrittenBeforeTheEnd :
    got (fun t => stageRuns t.stage) (exec .ip6Parse (ip6Stage 56 0 0x60)) = some true := by decide +kernel

theorem witness_NarrowingOnlyShrinksTheView : Inv runState ∧ stageRuns runState.stage = true ∧ runState.resetNext = false ∧
    got (fun t => stageRuns t.stage) (step runState) = some true := ⟨inv_runState, rfl, rfl, by decide +kernel⟩

/-- A header consumed: Ethernet's by its hand-over, and IPv6's. -/
theorem witness_Narrowing_strict :
    got (fun t => (t.stage, t.vlen)) (exec .ethArp { runState with phase := .dispatch }) = some (.arp, 46#16) ∧
    runState.vlen = 60#16 ∧
    got (fun t => (t.stage, t.vlen)) (exec .ip6Parse (ip6Stage 56 0 0x60)) = some (.ipv6, 16#16) := by decide +kernel

/-- Two memories that differ at and above `RXLEN` only. -/
theorem witness_BytesBeyondTheFrameAreNotRead : Inv runState ∧ stageRuns runState.stage = true ∧ runState.resetNext = false ∧
    (∀ a, a < runState.rxlen.toNat →
      ({ runState with mem := runState.mem ++ [(60, 0xAA#8)] } : State).readBuf a = runState.readBuf a) ∧
    ({ runState with mem := runState.mem ++ [(60, 0xAA#8)] } : State) ≠ runState :=
  ⟨inv_runState, rfl, rfl, by decide +kernel, by decide +kernel⟩

theorem witness_ArpRequestIsAnsweredToItsSender : Inv arpState ∧ arpState.stage = .arp ∧ arpState.phase = .entry ∧
    arpState.host = [] ∧ arpState.view = [0x00#8, 0x01#8, 0x08#8, 0x00#8, 0x06#8, 0x04#8, 0x00#8, 0x01#8]
      ++ toBE 6 0x525400123456#48 ++ toBE 4 0xC0A8010A#32 ++ toBE 6 0#48 ++ toBE 4 arpState.cfg.ipv4 ++ zeros 18 :=
  ⟨inv_arpState, rfl, rfl, rfl, by decide +kernel⟩

end Sys2Proof.Tests
end

