-- ==== Sys2Proof/Proofs/State/Cache.lean ====
section
/-! SUPPORT. The caches (R40 to R42): what `cacheInsert` leaves, case by case, and which entries `cacheLookup` finds. -/

namespace Sys2Proof.Machine

variable {K V : Type} [DecidableEq K]

/-- With distinct keys, removing the entry of `k` is keeping the others. -/
theorem cacheRemove_eq_filter {k : K} {es : List (K × V)} (h : (es.map Prod.fst).Nodup) :
    cacheRemove k es = es.filter fun e => e.1 ≠ k := by
  induction es with
  | nil => rfl
  | cons e es ih =>
    rw [List.map_cons, List.nodup_cons] at h
    obtain ⟨hne, hes⟩ := h
    by_cases hk : e.1 = k
    · have hall : es.filter (fun e => e.1 ≠ k) = es := List.filter_eq_self.mpr fun x hx => by
        have : x.1 ≠ k := fun hxk => hne (hk ▸ hxk ▸ List.mem_map_of_mem hx)
        simpa using this
      simp only [cacheRemove, if_pos hk]
      rw [List.filter_cons_of_neg (by simpa using hk), hall]
    · simp only [cacheRemove, if_neg hk]
      rw [List.filter_cons_of_pos (by simpa using hk), ih hes]

/-- A key that is present is updated in place and moves to the front (R41). -/
theorem cacheInsert_of_mem {cap : Nat} {k : K} (v : V) {es : List (K × V)} (h : CacheOk cap es)
    (hk : k ∈ es.map Prod.fst) : cacheInsert cap k v es = (k, v) :: es.filter fun e => e.1 ≠ k := by
  unfold cacheInsert
  rw [if_pos ((cacheLookup_isSome_iff k es).mpr hk), cacheRemove_eq_filter h.2]

/-- A new key is put in front while there is room (R41). -/
theorem cacheInsert_of_room {cap : Nat} {k : K} (v : V) {es : List (K × V)} (hk : k ∉ es.map Prod.fst)
    (hroom : es.length < cap) : cacheInsert cap k v es = (k, v) :: es := by
  unfold cacheInsert
  rw [if_neg (mt (cacheLookup_isSome_iff k es).mp hk), if_pos hroom]

/-- A new key takes the place of the last entry when the cache is full (R41). -/
theorem cacheInsert_of_full {cap : Nat} {k : K} (v : V) {es : List (K × V)} (hk : k ∉ es.map Prod.fst)
    (hfull : es.length = cap) : cacheInsert cap k v es = (k, v) :: es.dropLast := by
  unfold cacheInsert
  rw [if_neg (mt (cacheLookup_isSome_iff k es).mp hk), if_neg (by omega), List.dropLast_eq_take, hfull]

/-- A lookup answers exactly the entries (R42). -/
theorem cacheLookup_eq_some_iff {k : K} {v : V} {es : List (K × V)} (h : (es.map Prod.fst).Nodup) :
    cacheLookup k es = some v ↔ (k, v) ∈ es := by
  induction es with
  | nil => simp [cacheLookup]
  | cons e es ih =>
    rw [List.map_cons, List.nodup_cons] at h
    obtain ⟨hne, hes⟩ := h
    obtain ⟨k', v'⟩ := e
    rw [cacheLookup, List.mem_cons]
    by_cases hk : k' = k
    · subst hk
      have hrest : (k', v) ∉ es := fun hm => hne (List.mem_map.mpr ⟨_, hm, rfl⟩)
      simp [hrest, eq_comm]
    · have hhead : (k, v) ≠ (k', v') := fun heq => hk (congrArg Prod.fst heq).symm
      rw [if_neg hk, ih hes, or_iff_right hhead]

/-- For another key an insert makes nothing appear (R41, R42). -/
theorem cacheLookup_of_cacheInsert_ne {cap : Nat} (hc : 1 ≤ cap) {k k' : K} {v v' : V} {es : List (K × V)}
    (h : CacheOk cap es) (hne : k' ≠ k) (hl : cacheLookup k' (cacheInsert cap k v es) = some v') :
    cacheLookup k' es = some v' := by
  have hok : CacheOk cap (cacheInsert cap k v es) := cacheInsert_ok hc h
  rcases mem_cacheInsert ((cacheLookup_eq_some_iff hok.2).mp hl) with heq | hmem
  · exact absurd (congrArg Prod.fst heq) hne
  · exact (cacheLookup_eq_some_iff h.2).mpr hmem

/-- Settles O44, a case for each branch of R41. -/
theorem cacheInsertFollowsRecency : Obligations.CacheInsertFollowsRecency := by
  intro K V _ cap k v es hc h
  exact ⟨cacheInsert_of_mem v h, cacheInsert_of_room v, cacheInsert_of_full v, cacheInsert_ok hc h⟩

/-- Settles O45. -/
theorem cacheLookupAnswersTheEntries : Obligations.CacheLookupAnswersTheEntries := by
  intro K V _ cap k v es hc h
  exact ⟨cacheLookup_eq_some_iff h.2, cacheLookup_cacheInsert_self cap k v es,
    fun _ _ => cacheLookup_of_cacheInsert_ne hc h⟩

end Sys2Proof.Machine
end

