-- ==== Sys2Proof/Proofs/State/Answers.lean ====
section
/-! SUPPORT. What an operation may answer, as a predicate over its next states, and one rule per micro-operation. -/

namespace Sys2Proof.Machine

/-- Every next state that `o` can answer meets `P`; a fault or a refusal answers none. -/
def Answers (o : Out) (P : State → Prop) : Prop := ∀ t, o = .next t → P t

variable {s : State} {P : State → Prop}

@[simp] theorem answers_next {t : State} : Answers (.next t) P ↔ P t :=
  ⟨fun h => h t rfl, fun h _ ht => by cases ht; exact h⟩

@[simp] theorem answers_fault (r : Fault) : Answers (.fault r) P := fun _ h => nomatch h

theorem answers_ite {c : Prop} [Decidable c] {a b : Out} (ha : c → Answers a P) (hb : ¬ c → Answers b P) :
    Answers (if c then a else b) P := by
  split
  · exact ha ‹_›
  · exact hb ‹_›

theorem answers_get {off n : Nat} {k : List Byte → Out} (habort : P s.raiseAbort) (hk : ∀ bs, Answers (k bs) P) :
    Answers (s.get off n k) P := by
  rcases get_cases s off n k with ⟨-, -, h⟩ | ⟨-, -, h⟩ | ⟨-, h⟩ <;> rw [h]
  · exact hk _
  · exact answers_fault _
  · exact answers_next.mpr habort

/-- A `GET` whose bound is known does not abort. -/
theorem answers_get_of_le {off n : Nat} {k : List Byte → Out} (hv : s.viewOk) (h : off + n ≤ s.vlen.toNat)
    (hk : ∀ bs, Answers (k bs) P) : Answers (s.get off n k) P := by
  rw [get_ok hv h]
  exact hk _

theorem answers_set {off : Nat} {v : List Byte} {k : State → Out} (habort : P s.raiseAbort)
    (hk : Answers (k { s with mem := memWriteBytes (s.vbase.toNat + off) v s.mem }) P) :
    Answers (s.set off v k) P := by
  rcases set_cases s off v k with ⟨-, -, h⟩ | ⟨-, -, h⟩ | ⟨-, h⟩ <;> rw [h]
  · exact hk
  · exact answers_fault _
  · exact answers_next.mpr habort

theorem answers_narrow {off len : Nat} {k : State → Out} (hdrop : P (s.raiseDrop s.stage .truncated))
    (hk : off + len ≤ s.vlen.toNat → Answers (k (s.narrowed off len)) P) : Answers (s.narrow off len k) P := by
  rcases narrow_cases s off len k with ⟨hle, h⟩ | ⟨-, h⟩ <;> rw [h]
  · exact hk hle
  · exact answers_next.mpr hdrop

theorem answers_getView {k : List Byte → Out} (hk : Answers (k s.view) P) : Answers (s.getView k) P := by
  rcases getView_cases s k with ⟨-, h⟩ | ⟨-, h⟩ <;> rw [h]
  · exact hk
  · exact answers_fault _

theorem answers_getUpper {k : List Byte → Out} (hk : Answers (k s.upper) P) : Answers (s.getUpper k) P := by
  rcases getUpper_cases s k with ⟨-, h⟩ | ⟨-, h⟩ <;> rw [h]
  · exact hk
  · exact answers_fault _

end Sys2Proof.Machine
end

