-- ==== Sys2Proof/Proofs/State/Writers.lean ====
section
/-! SUPPORT. Which registers an operation may write (R21, R28 to R31, R43 to R45), and how it may end: in a state
of the run, by a drop, by the end of a frame with a response, or by an abort. -/

namespace Sys2Proof.Machine

-- One elaboration thread: the case splits over all operations take much memory when they run side by side.
set_option Elab.async false

/-- The parts of the state that only some operations write. The stage, the phase, the parse records and the log,
which every operation may write, have none. -/
inductive Reg
  | cfg | par | host | status | fault | epochs
  | buf | view | rxlen | txlen | led | dsn | arp | nbr | scratch | linkAddrs | pans
  deriving DecidableEq

/-- The part holds the same in both states. -/
def Reg.same (r : Reg) (s t : State) : Prop :=
  match r with
  | .cfg => t.cfg = s.cfg
  | .par => t.par = s.par
  | .host => t.host = s.host
  | .status => (t.outcome, t.cause, t.cstage) = (s.outcome, s.cause, s.cstage)
  | .fault => t.fault = s.fault
  | .epochs => (t.epoch, t.scratchEpoch) = (s.epoch, s.scratchEpoch)
  | .buf => t.mem = s.mem
  | .view => (t.vbase, t.vlen) = (s.vbase, s.vlen)
  | .rxlen => t.rxlen = s.rxlen
  | .txlen => t.txlen = s.txlen
  | .led => t.led = s.led
  | .dsn => t.dsn = s.dsn
  | .arp => t.arp = s.arp
  | .nbr => t.nbr = s.nbr
  | .scratch => t.scratch = s.scratch
  | .linkAddrs => (t.llSrc, t.llDst) = (s.llSrc, s.llDst)
  | .pans => (t.panSrc, t.panDst) = (s.panSrc, s.panDst)

/-- From `s` to `t` no part was written but those in `w`. -/
def Kept (w : List Reg) (s t : State) : Prop := ∀ r, r ∉ w → r.same s t

/-- A state without what `latch`, `emit`, `goto`, `toDispatch` and `respond` write. -/
def State.frameOf (s : State) : State :=
  { s with stage := .idle, phase := .entry, latched := Records.empty, log := [] }

namespace Kept

variable {w : List Reg} {s u t : State}

theorem of_frameOf (h : t.frameOf = s.frameOf) : Kept w s t := by
  simp only [State.frameOf, State.mk.injEq] at h
  intro r _
  cases r <;> simp [Reg.same, h]

theorem refl : Kept w s s := of_frameOf rfl

theorem trans (h : Kept w s u) (h' : Kept w u t) : Kept w s t := by
  intro r hr
  have h₁ := h r hr
  have h₂ := h' r hr
  cases r <;> exact Eq.trans h₂ h₁

/-- What `frameOf` leaves out may change besides. -/
theorem framed (h : Kept w s u) (hf : t.frameOf = u.frameOf) : Kept w s t := h.trans (.of_frameOf hf)

theorem mono {w' : List Reg} (hw : w ⊆ w') (h : Kept w s t) : Kept w' s t := fun r hr => h r fun hr' => hr (hw hr')

theorem narrowed (off len : Nat) : Kept [.view] s (s.narrowed off len) := by
  intro r hr
  cases r <;> simp_all [Reg.same]

theorem scratchWrite (a : Nat) (v : List Byte) : Kept [.scratch] s (s.scratchWrite a v) := by
  intro r hr
  cases r <;> simp_all [Reg.same]

theorem arpLearn : Kept [.arp] s s.arpLearn := by
  intro r hr
  cases r <;> simp_all [Reg.same]

theorem nbrLearn : Kept [.nbr] s s.nbrLearn := by
  intro r hr
  cases r <;> simp_all [Reg.same]

end Kept

/-- How an operation that writes only `w` ends: within the run or unchanged, or by one of the three exits that
write the status or the fault register. -/
inductive Ends (w : List Reg) (s : State) : State → Prop
  | goesOn {t : State} (h : Kept w s t) : Ends w s t
  | dropped {u : State} (h : Kept w s u) (st : Stage) (c : Cause) : Ends w s (u.raiseDrop st c)
  | sent {u : State} (h : Kept w s u) (st : Stage) : Ends w s (u.finishSent st)
  | aborted {u : State} (h : Kept w s u) : Ends w s u.raiseAbort

section

variable {w : List Reg} {s u : State}

theorem ends_next (h : Kept w s u) : Answers (.next u) (Ends w s) := answers_next.mpr (.goesOn h)

theorem ends_drop (h : Kept w s u) {st : Stage} {c : Cause} : Answers (u.drop st c) (Ends w s) :=
  answers_next.mpr (.dropped h st c)

theorem ends_get (h : Kept w s u) {off n : Nat} {k : List Byte → Out} (hk : ∀ bs, Answers (k bs) (Ends w s)) :
    Answers (u.get off n k) (Ends w s) := answers_get (.aborted h) hk

/-- A `NARROW` writes the view and goes on, or drops. -/
theorem ends_narrow (h : Kept w s u) (hw : .view ∈ w) {off len : Nat} {k : State → Out}
    (hk : ∀ v, Kept w s v → Answers (k v) (Ends w s)) : Answers (u.narrow off len k) (Ends w s) :=
  answers_narrow (.dropped h _ _) fun _ => hk _ (h.trans ((Kept.narrowed off len).mono (by simpa using hw)))

/-! ## The operations -/

/-- What `BUILD` writes: `DSN` on the 802.15.4 link only (R409, R330). -/
def buildWrites : Link → List Reg
  | .eth => [.buf, .view, .txlen]
  | .lowpan => [.buf, .view, .txlen, .dsn]

theorem mem_buildWrites {r : Reg} {l : Link} :
    r ∈ buildWrites l ↔ r ∈ [Reg.buf, .view, .txlen] ∨ r = .dsn ∧ l = .lowpan := by
  cases l <;> simp [buildWrites, or_assoc]

/-- The parts an operation may write besides the stage, the phase, the records and the log (R28 to R31, R43 to R45). -/
def writes (l : Link) : Instr → List Reg
  | .rxAccept _ => [.view, .rxlen, .txlen]
  | .ethParse => [.linkAddrs]
  | .ethArp | .ethIpv4 | .ethIpv6 | .ip4Icmp | .ip4Udp => [.view]
  | .mac154Data => [.view, .linkAddrs, .pans]
  | .lowpanIphc _ _ _ | .nhcUdp _ _ => [.view, .scratch]
  | .arpRequest | .arpReply => [.arp]
  | .ip6Parse => [.view, .nbr]
  | .coapPutLed => [.led]
  | .build => buildWrites l
  | .txTake | .ethOther _ | .mac154Parse | .mac154Other _ | .lowpanParse | .lowpanOther _ | .nhcOther _ | .arpParse
  | .arpOther _ | .ip4Parse | .ip4Other _ | .ip6Icmp6 | .ip6Udp | .ip6Other _ | .icmp4Parse | .icmp4Echo
  | .icmp4Other _ | .icmp6Parse | .icmp6Echo | .icmp6Ns | .icmp6Other _ | .udpParse | .udpCoap | .udpEcho _
  | .coapParse | .coapGetLed | .coapNotFound _ | .coapNotAllowed _ | .coapOther _ => []

theorem ethHandOver_ends (st : Stage) : Answers (ethHandOver st s) (Ends [.view] s) := by
  unfold ethHandOver
  refine ends_narrow ?_ (by simp) fun v h => ends_next ?_
  · exact .of_frameOf rfl
  · exact h.framed rfl

theorem ip4HandOver_ends (h : Kept [.view] s u) (st : Stage) : Answers (ip4HandOver st u) (Ends [.view] s) := by
  unfold ip4HandOver
  refine ends_narrow ?_ (by simp) fun v hv => ends_next ?_
  · exact h.framed rfl
  · exact hv.framed rfl

theorem lowpanHandOff_ends (h : Kept w s u) (hv : .view ∈ w) (hs : .scratch ∈ w) (r : IphcRec) (plen : Nat) :
    Answers (lowpanHandOff r plen u) (Ends w s) :=
  ends_narrow (h.trans ((Kept.scratchWrite _ _).mono (by simpa using hs))) hv
    fun _ h => ends_next (h.framed rfl)

theorem coapRespond_ends (h : Kept w s u) (rcode : Byte) (body : List Byte) :
    Answers (coapRespond rcode body u) (Ends w s) := ends_next (h.framed rfl)

theorem execRxAccept_kept (len : Half) : Answers (execRxAccept len s) (Kept [.view, .rxlen, .txlen] s) := by
  refine answers_ite (fun _ => answers_next.mpr ?_) fun _ => answers_next.mpr .refl
  intro r hr
  cases r <;> simp_all [Reg.same]

theorem execTxTake_kept : Answers (execTxTake s) (Kept [] s) :=
  answers_ite (fun _ => answers_next.mpr (.of_frameOf rfl)) fun _ => answers_next.mpr .refl

theorem execEthParse_ends : Answers (execEthParse s) (Ends [.linkAddrs] s) := by
  refine answers_ite (fun _ => ends_drop .refl) fun _ => ?_
  refine ends_get .refl fun dst => ends_get .refl fun src => ends_get .refl fun ethertype => ends_next ?_
  intro r hr
  cases r <;> simp_all [Reg.same]

theorem execMac154Parse_ends : Answers (execMac154Parse s) (Ends [] s) :=
  answers_ite (fun _ => ends_drop .refl) fun _ =>
    ends_get .refl fun _ => ends_get .refl fun _ => ends_next (.of_frameOf rfl)

theorem getSrcPan_ends (f dstPan : Half) {k : Half → Out} (hk : ∀ p, Answers (k p) (Ends w s)) :
    Answers (s.getSrcPan f dstPan k) (Ends w s) :=
  answers_ite (fun _ => ends_get .refl fun _ => hk _) fun _ => hk _

theorem execMac154Data_ends : Answers (execMac154Data s) (Ends [.view, .linkAddrs, .pans] s) := by
  refine answers_ite (fun _ => ends_drop .refl) fun _ => ?_
  refine answers_ite (fun _ => ends_drop .refl) fun _ => ?_
  refine answers_ite (fun _ => ends_drop .refl) fun _ => ?_
  refine answers_ite (fun _ => ends_drop .refl) fun _ => ?_
  refine answers_ite (fun _ => ends_drop .refl) fun _ => ?_
  refine ends_get .refl fun dstPan => ends_get .refl fun dst => getSrcPan_ends _ _ fun srcPan => ?_
  refine ends_get .refl fun src => ends_narrow ?_ (by decide) fun v h => ends_next (h.framed rfl)
  intro r hr
  cases r <;> simp_all [Reg.same]

theorem execLowpanParse_ends : Answers (execLowpanParse s) (Ends [] s) :=
  answers_ite (fun _ => ends_drop .refl) fun _ => ends_get .refl fun _ => ends_next (.of_frameOf rfl)

theorem execLowpanIphc_ends (tf : BitVec 2) (nh : BitVec 1) (hlim : BitVec 2) :
    Answers (execLowpanIphc tf nh hlim s) (Ends [.view, .scratch] s) := by
  have hlatch (f : Records → Records) : Kept [.view, .scratch] s (s.latch f) := .of_frameOf rfl
  refine answers_getView ?_
  split
  · exact ends_drop (hlatch _)
  · refine answers_ite (fun _ => ?_) fun _ => ?_
    · split
      · exact ends_drop (hlatch _)
      · exact ends_next (.of_frameOf rfl)
    · refine lowpanHandOff_ends ?_ (by simp) (by simp) _ _
      exact .of_frameOf rfl

theorem execNhcUdp_ends (c : BitVec 1) (p : BitVec 2) : Answers (execNhcUdp c p s) (Ends [.view, .scratch] s) := by
  refine answers_getView ?_
  split
  · exact ends_drop .refl
  · refine lowpanHandOff_ends ?_ (by simp) (by simp) _ _
    intro r hr
    cases r <;> simp_all [Reg.same]

theorem execNhcOther_ends (c : Byte) : Answers (execNhcOther c s) (Ends [] s) := by
  refine answers_getView ?_
  split <;> exact ends_drop .refl

theorem execArpParse_ends : Answers (execArpParse s) (Ends [] s) := by
  refine answers_ite (fun _ => ends_drop .refl) fun _ => ?_
  iterate 9 refine ends_get .refl fun _ => ?_
  dsimp only
  split
  · exact ends_drop .refl
  · exact ends_next (.of_frameOf rfl)

theorem execArpRequest_ends : Answers (execArpRequest s) (Ends [.arp] s) :=
  answers_ite (fun _ => ends_drop .arpLearn) fun _ => ends_next (Kept.arpLearn.framed rfl)

theorem execIp4Parse_ends : Answers (execIp4Parse s) (Ends [] s) := by
  refine answers_ite (fun _ => ends_drop .refl) fun _ => ends_get .refl fun b0 => ?_
  refine answers_ite (fun _ => ends_drop .refl) fun _ => ?_
  refine answers_ite (fun _ => ends_drop .refl) fun _ => ?_
  refine answers_ite (fun _ => ends_drop .refl) fun _ => ends_get .refl fun total => ?_
  refine answers_ite (fun _ => ends_drop .refl) fun _ => ?_
  refine answers_ite (fun _ => ends_drop .refl) fun _ => ends_get .refl fun header => ?_
  refine answers_ite (fun _ => ends_drop .refl) fun _ => ?_
  refine ends_get .refl fun protocol => ends_get .refl fun src => ends_get .refl fun dst => ?_
  exact answers_ite (fun _ => ends_drop .refl) fun _ => ends_next (.of_frameOf rfl)

theorem execIp6Parse_ends : Answers (execIp6Parse s) (Ends [.view, .nbr] s) := by
  have hlearn {u : State} (h : Kept [.view, .nbr] s u) (f : Records → Records) :
      Kept [.view, .nbr] s (u.latch f).nbrLearn.toDispatch := by
    have hlatch : Kept [.view, .nbr] s (u.latch f) := h.framed rfl
    exact (hlatch.trans (Kept.nbrLearn.mono (by simp))).framed rfl
  unfold execIp6Parse
  split
  · refine answers_ite (fun _ => ends_drop .refl) fun _ => ends_get .refl fun h => ?_
    refine answers_ite (fun _ => ends_drop .refl) fun _ => ?_
    refine answers_ite (fun _ => ends_drop .refl) fun _ => ?_
    exact ends_narrow .refl (by decide) fun v hv => ends_next (hlearn hv _)
  · exact ends_next (hlearn .refl _)

theorem execIp6Udp_ends : Answers (execIp6Udp s) (Ends [] s) :=
  answers_ite (fun _ => ends_drop .refl) fun _ => ends_next (.of_frameOf rfl)

theorem execIcmp4Parse_ends : Answers (execIcmp4Parse s) (Ends [] s) :=
  answers_getView (answers_ite (fun _ => ends_drop .refl) fun _ => ends_next (.of_frameOf rfl))

theorem execIcmp4Echo_ends : Answers (execIcmp4Echo s) (Ends [] s) :=
  answers_getView <| answers_ite (fun _ => ends_drop .refl) fun _ =>
    answers_ite (fun _ => ends_drop .refl) fun _ => ends_next (.of_frameOf rfl)

theorem execIcmp6Parse_ends : Answers (execIcmp6Parse s) (Ends [] s) :=
  answers_getUpper (answers_ite (fun _ => ends_drop .refl) fun _ => ends_next (.of_frameOf rfl))

theorem execIcmp6Echo_ends : Answers (execIcmp6Echo s) (Ends [] s) :=
  answers_getUpper <| answers_ite (fun _ => ends_drop .refl) fun _ => answers_ite (fun _ => ends_drop .refl) fun _ =>
    answers_ite (fun _ => ends_drop .refl) fun _ => ends_next (.of_frameOf rfl)

theorem execIcmp6Ns_ends : Answers (execIcmp6Ns s) (Ends [] s) :=
  answers_getUpper <| answers_ite (fun _ => ends_drop .refl) fun _ => answers_ite (fun _ => ends_drop .refl) fun _ =>
    answers_ite (fun _ => ends_drop .refl) fun _ => answers_ite (fun _ => ends_drop .refl) fun _ =>
      ends_next (.of_frameOf rfl)

theorem execUdpParse_ends : Answers (execUdpParse s) (Ends [] s) :=
  answers_getUpper <| answers_ite (fun _ => ends_drop .refl) fun _ => answers_ite (fun _ => ends_drop .refl) fun _ =>
    answers_ite (fun _ => ends_drop .refl) fun _ => answers_ite (fun _ => ends_drop .refl) fun _ =>
      ends_next (.of_frameOf rfl)

theorem execCoapParse_ends : Answers (execCoapParse s) (Ends [] s) := by
  unfold execCoapParse
  dsimp only
  split
  · exact ends_drop .refl
  · refine answers_ite (fun _ => ?_) fun _ => ends_next (.of_frameOf rfl)
    split
    · exact ends_drop .refl
    · exact ends_next (.of_frameOf rfl)

theorem execCoapPutLed_ends : Answers (execCoapPutLed s) (Ends [.led] s) := by
  unfold execCoapPutLed
  split
  · refine coapRespond_ends ?_ _ _
    intro r hr
    cases r <;> simp_all [Reg.same]
  · exact coapRespond_ends .refl _ _

/-- `DSN` is written on the 802.15.4 link only (R409, R330). -/
theorem execBuild_ends :
    Answers (execBuild s) (Ends (buildWrites s.cfg.link) s) := by
  unfold execBuild
  split
  · exact answers_fault _
  · refine answers_ite (fun _ => ends_drop .refl) fun _ => answers_set (.aborted ?_) (answers_next.mpr (.sent ?_ _))
    · intro r hr
      cases hl : s.cfg.link <;> cases r <;> simp_all [Reg.same, buildWrites]
    · intro r hr
      unfold State.advanceDsn
      cases hl : s.cfg.link <;> cases r <;> simp_all [Reg.same, buildWrites]

/-- How each operation ends, and the registers it may write before. -/
theorem exec_ends (i : Instr) (s : State) : Answers (exec i s) (Ends (writes s.cfg.link i) s) := by
  cases i with
  | rxAccept len => exact fun t ht => .goesOn (execRxAccept_kept len t ht)
  | txTake => exact fun t ht => .goesOn (execTxTake_kept t ht)
  | ethParse => exact execEthParse_ends
  | ethArp => exact ethHandOver_ends .arp
  | ethIpv4 => exact ethHandOver_ends .ipv4
  | ethIpv6 => exact ethHandOver_ends .ipv6
  | mac154Parse => exact execMac154Parse_ends
  | mac154Data => exact execMac154Data_ends
  | lowpanParse => exact execLowpanParse_ends
  | lowpanIphc tf nh hlim => exact execLowpanIphc_ends tf nh hlim
  | nhcUdp c p => exact execNhcUdp_ends c p
  | nhcOther c => exact execNhcOther_ends c
  | arpParse => exact execArpParse_ends
  | arpRequest => exact execArpRequest_ends
  | arpReply => exact ends_drop .arpLearn
  | ip4Parse => exact execIp4Parse_ends
  | ip4Icmp => exact ip4HandOver_ends .refl .icmp4
  | ip4Udp =>
    refine ip4HandOver_ends ?_ .udp
    exact .of_frameOf rfl
  | ip6Parse => exact execIp6Parse_ends
  | ip6Icmp6 | udpCoap | udpEcho => exact ends_next (.of_frameOf rfl)
  | ip6Udp => exact execIp6Udp_ends
  | icmp4Parse => exact execIcmp4Parse_ends
  | icmp4Echo => exact execIcmp4Echo_ends
  | icmp6Parse => exact execIcmp6Parse_ends
  | icmp6Echo => exact execIcmp6Echo_ends
  | icmp6Ns => exact execIcmp6Ns_ends
  | udpParse => exact execUdpParse_ends
  | coapParse => exact execCoapParse_ends
  | coapGetLed | coapNotFound | coapNotAllowed => exact coapRespond_ends .refl _ _
  | coapPutLed => exact execCoapPutLed_ends
  | build => exact execBuild_ends
  | ethOther | mac154Other | lowpanOther | arpOther | ip4Other | ip6Other | icmp4Other | icmp6Other | coapOther =>
    exact ends_drop .refl

end

/-! ## What the ends write -/

namespace Kept

variable {s : State}

theorem raiseDrop (st : Stage) (c : Cause) : Kept [.status, .epochs, .buf, .txlen] s (s.raiseDrop st c) := by
  intro r hr
  cases r <;> simp_all [Reg.same]

theorem finishSent (st : Stage) : Kept [.status, .epochs, .buf] s (s.finishSent st) := by
  intro r hr
  cases r <;> simp_all [Reg.same]

theorem raiseAbort : Kept [.fault, .epochs, .buf, .view, .scratch, .linkAddrs, .pans] s s.raiseAbort := by
  intro r hr
  cases r <;> simp_all [Reg.same]

end Kept

namespace Ends

variable {w : List Reg} {s t : State}

/-- A part that differs was written by the operation itself or by the exit it ended with. -/
theorem mem_of_changed (h : Ends w s t) {r : Reg} (hne : ¬ r.same s t) :
    r ∈ w ∨ t.stage = .idle ∧ r ∈ [Reg.status, .epochs, .buf, .txlen] ∨
      t.stage = .txPending ∧ r ∈ [Reg.status, .epochs, .buf] ∨
      t.stage = .haltAbort ∧ r ∈ [Reg.fault, .epochs, .buf, .view, .scratch, .linkAddrs, .pans] := by
  by_cases hw : r ∈ w
  · exact .inl hw
  · have exit {u : State} {w' : List Reg} (hu : Kept w s u) (ht : Kept w' u t) : r ∈ w' := by
      by_contra hr
      have hsub {v : Reg} (hv : v ∉ w ++ w') : v ∉ w ∧ v ∉ w' := by simpa using hv
      have hut : Kept (w ++ w') s t := (hu.mono (by simp)).trans (ht.mono (by simp))
      exact hne (hut r (by simp [hw, hr]))
    cases h with
    | goesOn h => exact absurd (h r hw) hne
    | dropped h st c => exact .inr (.inl ⟨rfl, exit h (.raiseDrop st c)⟩)
    | sent h st => exact .inr (.inr (.inl ⟨rfl, exit h (.finishSent st)⟩))
    | aborted h => exact .inr (.inr (.inr ⟨rfl, exit h .raiseAbort⟩))

end Ends

/-! ## Which operations write a register -/

section

variable {l : Link} {i : Instr}

theorem not_mem_writes {r : Reg} (h : r ∈ [Reg.cfg, .par, .host, .status, .fault, .epochs]) : r ∉ writes l i := by
  have hall : (writes l i).all fun r => r ∉ [Reg.cfg, .par, .host, .status, .fault, .epochs] := by
    cases i with
    | build => cases l <;> rfl
    | _ => rfl
  intro hr
  exact of_decide_eq_true (List.all_eq_true.mp hall r hr) h

theorem view_mem_writes (h : .view ∈ writes l i) :
    (∃ len, i = .rxAccept len) ∨ i ∈ [Instr.ethArp, .ethIpv4, .ethIpv6, .mac154Data, .ip4Icmp, .ip4Udp, .ip6Parse] ∨
      (∃ tf nh hl, i = .lowpanIphc tf nh hl) ∨ (∃ c p, i = .nhcUdp c p) ∨ i = .build := by
  cases i <;> simp_all [writes]

theorem led_mem_writes (h : .led ∈ writes l i) : i = .coapPutLed := by
  cases i <;> simp_all [writes, mem_buildWrites]

theorem dsn_mem_writes (h : .dsn ∈ writes l i) : i = .build ∧ l = .lowpan := by
  cases i <;> simp_all [writes, mem_buildWrites]

theorem arp_mem_writes (h : .arp ∈ writes l i) : i = .arpRequest ∨ i = .arpReply := by
  cases i <;> simp_all [writes, mem_buildWrites]

theorem nbr_mem_writes (h : .nbr ∈ writes l i) : i = .ip6Parse := by
  cases i <;> simp_all [writes, mem_buildWrites]

theorem rxlen_mem_writes (h : .rxlen ∈ writes l i) : ∃ len, i = .rxAccept len := by
  cases i <;> simp_all [writes, mem_buildWrites]

theorem txlen_mem_writes (h : .txlen ∈ writes l i) : (∃ len, i = .rxAccept len) ∨ i = .build := by
  cases i <;> simp_all [writes]

theorem scratch_mem_writes (h : .scratch ∈ writes l i) :
    (∃ tf nh hl, i = .lowpanIphc tf nh hl) ∨ ∃ c p, i = .nhcUdp c p := by
  cases i <;> simp_all [writes, mem_buildWrites]

theorem linkAddrs_mem_writes (h : .linkAddrs ∈ writes l i) : i = .ethParse ∨ i = .mac154Data := by
  cases i <;> simp_all [writes, mem_buildWrites]

theorem pans_mem_writes (h : .pans ∈ writes l i) : i = .mac154Data := by
  cases i <;> simp_all [writes, mem_buildWrites]

end
end Sys2Proof.Machine
end

