-- ==== Sys2Proof/Proofs/State/OnlyWriters.lean ====
section
/-! SUPPORT. The only writers of each register, read off how operations end. -/

namespace Sys2Proof.Machine

section

variable {i : Instr} {s t : State} {r : Reg}

/-- A register that no exit writes: only the operation itself can have changed it. -/
theorem mem_writes_of_changed (h : exec i s = .next t) (hne : ¬ r.same s t)
    (hr : r ∈ [Reg.cfg, .par, .host, .led, .dsn, .arp, .nbr, .rxlen]) : r ∈ writes s.cfg.link i := by
  rcases (exec_ends i s t h).mem_of_changed hne with hw | ⟨-, hw⟩ | ⟨-, hw⟩ | ⟨-, hw⟩
  · exact hw
  all_goals cases r <;> simp at hr hw

/-- A register that only the abort writes besides. -/
theorem mem_writes_or_aborted_of_changed (h : exec i s = .next t) (hne : ¬ r.same s t)
    (hr : r ∈ [Reg.view, .scratch, .linkAddrs, .pans]) : r ∈ writes s.cfg.link i ∨ t.stage = .haltAbort := by
  rcases (exec_ends i s t h).mem_of_changed hne with hw | ⟨-, hw⟩ | ⟨-, hw⟩ | ⟨hst, -⟩
  · exact .inl hw
  · cases r <;> simp at hr hw
  · cases r <;> simp at hr hw
  · exact .inr hst

theorem txlen_mem_writes_or_idle_of_changed (h : exec i s = .next t) (hne : t.txlen ≠ s.txlen) :
    .txlen ∈ writes s.cfg.link i ∨ t.stage = .idle := by
  rcases (exec_ends i s t h).mem_of_changed (r := .txlen) hne with hw | ⟨hst, -⟩ | ⟨-, hw⟩ | ⟨-, hw⟩
  · exact .inl hw
  · exact .inr hst
  all_goals simp at hw

/-- No operation writes the straps, the capacities or the host's samples, however it ends. -/
theorem exec_keeps_config (h : exec i s = .next t) (hr : r ∈ [Reg.cfg, .par, .host]) : r.same s t := by
  by_contra hne
  have hw : r ∈ writes s.cfg.link i := mem_writes_of_changed h hne (by simp at hr ⊢; tauto)
  exact not_mem_writes (by simp at hr ⊢; tauto) hw

end

/-- Settles O56: a register that differs was written by the operation or by the exit it took. -/
theorem registersHaveTheirOnlyWriters : Obligations.RegistersHaveTheirOnlyWriters := by
  intro i s t h
  refine ⟨exec_keeps_config h (r := .cfg) (by simp), exec_keeps_config h (r := .par) (by simp),
    exec_keeps_config h (r := .host) (by simp), fun hne => ?view, fun hne => ?led, fun hne => ?dsn, fun hne => ?arp,
    fun hne => ?nbr, fun hne => ?rxlen, fun hne => ?txlen, fun hne => ?scratch, fun hne => ?linkAddrs, fun hne => ?pans⟩
  case led => exact led_mem_writes (mem_writes_of_changed h hne (by simp))
  case dsn => exact dsn_mem_writes (mem_writes_of_changed h hne (by simp))
  case arp => exact arp_mem_writes (mem_writes_of_changed h hne (by simp))
  case nbr => exact nbr_mem_writes (mem_writes_of_changed h hne (by simp))
  case rxlen => exact rxlen_mem_writes (mem_writes_of_changed h hne (by simp))
  case view =>
    rcases mem_writes_or_aborted_of_changed (r := .view) h hne (by simp) with hw | hst
    · rcases view_mem_writes hw with h | h | h | h | h <;> simp [h]
    · simp [hst]
  case txlen =>
    rcases txlen_mem_writes_or_idle_of_changed h hne with hw | hst
    · rcases txlen_mem_writes hw with h | h <;> simp [h]
    · simp [hst]
  case scratch =>
    rcases mem_writes_or_aborted_of_changed (r := .scratch) h hne (by simp) with hw | hst
    · rcases scratch_mem_writes hw with h | h <;> simp [h]
    · simp [hst]
  case linkAddrs =>
    rcases mem_writes_or_aborted_of_changed (r := .linkAddrs) h hne (by simp) with hw | hst
    · rcases linkAddrs_mem_writes hw with h | h <;> simp [h]
    · simp [hst]
  case pans =>
    exact (mem_writes_or_aborted_of_changed (r := .pans) h hne (by simp)).imp_left pans_mem_writes

end Sys2Proof.Machine
end

