-- ==== Sys2Proof/Proofs/State/Step.lean ====
section
/-! SUPPORT. What a step can be: a reset, an operation of a run, or a look at the host's inputs (R401, R434, R435). -/

namespace Sys2Proof.Machine

/-- What a sample of the host's inputs can bring about while the block waits or is halted (R391, R434, R435, R470). -/
inductive HostMove (s : State) : State → Prop
  | waits : HostMove s s
  | looks (later : List HostInput) : HostMove s { s with host := later }
  | writes (later : List HostInput) (addr : Half) (data : Byte) (hst : s.stage = .idle)
      (ha : addr.toNat < s.par.bufCap) : HostMove s { s with host := later, mem := memWrite addr.toNat data s.mem }
  | faults (later : List HostInput) (hst : linkFaultSeen s.stage) : HostMove s { s with host := later }.raiseFatal
  | accepts (later : List HostInput) (len : Half) {t : State} (h : execRxAccept len { s with host := later } = .next t) :
      HostMove s t
  | takes (later : List HostInput) {t : State} (h : execTxTake { s with host := later } = .next t) : HostMove s t

theorem hostSelector_cases {st : Stage} {rxGo : Option Half} {txTake : Bool} {sel : Selector}
    (h : hostSelector st rxGo txTake = some sel) : sel = .txTake ∨ ∃ len, sel = .rxGo len := by
  unfold hostSelector at h
  split at h <;> simp at h <;> simp [← h]

theorem hostWrite_cases {s t : State} {addr : Half} {data : Byte} (h : s.hostWrite addr data = .next t) :
    s.stage = .idle ∧ addr.toNat < s.par.bufCap ∧ t = { s with mem := memWrite addr.toNat data s.mem } := by
  unfold State.hostWrite at h
  split at h
  · simp at h
  · split at h
    · simp at h
      exact ⟨not_not.mp ‹_›, ‹_›, h.symm⟩
    · simp at h

theorem linesTurn_move {s t : State} {later : List HostInput} {linkFault txTake : Bool} {rxGo : Option Half}
    (h : linesTurn linkFault rxGo txTake { s with host := later } = .next t) : HostMove s t := by
  unfold linesTurn at h
  split at h
  next hf =>
    cases h
    exact .faults later hf.2
  next =>
    split at h
    next => cases h; exact .looks later
    next sel hsel =>
      rcases hostSelector_cases hsel with rfl | ⟨len, rfl⟩
      · exact .takes later h
      · exact .accepts later len h

theorem hostTurn_move {s t : State} (hreset : s.resetNext = false) (h : hostTurn s = .next t) : HostMove s t := by
  unfold hostTurn at h
  split at h
  next => cases h; exact .waits
  next straps later heq => simp [State.resetNext, heq] at hreset
  next addr data later _ =>
    obtain ⟨hst, ha, rfl⟩ := hostWrite_cases h
    exact .writes later addr data hst ha
  next => exact linesTurn_move h

theorem runTurn_exec {s t : State} (h : runTurn s = .next t) :
    ∃ i, decode s.selector s.tagBytes = .ok i ∧ exec i s = .next t := by
  unfold runTurn runDecoded at h
  split at h
  next i hi => exact ⟨i, hi, h⟩
  next => simp at h

/-- Everything a step can be. -/
theorem step_cases {s t : State} (h : step s = .next t) :
    (∃ straps later, s.host = .reset straps :: later ∧ t = s.hardReset straps later) ∨
    (stageRuns s.stage ∧ ∃ i, decode s.selector s.tagBytes = .ok i ∧ exec i s = .next t) ∨
    (stageRuns s.stage = false ∧ HostMove s t) := by
  unfold step turn at h
  split at h
  next straps later heq =>
    cases h
    exact .inl ⟨straps, later, heq, rfl⟩
  next hne =>
    have hreset : s.resetNext = false := by
      unfold State.resetNext
      split
      next straps later heq => exact absurd heq (hne straps later)
      next => rfl
    split at h
    next hr => exact .inr (.inl ⟨hr, runTurn_exec h⟩)
    next hr => exact .inr (.inr ⟨by simpa using hr, hostTurn_move hreset h⟩)

end Sys2Proof.Machine
end

