-- ==== Sys2Proof/Proofs/State/Reset.lean ====
section
/-! SUPPORT. The state after reset (R50). -/

namespace Sys2Proof.Machine

/-- Settles O7: each field of `State.resetWith` stands in the table of R50. -/
theorem resetLeavesTheTabulatedValues : Obligations.ResetLeavesTheTabulatedValues := by
  intro par straps
  exact ⟨rfl, rfl, rfl, rfl, rfl, rfl, rfl, rfl, rfl, rfl, rfl, rfl, rfl, rfl, rfl, rfl, rfl, rfl, rfl, rfl⟩

end Sys2Proof.Machine
end

