-- ==== Sys2Proof/Proofs/State/Status.lean ====
section
/-! SUPPORT. The status and fault registers (R26, R27): the exits of a run and the fatal I/O error are their only
writers. -/

namespace Sys2Proof.Machine

/-- A step other than reset left the status alone, or it ended a frame. -/
def StatusStable (s t : State) : Prop :=
  (t.outcome, t.cause, t.cstage) = (s.outcome, s.cause, s.cstage) ∨
    stageRuns s.stage ∧ (t.stage = .idle ∨ t.stage = .txPending)

/-- A step other than reset left the fault register alone, or it set one bit and halted. -/
def FaultStable (s t : State) : Prop :=
  t.fault = s.fault ∨ t.fault = s.fault ||| 1#2 ∧ t.stage = .haltFatal ∨ t.fault = s.fault ||| 2#2 ∧ t.stage = .haltAbort

section

variable {i : Instr} {s t : State}

theorem exec_status (h : exec i s = .next t) :
    (t.outcome, t.cause, t.cstage) = (s.outcome, s.cause, s.cstage) ∨ t.stage = .idle ∨ t.stage = .txPending := by
  by_contra hne
  obtain ⟨hstatus, hidle, hpending⟩ : _ ∧ _ ∧ _ := by simpa only [not_or] using hne
  rcases (exec_ends i s t h).mem_of_changed (r := .status) hstatus with hw | ⟨hst, -⟩ | ⟨hst, -⟩ | ⟨-, hw⟩
  · exact not_mem_writes (by simp) hw
  · exact hidle hst
  · exact hpending hst
  · simp at hw

theorem exec_fault (h : exec i s = .next t) :
    t.fault = s.fault ∨ t.fault = s.fault ||| 2#2 ∧ t.stage = .haltAbort := by
  have kept {u : State} (hu : Kept (writes s.cfg.link i) s u) : u.fault = s.fault := hu .fault (not_mem_writes (by simp))
  cases exec_ends i s t h with
  | goesOn hu => exact .inl (kept hu)
  | dropped hu st c => exact .inl ((State.raiseDrop_fault ..).trans (kept hu))
  | sent hu st => exact .inl ((State.finishSent_fault ..).trans (kept hu))
  | aborted hu => exact .inr ⟨congrArg (· ||| 2#2) (kept hu), rfl⟩

/-- The host's requests write neither register. -/
theorem hostMove_status_fault (h : HostMove s t) :
    (t.outcome, t.cause, t.cstage) = (s.outcome, s.cause, s.cstage) ∧
      (t.fault = s.fault ∨ t.fault = s.fault ||| 1#2 ∧ t.stage = .haltFatal) := by
  cases h with
  | waits | looks | writes => exact ⟨rfl, .inl rfl⟩
  | faults => exact ⟨rfl, .inr ⟨rfl, rfl⟩⟩
  | accepts later len h =>
    have hk := execRxAccept_kept len t h
    exact ⟨hk .status (by simp), .inl (hk .fault (by simp))⟩
  | takes later h =>
    have hk := execTxTake_kept t h
    exact ⟨hk .status (by simp), .inl (hk .fault (by simp))⟩

theorem step_status_fault (hreset : s.resetNext = false) (h : step s = .next t) : StatusStable s t ∧ FaultStable s t := by
  rcases step_cases h with ⟨straps, later, heq, -⟩ | ⟨hr, i, -, hi⟩ | ⟨-, hm⟩
  · simp [State.resetNext, heq] at hreset
  · exact ⟨(exec_status hi).imp_right fun hst => ⟨hr, hst⟩, (exec_fault hi).imp_right .inr⟩
  · obtain ⟨hstatus, hfault⟩ := hostMove_status_fault hm
    exact ⟨.inl hstatus, hfault.imp_right .inl⟩

/-- No bit that was set is cleared. -/
theorem FaultStable.and_eq (h : FaultStable s t) : s.fault &&& t.fault = s.fault := by
  have absorb (m : BitVec 2) : s.fault &&& (s.fault ||| m) = s.fault := by ext k; simp; exact .inl
  rcases h with h | ⟨h, -⟩ | ⟨h, -⟩ <;> rw [h]
  · exact BitVec.and_self
  all_goals exact absorb _

end

/-- Settles O55: the code tables by evaluation, the stability from how a step can end. -/
theorem statusAndFaultFlagsAreStable : Obligations.StatusAndFaultFlagsAreStable := by
  refine ⟨rfl, rfl, rfl, fun st n c => ⟨rfl, rfl, rfl, ?_⟩, fun s => ⟨rfl, rfl⟩, fun s t hreset h => ?_⟩
  · cases c <;> rfl
  · obtain ⟨hstatus, hfault⟩ := step_status_fault hreset h
    exact ⟨hstatus.resolve_left, hfault.and_eq, hfault.resolve_left⟩

end Sys2Proof.Machine
end

