-- ==== Sys2Proof/Proofs/State/Place.lean ====
section
/-! SUPPORT. Where an operation stands in a run: the stage and the phase in which the decoder selects it (R140, R141). -/

namespace Sys2Proof.Machine

-- One elaboration thread: the case splits over all operations take much memory when they run side by side.
set_option Elab.async false

/-- The stage and the phase of the row an operation is encoded in (R140). -/
def place : Instr → Stage × Phase
  | .rxAccept _ => (.idle, .entry)
  | .txTake => (.txPending, .entry)
  | .ethParse => (.eth, .entry)
  | .ethArp | .ethIpv4 | .ethIpv6 | .ethOther _ => (.eth, .dispatch)
  | .mac154Parse => (.mac154, .entry)
  | .mac154Data | .mac154Other _ => (.mac154, .dispatch)
  | .lowpanParse => (.lowpan, .entry)
  | .lowpanIphc _ _ _ | .lowpanOther _ => (.lowpan, .dispatch)
  | .nhcUdp _ _ | .nhcOther _ => (.lowpan, .nhc)
  | .arpParse => (.arp, .entry)
  | .arpRequest | .arpReply | .arpOther _ => (.arp, .dispatch)
  | .ip4Parse => (.ipv4, .entry)
  | .ip4Icmp | .ip4Udp | .ip4Other _ => (.ipv4, .dispatch)
  | .ip6Parse => (.ipv6, .entry)
  | .ip6Icmp6 | .ip6Udp | .ip6Other _ => (.ipv6, .dispatch)
  | .icmp4Parse => (.icmp4, .entry)
  | .icmp4Echo | .icmp4Other _ => (.icmp4, .dispatch)
  | .icmp6Parse => (.icmp6, .entry)
  | .icmp6Echo | .icmp6Ns | .icmp6Other _ => (.icmp6, .dispatch)
  | .udpParse => (.udp, .entry)
  | .udpCoap | .udpEcho _ => (.udp, .dispatch)
  | .coapParse => (.coap, .entry)
  | .coapGetLed | .coapPutLed | .coapNotFound _ | .coapNotAllowed _ | .coapOther _ => (.coap, .dispatch)
  | .build => (.build, .entry)

/-! ## The tag decoders -/

theorem place_decodeEthertype (v : Half) : place (decodeEthertype v) = (.eth, .dispatch) := by
  unfold decodeEthertype; split_ifs <;> rfl

theorem place_decodeFtype (v : BitVec 3) : place (decodeFtype v) = (.mac154, .dispatch) := by
  unfold decodeFtype; split_ifs <;> rfl

theorem place_decodeDispatch (d : Byte) : place (decodeDispatch d) = (.lowpan, .dispatch) := by
  unfold decodeDispatch; split_ifs <;> rfl

theorem place_decodeNhc (c : Byte) : place (decodeNhc c) = (.lowpan, .nhc) := by
  unfold decodeNhc; split_ifs <;> rfl

theorem place_decodeOper (v : Half) : place (decodeOper v) = (.arp, .dispatch) := by
  unfold decodeOper; split_ifs <;> rfl

theorem place_decodeProtocol (v : Byte) : place (decodeProtocol v) = (.ipv4, .dispatch) := by
  unfold decodeProtocol; split_ifs <;> rfl

theorem place_decodeNextHeader (v : Byte) : place (decodeNextHeader v) = (.ipv6, .dispatch) := by
  unfold decodeNextHeader; split_ifs <;> rfl

theorem place_decodeIcmp4 (v : Half) : place (decodeIcmp4 v) = (.icmp4, .dispatch) := by
  unfold decodeIcmp4; split_ifs <;> rfl

theorem place_decodeIcmp6 (v : Half) : place (decodeIcmp6 v) = (.icmp6, .dispatch) := by
  unfold decodeIcmp6; split_ifs <;> rfl

theorem place_decodeDport (port v : Half) : place (decodeDport port v) = (.udp, .dispatch) := by
  unfold decodeDport; split_ifs <;> rfl

theorem place_decodeCoap (t : BitVec 2) (known : Bool) (c : Byte) : place (decodeCoap t known c) = (.coap, .dispatch) := by
  unfold decodeCoap; dsimp only; split_ifs <;> rfl

theorem place_decodeEntry {st : Stage} {i : Instr} (h : decodeEntry st = .ok i) : place i = (st, .entry) := by
  cases st <;> cases h <;> rfl

/-! ## The widths -/

theorem tagNone_ok {e : Except DecodeError Instr} {bs : List Byte} {i : Instr} (h : tagNone e bs = .ok i) : e = .ok i := by
  cases bs with
  | nil => exact h
  | cons => cases h

theorem tagByte_ok {f : Byte → Instr} {bs : List Byte} {i : Instr} (h : tagByte f bs = .ok i) : ∃ a, i = f a := by
  unfold tagByte at h
  split at h
  · cases h; exact ⟨_, rfl⟩
  · cases h

theorem tagHalf_ok {f : Half → Instr} {bs : List Byte} {i : Instr} (h : tagHalf f bs = .ok i) : ∃ v, i = f v := by
  unfold tagHalf at h
  split at h
  · cases h; exact ⟨_, rfl⟩
  · cases h

/-! ## The sequencer -/

theorem place_of_tagSelector {s : State} {bs : List Byte} {i : Instr} (hst : stageParses s.stage)
    (h : decode s.tagSelector bs = .ok i) : place i = (s.stage, .dispatch) := by
  unfold State.tagSelector at h
  cases hs : s.stage <;> simp only [hs] at h hst
  case eth => obtain ⟨v, rfl⟩ := tagHalf_ok h; exact place_decodeEthertype v
  case mac154 => obtain ⟨a, rfl⟩ := tagByte_ok h; exact place_decodeFtype _
  case lowpan => obtain ⟨d, rfl⟩ := tagByte_ok h; exact place_decodeDispatch d
  case arp => obtain ⟨v, rfl⟩ := tagHalf_ok h; exact place_decodeOper v
  case ipv4 => obtain ⟨v, rfl⟩ := tagByte_ok h; exact place_decodeProtocol v
  case ipv6 => obtain ⟨v, rfl⟩ := tagByte_ok h; exact place_decodeNextHeader v
  case icmp4 => obtain ⟨v, rfl⟩ := tagHalf_ok h; exact place_decodeIcmp4 v
  case icmp6 => obtain ⟨v, rfl⟩ := tagHalf_ok h; exact place_decodeIcmp6 v
  case udp => obtain ⟨v, rfl⟩ := tagHalf_ok h; exact place_decodeDport _ v
  case coap => obtain ⟨c, rfl⟩ := tagByte_ok h; exact place_decodeCoap _ _ c
  all_goals cases hst

/-- In a state of the invariant the operation that comes next stands in the state's stage and phase. -/
theorem place_of_decode {s : State} {i : Instr} (hinv : Inv s) (h : decode s.selector s.tagBytes = .ok i) :
    place i = (s.stage, s.phase) := by
  have parses (hph : s.phase ≠ .entry) : stageParses s.stage := by
    by_contra hst
    exact hph (hinv.entryPhase (by simpa using hst))
  generalize s.tagBytes = bs at h
  cases hph : s.phase <;> simp only [State.selector, hph] at h
  case entry => exact place_decodeEntry (tagNone_ok h)
  case dispatch => exact place_of_tagSelector (parses (by simp [hph])) h
  case nhc =>
    rw [if_pos (hinv.nhcPhase hph)] at h
    obtain ⟨c, rfl⟩ := tagByte_ok h
    rw [place_decodeNhc, hinv.nhcPhase hph]

end Sys2Proof.Machine
end

