-- ==== Sys2Proof/Proofs/State/Causes.lean ====
section
/-! SUPPORT. Every parser that fails names a cause (R421), and where the decompressor leaves its cursor (R303). -/

namespace Sys2Proof.Machine

/-- A parser that fails names a cause; what it gives otherwise meets `P`. -/
def Yields {α : Type} (e : Except Cause α) (P : α → Prop) : Prop :=
  (∀ c, e = .error c → c ≠ .none) ∧ ∀ a, e = .ok a → P a

section

variable {α β : Type} {P : α → Prop} {Q : β → Prop}

theorem yields_error {c : Cause} (h : c ≠ .none) : Yields (.error c) P :=
  ⟨fun _ hc => by cases hc; exact h, fun _ ha => nomatch ha⟩

theorem yields_ok {a : α} (h : P a) : Yields (.ok a) P := ⟨fun _ hc => (nomatch hc), fun _ ha => by cases ha; exact h⟩

theorem yields_bind {e : Except Cause α} {f : α → Except Cause β} (he : Yields e P) (hf : ∀ a, P a → Yields (f a) Q) :
    Yields (e >>= f) Q := by
  cases e with
  | error c => exact yields_error (he.1 c rfl)
  | ok a => exact hf a (he.2 a rfl)

theorem yields_ite {c : Prop} [Decidable c] {a b : Except Cause α} (ha : Yields a P) (hb : Yields b P) :
    Yields (if c then a else b) P := by
  split
  · exact ha
  · exact hb

end

/-! ## The decompressor -/

theorem takeN_yields (n : Nat) (rest : List Byte) : Yields (takeN n rest) fun _ => True :=
  yields_ite (yields_error (by simp)) (yields_ok trivial)

/-- A parser that takes bytes once and then cannot fail. -/
theorem take_then_yields {α : Type} {n : Nat} {rest : List Byte} {f : List Byte × List Byte → α} :
    Yields (takeN n rest >>= fun x => .ok (f x)) fun _ => True :=
  yields_bind (takeN_yields n rest) fun _ _ => yields_ok trivial

theorem iphcTf_yields (tf : BitVec 2) (rest : List Byte) : Yields (iphcTf tf rest) fun _ => True :=
  yields_ite take_then_yields <| yields_ite take_then_yields <| yields_ite take_then_yields (yields_ok trivial)

theorem iphcNh_yields (nh : BitVec 1) (rest : List Byte) : Yields (iphcNh nh rest) fun _ => True :=
  yields_ite take_then_yields (yields_ok trivial)

theorem iphcHlim_yields (hlim : BitVec 2) (rest : List Byte) : Yields (iphcHlim hlim rest) fun _ => True :=
  yields_ite take_then_yields <| yields_ite (yields_ok trivial) <| yields_ite (yields_ok trivial) (yields_ok trivial)

theorem iphcUnicast_yields (mode : BitVec 2) (ll : LlAddr) (rest : List Byte) :
    Yields (iphcUnicast mode ll rest) fun _ => True :=
  yields_ite (takeN_yields _ _) <| yields_ite take_then_yields <| yields_ite take_then_yields (yields_ok trivial)

theorem iphcSrc_yields (sac : BitVec 1) (sam : BitVec 2) (ll : LlAddr) (rest : List Byte) :
    Yields (iphcSrc sac sam ll rest) fun _ => True :=
  yields_ite (yields_ok trivial) (iphcUnicast_yields sam ll rest)

theorem iphcDst_yields (m : BitVec 1) (dam : BitVec 2) (ll : LlAddr) (rest : List Byte) :
    Yields (iphcDst m dam ll rest) fun _ => True :=
  yields_ite (iphcUnicast_yields dam ll rest) <| yields_ite (takeN_yields _ _) <|
    yields_ite take_then_yields <| yields_ite take_then_yields take_then_yields

/-- The cursor stays inside the view (R303). -/
theorem iphcDecode_yields (tf : BitVec 2) (nh : BitVec 1) (hlim : BitVec 2) (llSrc llDst : LlAddr) (v : List Byte) :
    Yields (iphcDecode tf nh hlim llSrc llDst v) fun r => r.1.o ≤ v.length := by
  refine yields_bind (takeN_yields 1 v) fun _ _ => yields_bind (takeN_yields 1 _) fun _ _ => ?_
  refine yields_ite (yields_error (by simp)) ?_
  refine yields_bind (iphcTf_yields tf _) fun _ _ => yields_bind (iphcNh_yields nh _) fun _ _ => ?_
  refine yields_bind (iphcHlim_yields hlim _) fun _ _ => yields_bind (iphcSrc_yields _ _ llSrc _) fun _ _ => ?_
  exact yields_bind (iphcDst_yields _ _ llDst _) fun _ _ => yields_ok (Nat.sub_le _ _)

theorem nhcPorts_yields (p : BitVec 2) (rest : List Byte) : Yields (nhcPorts p rest) fun _ => True :=
  yields_ite take_then_yields <| yields_ite take_then_yields <| yields_ite take_then_yields take_then_yields

theorem nhcCksum_yields (c : BitVec 1) (rest : List Byte) : Yields (nhcCksum c rest) fun _ => True :=
  yields_ite take_then_yields (yields_ok trivial)

theorem nhcDecode_yields (c : BitVec 1) (p : BitVec 2) (rest : List Byte) : Yields (nhcDecode c p rest) fun _ => True :=
  yields_bind (takeN_yields 1 rest) fun _ _ => yields_bind (nhcPorts_yields p _) fun _ _ =>
    yields_bind (nhcCksum_yields c _) fun _ _ => yields_ok trivial

/-! ## ARP and CoAP -/

theorem arpValid_yields (a : ArpRec) : Yields (arpValid a) fun _ => True := by
  unfold arpValid
  split_ifs
  case neg => exact yields_ok trivial
  all_goals exact yields_error (by simp)

theorem coapHeader_yields (m : List Byte) : Yields (coapHeader m) fun _ => True :=
  yields_ite (yields_error (by simp)) <| yields_ite (yields_error (by simp)) <| yields_ite (yields_error (by simp)) <|
    yields_ite (yields_error (by simp)) (yields_ok trivial)

theorem coapExtend_yields (nibble : BitVec 4) (rest : List Byte) : Yields (coapExtend nibble rest) fun _ => True := by
  unfold coapExtend
  split
  · split
    · exact yields_ok trivial
    · exact yields_error (by simp)
  · split
    · split
      · exact yields_ok trivial
      · exact yields_error (by simp)
    · exact yields_ok trivial

theorem coapOptions_yields (fuel num : Nat) (rest : List Byte) : Yields (coapOptions fuel num rest) fun _ => True := by
  induction fuel generalizing num rest with
  | zero => exact yields_ok trivial
  | succ fuel ih =>
    cases rest with
    | nil => exact yields_ok trivial
    | cons b rest =>
      unfold coapOptions
      refine yields_ite (yields_ite (yields_error (by simp)) (yields_ok trivial)) ?_
      refine yields_ite (yields_error (by simp)) ?_
      split
      next c hd => exact yields_error ((coapExtend_yields _ _).1 c hd)
      split
      next c hl => exact yields_error ((coapExtend_yields _ _).1 c hl)
      refine yields_ite (yields_error (by simp)) ?_
      split
      next c ho => exact yields_error ((ih _ _).1 c ho)
      exact yields_ok trivial

end Sys2Proof.Machine
end

