-- ==== Sys2Proof/Proofs/State/Sound.lean ====
section
/-! SUPPORT. The part of the invariant that names no stage, and what each micro-operation does to it. -/

namespace Sys2Proof.Machine

-- One elaboration thread: the case splits over all operations take much memory when they run side by side.
set_option Elab.async false

/-- What the invariant says of every stage but `HALT_FATAL`. -/
structure Sound (s : State) : Prop where
  par : s.par.ok
  memWf : Memory.wf s.mem
  memWithin : Memory.within s.par.bufCap s.mem
  scratchWf : Memory.wf s.scratch
  scratchWithin : Memory.within 48 s.scratch
  rxlen : s.rxlen.toNat ≤ s.par.bufCap
  txlen : s.txlen.toNat ≤ s.txLimit
  view : s.viewOk
  llSrc : s.llSrc.fits s.cfg.link
  llDst : s.llDst.fits s.cfg.link
  arp : CacheOk s.par.arpCap s.arp
  nbr : CacheOk s.par.nbrCap s.nbr
  nbrFits : ∀ e ∈ s.nbr, e.2.fits s.cfg.link
  status : s.outcome = .dropped ↔ s.cause ≠ .none
  noFatal : s.fault.getLsbD 0 = false
  noAbort : s.fault.getLsbD 1 = false

/-- A sound state whose view lies inside the received frame (R21, R476). -/
structure Parsing (s : State) : Prop extends Sound s where
  inFrame : s.vbase.toNat + s.vlen.toNat ≤ s.rxlen.toNat

section

variable {s t : State}

theorem Inv.sound (h : Inv s) (hst : s.stage ≠ .haltFatal) : Sound s where
  par := h.par
  memWf := h.memWf
  memWithin := h.memWithin
  scratchWf := h.scratchWf
  scratchWithin := h.scratchWithin
  rxlen := h.rxlen
  txlen := h.txlen
  view := h.view
  llSrc := h.llSrc
  llDst := h.llDst
  arp := h.arp
  nbr := h.nbr
  nbrFits := h.nbrFits
  status := h.status
  noFatal := by simpa [hst] using h.fatal
  noAbort := h.invariant

theorem Inv.parsing (h : Inv s) (hst : stageParses s.stage) : Parsing s where
  toSound := h.sound fun hf => by simp [hf, stageParses, stageRuns] at hst
  inFrame := h.parseView hst

theorem Inv.parsing_at (h : Inv s) {st : Stage} (hst : s.stage = st) (hp : stageParses st) : Parsing s :=
  h.parsing (hst ▸ hp)

theorem Inv.link_at (h : Inv s) {st : Stage} (hst : s.stage = st) : stageFits st s.cfg.link := hst ▸ h.link

/-! ## Updates -/

namespace Sound

/-- The stage, the phase, the records and the log have no part in it. -/
theorem of_frameOf (h : Sound s) (hf : t.frameOf = s.frameOf) : Sound t := by
  have hframe : Sound s.frameOf := by cases h; constructor <;> assumption
  rw [← hf] at hframe
  cases hframe
  constructor <;> assumption

theorem withHost (h : Sound s) (later : List HostInput) : Sound { s with host := later } := by
  cases h
  constructor <;> assumption

theorem withMem (h : Sound s) {m : List Host.Cell} (hwf : Memory.wf m) (hin : Memory.within s.par.bufCap m) :
    Sound { s with mem := m } := by
  cases h
  constructor <;> assumption

theorem narrowed (h : Sound s) {off len : Nat} (hle : off + len ≤ s.vlen.toNat) : Sound (s.narrowed off len) := by
  have hview : (s.narrowed off len).viewOk := by
    have := h.view
    have := h.par.2.1
    simp [State.viewOk] at *
    omega
  cases h
  constructor <;> assumption

theorem scratchWrite (h : Sound s) {a : Nat} {v : List Byte} (hle : a + v.length ≤ 48) : Sound (s.scratchWrite a v) := by
  have hwf : Memory.wf (s.scratchWrite a v).scratch := memWriteBytes_wf h.scratchWf a v
  have hin : Memory.within 48 (s.scratchWrite a v).scratch := memWriteBytes_within h.scratchWithin hle
  cases h
  constructor <;> assumption

theorem arpLearn (h : Sound s) : Sound s.arpLearn := by
  have harp : CacheOk s.arpLearn.par.arpCap s.arpLearn.arp := cacheInsert_ok h.par.2.2.1 h.arp
  cases h
  constructor <;> assumption

theorem nbrLearn (h : Sound s) : Sound s.nbrLearn := by
  have hnbr : CacheOk s.nbrLearn.par.nbrCap s.nbrLearn.nbr := cacheInsert_ok h.par.2.2.2 h.nbr
  have hfits : ∀ e ∈ s.nbrLearn.nbr, e.2.fits s.nbrLearn.cfg.link := fun e he => by
    rcases mem_cacheInsert he with rfl | he
    · exact h.llSrc
    · exact h.nbrFits e he
  cases h
  constructor <;> assumption

theorem withLink (h : Sound s) {src dst : LlAddr} (hsrc : src.fits s.cfg.link) (hdst : dst.fits s.cfg.link)
    (panSrc panDst : Half) :
    Sound { s with panDst := panDst, panSrc := panSrc, llDst := dst, llSrc := src } := by
  cases h
  constructor <;> assumption

theorem advanceDsn (h : Sound s) : Sound s.advanceDsn := by
  unfold State.advanceDsn
  split
  · exact h
  · cases h
    constructor <;> assumption

/-- The response is stored from address 0 on, within the limit (R409). -/
theorem withResponse (h : Sound s) {frame : List Byte} (hle : frame.length ≤ s.txLimit) :
    Sound { s with
      mem := memWriteBytes 0 frame s.mem, vbase := 0#16, vlen := BitVec.ofNat 16 s.txLimit
      txlen := BitVec.ofNat 16 frame.length } := by
  have hcap : s.txLimit ≤ s.par.bufCap := Nat.min_le_left _ _
  have hwf : Memory.wf (memWriteBytes 0 frame s.mem) := memWriteBytes_wf h.memWf 0 frame
  have hin : Memory.within s.par.bufCap (memWriteBytes 0 frame s.mem) := memWriteBytes_within h.memWithin (by omega)
  have hview : (0#16).toNat + (BitVec.ofNat 16 s.txLimit).toNat ≤ s.par.bufCap := by
    simp
    exact (Nat.mod_le _ _).trans hcap
  have htx : (BitVec.ofNat 16 frame.length).toNat ≤ s.txLimit := by
    simp
    exact (Nat.mod_le _ _).trans hle
  cases h
  constructor <;> assumption

theorem raiseDrop (h : Sound s) (st : Stage) {c : Cause} (hc : c ≠ .none) : Sound (s.raiseDrop st c) where
  par := h.par
  memWf := memory_filter_wf h.memWf _
  memWithin := memory_filter_within h.memWithin _
  scratchWf := h.scratchWf
  scratchWithin := h.scratchWithin
  rxlen := h.rxlen
  txlen := Nat.zero_le _
  view := h.view
  llSrc := h.llSrc
  llDst := h.llDst
  arp := h.arp
  nbr := h.nbr
  nbrFits := h.nbrFits
  status := by simpa using hc
  noFatal := h.noFatal
  noAbort := h.noAbort

theorem finishSent (h : Sound s) (st : Stage) : Sound (s.finishSent st) where
  par := h.par
  memWf := memory_filter_wf h.memWf _
  memWithin := memory_filter_within h.memWithin _
  scratchWf := h.scratchWf
  scratchWithin := h.scratchWithin
  rxlen := h.rxlen
  txlen := h.txlen
  view := h.view
  llSrc := h.llSrc
  llDst := h.llDst
  arp := h.arp
  nbr := h.nbr
  nbrFits := h.nbrFits
  status := by simp
  noFatal := h.noFatal
  noAbort := h.noAbort

end Sound

namespace Parsing

theorem of_frameOf (h : Parsing s) (hf : t.frameOf = s.frameOf) : Parsing t where
  toSound := h.toSound.of_frameOf hf
  inFrame := by
    simp only [State.frameOf, State.mk.injEq] at hf
    simpa [hf] using h.inFrame

theorem narrowed (h : Parsing s) {off len : Nat} (hle : off + len ≤ s.vlen.toNat) : Parsing (s.narrowed off len) where
  toSound := h.toSound.narrowed hle
  inFrame := by
    have := h.inFrame
    have := s.rxlen.isLt
    simp
    omega

theorem scratchWrite (h : Parsing s) {a : Nat} {v : List Byte} (hle : a + v.length ≤ 48) :
    Parsing (s.scratchWrite a v) := ⟨h.toSound.scratchWrite hle, h.inFrame⟩

theorem nbrLearn (h : Parsing s) : Parsing s.nbrLearn := ⟨h.toSound.nbrLearn, h.inFrame⟩

end Parsing

/-! ## Back to the invariant -/

/-- The block waits for the host: nothing but soundness is asked (R405). -/
theorem Sound.inv_waits (h : Sound t) (hst : t.stage = .idle ∨ t.stage = .txPending) (hph : t.phase = .entry) :
    Inv t := by
  have hstage (st : Stage) (hne : st ≠ .idle ∧ st ≠ .txPending) : t.stage ≠ st := by
    rintro rfl
    exact hst.elim hne.1 hne.2
  have hparse : stageParses t.stage = false := by rcases hst with h | h <;> rw [h] <;> rfl
  constructor
  case fatal => simpa [hstage .haltFatal (by simp)] using h.noFatal
  case invariant => exact h.noAbort
  case link => rcases hst with h | h <;> rw [h] <;> rfl
  case parseView => simp [hparse]
  case noAbort => exact hstage _ (by simp)
  case nhcPhase | cursor => simp [hph]
  case entryPhase => exact fun _ => hph
  case ethHeader | ip4Header => simp [hph]
  case scratchIp6 => exact fun _ hs => absurd hs (hstage _ (by simp))
  case resp | handler => exact fun hs => absurd hs (hstage _ (by simp))
  case scratchUdp => rcases hst with h | h <;> simp [h]
  case net => rcases hst with h | h <;> simp [h]
  all_goals cases h; assumption

/-- The response is handed to `BUILD` (R402, R406). -/
theorem Sound.inv_build (h : Sound t) (hst : t.stage = .build) (hph : t.phase = .entry)
    (hresp : ∃ r, t.latched.resp = some r ∧ r.fits t.cfg.link) (hhandler : stageHandles t.latched.hstage) : Inv t := by
  constructor
  case fatal => simpa [hst] using h.noFatal
  case invariant => exact h.noAbort
  case link => rw [hst]; rfl
  case resp => exact fun _ => hresp
  case handler => exact fun _ => hhandler
  case entryPhase => exact fun _ => hph
  case parseView => simp [hst, stageParses]
  case noAbort | nhcPhase | cursor | ethHeader | ip4Header | scratchIp6 | scratchUdp | net => simp [hst, hph]
  all_goals cases h; assumption

/-- A parsing stage is entered. -/
theorem Parsing.inv_entry (h : Parsing t) (hst : stageParses t.stage) (hph : t.phase = .entry)
    (hlink : stageFits t.stage t.cfg.link) (hip6 : t.cfg.link = .lowpan → t.stage = .ipv6 → t.scratchReady 0 40)
    (hudp : t.cfg.link = .lowpan → t.latched.udpNhc → t.stage ∈ [Stage.ipv6, .icmp6, .udp] → t.scratchReady 40 48)
    (hnet : t.stage ∈ [Stage.udp, .coap] → t.latched.net = .ip4 → t.cfg.link = .eth) : Inv t := by
  have hstage (st : Stage) (hne : stageParses st = false) : t.stage ≠ st := by
    rintro rfl
    simp [hne] at hst
  constructor
  case fatal => simpa [hstage .haltFatal rfl] using h.noFatal
  case invariant => exact h.noAbort
  case link => exact hlink
  case parseView => exact fun _ => h.inFrame
  case noAbort => exact hstage _ rfl
  case nhcPhase | cursor | ethHeader | ip4Header => simp [hph]
  case entryPhase => exact fun _ => hph
  case scratchIp6 => exact hip6
  case scratchUdp => exact hudp
  case net => exact hnet
  case resp | handler => exact fun hs => absurd hs (hstage _ rfl)
  all_goals cases h.toSound; assumption

/-- What an operation that stays in its stage leaves as it was. -/
structure Stays (s t : State) : Prop where
  stage : t.stage = s.stage
  cfg : t.cfg = s.cfg
  scratch : t.scratch = s.scratch
  net : t.latched.net = s.latched.net
  udpNhc : t.latched.udpNhc = s.latched.udpNhc

/-- The entry operation of a stage is done; the stage's tag is read next. -/
theorem Inv.inv_dispatch (hs : Inv s) (hst : stageParses s.stage) (hstays : Stays s t) (h : Parsing t)
    (hph : t.phase = .dispatch) (heth : s.stage = .eth → 14 ≤ t.vlen.toNat)
    (hip4 : s.stage = .ipv4 → 20 ≤ t.latched.ip4.hl ∧ t.latched.ip4.hl ≤ t.latched.ip4.totalLength.toNat ∧
      t.latched.ip4.totalLength.toNat ≤ t.vlen.toNat) : Inv t := by
  obtain ⟨hstage, hcfg, hscratch, hnet, hudp⟩ := hstays
  have hother (st : Stage) (hne : stageParses st = false) : t.stage ≠ st := by
    rintro rfl
    simp [← hstage, hne] at hst
  constructor
  case fatal => simpa [hother .haltFatal rfl] using h.noFatal
  case invariant => exact h.noAbort
  case link => rw [hstage, hcfg]; exact hs.link
  case parseView => exact fun _ => h.inFrame
  case noAbort => exact hother _ rfl
  case nhcPhase | cursor => simp [hph]
  case entryPhase => rw [hstage, hst]; simp
  case ethHeader => exact fun he _ => heth (hstage ▸ he)
  case ip4Header => exact fun he _ => hip4 (hstage ▸ he)
  case scratchIp6 => unfold State.scratchReady; rw [hstage, hcfg, hscratch]; exact hs.scratchIp6
  case scratchUdp => unfold State.scratchReady; rw [hstage, hcfg, hscratch, hudp]; exact hs.scratchUdp
  case net => rw [hstage, hcfg, hnet]; exact hs.net
  case resp | handler => exact fun hb => absurd hb (hother _ rfl)
  all_goals cases h.toSound; assumption

/-- The fatal I/O error (R434). -/
theorem Inv.raiseFatal (h : Inv s) : Inv s.raiseFatal := by
  have hfault : (s.fault ||| 1#2).getLsbD 1 = false := by simpa using h.invariant
  constructor
  case fatal => simp
  case invariant => exact hfault
  case link => rfl
  case entryPhase => simp
  case parseView | noAbort | nhcPhase | cursor | ethHeader | ip4Header | scratchIp6 | scratchUdp | net | resp | handler =>
    simp [stageParses, stageRuns]
  all_goals cases h; assumption

/-- Only the bytes written to `SCRATCH` matter. -/
theorem scratchReady_of_scratch_eq {lo hi : Nat} (h : s.scratchReady lo hi) (hs : t.scratch = s.scratch) :
    t.scratchReady lo hi := by
  unfold State.scratchReady at *
  rwa [hs]

theorem Inv.withHost (h : Inv s) (later : List HostInput) : Inv { s with host := later } := by
  cases h
  constructor <;> assumption

end
end Sys2Proof.Machine
end

