-- ==== Sys2Proof/Proofs/State/Invariant.lean ====
section
/-! SUPPORT. Every operation keeps the invariant in the place it is selected in; so does every step. -/

namespace Sys2Proof.Machine

-- One elaboration thread: the case splits over all operations take much memory when they run side by side.
set_option Elab.async false

section

variable {s u : State}

/-! ## Rules -/

theorem inv_drop (h : Sound u) {st : Stage} {c : Cause} (hc : c ≠ .none) : Answers (u.drop st c) Inv :=
  answers_next.mpr ((h.raiseDrop st hc).inv_waits (.inl rfl) rfl)

theorem inv_narrow (h : Parsing u) {off len : Nat} {k : State → Out}
    (hk : Parsing (u.narrowed off len) → Answers (k (u.narrowed off len)) Inv) : Answers (u.narrow off len k) Inv :=
  answers_narrow ((h.toSound.raiseDrop _ (by simp)).inv_waits (.inl rfl) rfl) fun hle => hk (h.narrowed hle)

/-- A stage whose records carry no promise is entered. -/
theorem inv_goto (h : Parsing u) {st : Stage} (hst : stageParses st) (hlink : stageFits st u.cfg.link)
    (hplain : st ∉ [Stage.ipv6, .icmp6, .udp, .coap]) : Answers (.next (u.goto st)) Inv := by
  have h' : Parsing (u.goto st) := h.of_frameOf rfl
  refine answers_next.mpr (h'.inv_entry hst rfl hlink ?_ ?_ ?_)
  · rintro - rfl
    simp at hplain
  · intro _ _ hmem
    exact absurd hmem (by simp at hplain ⊢; tauto)
  · intro hmem
    exact absurd hmem (by simp at hplain ⊢; tauto)

/-- A stage whose tag carries no promise has read it: only records its later work does not rely on were latched. -/
theorem inv_latch_dispatch (h : Inv s) {st : Stage} (hst : s.stage = st) (hp : stageParses st)
    (hplain : st ≠ .eth ∧ st ≠ .ipv4) {f : Records → Records} (hnet : (f s.latched).net = s.latched.net)
    (hudp : (f s.latched).udpNhc = s.latched.udpNhc) : Answers (.next (s.latch f).toDispatch) Inv := by
  obtain ⟨heth, hip4⟩ := hplain
  subst hst
  exact answers_next.mpr (h.inv_dispatch hp ⟨rfl, rfl, rfl, hnet, hudp⟩ ((h.parsing hp).of_frameOf rfl) rfl
    (fun he => absurd he heth) fun he => absurd he hip4)

/-- A handler answers with a response that its link can carry (R406). -/
theorem inv_respond (h : Sound u) {st : Stage} {r : Resp} (hst : stageHandles st) (hr : r.fits u.cfg.link) :
    Answers (.next (u.respond st r)) Inv := by
  have h' : Sound (u.respond st r) := h.of_frameOf rfl
  exact answers_next.mpr (h'.inv_build rfl rfl ⟨r, rfl, hr⟩ hst)

/-! ## Reset -/

theorem sound_resetWith {par : Params} (hpar : par.ok) (straps : Straps) : Sound (State.resetWith par straps) := by
  have hll : (resetLl straps.link).fits straps.link := by cases straps.link <;> rfl
  constructor
  case par => exact hpar
  case llSrc | llDst => exact hll
  case memWf | scratchWf => exact List.Pairwise.nil
  case arp | nbr => exact ⟨Nat.zero_le _, List.nodup_nil⟩
  all_goals simp [State.resetWith, State.viewOk]

theorem inv_resetWith {par : Params} (hpar : par.ok) (straps : Straps) : Inv (State.resetWith par straps) :=
  (sound_resetWith hpar straps).inv_waits (.inl rfl) rfl

/-- Reset starts afresh from any state (R460); the epochs, the log and the host's samples have no part in the invariant. -/
theorem Inv.hardReset (h : Inv s) (straps : Straps) (later : List HostInput) : Inv (s.hardReset straps later) := by
  have hreset := inv_resetWith h.par straps
  cases hreset
  constructor <;> assumption

/-! ## The host's requests -/

theorem execRxAccept_inv (h : Inv s) (len : Half) : Answers (execRxAccept len s) Inv := by
  refine answers_ite (fun hc => ?_) fun _ => answers_next.mpr h
  obtain ⟨hst, hlen⟩ := hc
  have hs : Sound s := h.sound (by simp [hst])
  have hp : Parsing { s with rxlen := len, txlen := 0#16, vbase := 0#16, vlen := len } := by
    constructor
    case inFrame => simp
    case toSound =>
      have hview : 0 + len.toNat ≤ s.par.bufCap := by omega
      have htx : 0 ≤ s.txLimit := Nat.zero_le _
      cases hs
      constructor <;> assumption
  cases hl : s.cfg.link
  · exact inv_goto hp rfl (by simp [hl, stageFits]) (by simp)
  · exact inv_goto hp rfl (by simp [hl, stageFits]) (by simp)

theorem execTxTake_inv (h : Inv s) : Answers (execTxTake s) Inv := by
  refine answers_ite (fun hst => ?_) fun _ => answers_next.mpr h
  have hs : Sound s.toIdle := (h.sound (by simp [hst])).of_frameOf rfl
  exact answers_next.mpr (hs.inv_waits (.inl rfl) rfl)

/-! ## The link layer -/

theorem execEthParse_inv (h : Inv s) (hst : s.stage = .eth) : Answers (execEthParse s) Inv := by
  have hp : Parsing s := h.parsing_at hst rfl
  have hlink : s.cfg.link = .eth := by simpa [stageFits] using h.link_at hst
  refine answers_ite (fun _ => inv_drop hp.toSound (by simp)) fun hlen => ?_
  refine answers_get_of_le hp.view (by omega) fun dst => ?_
  refine answers_get_of_le hp.view (by omega) fun src => ?_
  refine answers_get_of_le hp.view (by omega) fun ethertype => answers_next.mpr ?_
  have hsound := hp.toSound.withLink (src := .mac48 (ofBE 48 src)) (dst := .mac48 (ofBE 48 dst))
    (by rw [hlink]; rfl) (by rw [hlink]; rfl) s.panSrc s.panDst
  refine h.inv_dispatch (hst ▸ rfl) ⟨rfl, rfl, rfl, rfl, rfl⟩
    ⟨hsound.of_frameOf rfl, hp.inFrame⟩ rfl (fun _ => ?_) (by simp [hst])
  exact Nat.le_of_not_lt hlen

theorem ethHandOver_inv (h : Inv s) (hst : s.stage = .eth) {st : Stage} (hnext : st ∈ [Stage.arp, .ipv4, .ipv6]) :
    Answers (ethHandOver st s) Inv := by
  have hlink : s.cfg.link = .eth := by simpa [stageFits] using h.link_at hst
  have hp : Parsing (s.emit (.valid .eth)) := (h.parsing_at hst rfl).of_frameOf rfl
  refine inv_narrow hp fun hn => answers_next.mpr ?_
  have hg : Parsing (((s.emit (.valid .eth)).narrowed 14 (s.vlen.toNat - 14)).goto st) := hn.of_frameOf rfl
  simp only [List.mem_cons, List.not_mem_nil, or_false] at hnext
  refine hg.inv_entry ?_ rfl ?_ (by simp [hlink]) (by simp [hlink]) (by simp [hlink])
  · rcases hnext with rfl | rfl | rfl <;> rfl
  · rcases hnext with rfl | rfl | rfl <;> simp [stageFits, hlink]

theorem execMac154Parse_inv (h : Inv s) (hst : s.stage = .mac154) : Answers (execMac154Parse s) Inv := by
  have hp : Parsing s := h.parsing_at hst rfl
  refine answers_ite (fun _ => inv_drop hp.toSound (by simp)) fun hlen => ?_
  refine answers_get_of_le hp.view (by omega) fun f => ?_
  exact answers_get_of_le hp.view (by omega) fun seq => inv_latch_dispatch h hst rfl (by simp) rfl rfl

theorem wireAddr_fits (mode : BitVec 2) (wire : List Byte) : (wireAddr mode wire).fits .lowpan := by
  unfold wireAddr
  split <;> rfl

theorem getSrcPan_inv (hv : s.viewOk) {f dstPan : Half} {k : Half → Out} (hlen : macHeaderLen f ≤ s.vlen.toNat)
    (hk : ∀ p, Answers (k p) Inv) : Answers (s.getSrcPan f dstPan k) Inv := by
  refine answers_ite (fun hc => answers_get_of_le hv ?_ fun _ => hk _) fun _ => hk _
  simp only [macHeaderLen, hc] at hlen
  simp at hlen
  omega

theorem execMac154Data_inv (h : Inv s) (hst : s.stage = .mac154) : Answers (execMac154Data s) Inv := by
  have hp : Parsing s := h.parsing_at hst rfl
  have hlink : s.cfg.link = .lowpan := by simpa [stageFits] using h.link_at hst
  have hs : Sound s := hp.toSound
  refine answers_ite (fun _ => inv_drop hs (by simp)) fun _ => answers_ite (fun _ => inv_drop hs (by simp)) fun _ => ?_
  refine answers_ite (fun _ => inv_drop hs (by simp)) fun _ => answers_ite (fun _ => inv_drop hs (by simp)) fun _ => ?_
  refine answers_ite (fun _ => inv_drop hs (by simp)) fun hlen => ?_
  have hhl : macHeaderLen s.latched.mac.fcf ≤ s.vlen.toNat := Nat.le_of_not_lt hlen
  have hparts : 5 + addrLen (fcfDstMode s.latched.mac.fcf) + addrLen (fcfSrcMode s.latched.mac.fcf)
      ≤ macHeaderLen s.latched.mac.fcf := by unfold macHeaderLen; omega
  refine answers_get_of_le hp.view (by omega) fun dstPan => ?_
  refine answers_get_of_le hp.view (by omega) fun dst => getSrcPan_inv hp.view hhl fun srcPan => ?_
  refine answers_get_of_le hp.view (by omega) fun src => ?_
  have hsound := hs.withLink (src := wireAddr (fcfSrcMode s.latched.mac.fcf) src)
    (dst := wireAddr (fcfDstMode s.latched.mac.fcf) dst) (by rw [hlink]; exact wireAddr_fits _ _)
    (by rw [hlink]; exact wireAddr_fits _ _) srcPan (ofLE 16 dstPan)
  refine inv_narrow ?_ fun hn => ?_
  · exact ⟨hsound.of_frameOf rfl, hp.inFrame⟩
  · exact inv_goto hn rfl (by simp [stageFits, hlink]) (by simp)

/-! ## 6LoWPAN -/

theorem execLowpanParse_inv (h : Inv s) (hst : s.stage = .lowpan) : Answers (execLowpanParse s) Inv := by
  have hp : Parsing s := h.parsing_at hst rfl
  refine answers_ite (fun _ => inv_drop hp.toSound (by simp)) fun hlen => ?_
  exact answers_get_of_le hp.view (by omega) fun d => inv_latch_dispatch h hst rfl (by simp) rfl rfl

theorem scratchReady_written (a : Nat) (v : List Byte) : (s.scratchWrite a v).scratchReady a (a + v.length) := by
  intro i hlo hhi
  obtain ⟨j, rfl⟩ := Nat.exists_eq_add_of_le hlo
  rw [State.scratchWrite_scratch, memFind_memWriteBytes_inside (by omega)]
  rfl

/-- A write leaves what was written elsewhere. -/
theorem scratchReady_scratchWrite {a lo hi : Nat} {v : List Byte} (h : s.scratchReady lo hi)
    (hout : a + v.length ≤ lo) : (s.scratchWrite a v).scratchReady lo hi := by
  intro i hlo hhi
  rw [State.scratchWrite_scratch, memFind_memWriteBytes_outside (by omega)]
  exact h i hlo hhi

theorem ip6Bytes_length (r : Ip6Rec) : (ip6Bytes r).length = 40 := by simp [ip6Bytes]

theorem nhcHeader_length (sport dport : Half) (ulen : Nat) (ck : Half) : (nhcHeader sport dport ulen ck).length = 8 := by
  simp [nhcHeader]

/-- The `IPV6` stage is entered with its header in `SCRATCH` (R312, R474). -/
theorem narrow_ipv6_inv (h : Parsing u) (hip6 : u.scratchReady 0 40) (hudp : u.latched.udpNhc → u.scratchReady 40 48)
    (off len : Nat) : Answers (u.narrow off len fun s => .next ((s.emit (.valid .lowpan)).goto .ipv6)) Inv := by
  refine inv_narrow h fun hn => answers_next.mpr ?_
  refine Parsing.inv_entry ?_ rfl rfl rfl (fun _ _ => hip6) (fun _ hu _ => hudp hu) (by simp)
  exact hn.of_frameOf rfl

theorem lowpanHandOff_inv (h : Parsing u) (hudp : u.latched.udpNhc → u.scratchReady 40 48) (r : IphcRec) (plen : Nat) :
    Answers (lowpanHandOff r plen u) Inv := by
  have hlen := ip6Bytes_length (r.toIp6 plen)
  have hready := scratchReady_written (s := u) 0 (ip6Bytes (r.toIp6 plen))
  rw [hlen] at hready
  exact narrow_ipv6_inv (h.scratchWrite (by omega)) hready (fun hu => scratchReady_scratchWrite (hudp hu) (by omega)) _ _

/-- `LOWPAN.IPHC` with `NH = 1` leaves the NHC byte as the next tag (log 19). -/
theorem inv_nhc (h : Parsing u) (hst : u.stage = .lowpan) (hlink : u.cfg.link = .lowpan)
    (ho : u.latched.iphc.o ≤ u.vlen.toNat) : Inv u := by
  constructor
  case fatal => simpa [hst] using h.noFatal
  case invariant => exact h.noAbort
  case link => simp [hst, hlink, stageFits]
  case parseView => exact fun _ => h.inFrame
  case nhcPhase => exact fun _ => hst
  case cursor => exact fun _ => ho
  case entryPhase => simp [hst, stageParses, stageRuns]
  case noAbort | ethHeader | ip4Header | scratchIp6 | scratchUdp | net | resp | handler => simp [hst]
  all_goals cases h.toSound; assumption

theorem execLowpanIphc_inv (h : Inv s) (hst : s.stage = .lowpan) (tf : BitVec 2) (nh : BitVec 1) (hlim : BitVec 2) :
    Answers (execLowpanIphc tf nh hlim s) Inv := by
  have hp : Parsing s := h.parsing_at hst rfl
  have hlink : s.cfg.link = .lowpan := by simpa [stageFits] using h.link_at hst
  have hlatch (f : Records → Records) : Parsing (s.latch f) := hp.of_frameOf rfl
  refine answers_getView ?_
  split
  next c hc =>
    exact inv_drop (hlatch _).toSound ((iphcDecode_yields ..).1 c hc)
  next r rest hr =>
    have ho : r.o ≤ s.vlen.toNat := by simpa using (iphcDecode_yields ..).2 _ hr
    refine answers_ite (fun _ => ?_) fun _ => ?_
    · split
      next => exact inv_drop (hlatch _).toSound (by simp)
      next c _ =>
        refine answers_next.mpr (inv_nhc ?_ hst hlink ho)
        exact hp.of_frameOf rfl
    · refine lowpanHandOff_inv ?_ (by simp) _ _
      exact hp.of_frameOf rfl

theorem execNhcUdp_inv (h : Inv s) (hst : s.stage = .lowpan) (c : BitVec 1) (p : BitVec 2) :
    Answers (execNhcUdp c p s) Inv := by
  have hp : Parsing s := h.parsing_at hst rfl
  refine answers_getView ?_
  split
  next e he => exact inv_drop hp.toSound ((nhcDecode_yields ..).1 e he)
  next sport dport ck payload _ =>
    have hlen := nhcHeader_length sport dport (8 + payload.length) ck
    have hready := scratchReady_written (s := s) 40 (nhcHeader sport dport (8 + payload.length) ck)
    have hw := hp.scratchWrite (a := 40) (v := nhcHeader sport dport (8 + payload.length) ck) (by omega)
    rw [hlen] at hready
    refine lowpanHandOff_inv ?_ (fun _ => ?_) _ _
    · exact hw.of_frameOf rfl
    · exact scratchReady_of_scratch_eq hready rfl

theorem execNhcOther_inv (h : Inv s) (hst : s.stage = .lowpan) (c : Byte) : Answers (execNhcOther c s) Inv := by
  have hs : Sound s := h.sound (by simp [hst])
  refine answers_getView ?_
  split
  next e he => exact inv_drop hs ((takeN_yields ..).1 e he)
  next => exact inv_drop hs (by simp)

/-! ## ARP -/

theorem execArpParse_inv (h : Inv s) (hst : s.stage = .arp) : Answers (execArpParse s) Inv := by
  have hp : Parsing s := h.parsing_at hst rfl
  refine answers_ite (fun _ => inv_drop hp.toSound (by simp)) fun hlen => ?_
  iterate 9 refine answers_get_of_le hp.view (by omega) fun _ => ?_
  dsimp only
  split
  next c hc => exact inv_drop hp.toSound ((arpValid_yields _).1 c hc)
  next => exact inv_latch_dispatch h hst rfl (by simp) rfl rfl

theorem execArpRequest_inv (h : Inv s) (hst : s.stage = .arp) : Answers (execArpRequest s) Inv := by
  have hs : Sound s.arpLearn := (h.sound (by simp [hst])).arpLearn
  have hlink : s.cfg.link = .eth := by simpa [stageFits] using h.link_at hst
  refine answers_ite (fun _ => inv_drop hs (by simp)) fun _ => inv_respond ?_ rfl (by simp [Resp.fits, hlink])
  exact hs.of_frameOf rfl

/-! ## IPv4 -/

theorem execIp4Parse_inv (h : Inv s) (hst : s.stage = .ipv4) : Answers (execIp4Parse s) Inv := by
  have hp : Parsing s := h.parsing_at hst rfl
  have hs : Sound s := hp.toSound
  refine answers_ite (fun _ => inv_drop hs (by simp)) fun hlen => answers_get_of_le hp.view (by omega) fun b0 => ?_
  refine answers_ite (fun _ => inv_drop hs (by simp)) fun _ => answers_ite (fun _ => inv_drop hs (by simp)) fun hihl => ?_
  refine answers_ite (fun _ => inv_drop hs (by simp)) fun hhl => answers_get_of_le hp.view (by omega) fun total => ?_
  refine answers_ite (fun _ => inv_drop hs (by simp)) fun htot => answers_ite (fun _ => inv_drop hs (by simp)) fun hmin => ?_
  refine answers_get_of_le hp.view (by omega) fun header => answers_ite (fun _ => inv_drop hs (by simp)) fun _ => ?_
  refine answers_get_of_le hp.view (by omega) fun protocol => answers_get_of_le hp.view (by omega) fun src => ?_
  refine answers_get_of_le hp.view (by omega) fun dst => ?_
  refine answers_ite (fun _ => inv_drop hs (by simp)) fun _ => answers_next.mpr ?_
  refine h.inv_dispatch (hst ▸ rfl) ⟨rfl, rfl, rfl, rfl, rfl⟩ ?_ rfl (by simp [hst])
    fun _ => ?_
  · exact hp.of_frameOf rfl
  · simp only [Ip4Rec.hl, State.toDispatch_latched, State.latch_latched, State.toDispatch_vlen, State.latch_vlen]
    omega

/-- The view becomes the payload of the packet, and the next stage has its network context (R214, R215). -/
theorem ip4HandOver_inv (h : Parsing u) (hlink : u.cfg.link = .eth) {st : Stage} (hst : st = .icmp4 ∨ st = .udp) :
    Answers (ip4HandOver st u) Inv := by
  have he : Parsing (u.emit (.valid .ipv4)) := h.of_frameOf rfl
  unfold ip4HandOver
  refine inv_narrow he fun hn => answers_next.mpr ?_
  refine Parsing.inv_entry ?_ ?_ rfl ?_ (by simp [hlink]) (by simp [hlink]) (by simp [hlink])
  · exact hn.of_frameOf rfl
  · rcases hst with rfl | rfl <;> rfl
  · rcases hst with rfl | rfl <;> simp [stageFits, hlink]

theorem execIp4Icmp_inv (h : Inv s) (hst : s.stage = .ipv4) : Answers (execIp4Icmp s) Inv := by
  have hlink : s.cfg.link = .eth := by simpa [stageFits] using h.link_at hst
  exact ip4HandOver_inv (h.parsing_at hst rfl) hlink (.inl rfl)

theorem execIp4Udp_inv (h : Inv s) (hst : s.stage = .ipv4) : Answers (execIp4Udp s) Inv := by
  have hlink : s.cfg.link = .eth := by simpa [stageFits] using h.link_at hst
  have hp : Parsing s := h.parsing_at hst rfl
  unfold execIp4Udp
  refine ip4HandOver_inv ?_ ?_ (.inr rfl)
  · exact hp.of_frameOf rfl
  · exact hlink

/-! ## IPv6 -/

/-- The neighbour is learnt and the next header is read (R231, R233). -/
theorem ip6Learn_inv (h : Inv s) (hst : s.stage = .ipv6) (hu : Parsing u) (hstays : Stays s u) (r : Ip6Rec) :
    Inv (u.latch fun l => { l with ip6 := r }).nbrLearn.toDispatch := by
  have hlatch : Parsing (u.latch fun l => { l with ip6 := r }) := hu.of_frameOf rfl
  obtain ⟨hstage, hcfg, hscratch, hnet, hudp⟩ := hstays
  exact h.inv_dispatch (hst ▸ rfl) ⟨hstage, hcfg, hscratch, hnet, hudp⟩
    (hlatch.nbrLearn.of_frameOf rfl) rfl (by simp [hst]) (by simp [hst])

theorem execIp6Parse_inv (h : Inv s) (hst : s.stage = .ipv6) : Answers (execIp6Parse s) Inv := by
  have hp : Parsing s := h.parsing_at hst rfl
  have hs : Sound s := hp.toSound
  unfold execIp6Parse
  split
  · refine answers_ite (fun _ => inv_drop hs (by simp)) fun hlen => answers_get_of_le hp.view (by omega) fun header => ?_
    refine answers_ite (fun _ => inv_drop hs (by simp)) fun _ => answers_ite (fun _ => inv_drop hs (by simp)) fun _ => ?_
    exact inv_narrow hp fun hn => answers_next.mpr (ip6Learn_inv h hst hn ⟨rfl, rfl, rfl, rfl, rfl⟩ _)
  · exact answers_next.mpr (ip6Learn_inv h hst hp ⟨rfl, rfl, rfl, rfl, rfl⟩ _)

theorem execIp6Icmp6_inv (h : Inv s) (hst : s.stage = .ipv6) : Answers (execIp6Icmp6 s) Inv := by
  have hp : Parsing s := h.parsing_at hst rfl
  refine answers_next.mpr (Parsing.inv_entry ?_ rfl rfl rfl (by simp) ?_ (by simp))
  · exact hp.of_frameOf rfl
  · exact fun hlink hudp _ => h.scratchUdp hlink hudp (by simp [hst])

theorem execIp6Udp_inv (h : Inv s) (hst : s.stage = .ipv6) : Answers (execIp6Udp s) Inv := by
  have hp : Parsing s := h.parsing_at hst rfl
  refine answers_ite (fun _ => inv_drop hp.toSound (by simp)) fun _ => answers_next.mpr ?_
  refine Parsing.inv_entry ?_ rfl rfl rfl (by simp) ?_ (by simp)
  · exact hp.of_frameOf rfl
  · exact fun hlink hudp _ => h.scratchUdp hlink hudp (by simp [hst])

/-! ## ICMP -/

theorem execIcmp4Parse_inv (h : Inv s) (hst : s.stage = .icmp4) : Answers (execIcmp4Parse s) Inv := by
  have hs : Sound s := h.sound (by simp [hst])
  exact answers_getView <| answers_ite (fun _ => inv_drop hs (by simp)) fun _ =>
    inv_latch_dispatch h hst rfl (by simp) rfl rfl

theorem execIcmp4Echo_inv (h : Inv s) (hst : s.stage = .icmp4) : Answers (execIcmp4Echo s) Inv := by
  have hs : Sound s := h.sound (by simp [hst])
  have hlink : s.cfg.link = .eth := by simpa [stageFits] using h.link_at hst
  refine answers_getView <| answers_ite (fun _ => inv_drop hs (by simp)) fun _ => ?_
  refine answers_ite (fun _ => inv_drop hs (by simp)) fun _ => inv_respond ?_ rfl (by simp [Resp.fits, hlink])
  exact hs.of_frameOf rfl

theorem execIcmp6Parse_inv (h : Inv s) (hst : s.stage = .icmp6) : Answers (execIcmp6Parse s) Inv := by
  have hs : Sound s := h.sound (by simp [hst])
  exact answers_getUpper <| answers_ite (fun _ => inv_drop hs (by simp)) fun _ =>
    inv_latch_dispatch h hst rfl (by simp) rfl rfl

theorem execIcmp6Echo_inv (h : Inv s) (hst : s.stage = .icmp6) : Answers (execIcmp6Echo s) Inv := by
  have hs : Sound s := h.sound (by simp [hst])
  refine answers_getUpper <| answers_ite (fun _ => inv_drop hs (by simp)) fun _ => ?_
  refine answers_ite (fun _ => inv_drop hs (by simp)) fun _ => answers_ite (fun _ => inv_drop hs (by simp)) fun _ => ?_
  refine inv_respond ?_ rfl rfl
  exact hs.of_frameOf rfl

theorem execIcmp6Ns_inv (h : Inv s) (hst : s.stage = .icmp6) : Answers (execIcmp6Ns s) Inv := by
  have hs : Sound s := h.sound (by simp [hst])
  refine answers_getUpper <| answers_ite (fun _ => inv_drop hs (by simp)) fun _ => ?_
  refine answers_ite (fun _ => inv_drop hs (by simp)) fun _ => answers_ite (fun _ => inv_drop hs (by simp)) fun _ => ?_
  refine answers_ite (fun _ => inv_drop hs (by simp)) fun _ => inv_respond ?_ rfl rfl
  exact hs.of_frameOf rfl

/-! ## UDP and CoAP -/

/-- A datagram goes back in the network it came from, which the link can carry (R288, R406). -/
theorem udpWrap_fits (cfg : Straps) (l : Records) (sport dport : Half) (payload : List Byte)
    (hnet : l.net = .ip4 → cfg.link = .eth) : (udpWrap cfg l sport dport payload).fits cfg.link := by
  unfold udpWrap
  dsimp only
  split
  · simpa [Resp.fits] using hnet ‹_›
  · rfl

theorem execUdpParse_inv (h : Inv s) (hst : s.stage = .udp) : Answers (execUdpParse s) Inv := by
  have hs : Sound s := h.sound (by simp [hst])
  refine answers_getUpper <| answers_ite (fun _ => inv_drop hs (by simp)) fun _ => ?_
  refine answers_ite (fun _ => inv_drop hs (by simp)) fun _ => answers_ite (fun _ => inv_drop hs (by simp)) fun _ => ?_
  exact answers_ite (fun _ => inv_drop hs (by simp)) fun _ => inv_latch_dispatch h hst rfl (by simp) rfl rfl

theorem execUdpCoap_inv (h : Inv s) (hst : s.stage = .udp) : Answers (execUdpCoap s) Inv := by
  have hp : Parsing s := h.parsing_at hst rfl
  refine answers_next.mpr (Parsing.inv_entry ?_ rfl rfl rfl (by simp) (by simp) ?_)
  · exact hp.of_frameOf rfl
  · exact fun _ hnet => h.net (by simp [hst]) hnet

theorem execUdpEcho_inv (h : Inv s) (hst : s.stage = .udp) (dport : Half) : Answers (execUdpEcho dport s) Inv := by
  have hs : Sound s := h.sound (by simp [hst])
  refine inv_respond ?_ rfl (udpWrap_fits _ _ _ _ _ fun hnet => h.net (by simp [hst]) hnet)
  exact hs.of_frameOf rfl

theorem execCoapParse_inv (h : Inv s) (hst : s.stage = .coap) : Answers (execCoapParse s) Inv := by
  have hs : Sound s := h.sound (by simp [hst])
  unfold execCoapParse
  dsimp only
  split
  next c hc => exact inv_drop hs ((coapHeader_yields _).1 c hc)
  next =>
    refine answers_ite (fun _ => ?_) fun _ => inv_latch_dispatch h hst rfl (by simp) rfl rfl
    split
    next c hc => exact inv_drop hs ((coapOptions_yields ..).1 c hc)
    next => exact inv_latch_dispatch h hst rfl (by simp) rfl rfl

theorem coapRespond_inv (h : Sound u) (hnet : u.latched.net = .ip4 → u.cfg.link = .eth) (rcode : Byte)
    (body : List Byte) : Answers (coapRespond rcode body u) Inv := by
  refine inv_respond ?_ rfl (udpWrap_fits _ _ _ _ _ hnet)
  exact h.of_frameOf rfl

theorem execCoapPutLed_inv (h : Inv s) (hst : s.stage = .coap) : Answers (execCoapPutLed s) Inv := by
  have hs : Sound s := h.sound (by simp [hst])
  have hnet : s.latched.net = .ip4 → s.cfg.link = .eth := h.net (by simp [hst])
  unfold execCoapPutLed
  split
  next v _ =>
    have hled : Sound { s with led := v } := by cases hs; constructor <;> assumption
    exact coapRespond_inv hled hnet _ _
  next => exact coapRespond_inv hs hnet _ _

/-! ## BUILD -/

theorem execBuild_inv (h : Inv s) (hst : s.stage = .build) : Answers (execBuild s) Inv := by
  have hs : Sound s := h.sound (by simp [hst])
  have hcap : s.par.bufCap ≤ 65535 := h.par.2.1
  have hlimit : s.txLimit ≤ s.par.bufCap := Nat.min_le_left _ _
  unfold execBuild
  split
  next => exact answers_fault _
  next frame _ =>
    refine answers_ite (fun _ => inv_drop hs (by simp)) fun hfits => ?_
    have hmod : s.txLimit % 65536 = s.txLimit := Nat.mod_eq_of_lt (by omega)
    rw [set_ok (by simp [State.viewOk, hmod]; omega) (by simp [hmod]; omega)]
    exact answers_next.mpr (((hs.withResponse (by omega)).advanceDsn.finishSent _).inv_waits (.inr rfl) rfl)

/-! ## The step -/

/-- In its place every operation keeps the invariant. -/
theorem exec_inv (h : Inv s) (i : Instr) (hplace : place i = (s.stage, s.phase)) : Answers (exec i s) Inv := by
  have hst : s.stage = (place i).1 := (congrArg Prod.fst hplace).symm
  cases i with
  | rxAccept len => exact execRxAccept_inv h len
  | txTake => exact execTxTake_inv h
  | ethParse => exact execEthParse_inv h hst
  | ethArp => exact ethHandOver_inv h hst (by simp)
  | ethIpv4 => exact ethHandOver_inv h hst (by simp)
  | ethIpv6 => exact ethHandOver_inv h hst (by simp)
  | mac154Parse => exact execMac154Parse_inv h hst
  | mac154Data => exact execMac154Data_inv h hst
  | lowpanParse => exact execLowpanParse_inv h hst
  | lowpanIphc tf nh hlim => exact execLowpanIphc_inv h hst tf nh hlim
  | nhcUdp c p => exact execNhcUdp_inv h hst c p
  | nhcOther c => exact execNhcOther_inv h hst c
  | arpParse => exact execArpParse_inv h hst
  | arpRequest => exact execArpRequest_inv h hst
  | arpReply => exact inv_drop (h.sound (by simp [hst, place])).arpLearn (by simp)
  | ip4Parse => exact execIp4Parse_inv h hst
  | ip4Icmp => exact execIp4Icmp_inv h hst
  | ip4Udp => exact execIp4Udp_inv h hst
  | ip6Parse => exact execIp6Parse_inv h hst
  | ip6Icmp6 => exact execIp6Icmp6_inv h hst
  | ip6Udp => exact execIp6Udp_inv h hst
  | icmp4Parse => exact execIcmp4Parse_inv h hst
  | icmp4Echo => exact execIcmp4Echo_inv h hst
  | icmp6Parse => exact execIcmp6Parse_inv h hst
  | icmp6Echo => exact execIcmp6Echo_inv h hst
  | icmp6Ns => exact execIcmp6Ns_inv h hst
  | udpParse => exact execUdpParse_inv h hst
  | udpCoap => exact execUdpCoap_inv h hst
  | udpEcho dport => exact execUdpEcho_inv h hst dport
  | coapParse => exact execCoapParse_inv h hst
  | coapPutLed => exact execCoapPutLed_inv h hst
  | coapGetLed | coapNotFound | coapNotAllowed =>
    exact coapRespond_inv (h.sound (by simp [hst, place])) (h.net (by simp [hst, place])) _ _
  | build => exact execBuild_inv h hst
  | ethOther | mac154Other | lowpanOther | arpOther | ip4Other | ip6Other | icmp4Other | icmp6Other | coapOther =>
    exact inv_drop (h.sound (by simp [hst, place])) (by simp)

theorem hostMove_inv {t : State} (h : Inv s) (hm : HostMove s t) : Inv t := by
  cases hm with
  | waits => exact h
  | looks later => exact h.withHost later
  | writes later addr data hst ha =>
    have hs : Sound s := h.sound (by simp [hst])
    have hph : s.phase = .entry := h.entryPhase (by simp [hst, stageParses, stageRuns])
    have hwrite := hs.withMem (memWrite_wf hs.memWf addr.toNat data) (memWrite_within hs.memWithin ha data)
    exact (hwrite.withHost later).inv_waits (.inl hst) hph
  | faults later => exact (h.withHost later).raiseFatal
  | accepts later len hx => exact execRxAccept_inv (h.withHost later) len t hx
  | takes later hx => exact execTxTake_inv (h.withHost later) t hx

end

/-- Settles O49: a reset starts afresh, an operation of a run stands in its place, and the host's samples touch what no
stage relies on. -/
theorem stepKeepsTheMachineInvariant : Obligations.StepKeepsTheMachineInvariant := by
  intro s t h hstep
  rcases step_cases hstep with ⟨straps, later, -, rfl⟩ | ⟨-, i, hdec, hi⟩ | ⟨-, hm⟩
  · exact h.hardReset straps later
  · exact exec_inv h i (place_of_decode h hdec) t hi
  · exact hostMove_inv h hm

/-- Settles O48. -/
theorem resetMeetsTheMachineInvariant : Obligations.ResetMeetsTheMachineInvariant :=
  inv_resetWith (by decide) Config.straps

end Sys2Proof.Machine
end

