-- ==== Sys2Proof/Proofs/Memory/Buffer.lean ====
section
/-! SUPPORT. The buffer during a run (R65, R81): only `BUILD` and the exits of a run write it. -/

namespace Sys2Proof.Machine

section

variable {w : List Reg} {i : Instr} {s t : State}

/-- The exits of a run leave it: an operation after which the run goes on wrote nothing but its own parts. -/
theorem Ends.kept_of_runs (h : Ends w s t) (hr : stageRuns t.stage) : Kept w s t := by
  cases h with
  | goesOn h => exact h
  | dropped | sent | aborted => simp [stageRuns] at hr

theorem exec_kept_of_runs (h : exec i s = .next t) (hr : stageRuns t.stage) : Kept (writes s.cfg.link i) s t :=
  (exec_ends i s t h).kept_of_runs hr

/-- `BUILD` ends the run, by a response, a drop or an abort (R402, R409). -/
theorem execBuild_stops : Answers (execBuild s) fun t => stageRuns t.stage = false := by
  unfold execBuild
  split
  · exact answers_fault _
  · exact answers_ite (fun _ => answers_next.mpr rfl) fun _ => answers_set rfl (answers_next.mpr rfl)

theorem buf_mem_writes {l : Link} (h : .buf ∈ writes l i) : i = .build := by
  cases i <;> simp_all [writes]

/-- While the run goes on the bytes with a specified value stay, and no other byte changes its free value. -/
theorem exec_keeps_buf (h : exec i s = .next t) (hr : stageRuns t.stage) : t.mem = s.mem ∧ t.epoch = s.epoch := by
  have hkept : Kept (writes s.cfg.link i) s t := exec_kept_of_runs h hr
  have hbuf : Reg.buf ∉ writes s.cfg.link i := fun hb => by
    cases buf_mem_writes hb
    simp [execBuild_stops t h] at hr
  have hepochs : (t.epoch, t.scratchEpoch) = (s.epoch, s.scratchEpoch) := hkept .epochs (not_mem_writes (by simp))
  exact ⟨hkept .buf hbuf, congrArg Prod.fst hepochs⟩

end

/-- Settles O57: a byte reads by the specified bytes and the epoch, and both are kept. -/
theorem noByteIsWrittenBeforeTheEnd : Obligations.NoByteIsWrittenBeforeTheEnd := by
  intro i s t h hr a
  obtain ⟨hmem, hepoch⟩ := exec_keeps_buf h hr
  unfold State.readBuf
  rw [hmem, hepoch]

end Sys2Proof.Machine
end

