-- ==== Sys2Proof/Proofs/Memory/View.lean ====
section
/-! SUPPORT. The view during a run (R74): every operation keeps or narrows it, and one that consumes a header makes it
strictly smaller. -/

namespace Sys2Proof.Machine

/-! ## What the decompressor leaves of its bytes (R303) -/

theorem takeN_rest (n : Nat) (rest : List Byte) : Yields (takeN n rest) fun x => x.2.length + n = rest.length := by
  unfold takeN
  split
  · exact yields_error (by simp)
  · exact yields_ok (by simp; omega)

theorem takeN_shortens (n : Nat) (rest : List Byte) : Yields (takeN n rest) fun x => x.2.length ≤ rest.length :=
  ⟨(takeN_rest n rest).1, fun x hx => Nat.le.intro ((takeN_rest n rest).2 x hx)⟩

/-- A parser that takes bytes once and hands on what is left. -/
theorem take_then_shortens {α : Type} {n : Nat} {rest : List Byte} {f : List Byte × List Byte → α}
    {left : α → List Byte} (hf : ∀ x, left (f x) = x.2) :
    Yields (takeN n rest >>= fun x => .ok (f x)) fun r => (left r).length ≤ rest.length :=
  yields_bind (takeN_shortens n rest) fun x hx => yields_ok (by rw [hf x]; exact hx)

theorem iphcTf_shortens (tf : BitVec 2) (rest : List Byte) :
    Yields (iphcTf tf rest) fun r => r.2.2.length ≤ rest.length :=
  yields_ite (take_then_shortens fun _ => rfl) <| yields_ite (take_then_shortens fun _ => rfl) <|
    yields_ite (take_then_shortens fun _ => rfl) (yields_ok (Nat.le_refl _))

theorem iphcNh_shortens (nh : BitVec 1) (rest : List Byte) :
    Yields (iphcNh nh rest) fun r => r.2.length ≤ rest.length :=
  yields_ite (take_then_shortens fun _ => rfl) (yields_ok (Nat.le_refl _))

theorem iphcHlim_shortens (hlim : BitVec 2) (rest : List Byte) :
    Yields (iphcHlim hlim rest) fun r => r.2.length ≤ rest.length :=
  yields_ite (take_then_shortens fun _ => rfl) <| yields_ite (yields_ok (Nat.le_refl _)) <|
    yields_ite (yields_ok (Nat.le_refl _)) (yields_ok (Nat.le_refl _))

theorem iphcUnicast_shortens (mode : BitVec 2) (ll : LlAddr) (rest : List Byte) :
    Yields (iphcUnicast mode ll rest) fun r => r.2.length ≤ rest.length :=
  yields_ite (takeN_shortens _ _) <| yields_ite (take_then_shortens fun _ => rfl) <|
    yields_ite (take_then_shortens fun _ => rfl) (yields_ok (Nat.le_refl _))

theorem iphcSrc_shortens (sac : BitVec 1) (sam : BitVec 2) (ll : LlAddr) (rest : List Byte) :
    Yields (iphcSrc sac sam ll rest) fun r => r.2.length ≤ rest.length :=
  yields_ite (yields_ok (Nat.le_refl _)) (iphcUnicast_shortens sam ll rest)

theorem iphcDst_shortens (m : BitVec 1) (dam : BitVec 2) (ll : LlAddr) (rest : List Byte) :
    Yields (iphcDst m dam ll rest) fun r => r.2.length ≤ rest.length :=
  yields_ite (iphcUnicast_shortens dam ll rest) <| yields_ite (takeN_shortens _ _) <|
    yields_ite (take_then_shortens fun _ => rfl) <| yields_ite (take_then_shortens fun _ => rfl)
      (take_then_shortens fun _ => rfl)

/-- The cursor is past the two base bytes (R303, R304). -/
theorem iphcDecode_advances (tf : BitVec 2) (nh : BitVec 1) (hlim : BitVec 2) (llSrc llDst : LlAddr) (v : List Byte) :
    Yields (iphcDecode tf nh hlim llSrc llDst v) fun r => 0 < r.1.o := by
  refine yields_bind (takeN_rest 1 v) fun ⟨_, _⟩ h₀ => yields_bind (takeN_rest 1 _) fun ⟨_, _⟩ h₁ => ?_
  refine yields_ite (yields_error (by simp)) ?_
  refine yields_bind (iphcTf_shortens tf _) fun ⟨_, _, _⟩ h₂ => yields_bind (iphcNh_shortens nh _) fun ⟨_, _⟩ h₃ => ?_
  refine yields_bind (iphcHlim_shortens hlim _) fun ⟨_, _⟩ h₄ => ?_
  refine yields_bind (iphcSrc_shortens _ _ llSrc _) fun ⟨_, _⟩ h₅ => ?_
  refine yields_bind (iphcDst_shortens _ _ llDst _) fun ⟨_, _⟩ h₆ => yields_ok ?_
  dsimp only at *
  omega

theorem nhcPorts_shortens (p : BitVec 2) (rest : List Byte) :
    Yields (nhcPorts p rest) fun r => r.2.2.length ≤ rest.length :=
  yields_ite (take_then_shortens fun _ => rfl) <| yields_ite (take_then_shortens fun _ => rfl) <|
    yields_ite (take_then_shortens fun _ => rfl) (take_then_shortens fun _ => rfl)

theorem nhcCksum_shortens (c : BitVec 1) (rest : List Byte) :
    Yields (nhcCksum c rest) fun r => r.2.length ≤ rest.length :=
  yields_ite (take_then_shortens fun _ => rfl) (yields_ok (Nat.le_refl _))

/-- At least the NHC byte is taken (R318). -/
theorem nhcDecode_shortens (c : BitVec 1) (p : BitVec 2) (rest : List Byte) :
    Yields (nhcDecode c p rest) fun r => r.2.2.2.length < rest.length := by
  refine yields_bind (takeN_rest 1 rest) fun ⟨_, _⟩ h₀ => yields_bind (nhcPorts_shortens p _) fun ⟨_, _, _⟩ h₁ => ?_
  refine yields_bind (nhcCksum_shortens c _) fun ⟨_, _⟩ h₂ => yields_ok ?_
  dsimp only at *
  omega

/-! ## The rules -/

/-- The step from `s` to `t` consumes a header: a stage below the network layer or `IPV4` hands over, or `IPV6` is
entered with its header in the view (R74). -/
def ConsumesHeader (s t : State) : Prop :=
  s.stage ∈ [Stage.eth, .mac154, .lowpan, .ipv4] ∧ t.stage ≠ s.stage ∨
    s.stage = .ipv6 ∧ s.phase = .entry ∧ s.cfg.link = .eth

/-- If the run goes on, the view has not moved out of the old one, and it is smaller when a header is consumed. -/
def Narrows (s t : State) : Prop :=
  stageRuns t.stage → s.vbase.toNat ≤ t.vbase.toNat ∧
    t.vbase.toNat + t.vlen.toNat ≤ s.vbase.toNat + s.vlen.toNat ∧ (ConsumesHeader s t → t.vlen.toNat < s.vlen.toNat)

section

variable {s t u : State}

/-- An exit ends the run. -/
theorem narrows_of_stops (h : stageRuns t.stage = false) : Narrows s t := fun hr => by simp [h] at hr

theorem narrows_drop {st : Stage} {c : Cause} : Answers (u.drop st c) (Narrows s) :=
  answers_next.mpr (narrows_of_stops rfl)

theorem narrows_get {off n : Nat} {k : List Byte → Out} (hk : ∀ bs, Answers (k bs) (Narrows s)) :
    Answers (u.get off n k) (Narrows s) := answers_get (narrows_of_stops rfl) hk

theorem narrows_of_same_view (hview : (t.vbase, t.vlen) = (s.vbase, s.vlen)) (hkeep : ¬ ConsumesHeader s t) :
    Narrows s t := by
  obtain ⟨hbase, hlen⟩ := Prod.mk.inj hview
  intro _
  rw [hbase, hlen]
  exact ⟨Nat.le_refl _, Nat.le_refl _, fun hc => absurd hc hkeep⟩

/-- An operation that stays in its stage consumes no header below `IPV6`. -/
theorem narrows_stays (hst : s.stage ≠ .ipv6) (hstage : t.stage = s.stage)
    (hview : (t.vbase, t.vlen) = (s.vbase, s.vlen)) : Answers (.next t) (Narrows s) := by
  refine answers_next.mpr (narrows_of_same_view hview ?_)
  simp [ConsumesHeader, hst, hstage]

/-- A successful `NARROW` past a header makes the view strictly smaller. -/
theorem narrows_narrow (h : Parsing s) (hview : (u.vbase, u.vlen) = (s.vbase, s.vlen)) {off len : Nat} (hoff : 0 < off)
    {k : State → Out} (hk : ∀ v, Answers (k v) fun t => (t.vbase, t.vlen) = (v.vbase, v.vlen)) :
    Answers (u.narrow off len k) (Narrows s) := by
  obtain ⟨hbase, hlen⟩ := Prod.mk.inj hview
  refine answers_narrow (narrows_of_stops rfl) fun hle t ht _ => ?_
  obtain ⟨htbase, htlen⟩ := Prod.mk.inj (hk (u.narrowed off len) t ht)
  have hframe := h.inFrame
  have hrx := s.rxlen.isLt
  rw [htbase, htlen, State.narrowed_vbase, State.narrowed_vlen, hbase]
  rw [hlen] at hle
  simp only [BitVec.toNat_ofNat]
  rw [Nat.mod_eq_of_lt (by omega), Nat.mod_eq_of_lt (by omega)]
  omega

/-! ## The operations that write the view -/

theorem ethHandOver_narrows (h : Parsing s) (st : Stage) : Answers (ethHandOver st s) (Narrows s) := by
  unfold ethHandOver
  refine narrows_narrow h ?_ (by omega) fun _ => answers_next.mpr ?_
  · rfl
  · rfl

theorem narrows_getSrcPan {f dstPan : Half} {k : Half → Out} (hk : ∀ p, Answers (k p) (Narrows s)) :
    Answers (u.getSrcPan f dstPan k) (Narrows s) :=
  answers_ite (fun _ => narrows_get fun _ => hk _) fun _ => hk _

theorem execMac154Data_narrows (h : Parsing s) : Answers (execMac154Data s) (Narrows s) := by
  refine answers_ite (fun _ => narrows_drop) fun _ => answers_ite (fun _ => narrows_drop) fun _ => ?_
  refine answers_ite (fun _ => narrows_drop) fun _ => answers_ite (fun _ => narrows_drop) fun _ => ?_
  refine answers_ite (fun _ => narrows_drop) fun _ => narrows_get fun dstPan => narrows_get fun dst => ?_
  have hhl : 0 < macHeaderLen s.latched.mac.fcf := by unfold macHeaderLen; omega
  refine narrows_getSrcPan fun srcPan => narrows_get fun src => narrows_narrow h ?_ hhl fun _ => answers_next.mpr ?_
  · rfl
  · rfl

theorem lowpanHandOff_narrows (h : Parsing s) (hview : (u.vbase, u.vlen) = (s.vbase, s.vlen)) {r : IphcRec}
    (ho : 0 < r.o) (plen : Nat) : Answers (lowpanHandOff r plen u) (Narrows s) := by
  unfold lowpanHandOff
  refine narrows_narrow h ?_ ho fun _ => answers_next.mpr ?_
  · simpa using hview
  · rfl

theorem execLowpanIphc_narrows (h : Parsing s) (hst : s.stage = .lowpan) (tf : BitVec 2) (nh : BitVec 1)
    (hlim : BitVec 2) : Answers (execLowpanIphc tf nh hlim s) (Narrows s) := by
  refine answers_getView ?_
  split
  next => exact narrows_drop
  next r rest hr =>
    have ho : 0 < r.o := (iphcDecode_advances ..).2 _ hr
    refine answers_ite (fun _ => ?_) fun _ => ?_
    · split
      · exact narrows_drop
      · exact narrows_stays (by simp [hst]) rfl rfl
    · refine lowpanHandOff_narrows h ?_ ?_ _
      · rfl
      · exact ho

theorem execNhcUdp_narrows (h : Parsing s) (c : BitVec 1) (p : BitVec 2) : Answers (execNhcUdp c p s) (Narrows s) := by
  refine answers_getView ?_
  split
  next => exact narrows_drop
  next sport dport ck payload hd =>
    have hlen : payload.length < (s.view.drop s.latched.iphc.o).length := (nhcDecode_shortens ..).2 _ hd
    rw [List.length_drop] at hlen
    have ho : 0 < s.view.length - payload.length := by omega
    refine lowpanHandOff_narrows h ?_ ?_ _
    · rfl
    · exact ho

theorem ip4HandOver_narrows (h : Parsing s) (hview : (u.vbase, u.vlen) = (s.vbase, s.vlen))
    (hhl : 0 < u.latched.ip4.hl) (st : Stage) : Answers (ip4HandOver st u) (Narrows s) := by
  unfold ip4HandOver
  refine narrows_narrow h ?_ hhl fun _ => answers_next.mpr ?_
  · exact hview
  · rfl

/-- A parsed header has its 20 bytes (R211). -/
theorem Inv.ip4_hl_pos (h : Inv s) (hst : s.stage = .ipv4) (hph : s.phase = .dispatch) : 0 < s.latched.ip4.hl :=
  Nat.lt_of_lt_of_le (Nat.succ_pos 19) (h.ip4Header hst hph).1

theorem execIp6Parse_narrows (h : Parsing s) (hst : s.stage = .ipv6) : Answers (execIp6Parse s) (Narrows s) := by
  unfold execIp6Parse
  split
  next =>
    refine answers_ite (fun _ => narrows_drop) fun _ => narrows_get fun header => ?_
    refine answers_ite (fun _ => narrows_drop) fun _ => answers_ite (fun _ => narrows_drop) fun _ => ?_
    exact narrows_narrow h rfl (by omega) fun _ => answers_next.mpr rfl
  next hlink =>
    refine answers_next.mpr (narrows_of_same_view rfl ?_)
    simp [ConsumesHeader, hst, hlink]

/-! ## The entry operations that leave it -/

theorem execEthParse_narrows (hst : s.stage = .eth) : Answers (execEthParse s) (Narrows s) := by
  refine answers_ite (fun _ => narrows_drop) fun _ => narrows_get fun dst => narrows_get fun src => ?_
  exact narrows_get fun ethertype => narrows_stays (by simp [hst]) rfl rfl

theorem execMac154Parse_narrows (hst : s.stage = .mac154) : Answers (execMac154Parse s) (Narrows s) :=
  answers_ite (fun _ => narrows_drop) fun _ => narrows_get fun _ => narrows_get fun _ =>
    narrows_stays (by simp [hst]) rfl rfl

theorem execLowpanParse_narrows (hst : s.stage = .lowpan) : Answers (execLowpanParse s) (Narrows s) :=
  answers_ite (fun _ => narrows_drop) fun _ => narrows_get fun _ => narrows_stays (by simp [hst]) rfl rfl

theorem execNhcOther_narrows (c : Byte) : Answers (execNhcOther c s) (Narrows s) := by
  refine answers_getView ?_
  split <;> exact narrows_drop

theorem execIp4Parse_narrows (hst : s.stage = .ipv4) : Answers (execIp4Parse s) (Narrows s) := by
  refine answers_ite (fun _ => narrows_drop) fun _ => narrows_get fun b0 => answers_ite (fun _ => narrows_drop) fun _ => ?_
  refine answers_ite (fun _ => narrows_drop) fun _ => answers_ite (fun _ => narrows_drop) fun _ => ?_
  refine narrows_get fun total => answers_ite (fun _ => narrows_drop) fun _ => ?_
  refine answers_ite (fun _ => narrows_drop) fun _ => narrows_get fun header => ?_
  refine answers_ite (fun _ => narrows_drop) fun _ => narrows_get fun protocol => narrows_get fun src => ?_
  refine narrows_get fun dst => answers_ite (fun _ => narrows_drop) fun _ => ?_
  exact narrows_stays (by simp [hst]) rfl rfl

/-! ## The step -/

/-- Above the network layer, and in the dispatch of `IPV6`, no header is consumed from the view. -/
theorem exec_narrows_of_not_consumes {i : Instr} (hw : .view ∉ writes s.cfg.link i)
    (hst : s.stage ∉ [Stage.eth, .mac154, .lowpan, .ipv4]) (hip6 : s.stage = .ipv6 → s.phase ≠ .entry) :
    Answers (exec i s) (Narrows s) := by
  intro t ht hr
  refine narrows_of_same_view (exec_kept_of_runs ht hr .view hw) ?_ hr
  rintro (⟨hmem, -⟩ | ⟨h6, hph, -⟩)
  · exact hst hmem
  · exact hip6 h6 hph

/-- In its place every operation of a run keeps the view or narrows it. -/
theorem exec_narrows (h : Inv s) (hruns : stageRuns s.stage) (i : Instr) (hplace : place i = (s.stage, s.phase)) :
    Answers (exec i s) (Narrows s) := by
  obtain ⟨hst, hph⟩ := Prod.mk.inj hplace.symm
  cases i with
  | rxAccept | txTake => simp [hst, stageRuns] at hruns
  | ethParse => exact execEthParse_narrows hst
  | ethArp | ethIpv4 | ethIpv6 => exact ethHandOver_narrows (h.parsing_at hst rfl) _
  | mac154Parse => exact execMac154Parse_narrows hst
  | mac154Data => exact execMac154Data_narrows (h.parsing_at hst rfl)
  | lowpanParse => exact execLowpanParse_narrows hst
  | lowpanIphc tf nh hlim => exact execLowpanIphc_narrows (h.parsing_at hst rfl) hst tf nh hlim
  | nhcUdp c p => exact execNhcUdp_narrows (h.parsing_at hst rfl) c p
  | nhcOther c => exact execNhcOther_narrows c
  | ip4Parse => exact execIp4Parse_narrows hst
  | ip4Icmp => exact ip4HandOver_narrows (h.parsing_at hst rfl) rfl (h.ip4_hl_pos hst hph) _
  | ip4Udp =>
    refine ip4HandOver_narrows (h.parsing_at hst rfl) ?_ ?_ _
    · rfl
    · exact h.ip4_hl_pos hst hph
  | ip6Parse => exact execIp6Parse_narrows (h.parsing_at hst rfl) hst
  | ethOther | mac154Other | lowpanOther | ip4Other => exact narrows_drop
  | arpParse | arpRequest | arpReply | arpOther | ip6Icmp6 | ip6Udp | ip6Other | icmp4Parse | icmp4Echo | icmp4Other
  | icmp6Parse | icmp6Echo | icmp6Ns | icmp6Other | udpParse | udpCoap | udpEcho | coapParse | coapGetLed | coapPutLed
  | coapNotFound | coapNotAllowed | coapOther =>
    exact exec_narrows_of_not_consumes (by simp [writes]) (by simp [hst]) (by simp [hst, hph])
  | build =>
    intro t ht
    exact narrows_of_stops (execBuild_stops t ht)

end

/-- Settles O58. -/
theorem narrowingOnlyShrinksTheView : Obligations.NarrowingOnlyShrinksTheView := by
  intro s t h hruns hreset hstep hr
  rcases step_cases hstep with ⟨straps, later, heq, -⟩ | ⟨-, i, hdec, hi⟩ | ⟨hstops, -⟩
  · simp [State.resetNext, heq] at hreset
  · exact exec_narrows h hruns i (place_of_decode h hdec) t hi hr
  · simp [hstops] at hruns

end Sys2Proof.Machine
end

