-- ==== Sys2Proof/Proofs/Memory/Fetch.lean ====
section
/-! SUPPORT. The bytes of the tag fit its selector, so a run always has a next operation (R140, R401). -/

namespace Sys2Proof.Machine

/-- The selector is no entry of a stage without an entry operation. -/
def Selector.HasEntry : Selector → Prop
  | .entry st => stageRuns st
  | _ => True

theorem decode_of_width {sel : Selector} {bs : List Byte} (hw : bs.length = sel.width) (he : Selector.HasEntry sel) :
    ∃ i, decode sel bs = .ok i := by
  cases sel with
  | rxGo | txTake =>
    obtain rfl := List.length_eq_zero_iff.mp hw
    exact ⟨_, rfl⟩
  | entry st =>
    obtain rfl := List.length_eq_zero_iff.mp hw
    cases st with
    | idle | txPending | haltFatal | haltAbort => cases he
    | _ => exact ⟨_, rfl⟩
  | ftype | dispatch | nhc | protocol | nextHeader | coap =>
    obtain ⟨a, rfl⟩ := List.length_eq_one_iff.mp hw
    exact ⟨_, rfl⟩
  | ethertype | oper | icmp4 | icmp6 | dport =>
    obtain ⟨a, b, rfl⟩ := List.length_eq_two.mp hw
    exact ⟨_, rfl⟩

theorem tagBytes_length (s : State) : s.tagBytes.length = s.selector.width := by
  unfold State.tagBytes
  split <;> simp_all [Selector.width]

theorem selector_hasEntry {s : State} (hr : stageRuns s.stage) : Selector.HasEntry s.selector := by
  have htag : Selector.HasEntry s.tagSelector := by
    unfold State.tagSelector
    cases hst : s.stage <;> simp [Selector.HasEntry, hst, stageRuns] at hr ⊢
  unfold State.selector
  split
  · exact hr
  · exact htag
  · split
    · trivial
    · exact htag

/-- A run always has a next operation. -/
theorem decode_of_runs {s : State} (hr : stageRuns s.stage) : ∃ i, decode s.selector s.tagBytes = .ok i :=
  decode_of_width (tagBytes_length s) (selector_hasEntry hr)

/-- A step of a run is the operation its tag selects. -/
theorem step_of_runs {s : State} {i : Instr} (hr : stageRuns s.stage) (hreset : s.resetNext = false)
    (hi : decode s.selector s.tagBytes = .ok i) : step s = exec i s := by
  unfold step turn
  split
  next straps later heq => simp [State.resetNext, heq] at hreset
  next => rw [if_pos hr, runTurn, runDecoded, hi]

end Sys2Proof.Machine
end

