-- ==== Sys2Proof/Proofs/Memory/Frame.lean ====
section
/-! SUPPORT. Noninterference (R73): two states whose buffers agree below `RXLEN` take the same step. -/

namespace Sys2Proof.Machine

/-- The state with another content of the buffer. -/
def State.withMem (m : List Host.Cell) (s : State) : State := { s with mem := m }

section

variable (m : List Host.Cell) (s : State)

@[simp] theorem State.withMem_vlen : (s.withMem m).vlen = s.vlen := by rfl
@[simp] theorem State.withMem_llSrc : (s.withMem m).llSrc = s.llSrc := by rfl
@[simp] theorem State.withMem_llDst : (s.withMem m).llDst = s.llDst := by rfl
@[simp] theorem State.withMem_cfg : (s.withMem m).cfg = s.cfg := by rfl
@[simp] theorem State.withMem_latched : (s.withMem m).latched = s.latched := by rfl

theorem frame_withMem : (s.withMem m).frame = s.frame := by rfl

/-! The parse phase writes other parts of the state, so its updates commute with an exchange of the buffer. -/

theorem withMem_latch (f : Records → Records) : (s.withMem m).latch f = (s.latch f).withMem m := rfl

theorem withMem_scratchWrite (a : Nat) (v : List Byte) :
    (s.withMem m).scratchWrite a v = (s.scratchWrite a v).withMem m := rfl

theorem withMem_arpLearn : (s.withMem m).arpLearn = s.arpLearn.withMem m := rfl

theorem withMem_advanceDsn : (s.withMem m).advanceDsn = s.advanceDsn.withMem m := by
  unfold State.advanceDsn
  rw [State.withMem_cfg]
  split <;> rfl

end

/-- The state when `BUILD` has stored the response (R409). -/
def State.withResponse (frame : List Byte) (s : State) : State :=
  { s with
    mem := memWriteBytes 0 frame s.mem, vbase := 0#16, vlen := BitVec.ofNat 16 s.txLimit
    txlen := BitVec.ofNat 16 frame.length }

/-- The buffer `m` reads as that of `s` below `RXLEN`. -/
def Agrees (m : List Host.Cell) (s : State) : Prop :=
  ∀ a, a < s.rxlen.toNat → (s.withMem m).readBuf a = s.readBuf a

/-- Two states that differ in the buffer only: while the run goes on not below `RXLEN`, and not in a response. -/
structure Twins (t t' : State) : Prop where
  eq : t' = { t with mem := t'.mem }
  frame : stageRuns t.stage → ∀ a, a < t.rxlen.toNat → t'.readBuf a = t.readBuf a
  response : t.stage = .txPending → t'.memRead 0 t'.txlen.toNat = t.memRead 0 t.txlen.toNat

/-- Two operations both go on, to states that differ in the buffer only. -/
def Alike (o o' : Out) : Prop := ∃ t t', o = .next t ∧ o' = .next t' ∧ Twins t t'

/-- A state that parses, and a buffer that agrees with its own on the frame. -/
structure SameFrame (m : List Host.Cell) (s : State) : Prop where
  parses : stageParses s.stage
  view : s.viewOk
  inFrame : s.vbase.toNat + s.vlen.toNat ≤ s.rxlen.toNat
  agrees : Agrees m s

section

variable {m : List Host.Cell} {s t u : State}

theorem Inv.sameFrame (h : Inv s) (hp : stageParses s.stage) (hm : Agrees m s) : SameFrame m s where
  parses := hp
  view := h.view
  inFrame := h.parseView hp
  agrees := hm

/-! ## The rules -/

theorem Agrees.of_same (h : Agrees m s) (hmem : t.mem = s.mem) (hepoch : t.epoch = s.epoch)
    (hrxlen : t.rxlen = s.rxlen) : Agrees m t := by
  unfold Agrees State.readBuf at *
  simpa only [State.withMem, hmem, hepoch, hrxlen] using h

/-- The run goes on in a parsing stage or in `BUILD`. -/
theorem alike_next (h : SameFrame m s) (hframe : (t.mem, t.epoch, t.rxlen) = (s.mem, s.epoch, s.rxlen))
    (hst : t.stage ≠ .txPending) : Alike (.next t) (.next (t.withMem m)) := by
  obtain ⟨hmem, hepoch, hrxlen⟩ : t.mem = s.mem ∧ t.epoch = s.epoch ∧ t.rxlen = s.rxlen := by simpa using hframe
  exact ⟨t, t.withMem m, rfl, rfl, rfl, fun _ => h.agrees.of_same hmem hepoch hrxlen, fun hs => absurd hs hst⟩

/-- An operation that stays in its stage. -/
theorem alike_stays (h : SameFrame m s) (hframe : (t.mem, t.epoch, t.rxlen) = (s.mem, s.epoch, s.rxlen))
    (hst : t.stage = s.stage) : Alike (.next t) (.next (t.withMem m)) :=
  alike_next h hframe fun htx => by simpa [← hst, htx, stageParses, stageRuns] using h.parses

/-- A drop forgets the buffer (R66). -/
theorem alike_drop {st : Stage} {c : Cause} : Alike (u.drop st c) ((u.withMem m).drop st c) :=
  ⟨u.raiseDrop st c, (u.withMem m).raiseDrop st c, rfl, rfl, rfl, by simp [stageRuns], by simp⟩

theorem alike_ite {c : Prop} [Decidable c] {a a' b b' : Out} (ha : c → Alike a a') (hb : ¬ c → Alike b b') :
    Alike (if c then a else b) (if c then a' else b') := by
  split
  · exact ha ‹_›
  · exact hb ‹_›

/-- A read inside the view gives the same bytes. -/
theorem memRead_withMem (h : SameFrame m s) {off n : Nat} (hle : off + n ≤ s.vlen.toNat) :
    (s.withMem m).memRead (s.vbase.toNat + off) n = s.memRead (s.vbase.toNat + off) n :=
  memRead_congr fun i hi => h.agrees _ (by have := h.inFrame; omega)

theorem view_withMem (h : SameFrame m s) : (s.withMem m).view = s.view :=
  memRead_withMem (off := 0) h (Nat.le_of_eq (Nat.zero_add _))

theorem upper_withMem (h : SameFrame m s) : (s.withMem m).upper = s.upper := by
  have hscratch : (s.withMem m).scratchRead 40 8 = s.scratchRead 40 8 := scratchRead_congr fun _ _ => rfl
  unfold State.upper
  rw [view_withMem h, hscratch]
  rfl

theorem alike_get (h : SameFrame m s) {off n : Nat} (hle : off + n ≤ s.vlen.toNat) {k k' : List Byte → Out}
    (hk : ∀ bs, Alike (k bs) (k' bs)) : Alike (s.get off n k) ((s.withMem m).get off n k') := by
  have hv : (s.withMem m).viewOk := h.view
  rw [get_ok h.view hle, get_ok hv hle]
  have hread := memRead_withMem h hle
  exact hread ▸ hk _

theorem alike_getView (h : SameFrame m s) {k k' : List Byte → Out} (hk : Alike (k s.view) (k' s.view)) :
    Alike (s.getView k) ((s.withMem m).getView k') := by
  have hv : (s.withMem m).viewOk := h.view
  rwa [getView_ok h.view, getView_ok hv, view_withMem h]

theorem alike_getUpper (h : SameFrame m s) {k k' : List Byte → Out} (hk : Alike (k s.upper) (k' s.upper)) :
    Alike (s.getUpper k) ((s.withMem m).getUpper k') := by
  have hv : (s.withMem m).viewOk := h.view
  rwa [getUpper_ok h.view, getUpper_ok hv, upper_withMem h]

/-- `NARROW` looks at the registers only. -/
theorem alike_narrow {off len : Nat} {k k' : State → Out}
    (hk : Alike (k (u.narrowed off len)) (k' ((u.narrowed off len).withMem m))) :
    Alike (u.narrow off len k) ((u.withMem m).narrow off len k') :=
  alike_ite (fun _ => hk) fun _ => alike_drop

/-! ## The link layer -/

theorem execEthParse_alike (h : SameFrame m s) : Alike (execEthParse s) (execEthParse (s.withMem m)) := by
  refine alike_ite (fun _ => alike_drop) fun hlen => alike_get h (by omega) fun dst => ?_
  exact alike_get h (by omega) fun src => alike_get h (by omega) fun ethertype => alike_stays h rfl rfl

theorem ethHandOver_alike (h : SameFrame m s) {st : Stage} (hst : st ≠ .txPending) :
    Alike (ethHandOver st s) (ethHandOver st (s.withMem m)) :=
  alike_narrow (alike_next h rfl hst)

theorem execMac154Parse_alike (h : SameFrame m s) : Alike (execMac154Parse s) (execMac154Parse (s.withMem m)) := by
  refine alike_ite (fun _ => alike_drop) fun hlen => alike_get h (by omega) fun f => ?_
  exact alike_get h (by omega) fun seq => alike_stays h rfl rfl

theorem getSrcPan_alike (h : SameFrame m s) {f dstPan : Half} {k k' : Half → Out}
    (hlen : macHeaderLen f ≤ s.vlen.toNat) (hk : ∀ p, Alike (k p) (k' p)) :
    Alike (s.getSrcPan f dstPan k) ((s.withMem m).getSrcPan f dstPan k') := by
  refine alike_ite (fun hc => alike_get h ?_ fun _ => hk _) fun _ => hk _
  simp only [macHeaderLen, hc] at hlen
  simp at hlen
  omega

theorem execMac154Data_alike (h : SameFrame m s) : Alike (execMac154Data s) (execMac154Data (s.withMem m)) := by
  refine alike_ite (fun _ => alike_drop) fun _ => alike_ite (fun _ => alike_drop) fun _ => ?_
  refine alike_ite (fun _ => alike_drop) fun _ => alike_ite (fun _ => alike_drop) fun _ => ?_
  refine alike_ite (fun _ => alike_drop) fun hlen => ?_
  have hhl : macHeaderLen s.latched.mac.fcf ≤ s.vlen.toNat := Nat.le_of_not_lt hlen
  have hparts : 5 + addrLen (fcfDstMode s.latched.mac.fcf) + addrLen (fcfSrcMode s.latched.mac.fcf)
      ≤ macHeaderLen s.latched.mac.fcf := by unfold macHeaderLen; omega
  refine alike_get h (by omega) fun dstPan => alike_get h (by omega) fun dst => getSrcPan_alike h hhl fun srcPan => ?_
  exact alike_get h (by omega) fun src => alike_narrow (alike_next h rfl (by simp))

/-! ## 6LoWPAN -/

theorem execLowpanParse_alike (h : SameFrame m s) : Alike (execLowpanParse s) (execLowpanParse (s.withMem m)) :=
  alike_ite (fun _ => alike_drop) fun hlen => alike_get h (by omega) fun _ => alike_stays h rfl rfl

theorem narrow_ipv6_alike (h : SameFrame m s) (hframe : (u.mem, u.epoch, u.rxlen) = (s.mem, s.epoch, s.rxlen))
    {off len : Nat} : Alike (u.narrow off len fun s => .next ((s.emit (.valid .lowpan)).goto .ipv6))
      ((u.withMem m).narrow off len fun s => .next ((s.emit (.valid .lowpan)).goto .ipv6)) :=
  alike_narrow (alike_next h hframe (by simp))

theorem lowpanHandOff_alike (h : SameFrame m s) (hframe : (u.mem, u.epoch, u.rxlen) = (s.mem, s.epoch, s.rxlen))
    (r : IphcRec) (plen : Nat) : Alike (lowpanHandOff r plen u) (lowpanHandOff r plen (u.withMem m)) := by
  unfold lowpanHandOff
  rw [withMem_scratchWrite, State.withMem_vlen]
  refine narrow_ipv6_alike h ?_
  simpa using hframe

theorem execLowpanIphc_alike (h : SameFrame m s) (tf : BitVec 2) (nh : BitVec 1) (hlim : BitVec 2) :
    Alike (execLowpanIphc tf nh hlim s) (execLowpanIphc tf nh hlim (s.withMem m)) := by
  have hlatch (f : Records → Records) : SameFrame m (s.latch f) := ⟨h.parses, h.view, h.inFrame, h.agrees⟩
  refine alike_getView (hlatch _) ?_
  simp only [withMem_latch, State.withMem_llSrc, State.withMem_llDst, State.withMem_latched, State.withMem_vlen]
  split
  next => exact alike_drop
  next r rest _ =>
    refine alike_ite (fun _ => ?_) fun _ => ?_
    · cases rest with
      | nil => exact alike_drop
      | cons c rest => exact alike_stays h rfl rfl
    · refine lowpanHandOff_alike h ?_ _ _
      rfl

theorem execNhcUdp_alike (h : SameFrame m s) (c : BitVec 1) (p : BitVec 2) :
    Alike (execNhcUdp c p s) (execNhcUdp c p (s.withMem m)) := by
  refine alike_getView h ?_
  simp only [State.withMem_latched]
  cases nhcDecode c p (s.view.drop s.latched.iphc.o) with
  | error e => exact alike_drop
  | ok d =>
    obtain ⟨sport, dport, ck, payload⟩ := d
    simp only [withMem_scratchWrite, withMem_latch]
    refine lowpanHandOff_alike h ?_ _ _
    rfl

theorem execNhcOther_alike (h : SameFrame m s) (c : Byte) :
    Alike (execNhcOther c s) (execNhcOther c (s.withMem m)) := by
  refine alike_getView h ?_
  simp only [State.withMem_latched]
  cases takeN 1 (s.view.drop s.latched.iphc.o) with
  | error e => exact alike_drop
  | ok d => exact alike_drop

/-! ## ARP -/

theorem alike_respond (h : SameFrame m s) (hframe : (u.mem, u.epoch, u.rxlen) = (s.mem, s.epoch, s.rxlen)) {e : Event}
    {st : Stage} {r : Resp} :
    Alike (.next ((u.emit e).respond st r)) (.next (((u.withMem m).emit e).respond st r)) :=
  alike_next h hframe (by simp)

theorem execArpParse_alike (h : SameFrame m s) : Alike (execArpParse s) (execArpParse (s.withMem m)) := by
  refine alike_ite (fun _ => alike_drop) fun hlen => ?_
  iterate 9 refine alike_get h (by omega) fun _ => ?_
  dsimp only
  split
  · exact alike_drop
  · exact alike_stays h rfl rfl

theorem execArpRequest_alike (h : SameFrame m s) : Alike (execArpRequest s) (execArpRequest (s.withMem m)) := by
  unfold execArpRequest
  simp only [withMem_arpLearn, State.withMem_latched, State.withMem_cfg]
  refine alike_ite (fun _ => alike_drop) fun _ => alike_respond h ?_
  rfl

theorem execArpReply_alike : Alike (execArpReply s) (execArpReply (s.withMem m)) := by
  unfold execArpReply
  rw [withMem_arpLearn]
  exact alike_drop

/-! ## IPv4 -/

theorem execIp4Parse_alike (h : SameFrame m s) : Alike (execIp4Parse s) (execIp4Parse (s.withMem m)) := by
  refine alike_ite (fun _ => alike_drop) fun hlen => alike_get h (by omega) fun b0 => ?_
  refine alike_ite (fun _ => alike_drop) fun _ => alike_ite (fun _ => alike_drop) fun hihl => ?_
  refine alike_ite (fun _ => alike_drop) fun hhl => alike_get h (by omega) fun total => ?_
  refine alike_ite (fun _ => alike_drop) fun _ => alike_ite (fun _ => alike_drop) fun _ => ?_
  refine alike_get h (by omega) fun header => alike_ite (fun _ => alike_drop) fun _ => ?_
  refine alike_get h (by omega) fun protocol => alike_get h (by omega) fun src => alike_get h (by omega) fun dst => ?_
  exact alike_ite (fun _ => alike_drop) fun _ => alike_stays h rfl rfl

theorem ip4HandOver_alike (h : SameFrame m s) (hframe : (u.mem, u.epoch, u.rxlen) = (s.mem, s.epoch, s.rxlen))
    {st : Stage} (hst : st ≠ .txPending) : Alike (ip4HandOver st u) (ip4HandOver st (u.withMem m)) := by
  unfold ip4HandOver
  refine alike_narrow (alike_next h ?_ hst)
  exact hframe

/-! ## IPv6 -/

/-- The neighbour is learnt and the next header is read (R231, R233). -/
theorem ip6Learn_alike (h : SameFrame m s) (hframe : (u.mem, u.epoch, u.rxlen) = (s.mem, s.epoch, s.rxlen))
    (hst : u.stage = s.stage) (r : Ip6Rec) :
    Alike (.next (u.latch fun l => { l with ip6 := r }).nbrLearn.toDispatch)
      (.next ((u.withMem m).latch fun l => { l with ip6 := r }).nbrLearn.toDispatch) :=
  alike_stays h hframe hst

theorem execIp6Parse_alike (h : SameFrame m s) : Alike (execIp6Parse s) (execIp6Parse (s.withMem m)) := by
  have hscratch : (s.withMem m).scratchRead 0 40 = s.scratchRead 0 40 := scratchRead_congr fun _ _ => rfl
  unfold execIp6Parse
  simp only [State.withMem_cfg, State.withMem_vlen, hscratch]
  split
  · refine alike_ite (fun _ => alike_drop) fun hlen => alike_get h (by omega) fun header => ?_
    refine alike_ite (fun _ => alike_drop) fun _ => alike_ite (fun _ => alike_drop) fun _ => ?_
    refine alike_narrow (ip6Learn_alike h ?_ ?_ _)
    · rfl
    · rfl
  · exact ip6Learn_alike h rfl rfl _

theorem execIp6Udp_alike (h : SameFrame m s) : Alike (execIp6Udp s) (execIp6Udp (s.withMem m)) :=
  alike_ite (fun _ => alike_drop) fun _ => alike_next h rfl (by simp)

/-! ## ICMP -/

theorem execIcmp4Parse_alike (h : SameFrame m s) : Alike (execIcmp4Parse s) (execIcmp4Parse (s.withMem m)) :=
  alike_getView h <| alike_ite (fun _ => alike_drop) fun _ => alike_stays h rfl rfl

theorem execIcmp4Echo_alike (h : SameFrame m s) : Alike (execIcmp4Echo s) (execIcmp4Echo (s.withMem m)) := by
  refine alike_getView h <| alike_ite (fun _ => alike_drop) fun _ => alike_ite (fun _ => alike_drop) fun _ => ?_
  rw [State.withMem_latched]
  exact alike_respond h rfl

theorem execIcmp6Parse_alike (h : SameFrame m s) : Alike (execIcmp6Parse s) (execIcmp6Parse (s.withMem m)) :=
  alike_getUpper h <| alike_ite (fun _ => alike_drop) fun _ => alike_stays h rfl rfl

theorem execIcmp6Echo_alike (h : SameFrame m s) : Alike (execIcmp6Echo s) (execIcmp6Echo (s.withMem m)) := by
  refine alike_getUpper h ?_
  simp only [State.withMem_latched, State.withMem_cfg]
  refine alike_ite (fun _ => alike_drop) fun _ => alike_ite (fun _ => alike_drop) fun _ => ?_
  exact alike_ite (fun _ => alike_drop) fun _ => alike_respond h rfl

theorem execIcmp6Ns_alike (h : SameFrame m s) : Alike (execIcmp6Ns s) (execIcmp6Ns (s.withMem m)) := by
  refine alike_getUpper h ?_
  simp only [State.withMem_latched, State.withMem_cfg]
  refine alike_ite (fun _ => alike_drop) fun _ => alike_ite (fun _ => alike_drop) fun _ => ?_
  refine alike_ite (fun _ => alike_drop) fun _ => alike_ite (fun _ => alike_drop) fun _ => ?_
  exact alike_respond h rfl

/-! ## UDP and CoAP -/

theorem execUdpParse_alike (h : SameFrame m s) : Alike (execUdpParse s) (execUdpParse (s.withMem m)) := by
  refine alike_getUpper h <| alike_ite (fun _ => alike_drop) fun _ => alike_ite (fun _ => alike_drop) fun _ => ?_
  refine alike_ite (fun _ => alike_drop) fun _ => alike_ite (fun _ => alike_drop) fun _ => ?_
  exact alike_stays h rfl rfl

theorem execUdpEcho_alike (h : SameFrame m s) (dport : Half) :
    Alike (execUdpEcho dport s) (execUdpEcho dport (s.withMem m)) := by
  unfold execUdpEcho
  rw [State.withMem_latched, State.withMem_cfg]
  exact alike_respond h rfl

theorem execCoapParse_alike (h : SameFrame m s) : Alike (execCoapParse s) (execCoapParse (s.withMem m)) := by
  unfold execCoapParse
  simp only [State.withMem_latched]
  split
  next => exact alike_drop
  next =>
    refine alike_ite (fun _ => ?_) fun _ => alike_stays h rfl rfl
    split
    · exact alike_drop
    · exact alike_stays h rfl rfl

theorem coapRespond_alike (h : SameFrame m s) (hframe : (u.mem, u.epoch, u.rxlen) = (s.mem, s.epoch, s.rxlen))
    (rcode : Byte) (body : List Byte) : Alike (coapRespond rcode body u) (coapRespond rcode body (u.withMem m)) := by
  unfold coapRespond
  rw [State.withMem_latched, State.withMem_cfg]
  exact alike_respond h hframe

theorem execCoapPutLed_alike (h : SameFrame m s) : Alike (execCoapPutLed s) (execCoapPutLed (s.withMem m)) := by
  unfold execCoapPutLed
  rw [State.withMem_latched]
  split
  · refine coapRespond_alike h (u := { s with led := _ }) ?_ _ _
    rfl
  · exact coapRespond_alike h rfl _ _

/-! ## BUILD -/

/-- With a frame to send `BUILD` stores it, or drops it when it is too long (R409). -/
theorem execBuild_of_frame (hcap : s.par.bufCap ≤ 65535) {frame : List Byte} (hf : s.frame = some frame) :
    execBuild s = if s.txLimit < frame.length then s.drop .build .noSpace
      else .next ((s.withResponse frame).advanceDsn.finishSent s.latched.hstage) := by
  have hlimit : s.txLimit ≤ s.par.bufCap := Nat.min_le_left _ _
  have hmod : s.txLimit % 65536 = s.txLimit := Nat.mod_eq_of_lt (by omega)
  unfold execBuild
  rw [hf]
  dsimp only
  split
  · rfl
  · rw [set_ok (by simp [State.viewOk, hmod, hlimit]) (by simp [hmod]; omega)]
    rfl

/-- Under the invariant `BUILD` has a frame to send (R406, R407). -/
theorem Inv.frame_isSome (h : Inv s) (hst : s.stage = .build) : ∃ frame, s.frame = some frame := by
  obtain ⟨r, hr, hfits⟩ := h.resp hst
  unfold State.frame
  cases hl : s.cfg.link <;> cases r <;> simp [hr, Resp.fits, hl] at hfits ⊢

/-- What is sent is what the two buffers have in common. -/
theorem twins_finishSent (st : Stage) (hsent : ∀ a, a < u.txlen.toNat → memFind a m = memFind a u.mem) :
    Twins (u.finishSent st) ((u.withMem m).finishSent st) where
  eq := rfl
  frame := by simp [stageRuns]
  response _ := memRead_congr fun i hi => by
    have hi' : 0 + i < u.txlen.toNat := by rw [Nat.zero_add]; exact hi
    have hfind : memFind (0 + i) ((u.withMem m).finishSent st).mem = memFind (0 + i) (u.finishSent st).mem := by
      rw [State.finishSent_mem, State.finishSent_mem, memFind_filter_below hi']
      exact (memFind_filter_below hi' m).trans (hsent _ hi')
    exact congrArg (fun b : Option Byte => b.getD (Config.freeBuf (u.epoch + 1) (0 + i))) hfind

theorem execBuild_alike (h : Inv s) (hst : s.stage = .build) : Alike (execBuild s) (execBuild (s.withMem m)) := by
  obtain ⟨frame, hf⟩ := h.frame_isSome hst
  have hcap : s.par.bufCap ≤ 65535 := h.par.2.1
  have hcap' : (s.withMem m).par.bufCap ≤ 65535 := hcap
  have hf' : (s.withMem m).frame = some frame := (frame_withMem m s).trans hf
  rw [execBuild_of_frame hcap hf, execBuild_of_frame hcap' hf']
  refine alike_ite (fun _ => alike_drop) fun _ => ⟨_, _, rfl, rfl, ?_⟩
  have hresp : (s.withMem m).withResponse frame = (s.withResponse frame).withMem (memWriteBytes 0 frame m) := rfl
  rw [hresp, withMem_advanceDsn]
  refine twins_finishSent _ fun a ha => ?_
  have hlen : a < frame.length := by
    simp [State.withResponse] at ha
    exact Nat.lt_of_lt_of_le ha (Nat.mod_le _ _)
  simp only [State.advanceDsn_mem, State.withResponse]
  have hin (m' : List Host.Cell) := memFind_memWriteBytes_inside (a := 0) hlen m'
  rw [Nat.zero_add] at hin
  rw [hin, hin]

/-! ## The step -/

theorem exec_alike_of_parses (h : SameFrame m s) (i : Instr) (hplace : (place i).1 = s.stage) :
    Alike (exec i s) (exec i (s.withMem m)) := by
  have hst : stageParses (place i).1 := hplace ▸ h.parses
  cases i with
  | rxAccept | txTake | build => cases hst
  | ethParse => exact execEthParse_alike h
  | ethArp | ethIpv4 | ethIpv6 => exact ethHandOver_alike h (by simp)
  | mac154Parse => exact execMac154Parse_alike h
  | mac154Data => exact execMac154Data_alike h
  | lowpanParse => exact execLowpanParse_alike h
  | lowpanIphc tf nh hlim => exact execLowpanIphc_alike h tf nh hlim
  | nhcUdp c p => exact execNhcUdp_alike h c p
  | nhcOther c => exact execNhcOther_alike h c
  | arpParse => exact execArpParse_alike h
  | arpRequest => exact execArpRequest_alike h
  | arpReply => exact execArpReply_alike
  | ip4Parse => exact execIp4Parse_alike h
  | ip4Icmp => exact ip4HandOver_alike h rfl (by simp)
  | ip4Udp =>
    refine ip4HandOver_alike (u := s.latch fun l => { l with net := .ip4 }) h ?_ (by simp)
    rfl
  | ip6Parse => exact execIp6Parse_alike h
  | ip6Icmp6 | udpCoap => exact alike_next h rfl (by simp)
  | ip6Udp => exact execIp6Udp_alike h
  | icmp4Parse => exact execIcmp4Parse_alike h
  | icmp4Echo => exact execIcmp4Echo_alike h
  | icmp6Parse => exact execIcmp6Parse_alike h
  | icmp6Echo => exact execIcmp6Echo_alike h
  | icmp6Ns => exact execIcmp6Ns_alike h
  | udpParse => exact execUdpParse_alike h
  | udpEcho dport => exact execUdpEcho_alike h dport
  | coapParse => exact execCoapParse_alike h
  | coapPutLed => exact execCoapPutLed_alike h
  | coapGetLed | coapNotFound | coapNotAllowed => exact coapRespond_alike h rfl _ _
  | ethOther | mac154Other | lowpanOther | arpOther | ip4Other | ip6Other | icmp4Other | icmp6Other | coapOther =>
    exact alike_drop

/-- In its place every operation of a run answers alike for two buffers that agree on the frame. -/
theorem exec_alike (h : Inv s) (hruns : stageRuns s.stage) (hm : Agrees m s) {i : Instr}
    (hplace : place i = (s.stage, s.phase)) : Alike (exec i s) (exec i (s.withMem m)) := by
  have hst : (place i).1 = s.stage := congrArg Prod.fst hplace
  by_cases hb : s.stage = .build
  · obtain rfl : i = .build := by cases i <;> simp_all [place]
    exact execBuild_alike h hb
  · have hparses : stageParses s.stage := by
      unfold stageParses
      split
      · contradiction
      · exact hruns
    exact exec_alike_of_parses (h.sameFrame hparses hm) i hst

end

/-- Settles O59: the two states select the same operation, and it reads the frame only. -/
theorem bytesBeyondTheFrameAreNotRead : Obligations.BytesBeyondTheFrameAreNotRead := by
  intro s m h hruns hreset hm
  obtain ⟨i, hi⟩ := decode_of_runs hruns
  have hstep : step s = exec i s := step_of_runs hruns hreset hi
  have hstep' : step (s.withMem m) = exec i (s.withMem m) := step_of_runs hruns hreset hi
  obtain ⟨t, t', ht, ht', htwins⟩ := exec_alike h hruns hm (place_of_decode h hi)
  exact ⟨t, t', hstep.trans ht, hstep'.trans ht', htwins.eq, htwins.frame, htwins.response⟩

end Sys2Proof.Machine
end

section
/-! SUPPORT. The decoder on well-formed tags (R140, R141): what a tag of the right width reads as, the masks of the
one-byte tags as divisions, and the operations a default row leaves over. -/

namespace Sys2Proof.Machine

-- One elaboration thread: the lemmas over the decoder's rows take much memory when they run side by side.
set_option Elab.async false

/-! ## Tags as they stand in the frame -/

theorem tagHalf_toBE (f : Half → Instr) (v : Half) : tagHalf f (toBE 2 v) = .ok (f v) :=
  congrArg (fun w => Except.ok (f w)) (ofBE_toBE (n := 2) rfl v)

theorem tagNone_of_length_ne {bs : List Byte} (h : bs.length ≠ 0) (e : Except DecodeError Instr) :
    tagNone e bs = .error .wrongWidth := by
  match bs with
  | [] => exact absurd rfl h
  | _ :: _ => rfl

theorem tagByte_of_length_ne {bs : List Byte} (h : bs.length ≠ 1) (f : Byte → Instr) :
    tagByte f bs = .error .wrongWidth := by
  match bs with
  | [_] => exact absurd rfl h
  | [] | _ :: _ :: _ => rfl

theorem tagHalf_of_length_ne {bs : List Byte} (h : bs.length ≠ 2) (f : Half → Instr) :
    tagHalf f bs = .error .wrongWidth := by
  match bs with
  | [_, _] => exact absurd rfl h
  | [] | [_] | _ :: _ :: _ :: _ => rfl

/-- No other width selects an operation (R141). -/
theorem decode_of_length_ne {sel : Selector} {bs : List Byte} (h : bs.length ≠ sel.width) :
    decode sel bs = .error .wrongWidth := by
  cases sel with
  | rxGo | txTake | entry => exact tagNone_of_length_ne h _
  | ftype | dispatch | nhc | protocol | nextHeader | coap => exact tagByte_of_length_ne h _
  | ethertype | oper | icmp4 | icmp6 | dport => exact tagHalf_of_length_ne h _

/-! ## Masked tags -/

theorem extractLsb'_eq_ofNat_div {w : Nat} (x : BitVec w) (start len : Nat) :
    x.extractLsb' start len = BitVec.ofNat len (x.toNat / 2 ^ start) := by
  rw [BitVec.extractLsb', Nat.shiftRight_eq_div_pow]

/-- A mask over the high bits compares the number they form. -/
theorem and_highMask_eq_iff {hi lo : Nat} (d : BitVec (hi + lo)) (v : BitVec hi) :
    d &&& (BitVec.allOnes hi ++ 0#lo) = v ++ 0#lo ↔ d.toNat / 2 ^ lo = v.toNat := by
  have hd : d.extractLsb' lo hi ++ d.extractLsb' 0 lo = d := by
    rw [BitVec.extractLsb'_append_extractLsb'_eq_extractLsb' (Nat.zero_add lo).symm, BitVec.extractLsb'_eq_self]
  have hmask : d &&& (BitVec.allOnes hi ++ 0#lo) = d.extractLsb' lo hi ++ 0#lo := by
    conv_lhs => rw [← hd, BitVec.and_append, BitVec.and_allOnes, BitVec.and_zero]
  have hcancel : d.extractLsb' lo hi ++ 0#lo = v ++ 0#lo ↔ d.extractLsb' lo hi = v := by
    refine ⟨fun h => ?_, fun h => by rw [h]⟩
    rw [← BitVec.extractLsb'_append_eq_left (a := d.extractLsb' lo hi) (b := 0#lo), h, BitVec.extractLsb'_append_eq_left]
  have hlt : d.toNat / 2 ^ lo < 2 ^ hi :=
    Nat.div_lt_of_lt_mul (d.isLt.trans_eq (by rw [Nat.add_comm, Nat.pow_add]))
  rw [hmask, hcancel, extractLsb'_eq_ofNat_div, ← BitVec.toNat_inj, BitVec.toNat_ofNat, Nat.mod_eq_of_lt hlt]

theorem dispatchMask_iff (d : Byte) : d &&& 0xE0#8 = 0x60#8 ↔ d.toNat / 32 = 3 :=
  and_highMask_eq_iff (hi := 3) (lo := 5) d 3#3

theorem nhcMask_iff (c : Byte) : c &&& 0xF8#8 = 0xF0#8 ↔ c.toNat / 8 = 30 :=
  and_highMask_eq_iff (hi := 5) (lo := 3) c 30#5

/-- The codes of class 0 (R355). -/
theorem classMask_iff (c : Byte) : c &&& 0xE0#8 = 0#8 ↔ c.toNat < 32 := by
  have h : c &&& 0xE0#8 = 0#8 ↔ c.toNat / 32 = 0 := and_highMask_eq_iff (hi := 3) (lo := 5) c 0#3
  rw [h]
  omega

/-! ## One row for each operation -/

/-- The frame type stands in the low three bits of its byte (R127). -/
theorem ftype_setWidth (f : BitVec 3) : (f.setWidth 8).extractLsb' 0 3 = f := by
  decide +revert

/-- The IPHC dispatch byte carries its fields in their places (R131). -/
theorem decodeDispatch_iphc (tf : BitVec 2) (nh : BitVec 1) (hlim : BitVec 2) :
    decodeDispatch (0b011#3 ++ tf ++ nh ++ hlim) = .lowpanIphc tf nh hlim := by
  decide +revert

/-- The NHC byte of a UDP header carries its fields in their places (R137). -/
theorem decodeNhc_udp (c : BitVec 1) (p : BitVec 2) : decodeNhc (0b11110#5 ++ c ++ p) = .nhcUdp c p := by
  decide +revert

section

variable {port : Half}

theorem decodeEthertype_other {v : Half} (h : (Instr.ethOther v).wf port) : decodeEthertype v = .ethOther v := by
  simp only [Instr.wf, Bool.and_eq_true, decide_eq_true_eq] at h
  obtain ⟨⟨harp, hip4⟩, hip6⟩ := h
  rw [decodeEthertype, if_neg harp, if_neg hip4, if_neg hip6]

theorem decodeFtype_other {f : BitVec 3} (h : (Instr.mac154Other f).wf port) : decodeFtype f = .mac154Other f :=
  if_neg (of_decide_eq_true h)

theorem decodeDispatch_other {d : Byte} (h : (Instr.lowpanOther d).wf port) : decodeDispatch d = .lowpanOther d :=
  if_neg (of_decide_eq_true h)

theorem decodeNhc_other {c : Byte} (h : (Instr.nhcOther c).wf port) : decodeNhc c = .nhcOther c :=
  if_neg (of_decide_eq_true h)

theorem decodeOper_other {v : Half} (h : (Instr.arpOther v).wf port) : decodeOper v = .arpOther v := by
  simp only [Instr.wf, Bool.and_eq_true, decide_eq_true_eq] at h
  obtain ⟨hrequest, hreply⟩ := h
  rw [decodeOper, if_neg hrequest, if_neg hreply]

theorem decodeProtocol_other {v : Byte} (h : (Instr.ip4Other v).wf port) : decodeProtocol v = .ip4Other v := by
  simp only [Instr.wf, Bool.and_eq_true, decide_eq_true_eq] at h
  obtain ⟨hicmp, hudp⟩ := h
  rw [decodeProtocol, if_neg hicmp, if_neg hudp]

theorem decodeNextHeader_other {v : Byte} (h : (Instr.ip6Other v).wf port) : decodeNextHeader v = .ip6Other v := by
  simp only [Instr.wf, Bool.and_eq_true, decide_eq_true_eq] at h
  obtain ⟨hicmp, hudp⟩ := h
  rw [decodeNextHeader, if_neg hicmp, if_neg hudp]

theorem decodeIcmp4_other {v : Half} (h : (Instr.icmp4Other v).wf port) : decodeIcmp4 v = .icmp4Other v :=
  if_neg (of_decide_eq_true h)

theorem decodeIcmp6_other {v : Half} (h : (Instr.icmp6Other v).wf port) : decodeIcmp6 v = .icmp6Other v := by
  simp only [Instr.wf, Bool.and_eq_true, decide_eq_true_eq] at h
  obtain ⟨hecho, hns⟩ := h
  rw [decodeIcmp6, if_neg hecho, if_neg hns]

theorem decodeDport_echo {v : Half} (h : (Instr.udpEcho v).wf port) : decodeDport port v = .udpEcho v :=
  if_neg (of_decide_eq_true h)

/-- A known method code on an unknown path (R356). -/
theorem decodeCoap_notFound {c : Byte} (h : (Instr.coapNotFound c).wf port) : decodeCoap 0#2 false c = .coapNotFound c := by
  simp only [Instr.wf, Bool.and_eq_true, decide_eq_true_eq] at h
  obtain ⟨hclass, hempty⟩ := h
  simp [decodeCoap, hclass, hempty]

/-- A method code other than GET and PUT on the known path (R356). -/
theorem decodeCoap_notAllowed {c : Byte} (h : (Instr.coapNotAllowed c).wf port) :
    decodeCoap 0#2 true c = .coapNotAllowed c := by
  simp only [Instr.wf, Bool.and_eq_true, decide_eq_true_eq] at h
  obtain ⟨⟨⟨hclass, hempty⟩, hget⟩, hput⟩ := h
  simp [decodeCoap, hclass, hempty, hget, hput]

/-- A message that is no request, whatever its code (R355). -/
theorem decodeCoap_other (known : Bool) (c : Byte) : decodeCoap 2#2 known c = .coapOther c := by
  simp [decodeCoap]

end

end Sys2Proof.Machine
end

section
/-! SUPPORT. Decoding inverts encoding, dispatch is total, and the dispatch map of R140 (R140, R141). -/

namespace Sys2Proof.Machine

-- One elaboration thread: the case splits over all operations take much memory when they run side by side.
set_option Elab.async false

/-! ## Decoding inverts encoding -/

theorem decode_encode {port : Half} {i : Instr} (h : i.wf port) : decode (selectorOf port i) (encode port i) = .ok i := by
  cases i with
  | rxAccept | txTake | ethParse | mac154Parse | lowpanParse | arpParse | ip4Parse | ip6Parse | icmp4Parse | icmp6Parse
  | udpParse | coapParse | build | ethArp | ethIpv4 | ethIpv6 | mac154Data | arpRequest | arpReply | ip4Icmp | ip4Udp
  | ip6Icmp6 | ip6Udp | icmp4Echo | icmp6Echo | icmp6Ns | coapGetLed | coapPutLed => rfl
  | ethOther v => exact (tagHalf_toBE _ v).trans (congrArg Except.ok (decodeEthertype_other h))
  | mac154Other f =>
    exact congrArg Except.ok ((congrArg decodeFtype (ftype_setWidth f)).trans (decodeFtype_other h))
  | lowpanIphc tf nh hlim => exact congrArg Except.ok (decodeDispatch_iphc tf nh hlim)
  | lowpanOther d => exact congrArg Except.ok (decodeDispatch_other h)
  | nhcUdp c p => exact congrArg Except.ok (decodeNhc_udp c p)
  | nhcOther c => exact congrArg Except.ok (decodeNhc_other h)
  | arpOther v => exact (tagHalf_toBE _ v).trans (congrArg Except.ok (decodeOper_other h))
  | ip4Other v => exact congrArg Except.ok (decodeProtocol_other h)
  | ip6Other v => exact congrArg Except.ok (decodeNextHeader_other h)
  | icmp4Other v => exact (tagHalf_toBE _ v).trans (congrArg Except.ok (decodeIcmp4_other h))
  | icmp6Other v => exact (tagHalf_toBE _ v).trans (congrArg Except.ok (decodeIcmp6_other h))
  | udpCoap => exact (tagHalf_toBE _ port).trans (congrArg Except.ok (if_pos rfl))
  | udpEcho v => exact (tagHalf_toBE _ v).trans (congrArg Except.ok (decodeDport_echo h))
  | coapNotFound c => exact congrArg Except.ok (decodeCoap_notFound h)
  | coapNotAllowed c => exact congrArg Except.ok (decodeCoap_notAllowed h)
  | coapOther c => exact congrArg Except.ok (decodeCoap_other false c)

/-- Settles O1: each row is its decoder on the bytes that the encoder writes. -/
theorem decodeOfEncodeIsIdentity : Obligations.DecodeOfEncodeIsIdentity := fun _ _ => decode_encode

/-! ## Dispatch is total

What a tag decoder selects is well formed: a default row takes only what the rows before it leave. -/

theorem decodeEthertype_wf (port v : Half) : (decodeEthertype v).wf port := by
  unfold decodeEthertype; split_ifs <;> simp [Instr.wf, *]

theorem decodeFtype_wf (port : Half) (f : BitVec 3) : (decodeFtype f).wf port := by
  unfold decodeFtype; split_ifs <;> simp [Instr.wf, *]

theorem decodeDispatch_wf (port : Half) (d : Byte) : (decodeDispatch d).wf port := by
  unfold decodeDispatch; split_ifs <;> simp [Instr.wf, *]

theorem decodeNhc_wf (port : Half) (c : Byte) : (decodeNhc c).wf port := by
  unfold decodeNhc; split_ifs <;> simp [Instr.wf, *]

theorem decodeOper_wf (port v : Half) : (decodeOper v).wf port := by
  unfold decodeOper; split_ifs <;> simp [Instr.wf, *]

theorem decodeProtocol_wf (port : Half) (v : Byte) : (decodeProtocol v).wf port := by
  unfold decodeProtocol; split_ifs <;> simp [Instr.wf, *]

theorem decodeNextHeader_wf (port : Half) (v : Byte) : (decodeNextHeader v).wf port := by
  unfold decodeNextHeader; split_ifs <;> simp [Instr.wf, *]

theorem decodeIcmp4_wf (port v : Half) : (decodeIcmp4 v).wf port := by
  unfold decodeIcmp4; split_ifs <;> simp [Instr.wf, *]

theorem decodeIcmp6_wf (port v : Half) : (decodeIcmp6 v).wf port := by
  unfold decodeIcmp6; split_ifs <;> simp [Instr.wf, *]

theorem decodeDport_wf (port v : Half) : (decodeDport port v).wf port := by
  unfold decodeDport; split_ifs <;> simp [Instr.wf, *]

theorem decodeCoap_wf (port : Half) (t : BitVec 2) (known : Bool) (c : Byte) : (decodeCoap t known c).wf port := by
  unfold decodeCoap
  dsimp only
  split_ifs <;> simp_all [Instr.wf]

theorem decodeEntry_wf {port : Half} {st : Stage} {i : Instr} (h : decodeEntry st = .ok i) : i.wf port := by
  cases st <;> cases h <;> rfl

theorem decode_wf {port : Half} {sel : Selector} {bs : List Byte} {i : Instr} (hport : ∀ p, sel = .dport p → p = port)
    (h : decode sel bs = .ok i) : i.wf port := by
  cases sel with
  | rxGo | txTake => cases tagNone_ok h; rfl
  | entry => exact decodeEntry_wf (tagNone_ok h)
  | ethertype => obtain ⟨v, rfl⟩ := tagHalf_ok h; exact decodeEthertype_wf port v
  | ftype => obtain ⟨a, rfl⟩ := tagByte_ok h; exact decodeFtype_wf port _
  | dispatch => obtain ⟨d, rfl⟩ := tagByte_ok h; exact decodeDispatch_wf port d
  | nhc => obtain ⟨c, rfl⟩ := tagByte_ok h; exact decodeNhc_wf port c
  | oper => obtain ⟨v, rfl⟩ := tagHalf_ok h; exact decodeOper_wf port v
  | protocol => obtain ⟨v, rfl⟩ := tagByte_ok h; exact decodeProtocol_wf port v
  | nextHeader => obtain ⟨v, rfl⟩ := tagByte_ok h; exact decodeNextHeader_wf port v
  | icmp4 => obtain ⟨v, rfl⟩ := tagHalf_ok h; exact decodeIcmp4_wf port v
  | icmp6 => obtain ⟨v, rfl⟩ := tagHalf_ok h; exact decodeIcmp6_wf port v
  | dport p =>
    obtain rfl := hport p rfl
    obtain ⟨v, rfl⟩ := tagHalf_ok h
    exact decodeDport_wf p v
  | coap => obtain ⟨c, rfl⟩ := tagByte_ok h; exact decodeCoap_wf port _ _ c

theorem hasEntry_iff {sel : Selector} : Selector.HasEntry sel ↔ ∀ st, sel = .entry st → stageRuns st := by
  cases sel <;> simp [Selector.HasEntry]

/-- Settles O2: a tag of the right width decodes, and every decoder answers only what its row admits. -/
theorem dispatchIsTotal : Obligations.DispatchIsTotal := by
  intro port sel bs hport
  refine ⟨fun hw hruns => ?_, decode_of_length_ne⟩
  obtain ⟨i, hi⟩ := decode_of_width hw (hasEntry_iff.mpr hruns)
  exact ⟨i, hi, decode_wf hport hi⟩

/-! ## The dispatch map -/

/-- The frame type is the low three bits of the byte (R127). -/
theorem decodeFtype_byte (a : Byte) : decodeFtype (a.extractLsb' 0 3) =
    if a.toNat % 8 = 1 then .mac154Data else .mac154Other (BitVec.ofNat 3 a.toNat) := by
  have hlow : a.extractLsb' 0 3 = BitVec.ofNat 3 a.toNat := by simpa using extractLsb'_eq_ofNat_div a 0 3
  have hdata : BitVec.ofNat 3 a.toNat = 1#3 ↔ a.toNat % 8 = 1 := by rw [← BitVec.toNat_inj, BitVec.toNat_ofNat]; rfl
  rw [hlow, decodeFtype]
  exact if_congr hdata rfl rfl

theorem decodeDispatch_byte (d : Byte) : decodeDispatch d = if d.toNat / 32 = 3
    then .lowpanIphc (BitVec.ofNat 2 (d.toNat / 8)) (BitVec.ofNat 1 (d.toNat / 4)) (BitVec.ofNat 2 d.toNat)
    else .lowpanOther d := by
  simp only [decodeDispatch, dispatchMask_iff, extractLsb'_eq_ofNat_div, Nat.reducePow, Nat.div_one]

theorem decodeNhc_byte (c : Byte) : decodeNhc c = if c.toNat / 8 = 30
    then .nhcUdp (BitVec.ofNat 1 (c.toNat / 4)) (BitVec.ofNat 2 c.toNat) else .nhcOther c := by
  simp only [decodeNhc, nhcMask_iff, extractLsb'_eq_ofNat_div, Nat.reducePow, Nat.div_one]

/-- The rows of `COAP` as tests on the message type, the code and the path (R355, R356). -/
theorem decodeCoap_byte (t : BitVec 2) (known : Bool) (code : Byte) : decodeCoap t known code =
    if 2 ≤ t.toNat ∨ code.toNat = 0 ∨ 32 ≤ code.toNat then .coapOther code
    else if known = false then .coapNotFound code
    else if code.toNat = 1 then .coapGetLed
    else if code.toNat = 3 then .coapPutLed
    else .coapNotAllowed code := by
  have hrequest : (t = 0#2 ∨ t = 1#2) ↔ t.toNat < 2 := by
    simp only [← BitVec.toNat_inj, BitVec.toNat_ofNat]; omega
  have hcode (n : Nat) (hn : n < 256) : code = BitVec.ofNat 8 n ↔ code.toNat = n := by
    rw [← BitVec.toNat_inj, BitVec.toNat_ofNat, Nat.mod_eq_of_lt hn]
  simp only [decodeCoap, hrequest, classMask_iff, hcode 0 (by omega), hcode 1 (by omega), hcode 3 (by omega), ne_eq]
  by_cases hother : 2 ≤ t.toNat ∨ code.toNat = 0 ∨ 32 ≤ code.toNat
  · rw [if_pos hother, if_neg (by omega), if_neg (by omega), if_neg (by omega), if_neg (by omega)]
  · rw [if_neg hother]
    have ht : t.toNat < 2 := by omega
    have hclass : code.toNat < 32 := by omega
    have hempty : code.toNat ≠ 0 := by omega
    cases known <;> simp [ht, hclass, hempty]

/-- Settles O3: the two-byte tags read as their number, the one-byte tags by their masks. -/
theorem dispatchMapRowForRow : Obligations.DispatchMapRowForRow :=
  ⟨tagHalf_toBE _, fun a => congrArg Except.ok (decodeFtype_byte a), fun d => congrArg Except.ok (decodeDispatch_byte d),
    fun c => congrArg Except.ok (decodeNhc_byte c), tagHalf_toBE _, fun _ => rfl, fun _ => rfl, tagHalf_toBE _, tagHalf_toBE _,
    fun _ => tagHalf_toBE _, fun t known code => congrArg Except.ok (decodeCoap_byte t known code)⟩

/-- Settles O4: each tag is evaluated on its bytes. -/
theorem knownTagsDecode : Obligations.KnownTagsDecode :=
  ⟨rfl, rfl, rfl, rfl, rfl, rfl, rfl, rfl, rfl, rfl, rfl, rfl⟩

end Sys2Proof.Machine
end

section
/-! SUPPORT. A stage's entry operation reads the tag of its dispatch from the frame (R91 to R131, R141, R354). -/

namespace Sys2Proof.Machine

-- One elaboration thread: the successor states of the parsers take much memory when they are elaborated side by side.
set_option Elab.async false

/-! ## Strings read as fields and back -/

/-- A one-byte field is its byte. -/
theorem singleton_ofBE {bs : List Byte} (h : bs.length = 1) : [ofBE 8 bs] = bs := by
  obtain ⟨b, rfl⟩ := List.length_eq_one_iff.mp h
  simp [ofBE]

/-- The low byte of a little-endian field stands first (R61). -/
theorem singleton_low_ofLE {bs : List Byte} (h : bs.length = 2) : [(ofLE 16 bs).extractLsb' 0 8] = slice bs 0 1 := by
  obtain ⟨a, b, rfl⟩ := List.length_eq_two.mp h
  have hlow : (ofLE 16 [a, b]).extractLsb' 0 8 = a := by
    apply BitVec.eq_of_toNat_eq
    have ha := a.isLt
    simp [ofLE, leNat]
    omega
  simp [hlow, slice]

theorem singleton_byteAt {bs : List Byte} {i : Nat} (h : i < bs.length) : [byteAt bs i] = slice bs i (i + 1) := by
  simp [byteAt, slice, List.take_one_drop_eq_of_lt_length, h]

theorem slice_slice (bs : List Byte) {a b c d : Nat} (h : a + d ≤ b) :
    slice (slice bs a b) c d = slice bs (a + c) (a + d) := by
  have htake : min (d - c) (b - a - c) = d - c := by omega
  have hdiff : a + d - (a + c) = d - c := by omega
  simp only [slice, List.drop_take, List.drop_drop, List.take_take, htake, hdiff]

/-- A read inside the view is a slice of it. -/
theorem memRead_eq_slice_view {s : State} {off n : Nat} (h : off + n ≤ s.vlen.toNat) :
    s.memRead (s.vbase.toNat + off) n = slice s.view off (off + n) := by
  rw [slice, Nat.add_sub_cancel_left, State.view, memRead_drop_take _ _ _ _ _ h]

/-! ## Ending in the dispatch -/

/-- The bytes that a selector's tag has in the parse records (R47). -/
def Records.tag (l : Records) : Selector → List Byte
  | .rxGo _ | .txTake | .entry _ => []
  | .ethertype => toBE 2 l.eth.ethertype
  | .ftype => [l.mac.fcf.extractLsb' 0 8]
  | .dispatch => [l.iphc.dispatch]
  | .nhc => [l.iphc.nhc]
  | .oper => toBE 2 l.arp.oper
  | .protocol => [l.ip4.protocol]
  | .nextHeader => [l.ip6.nh]
  | .icmp4 | .icmp6 => toBE 2 l.icmp
  | .dport _ => toBE 2 l.udp.dport
  | .coap _ _ => [l.coap.code]

theorem tagBytes_eq_tag (s : State) : s.tagBytes = s.latched.tag s.selector := by
  unfold State.tagBytes Records.tag
  cases s.selector <;> rfl

/-- If the operation ends in its stage's dispatch, `Q` holds there. -/
def AtDispatch (Q : State → Prop) (t : State) : Prop := t.phase = .dispatch → Q t

/-- The next tag stands under `sel` and has these bytes. -/
def HasTag (sel : Selector) (bytes : List Byte) (t : State) : Prop := t.selector = sel ∧ t.tagBytes = bytes

/-- In the dispatch the tag is the stage's, its bytes those of the record that holds it. -/
theorem atDispatch_hasTag {t : State} {sel : Selector} {bs : List Byte} (hsel : t.tagSelector = sel)
    (hbs : t.latched.tag sel = bs) : AtDispatch (HasTag sel bs) t := by
  intro hph
  have hselector : t.selector = sel := by simp only [State.selector, hph, hsel]
  exact ⟨hselector, by rw [tagBytes_eq_tag, hselector, hbs]⟩

section

variable {s : State} {Q : State → Prop}

theorem dispatch_drop {st : Stage} {c : Cause} : Answers (s.drop st c) (AtDispatch Q) :=
  answers_next.mpr fun h => nomatch h

/-- A `GET` that answers has read a slice of the view. -/
theorem dispatch_get {off n : Nat} {k : List Byte → Out}
    (hk : off + n ≤ s.vlen.toNat → Answers (k (slice s.view off (off + n))) (AtDispatch Q)) :
    Answers (s.get off n k) (AtDispatch Q) := by
  rcases get_cases s off n k with ⟨hle, -, h⟩ | ⟨-, -, h⟩ | ⟨-, h⟩ <;> rw [h]
  · rw [memRead_eq_slice_view hle]
    exact hk hle
  · exact answers_fault _
  · exact answers_next.mpr fun h => nomatch h

theorem dispatch_narrow {off len : Nat} {k : State → Out} (hk : Answers (k (s.narrowed off len)) (AtDispatch Q)) :
    Answers (s.narrow off len k) (AtDispatch Q) :=
  answers_narrow (fun h => nomatch h) fun _ => hk

/-! ## The entry operations -/

theorem execEthParse_tag (hst : s.stage = .eth) :
    Answers (execEthParse s) (AtDispatch (HasTag .ethertype (slice s.view 12 14))) := by
  refine answers_ite (fun _ => dispatch_drop) fun _ => ?_
  refine dispatch_get fun _ => dispatch_get fun _ => dispatch_get fun hle => answers_next.mpr ?_
  refine atDispatch_hasTag (by simp [State.tagSelector, hst]) (toBE_ofBE rfl ?_)
  simp; omega

theorem execMac154Parse_tag (hst : s.stage = .mac154) :
    Answers (execMac154Parse s) (AtDispatch (HasTag .ftype (slice s.view 0 1))) := by
  refine answers_ite (fun _ => dispatch_drop) fun _ => ?_
  refine dispatch_get fun hle => dispatch_get fun _ => answers_next.mpr ?_
  refine atDispatch_hasTag (by simp [State.tagSelector, hst]) ?_
  exact (singleton_low_ofLE (by simp; omega)).trans (slice_slice _ (by omega))

theorem execLowpanParse_tag (hst : s.stage = .lowpan) :
    Answers (execLowpanParse s) (AtDispatch (HasTag .dispatch (slice s.view 0 1))) := by
  refine answers_ite (fun _ => dispatch_drop) fun _ => dispatch_get fun hle => answers_next.mpr ?_
  refine atDispatch_hasTag (by simp [State.tagSelector, hst]) (singleton_ofBE ?_)
  simp; omega

theorem execArpParse_tag (hst : s.stage = .arp) :
    Answers (execArpParse s) (AtDispatch (HasTag .oper (slice s.view 6 8))) := by
  refine answers_ite (fun _ => dispatch_drop) fun _ => ?_
  refine dispatch_get fun _ => dispatch_get fun _ => dispatch_get fun _ => dispatch_get fun _ => ?_
  refine dispatch_get fun hle => dispatch_get fun _ => dispatch_get fun _ => dispatch_get fun _ => dispatch_get fun _ => ?_
  dsimp only
  split
  next => exact dispatch_drop
  next =>
    refine answers_next.mpr (atDispatch_hasTag (by simp [State.tagSelector, hst]) (toBE_ofBE rfl ?_))
    simp; omega

theorem execIp4Parse_tag (hst : s.stage = .ipv4) :
    Answers (execIp4Parse s) (AtDispatch (HasTag .protocol (slice s.view 9 10))) := by
  refine answers_ite (fun _ => dispatch_drop) fun _ => dispatch_get fun _ => ?_
  refine answers_ite (fun _ => dispatch_drop) fun _ => answers_ite (fun _ => dispatch_drop) fun _ => ?_
  refine answers_ite (fun _ => dispatch_drop) fun _ => dispatch_get fun _ => ?_
  refine answers_ite (fun _ => dispatch_drop) fun _ => answers_ite (fun _ => dispatch_drop) fun _ => ?_
  refine dispatch_get fun _ => answers_ite (fun _ => dispatch_drop) fun _ => ?_
  refine dispatch_get fun hle => dispatch_get fun _ => dispatch_get fun _ => answers_ite (fun _ => dispatch_drop) fun _ => ?_
  refine answers_next.mpr (atDispatch_hasTag (by simp [State.tagSelector, hst]) (singleton_ofBE ?_))
  simp; omega

/-- The header stands in the view on Ethernet and in `SCRATCH` on 802.15.4 (R231). -/
theorem execIp6Parse_tag (hst : s.stage = .ipv6) : Answers (execIp6Parse s) (AtDispatch
    (HasTag .nextHeader (slice (if s.cfg.link = .eth then s.view else s.scratchRead 0 40) 6 7))) := by
  unfold execIp6Parse
  split
  next hlink =>
    refine answers_ite (fun _ => dispatch_drop) fun _ => dispatch_get fun hle => ?_
    refine answers_ite (fun _ => dispatch_drop) fun _ => answers_ite (fun _ => dispatch_drop) fun _ => ?_
    refine dispatch_narrow (answers_next.mpr ?_)
    refine atDispatch_hasTag (by simp [State.tagSelector, hst]) ?_
    rw [if_pos hlink]
    exact (singleton_byteAt (by simp; omega)).trans (slice_slice _ (by omega))
  next hlink =>
    refine answers_next.mpr (atDispatch_hasTag (by simp [State.tagSelector, hst]) ?_)
    rw [if_neg (by simp [hlink])]
    exact singleton_byteAt (bs := s.scratchRead 0 40) (i := 6) (by simp)

theorem execIcmp4Parse_tag (hst : s.stage = .icmp4) :
    Answers (execIcmp4Parse s) (AtDispatch (HasTag .icmp4 (slice s.view 0 2))) := by
  refine answers_getView <| answers_ite (fun _ => dispatch_drop) fun hlen => answers_next.mpr ?_
  refine atDispatch_hasTag (by simp [State.tagSelector, hst]) (toBE_ofBE rfl ?_)
  rw [slice_length]; omega

theorem execIcmp6Parse_tag (hst : s.stage = .icmp6) :
    Answers (execIcmp6Parse s) (AtDispatch (HasTag .icmp6 (slice s.upper 0 2))) := by
  refine answers_getUpper <| answers_ite (fun _ => dispatch_drop) fun hlen => answers_next.mpr ?_
  refine atDispatch_hasTag (by simp [State.tagSelector, hst]) (toBE_ofBE rfl ?_)
  rw [slice_length]; omega

theorem execUdpParse_tag (hst : s.stage = .udp) :
    Answers (execUdpParse s) (AtDispatch (HasTag (.dport s.cfg.coapPort) (slice s.upper 2 4))) := by
  refine answers_getUpper <| answers_ite (fun _ => dispatch_drop) fun hlen => ?_
  refine answers_ite (fun _ => dispatch_drop) fun _ => answers_ite (fun _ => dispatch_drop) fun _ => ?_
  refine answers_ite (fun _ => dispatch_drop) fun _ => answers_next.mpr ?_
  refine atDispatch_hasTag (by simp [State.tagSelector, hst]) (toBE_ofBE rfl ?_)
  rw [slice_length]; omega

/-- The two tags of the CoAP header, the message type and the code (R120, R352). -/
theorem coapHeader_ok {m : List Byte} {r : CoapRec} (h : coapHeader m = .ok r) :
    4 ≤ m.length ∧ r.t = (byteAt m 0).extractLsb' 4 2 ∧ r.code = byteAt m 1 := by
  unfold coapHeader at h
  dsimp only at h
  split_ifs at h with hlen
  cases h
  exact ⟨by omega, rfl, rfl⟩

/-- The tag of `COAP` in the message `m`: its code, under its message type and the path test of R354. -/
def HasCoapTag (m : List Byte) (t : State) : Prop :=
  HasTag (.coap ((byteAt m 0).extractLsb' 4 2) t.latched.coap.known) (slice m 1 2) t

/-- A state of the `COAP` dispatch whose record has the header of `m`. -/
theorem atDispatch_hasCoapTag {t : State} {m : List Byte} {r : CoapRec} (hst : t.stage = .coap) (h : coapHeader m = .ok r)
    (ht : t.latched.coap.t = r.t) (hcode : t.latched.coap.code = r.code) : AtDispatch (HasCoapTag m) t := by
  obtain ⟨hlen, htype, hbyte⟩ := coapHeader_ok h
  refine atDispatch_hasTag (by simp [State.tagSelector, hst, ht, htype]) ?_
  rw [Records.tag, hcode, hbyte]
  exact singleton_byteAt (by omega)

theorem execCoapParse_tag (hst : s.stage = .coap) :
    Answers (execCoapParse s) (AtDispatch (HasCoapTag s.latched.udp.payload)) := by
  unfold execCoapParse
  dsimp only
  split
  next => exact dispatch_drop
  next r hr =>
    refine answers_ite (fun _ => ?_) fun _ => answers_next.mpr (atDispatch_hasCoapTag hst hr rfl rfl)
    split
    next => exact dispatch_drop
    next => exact answers_next.mpr (atDispatch_hasCoapTag hst hr rfl rfl)

end

/-- Settles O6: each entry operation ends by a drop, an abort or with the tag's record read from its place. -/
theorem entryReadsTheTagFromTheFrame : Obligations.EntryReadsTheTagFromTheFrame := by
  refine ⟨fun s t hst => execEthParse_tag hst t, fun s t hst => execMac154Parse_tag hst t,
    fun s t hst => execLowpanParse_tag hst t, fun s t hst => execArpParse_tag hst t,
    fun s t hst => execIp4Parse_tag hst t, fun s t hst => execIp6Parse_tag hst t,
    fun s t hst => execIcmp4Parse_tag hst t, fun s t hst => execIcmp6Parse_tag hst t,
    fun s t hst => execUdpParse_tag hst t, fun s t hst h hph => ?_⟩
  exact (execCoapParse_tag hst t h hph).symm

end Sys2Proof.Machine
end

section
/-! SUPPORT. The Internet checksum (R156 to R158): its sum word by word, and the laws of the folded sum. -/

namespace Sys2Proof.Machine

/-! ## The sum of the words -/

/-- The padding of R156: an odd string gets one zero byte on the right. -/
def padEven (s : List Byte) : List Byte := if s.length % 2 = 1 then s ++ [0#8] else s

@[simp] theorem padEven_nil : padEven [] = [] := rfl

@[simp] theorem padEven_singleton (a : Byte) : padEven [a] = [a, 0#8] := rfl

@[simp] theorem padEven_cons_cons (a b : Byte) (s : List Byte) : padEven (a :: b :: s) = a :: b :: padEven s := by
  have hparity : (s.length + 1 + 1) % 2 = s.length % 2 := by omega
  simp only [padEven, List.length_cons, hparity, List.cons_append, apply_ite (fun l => a :: b :: l)]

theorem slice_cons_cons (a b : Byte) (s : List Byte) (i j : Nat) :
    slice (a :: b :: s) (i + 2) (j + 2) = slice s i j := by
  simp [slice]

/-- `wordSum` is the sum over the words of the padded string (R156). -/
theorem wordSum_eq_sum_words (s : List Byte) : wordSum s =
    ((List.range ((padEven s).length / 2)).map fun i => beNat (slice (padEven s) (2 * i) (2 * i + 2))).sum := by
  induction s using wordSum.induct with
  | case1 => rfl
  | case2 a => simp [wordSum, slice, Nat.mul_comm]
  | case3 a b s ih =>
    have hwords : ((padEven s).length + 1 + 1) / 2 = (padEven s).length / 2 + 1 := by omega
    have htail (i : Nat) : slice (a :: b :: padEven s) (2 * (i + 1)) (2 * (i + 1) + 2)
        = slice (padEven s) (2 * i) (2 * i + 2) := slice_cons_cons a b _ (2 * i) (2 * i + 2)
    have hhead : beNat (slice (a :: b :: padEven s) (2 * 0) (2 * 0 + 2)) = 256 * a.toNat + b.toNat := by
      simp [slice, Nat.mul_comm]
    rw [padEven_cons_cons, List.length_cons, List.length_cons, hwords, List.range_succ_eq_map, List.map_cons,
      List.map_map, List.sum_cons, hhead, wordSum, ih]
    simp only [Function.comp_def, Nat.succ_eq_add_one, htail]

theorem wordSum_eq_zero_iff (s : List Byte) : wordSum s = 0 ↔ ∀ b ∈ s, b = 0#8 := by
  have hbyte (b : Byte) : b = 0#8 ↔ b.toNat = 0 := BitVec.toNat_eq
  induction s using wordSum.induct with
  | case1 => simp [wordSum]
  | case2 a => simp [wordSum, hbyte]
  | case3 a b s ih => simp [wordSum, ih, hbyte, and_assoc]

/-- Whole words in front of a string add their values. -/
theorem wordSum_flatMap_append (ws : List (Byte × Byte)) (tail : List Byte) :
    wordSum (ws.flatMap (fun w => [w.1, w.2]) ++ tail)
      = (ws.map fun w => 256 * w.1.toNat + w.2.toNat).sum + wordSum tail := by
  induction ws with
  | nil => simp
  | cons w ws ih => simp [wordSum, ih, Nat.add_assoc]

/-- A two-byte field adds its value. -/
theorem wordSum_bytesBE_two {v : Nat} (h : v < 65536) : wordSum (bytesBE 2 v) = v := by
  simp only [bytesBE, wordSum, BitVec.toNat_ofNat, Nat.reducePow]
  omega

/-- A field between an even-length string and the rest adds its value to their sum. -/
theorem wordSum_field {a f b : List Byte} (ha : a.length % 2 = 0) (hf : f.length = 2) :
    wordSum (a ++ f ++ b) = wordSum a + wordSum f + wordSum b := by
  rw [wordSum_append _ _ (by simp; omega), wordSum_append _ _ (by omega)]

/-! ## The folded sum -/

theorem folded_mod (t : Nat) : folded t % 0xFFFF = t % 0xFFFF := by
  unfold folded
  split <;> omega

theorem folded_eq_zero_iff (t : Nat) : folded t = 0 ↔ t = 0 := by
  unfold folded
  split <;> omega

/-- A folded sum is determined by its residue and by being zero or not. -/
theorem folded_congr {t u : Nat} (hmod : t % 0xFFFF = u % 0xFFFF) (hzero : t = 0 ↔ u = 0) : folded t = folded u := by
  have ht := folded_mod t
  have hu := folded_mod u
  have hleT := folded_le t
  have hleU := folded_le u
  have hzT := folded_eq_zero_iff t
  have hzU := folded_eq_zero_iff u
  omega

/-- Folding the parts first does not change the folded sum. -/
theorem folded_add_folded (t u : Nat) : folded (folded t + folded u) = folded (t + u) := by
  apply folded_congr
  · rw [Nat.add_mod, folded_mod, folded_mod, ← Nat.add_mod]
  · simp only [Nat.add_eq_zero_iff, folded_eq_zero_iff]

/-- A sum and the complement of its folding fold to all ones. -/
theorem folded_add_complement (t : Nat) : folded (t + (0xFFFF - folded t)) = 0xFFFF := by
  have hmod := folded_mod t
  have hle := folded_le t
  have hzero := folded_eq_zero_iff t
  exact folded_congr (u := 0xFFFF) (by omega) (by omega)

/-! ## `ones_sum` -/

theorem onesSum_mod (s : List Byte) : onesSum s % 0xFFFF = wordSum s % 0xFFFF := by
  rw [onesSum_eq_folded, folded_mod]

theorem onesSum_eq_zero_iff (s : List Byte) : onesSum s = 0 ↔ wordSum s = 0 := by
  rw [onesSum_eq_folded, folded_eq_zero_iff]

theorem onesSum_eq_zero_iff_bytes (s : List Byte) : onesSum s = 0 ↔ ∀ b ∈ s, b = 0#8 :=
  (onesSum_eq_zero_iff s).trans (wordSum_eq_zero_iff s)

theorem cksumOk_iff (s : List Byte) : cksumOk s = true ↔ onesSum s = 0xFFFF := decide_eq_true_iff

/-- A string of zeros never passes the check (R158). -/
theorem cksumOk_of_zero {s : List Byte} (h : ∀ b ∈ s, b = 0#8) : cksumOk s = false := by
  rw [Bool.eq_false_iff, ne_eq, cksumOk_iff, (onesSum_eq_zero_iff_bytes s).mpr h]
  decide

theorem cksumMake_eq_ones_iff (s : List Byte) : cksumMake s = 0xFFFF ↔ ∀ b ∈ s, b = 0#8 := by
  rw [← onesSum_eq_zero_iff_bytes, cksumMake]
  have := onesSum_le s
  omega

theorem cksumMake_eq_zero_iff (s : List Byte) : cksumMake s = 0 ↔ onesSum s = 0xFFFF := by
  rw [cksumMake]
  have := onesSum_le s
  omega

/-- The order of the words does not matter (R158). -/
theorem onesSum_perm {ws ws' : List (Byte × Byte)} (h : ws.Perm ws') (tail : List Byte) :
    onesSum (ws.flatMap (fun w => [w.1, w.2]) ++ tail) = onesSum (ws'.flatMap (fun w => [w.1, w.2]) ++ tail) := by
  rw [onesSum_eq_folded, onesSum_eq_folded, wordSum_flatMap_append, wordSum_flatMap_append, (h.map _).sum_eq]

/-- The sum of a concatenation at an even offset is the folded sum of the parts' sums (R158). -/
theorem onesSum_append {a : List Byte} (h : a.length % 2 = 0) (b : List Byte) :
    onesSum (a ++ b) = foldCarry (onesSum a + onesSum b) (onesSum a + onesSum b) := by
  rw [foldCarry_eq_folded (Nat.le_refl _), onesSum_eq_folded, onesSum_eq_folded, onesSum_eq_folded,
    folded_add_folded, wordSum_append _ _ (by omega)]

/-- The checksum made over a zero field, written into the field, validates (R158). -/
theorem cksumOk_cksumMake {a : List Byte} (h : a.length % 2 = 0) (b : List Byte) :
    cksumOk (a ++ bytesBE 2 (cksumMake (a ++ [0#8, 0#8] ++ b)) ++ b) = true := by
  have hmake : cksumMake (a ++ [0#8, 0#8] ++ b) = 0xFFFF - folded (wordSum a + wordSum b) := by
    rw [cksumMake, onesSum_eq_folded, wordSum_field h rfl]
    rfl
  rw [cksumOk_iff, onesSum_eq_folded, hmake, wordSum_field h (bytesBE_length 2 _), wordSum_bytesBE_two (by omega),
    Nat.add_right_comm]
  exact folded_add_complement _

/-- Settles O46, a lemma for each law. -/
theorem onesSumLaws : Obligations.OnesSumLaws := by
  refine ⟨fun s => ?_, fun s => ⟨onesSum_le s, onesSum_eq_zero_iff_bytes s, cksumOk_of_zero, cksumMake_eq_ones_iff s⟩,
    fun _ _ tail h => onesSum_perm h tail, fun _ b h => onesSum_append h b, fun _ b h => cksumOk_cksumMake h b,
    cksumMake_eq_zero_iff⟩
  refine ⟨onesSum_le s, (onesSum_mod s).trans ?_, (onesSum_eq_zero_iff s).trans ?_⟩
  · exact congrArg (· % 0xFFFF) (wordSum_eq_sum_words s)
  · exact Eq.congr_left (wordSum_eq_sum_words s)

end Sys2Proof.Machine
end

section
/-! SUPPORT. The micro-operations over the view (R151 to R153), inside and outside the bound of R72. -/

namespace Sys2Proof.Machine

/-! ## Bytes of the buffer after a store -/

theorem readBuf_store_inside (s : State) (a : Nat) {v : List Byte} {i : Nat} (h : i < v.length) :
    ({ s with mem := memWriteBytes a v s.mem } : State).readBuf (a + i) = v[i] := by
  rw [State.readBuf, memFind_memWriteBytes_inside h, Option.getD_some]

theorem readBuf_store_outside (s : State) {a x : Nat} {v : List Byte} (h : x < a ∨ a + v.length ≤ x) :
    ({ s with mem := memWriteBytes a v s.mem } : State).readBuf x = s.readBuf x := by
  rw [State.readBuf, memFind_memWriteBytes_outside h, State.readBuf]

/-! ## Outside the bound -/

theorem narrow_outside {s : State} {off len : Nat} (h : s.vlen.toNat < off + len) (k : State → Out) :
    s.narrow off len k = s.drop s.stage .truncated := if_neg (Nat.not_le_of_lt h)

theorem get_outside {s : State} {off n : Nat} (h : s.vlen.toNat < off + n) (k : List Byte → Out) :
    s.get off n k = .next s.raiseAbort := if_neg (Nat.not_le_of_lt h)

theorem set_outside {s : State} {off : Nat} {v : List Byte} (h : s.vlen.toNat < off + v.length) (k : State → Out) :
    s.set off v k = .next s.raiseAbort := if_neg (Nat.not_le_of_lt h)

/-! ## Inside the bound -/

/-- The registers of a narrowed view do not wrap while the buffer has at most 65535 bytes. -/
theorem narrowed_registers {s : State} (hv : s.viewOk) (hcap : s.par.bufCap ≤ 65535) {off len : Nat}
    (h : off + len ≤ s.vlen.toNat) :
    (s.narrowed off len).vbase.toNat = s.vbase.toNat + off ∧ (s.narrowed off len).vlen.toNat = len := by
  unfold State.viewOk at hv
  simp only [State.narrowed_vbase, State.narrowed_vlen, BitVec.toNat_ofNat]
  exact ⟨Nat.mod_eq_of_lt (by omega), Nat.mod_eq_of_lt (by omega)⟩

theorem get_eq_slice_view {s : State} (hv : s.viewOk) {off n : Nat} (h : off + n ≤ s.vlen.toNat) (k : List Byte → Out) :
    s.get off n k = k (slice s.view off (off + n)) := by
  rw [get_ok hv h, memRead_eq_slice_view h]

/-- Settles O14: each micro-operation on both sides of its bound. -/
theorem viewAccessReadsAndWritesTheBuffer : Obligations.ViewAccessReadsAndWritesTheBuffer := by
  refine ⟨fun s off len k hv hcap => ⟨fun h => ?_, fun h => narrow_outside h k⟩,
    fun s off n k hv => ⟨fun h => get_eq_slice_view hv h k, fun h => get_outside h k⟩,
    fun s off v k hv => ⟨fun h => ?_, fun h => set_outside h k⟩⟩
  case refine_1 =>
    obtain ⟨hbase, hlen⟩ := narrowed_registers hv hcap h
    exact ⟨s.narrowed off len, narrow_ok h k, rfl, hbase, hlen⟩
  case refine_2 =>
    exact ⟨_, set_ok hv h k, rfl, fun _ hi => readBuf_store_inside s _ hi, fun _ hx => readBuf_store_outside s hx⟩

end Sys2Proof.Machine
end

section
/-! SUPPORT. The link layer (R171 to R178): which frame control fields the 802.15.4 framer refuses, and what the two
framers latch and hand over. -/

namespace Sys2Proof.Machine

variable {s : State}

/-- Taking `off` bytes off the front of the view: what a framer does when it hands its payload over. -/
theorem narrow_to_payload {off : Nat} (h : off ≤ s.vlen.toNat) (k : State → Out) :
    s.narrow off (s.vlen.toNat - off) k
      = k { s with vbase := s.vbase + BitVec.ofNat 16 off, vlen := s.vlen - BitVec.ofNat 16 off } := by
  have hbase : BitVec.ofNat 16 (s.vbase.toNat + off) = s.vbase + BitVec.ofNat 16 off := by
    rw [BitVec.ofNat_add, BitVec.ofNat_toNat, BitVec.setWidth_eq]
  have hlen : BitVec.ofNat 16 (s.vlen.toNat - off) = s.vlen - BitVec.ofNat 16 off := by bv_omega
  rw [narrow_ok (by omega), State.narrowed, hbase, hlen]

/-- A one-byte field is the byte at its place. -/
theorem ofBE_slice_one {bs : List Byte} {i : Nat} (h : i < bs.length) : ofBE 8 (slice bs i (i + 1)) = byteAt bs i := by
  rw [← singleton_byteAt h]
  simp [ofBE]

/-! ## The default branches -/

/-- Settles O15: the arm of each default row is its drop, whatever its operand. -/
theorem defaultBranchesDropUnsupported : Obligations.DefaultBranchesDropUnsupported := fun _ =>
  ⟨fun _ => rfl, fun _ => rfl, fun _ => rfl, fun _ => rfl, fun _ => rfl, fun _ => rfl, fun _ => rfl, fun _ => rfl,
    fun _ => rfl⟩

/-! ## Ethernet -/

theorem ethHandOver_eq (h : 14 ≤ s.vlen.toNat) (st : Stage) : ethHandOver st s = .next { s with
    vbase := s.vbase + 14#16, vlen := s.vlen - 14#16
    log := s.log ++ [.valid .eth], stage := st, phase := .entry } :=
  narrow_to_payload (s := s.emit (.valid .eth)) h _

theorem execEthParse_short (h : s.vlen.toNat < 14) : execEthParse s = .next (s.raiseDrop .eth .truncated) := if_pos h

theorem execEthParse_latches (hv : s.viewOk) (h : 14 ≤ s.vlen.toNat) : execEthParse s = .next { s with
    llDst := .mac48 (ofBE 48 (slice s.view 0 6))
    llSrc := .mac48 (ofBE 48 (slice s.view 6 12))
    latched := { s.latched with
      eth := ⟨ofBE 48 (slice s.view 0 6), ofBE 48 (slice s.view 6 12), ofBE 16 (slice s.view 12 14)⟩ }
    phase := .dispatch } := by
  unfold execEthParse
  rw [if_neg (by omega), get_eq_slice_view hv (by omega), get_eq_slice_view hv (by omega),
    get_eq_slice_view hv (by omega)]
  rfl

/-- Settles O16: the three hand-overs are `ethHandOver`, and `ETH.PARSE` on both sides of its bound. -/
theorem ethLatchesAndHandsOver : Obligations.EthLatchesAndHandsOver := by
  refine ⟨fun s i st hi hlen => ?_, fun s hv => ⟨execEthParse_short, execEthParse_latches hv⟩⟩
  have hexec : exec i s = ethHandOver st s := by
    simp only [List.mem_cons, List.not_mem_nil, or_false, Prod.mk.injEq] at hi
    rcases hi with ⟨rfl, rfl⟩ | ⟨rfl, rfl⟩ | ⟨rfl, rfl⟩ <;> rfl
  exact hexec.trans (ethHandOver_eq hlen st)

/-! ## IEEE 802.15.4 MAC -/

theorem execMac154Parse_short (h : s.vlen.toNat < 3) : execMac154Parse s = .next (s.raiseDrop .mac154 .truncated) :=
  if_pos h

theorem execMac154Parse_latches (hv : s.viewOk) (h : 3 ≤ s.vlen.toNat) : execMac154Parse s = .next { s with
    latched := { s.latched with mac := ⟨ofLE 16 (slice s.view 0 2), byteAt s.view 2⟩ }
    phase := .dispatch } := by
  unfold execMac154Parse
  rw [if_neg (by omega), get_eq_slice_view hv (by omega), get_eq_slice_view hv (by omega),
    ofBE_slice_one (by simp; omega)]
  rfl

/-! ### The frame control field -/

theorem fcfSecurity_eq_one_iff (f : Half) : fcfSecurity f = 1#1 ↔ f.getLsbD 3 = true := by
  rw [fcfSecurity, BitVec.getLsbD_eq_extractLsb', beq_iff_eq]

theorem fcfPanComp_eq_zero_iff (f : Half) : fcfPanComp f = 0#1 ↔ (!f.getLsbD 6) = true := by
  rw [fcfPanComp, BitVec.getLsbD_eq_extractLsb']
  rcases BitVec.eq_zero_or_eq_one (f.extractLsb' 6 1) with h | h <;> simp [h]

/-- The frame control fields that `MAC154.DATA` refuses (R176). -/
def MacRejected (f : Half) : Prop :=
  fcfSecurity f = 1#1 ∨ 2 ≤ (fcfVersion f).toNat ∨ (fcfDstMode f).toNat < 2 ∨ (fcfSrcMode f).toNat < 2

/-- The four refusals answer alike, so their order does not show. -/
theorem execMac154Data_rejected (h : MacRejected s.latched.mac.fcf) :
    execMac154Data s = .next (s.raiseDrop .mac154 .unsupported) := by
  simp only [execMac154Data, ← ite_or]
  exact if_pos h

theorem execMac154Data_short (hf : ¬ MacRejected s.latched.mac.fcf) (h : s.vlen.toNat < macHeaderLen s.latched.mac.fcf) :
    execMac154Data s = .next (s.raiseDrop .mac154 .truncated) := by
  simp only [execMac154Data, ← ite_or]
  exact (if_neg hf).trans (if_pos h)

/-! ### The addresses on the wire -/

/-- `src_pan` stands after the destination address, or is the destination's (R176). -/
theorem getSrcPan_eq (hv : s.viewOk) {f : Half} (h : macHeaderLen f ≤ s.vlen.toNat) (dstPan : Half) (k : Half → Out) :
    s.getSrcPan f dstPan k = k (if fcfPanComp f = 0#1
      then ofLE 16 (slice s.view (5 + addrLen (fcfDstMode f)) (7 + addrLen (fcfDstMode f))) else dstPan) := by
  unfold State.getSrcPan
  split
  next hc =>
    have hroom : 5 + addrLen (fcfDstMode f) + 2 ≤ macHeaderLen f := by
      rw [macHeaderLen, if_pos hc]
      omega
    rw [get_eq_slice_view hv (by omega), Nat.add_right_comm]
  next => rfl

theorem execMac154Data_latches (hv : s.viewOk) {f : Half} (hfcf : s.latched.mac.fcf = f) (hf : ¬ MacRejected f)
    (h : macHeaderLen f ≤ s.vlen.toNat) : execMac154Data s = .next { s with
      panDst := ofLE 16 (slice s.view 3 5)
      panSrc := if fcfPanComp f = 0#1
        then ofLE 16 (slice s.view (5 + addrLen (fcfDstMode f)) (7 + addrLen (fcfDstMode f)))
        else ofLE 16 (slice s.view 3 5)
      llDst := wireAddr (fcfDstMode f) (slice s.view 5 (5 + addrLen (fcfDstMode f)))
      llSrc := wireAddr (fcfSrcMode f) (slice s.view (macHeaderLen f - addrLen (fcfSrcMode f)) (macHeaderLen f))
      vbase := s.vbase + BitVec.ofNat 16 (macHeaderLen f), vlen := s.vlen - BitVec.ofNat 16 (macHeaderLen f)
      log := s.log ++ [.valid .mac154], stage := .lowpan, phase := .entry } := by
  have hparts : 5 + addrLen (fcfDstMode f) + addrLen (fcfSrcMode f) ≤ macHeaderLen f := by
    unfold macHeaderLen
    omega
  simp only [execMac154Data, ← ite_or, hfcf]
  refine (if_neg hf).trans ((if_neg (by omega)).trans ?_)
  rw [get_eq_slice_view hv (by omega), get_eq_slice_view hv (by omega), getSrcPan_eq hv h,
    get_eq_slice_view hv (by omega), Nat.sub_add_cancel (by omega)]
  refine (narrow_to_payload ?_ _).trans rfl
  exact h

/-- An address latched from the bytes that begin at `a` (R128). -/
theorem wireAddr_slice (mode : BitVec 2) (v : List Byte) (a : Nat) :
    wireAddr mode (slice v a (a + addrLen mode))
      = if mode = 2#2 then .short (ofLE 16 (slice v a (a + 2))) else .ext (ofLE 64 (slice v a (a + 8))) := by
  unfold wireAddr addrLen
  split <;> rfl

/-- An address latched from the bytes that end at `b`. -/
theorem wireAddr_slice_end (mode : BitVec 2) (v : List Byte) (b : Nat) :
    wireAddr mode (slice v (b - addrLen mode) b)
      = if mode = 2#2 then .short (ofLE 16 (slice v (b - 2) b)) else .ext (ofLE 64 (slice v (b - 8) b)) := by
  unfold wireAddr addrLen
  split <;> rfl

/-- Settles O17: `MAC154.PARSE` on both sides of its bound; `MAC154.DATA` refuses, is short, or latches and hands over. -/
theorem mac154DataLatchesTheAddresses : Obligations.Mac154DataLatchesTheAddresses := by
  intro s hv
  refine ⟨execMac154Parse_short, execMac154Parse_latches hv, ?_⟩
  intro f dm sm panIn da sa hl reject
  have hreject : reject ↔ MacRejected f := or_congr_left (fcfSecurity_eq_one_iff f).symm
  have hhl : hl = macHeaderLen f := by
    simp only [macHeaderLen, fcfPanComp_eq_zero_iff]
    rfl
  rw [hreject, hhl]
  refine ⟨execMac154Data_rejected, execMac154Data_short, fun hf hlen => ?_⟩
  refine (execMac154Data_latches hv rfl hf hlen).trans ?_
  simp only [fcfPanComp_eq_zero_iff, wireAddr_slice, wireAddr_slice_end]
  rfl

end Sys2Proof.Machine
end

section
/-! SUPPORT. The ARP codec (R190 to R197): what `ARP.PARSE` reads and refuses, what `ARP.REQUEST` and `ARP.REPLY` leave,
and the three steps that answer a request. -/

namespace Sys2Proof.Machine

variable {s t : State}

/-! ## The packet -/

/-- The 28 bytes of an ARP packet (R93). -/
def arpBytes (a : ArpRec) : List Byte :=
  toBE 2 a.htype ++ toBE 2 a.ptype ++ [a.hlen, a.plen] ++ toBE 2 a.oper
    ++ toBE 6 a.sha ++ toBE 4 a.spa ++ toBE 6 a.tha ++ toBE 4 a.tpa

/-- The fields of an ARP packet, as `ARP.PARSE` latches them (R93, R191). -/
def arpRecOf (v : List Byte) : ArpRec :=
  ⟨ofBE 16 (slice v 0 2), ofBE 16 (slice v 2 4), byteAt v 4, byteAt v 5, ofBE 16 (slice v 6 8),
    ofBE 48 (slice v 8 14), ofBE 32 (slice v 14 18), ofBE 48 (slice v 18 24), ofBE 32 (slice v 24 28)⟩

@[simp] theorem arpBytes_length (a : ArpRec) : (arpBytes a).length = 28 := by simp [arpBytes]

/-- A packet reads back as its fields, whatever padding follows it (R191). -/
theorem arpRecOf_arpBytes (a : ArpRec) (padding : List Byte) : arpRecOf (arpBytes a ++ padding) = a := by
  have hfields : arpRecOf (arpBytes a ++ padding) = ⟨ofBE 16 (toBE 2 a.htype), ofBE 16 (toBE 2 a.ptype), a.hlen, a.plen,
      ofBE 16 (toBE 2 a.oper), ofBE 48 (toBE 6 a.sha), ofBE 32 (toBE 4 a.spa), ofBE 48 (toBE 6 a.tha),
      ofBE 32 (toBE 4 a.tpa)⟩ := rfl
  simp only [hfields, ofBE_toBE]

/-- The reply is the request with the roles swapped and the device's hardware address in the sender's place (R195). -/
theorem arpReplyPacket_eq (cfg : Straps) (a : ArpRec) : arpReplyPacket cfg a
    = arpBytes { a with oper := 2#16, sha := cfg.mac, spa := a.tpa, tha := a.sha, tpa := a.spa } := by
  have hbyte (b : Byte) : toBE 1 b = [b] := by simp [toBE, bytesBE]
  simp [arpReplyPacket, arpBytes, hbyte]

/-- The two bytes of a 16-bit field (R60). -/
theorem toBE_half (v : Half) : toBE 2 v = [BitVec.ofNat 8 (v.toNat / 256), BitVec.ofNat 8 v.toNat] := by
  simp [toBE, bytesBE]

/-! ## `ARP.PARSE` -/

/-- Why a view is no ARP packet for this device's link: its length (R191), then the checks of R192. -/
def arpReject (v : List Byte) : Option Cause :=
  if v.length < 28 then some .truncated
  else if (arpRecOf v).htype ≠ 1#16 then some .unsupported
  else if (arpRecOf v).ptype ≠ 0x0800#16 then some .unsupported
  else if (arpRecOf v).hlen ≠ 6#8 then some .badLength
  else if (arpRecOf v).plen ≠ 4#8 then some .badLength
  else none

/-- The end of `ARP.PARSE`: a drop for the cause, or the packet latched for the dispatch. -/
def State.arpParsed (s : State) : Option Cause → State
  | some c => s.raiseDrop .arp c
  | none => (s.latch fun l => { l with arp := arpRecOf s.view }).toDispatch

theorem execArpParse_eq (hv : s.viewOk) : execArpParse s = .next (s.arpParsed (arpReject s.view)) := by
  unfold execArpParse arpReject
  rw [view_length]
  split
  case isTrue => rfl
  case isFalse hlen =>
    iterate 9 rw [get_eq_slice_view hv (by omega)]
    rw [ofBE_slice_one (by simp; omega), ofBE_slice_one (by simp; omega)]
    change (match arpValid (arpRecOf s.view) with
      | .error c => s.drop .arp c
      | .ok _ => .next (s.latch fun l => { l with arp := arpRecOf s.view }).toDispatch) = _
    unfold arpValid
    split_ifs <;> rfl

/-- Settles O18: the reject chain is `arpReject` of the view. -/
theorem arpParseValidatesThePacket : Obligations.ArpParseValidatesThePacket := by
  intro s hv v a reject
  have hexec : exec .arpParse s = .next (s.arpParsed reject) := execArpParse_eq hv
  rw [hexec]
  constructor
  · rintro c hc
    rw [hc]
    rfl
  · intro hnone
    rw [hnone]
    rfl

/-! ## `ARP.REQUEST` and `ARP.REPLY` -/

/-- The state in which the reply waits for `BUILD`, the sender's mapping learnt (R193, R194). -/
def State.arpAnswered (s : State) : State :=
  (s.arpLearn.emit (.valid .arp)).respond .arp (.arp s.latched.arp.spa (arpReplyPacket s.cfg s.latched.arp))

theorem execArpRequest_forUs (h : s.latched.arp.tpa = s.cfg.ipv4) : execArpRequest s = .next s.arpAnswered :=
  if_neg (not_not.mpr h)

theorem execArpRequest_notForUs (h : s.latched.arp.tpa ≠ s.cfg.ipv4) :
    execArpRequest s = .next (s.arpLearn.raiseDrop .arp .notForUs) := if_pos h

/-- Settles O19: both operations learn; a request is answered on one side of its test and dropped on the other. -/
theorem arpLearnsAndAnswers : Obligations.ArpLearnsAndAnswers := by
  refine fun s => ⟨fun h => (execArpRequest_forUs h).trans ?_, execArpRequest_notForUs, rfl⟩
  have hlog : s.log ++ [.cache .arp, .valid .arp] = s.arpAnswered.log :=
    (List.append_assoc s.log [.cache .arp] [.valid .arp]).symm
  have hpacket : toBE 2 s.latched.arp.htype ++ toBE 2 s.latched.arp.ptype
      ++ [s.latched.arp.hlen, s.latched.arp.plen, 0x00#8, 0x02#8] ++ toBE 6 s.cfg.mac ++ toBE 4 s.latched.arp.tpa
      ++ toBE 6 s.latched.arp.sha ++ toBE 4 s.latched.arp.spa = arpReplyPacket s.cfg s.latched.arp := by
    simp [arpReplyPacket_eq, arpBytes, toBE_half]
  rw [hlog, hpacket]
  rfl

/-! ## The steps of a run -/

/-- A stage is entered by its entry operation. -/
theorem step_of_entry {i : Instr} (hi : decodeEntry s.stage = .ok i) (hr : stageRuns s.stage) (hph : s.phase = .entry)
    (hhost : s.host = []) : step s = exec i s := by
  refine step_of_runs hr (by simp [State.resetNext, hhost]) ?_
  simp [State.tagBytes, State.selector, hph, decode, tagNone, hi]

/-- The dispatch of the `ARP` stage takes the operation the packet's `oper` selects (R140). -/
theorem step_of_oper (hst : s.stage = .arp) (hph : s.phase = .dispatch) (hhost : s.host = []) :
    step s = exec (decodeOper s.latched.arp.oper) s := by
  have hsel : s.selector = .oper := by simp [State.selector, State.tagSelector, hph, hst]
  refine step_of_runs (by simp [hst, stageRuns]) (by simp [State.resetNext, hhost]) ?_
  rw [tagBytes_eq_tag, hsel]
  exact tagHalf_toBE decodeOper s.latched.arp.oper

/-- A run of the machine goes on from the state a step leaves. -/
theorem run_of_step (h : step s = .next t) (k : Nat) :
    Host.Core.run Sys2Proof.core (k + 1) s = Host.Core.run Sys2Proof.core k t := by
  have hstep : Sys2Proof.core.step s = .next t := h
  simp only [Host.Core.run, hstep]

/-! ## The response in the buffer -/

/-- The state after `BUILD` has sent `frame` (R409, R402). -/
def State.sent (frame : List Byte) (s : State) : State :=
  (s.withResponse frame).advanceDsn.finishSent s.latched.hstage

theorem execBuild_sends (hcap : s.par.bufCap ≤ 65535) {frame : List Byte} (hf : s.frame = some frame)
    (hfits : frame.length ≤ s.txLimit) : execBuild s = .next (s.sent frame) := by
  rw [execBuild_of_frame hcap hf, if_neg (by omega)]
  rfl

@[simp] theorem State.sent_txlen (s : State) (frame : List Byte) :
    (s.sent frame).txlen = BitVec.ofNat 16 frame.length := State.advanceDsn_txlen _

@[simp] theorem State.sent_arp (s : State) (frame : List Byte) : (s.sent frame).arp = s.arp := State.advanceDsn_arp _

@[simp] theorem State.sent_log (s : State) (frame : List Byte) :
    (s.sent frame).log = s.log ++ [.send s.latched.hstage (BitVec.ofNat 16 frame.length)] := by
  simp [State.sent, State.withResponse]

/-- The host reads back the frame that `BUILD` has stored (R409). -/
theorem memRead_sent (s : State) {frame : List Byte} (hlen : frame.length < 65536) :
    (s.sent frame).memRead 0 frame.length = frame := by
  refine List.ext_getElem (memRead_length ..) fun i _ hi => ?_
  have hstored := memFind_memWriteBytes_inside (a := 0) hi s.mem
  have hkept : 0 + i < ((s.withResponse frame).advanceDsn).txlen.toNat := by
    simp [State.withResponse, Nat.mod_eq_of_lt hlen, hi]
  rw [memRead_getElem, State.readBuf, State.sent, State.finishSent_mem, memFind_filter_below hkept,
    State.advanceDsn_mem]
  exact congrArg (Option.getD · _) hstored

/-! ## A request for the device -/

/-- A packet that asks the device for its hardware address (R93, R190). -/
def arpRequestRec (cfg : Straps) (sha tha : BitVec 48) (spa : BitVec 32) : ArpRec :=
  ⟨1#16, 0x0800#16, 6#8, 4#8, 1#16, sha, spa, tha, cfg.ipv4⟩

theorem arpBytes_request (cfg : Straps) (sha tha : BitVec 48) (spa : BitVec 32) : arpBytes (arpRequestRec cfg sha tha spa)
    = [0x00#8, 0x01#8, 0x08#8, 0x00#8, 0x06#8, 0x04#8, 0x00#8, 0x01#8] ++ toBE 6 sha ++ toBE 4 spa ++ toBE 6 tha
      ++ toBE 4 cfg.ipv4 := by
  simp [arpBytes, arpRequestRec, toBE_half]

/-- A request passes the checks of R192 and is latched. -/
theorem execArpParse_request {sha tha : BitVec 48} {spa : BitVec 32} {padding : List Byte} (hv : s.viewOk)
    (hview : s.view = arpBytes (arpRequestRec s.cfg sha tha spa) ++ padding) :
    execArpParse s = .next (s.latch fun l => { l with arp := arpRequestRec s.cfg sha tha spa }).toDispatch := by
  have hrec : arpRecOf s.view = arpRequestRec s.cfg sha tha spa := by rw [hview, arpRecOf_arpBytes]
  have hlen : ¬ s.view.length < 28 := by simp [hview]
  have hvalid : arpReject s.view = none := by
    rw [arpReject, if_neg hlen, hrec]
    rfl
  rw [execArpParse_eq hv, hvalid, State.arpParsed, hrec]

/-- The frame of the ARP reply, addressed to the sender of the packet (R179, R195). -/
def State.arpReplyFrame (s : State) : List Byte :=
  ethBuild s.cfg s.latched.arp.sha 0x0806#16 (arpReplyPacket s.cfg s.latched.arp)

@[simp] theorem arpReplyFrame_length (s : State) : s.arpReplyFrame.length = 42 := by
  simp [State.arpReplyFrame, ethBuild, arpReplyPacket_eq]

/-- The bytes of the frame that answers a request for the device. -/
theorem arpReplyFrame_of_request {sha tha : BitVec 48} {spa : BitVec 32}
    (h : s.latched.arp = arpRequestRec s.cfg sha tha spa) :
    s.arpReplyFrame = toBE 6 sha ++ toBE 6 s.cfg.mac ++ [0x08#8, 0x06#8]
      ++ [0x00#8, 0x01#8, 0x08#8, 0x00#8, 0x06#8, 0x04#8, 0x00#8, 0x02#8] ++ toBE 6 s.cfg.mac
      ++ toBE 4 s.cfg.ipv4 ++ toBE 6 sha ++ toBE 4 spa := by
  simp [State.arpReplyFrame, ethBuild, arpReplyPacket_eq, h, arpRequestRec, arpBytes, toBE_half]

/-- The sender was learnt just now, so its own hardware address resolves it (R195, R408). -/
theorem arpAnswered_frame (hlink : s.cfg.link = .eth) : s.arpAnswered.frame = some s.arpReplyFrame := by
  have hresolve : s.arpAnswered.resolve4 s.latched.arp.spa = .mac48 s.latched.arp.sha := by
    simp [State.resolve4, State.arpAnswered, cacheLookup_cacheInsert_self]
  have hcfg : s.arpAnswered.cfg = s.cfg := rfl
  have hresp : s.arpAnswered.latched.resp = some (.arp s.latched.arp.spa (arpReplyPacket s.cfg s.latched.arp)) := rfl
  simp only [State.frame, hcfg, hlink, hresp, hresolve, macOf, State.arpReplyFrame]

theorem execBuild_arpAnswered (hpar : s.par.ok) (hlink : s.cfg.link = .eth) :
    execBuild s.arpAnswered = .next (s.arpAnswered.sent s.arpReplyFrame) := by
  obtain ⟨hmin, hmax, -⟩ := hpar
  refine execBuild_sends (s := s.arpAnswered) hmax (arpAnswered_frame hlink) ?_
  have hlimit : s.arpAnswered.txLimit = min s.par.bufCap 1514 := by simp [State.txLimit, State.arpAnswered, hlink, txMax]
  rw [hlimit, arpReplyFrame_length]
  omega

/-- A latched request for the device is answered in two steps (R194, R409). -/
theorem run_arpRequest {sha tha : BitVec 48} {spa : BitVec 32} (hpar : s.par.ok) (hlink : s.cfg.link = .eth)
    (hst : s.stage = .arp) (hph : s.phase = .dispatch) (hhost : s.host = [])
    (hlatched : s.latched.arp = arpRequestRec s.cfg sha tha spa) :
    Host.Core.run Sys2Proof.core 2 s = .next (s.arpAnswered.sent s.arpReplyFrame) := by
  have hrequest : step s = .next s.arpAnswered := by
    rw [step_of_oper hst hph hhost, hlatched]
    exact execArpRequest_forUs (by rw [hlatched]; rfl)
  have hbuild : step s.arpAnswered = .next (s.arpAnswered.sent s.arpReplyFrame) :=
    (step_of_entry (s := s.arpAnswered) (i := .build) rfl rfl rfl hhost).trans (execBuild_arpAnswered hpar hlink)
  rw [run_of_step hrequest, run_of_step hbuild]
  rfl

/-- Settles O60: `ARP.PARSE` latches the request, `ARP.REQUEST` answers it and `BUILD` sends the reply. -/
theorem arpRequestIsAnsweredToItsSender : Obligations.ArpRequestIsAnsweredToItsSender := by
  intro s sha tha spa padding hinv hst hph hhost hview
  rw [← arpBytes_request] at hview
  obtain ⟨u, hu⟩ : ∃ u, u = (s.latch fun l => { l with arp := arpRequestRec s.cfg sha tha spa }).toDispatch := ⟨_, rfl⟩
  have hlink : s.cfg.link = .eth := by simpa [hst, stageFits] using hinv.link
  have hparse : step s = .next u := by
    rw [step_of_entry (i := .arpParse) (by simp [hst, decodeEntry]) (by simp [hst, stageRuns]) hph hhost, hu]
    exact execArpParse_request hinv.view hview
  have hlatched : u.latched.arp = arpRequestRec u.cfg sha tha spa := hu ▸ rfl
  have hcfg : u.cfg = s.cfg := hu ▸ rfl
  have hlog : u.log = s.log := hu ▸ rfl
  have hrun : Host.Core.run Sys2Proof.core 2 u = .next (u.arpAnswered.sent u.arpReplyFrame) :=
    run_arpRequest (hu ▸ hinv.par) (hcfg ▸ hlink) (hu ▸ hst) (hu ▸ rfl) (hu ▸ hhost) hlatched
  refine ⟨u.arpAnswered.sent u.arpReplyFrame, (run_of_step hparse 2).trans hrun, rfl, ?_, ?_, ?_, ?_⟩
  · rw [State.sent_txlen, arpReplyFrame_length]
  · have hread : (u.arpAnswered.sent u.arpReplyFrame).memRead 0 42 = u.arpReplyFrame :=
      arpReplyFrame_length u ▸ memRead_sent u.arpAnswered (by simp)
    rw [hread, arpReplyFrame_of_request hlatched, hcfg]
  · have harp : (u.arpAnswered.sent u.arpReplyFrame).arp = cacheInsert u.par.arpCap spa sha u.arp := by
      simp [State.arpAnswered, hlatched, arpRequestRec]
    rw [harp, cacheLookup_cacheInsert_self]
  · simp [State.arpAnswered, hlog]

end Sys2Proof.Machine
end

section
/-! SUPPORT. Slices of a string that was put together or written over (R10), and of one whose checksum was filled in
(R157). -/

namespace Sys2Proof.Machine

/-! ## Slices -/

/-- A byte is a field of one byte. -/
theorem byteAt_eq_slice (bs : List Byte) (i : Nat) : byteAt bs i = byteAt (slice bs i (i + 1)) 0 := by
  simp [byteAt, slice]

theorem slice_append_left {a : List Byte} {j : Nat} (h : j ≤ a.length) (b : List Byte) (i : Nat) :
    slice (a ++ b) i j = slice a i j := by
  unfold slice
  rcases Nat.le_total i a.length with hi | hi
  · rw [List.drop_append_of_le_length hi, List.take_append_of_le_length (by simp; omega)]
  · rw [Nat.sub_eq_zero_of_le (by omega), List.take_zero, List.take_zero]

/-- A string falls into the part before a place, the part up to a second place, and the rest. -/
theorem slice_append_slice (bs : List Byte) {i j : Nat} (h : i ≤ j) :
    slice bs 0 i ++ slice bs i j ++ slice bs j bs.length = bs := by
  obtain ⟨k, rfl⟩ := Nat.exists_eq_add_of_le h
  have hmid : slice bs 0 i ++ slice bs i (i + k) = bs.take (i + k) := by simp [slice, List.take_add]
  have hend : slice bs (i + k) bs.length = bs.drop (i + k) := List.take_of_length_le (by simp)
  rw [hmid, hend, List.take_append_drop]

/-! ## A string written over -/

section

variable {bs v : List Byte} {off : Nat}

/-- How far a string written over reaches. -/
theorem le_length_patch_iff (bs : List Byte) (off : Nat) (v : List Byte) (k : Nat) :
    k ≤ (patch bs off v).length ↔ k ≤ bs.length ∨ k ≤ min off bs.length + v.length := by
  simp only [patch, List.length_append, List.length_take, List.length_drop]
  omega

/-- The place written over holds what was written. -/
theorem slice_patch_inside (h : off ≤ bs.length) {j : Nat} (hj : j = off + v.length) :
    slice (patch bs off v) off j = v := by
  subst hj
  have htake : (bs.take off).length = off := by simp [h]
  rw [patch, slice_append_left (by simp [h]), slice, List.drop_left' htake, Nat.add_sub_cancel_left, List.take_length]

/-- Any other place keeps what it held. -/
theorem slice_patch_outside (h : off ≤ bs.length) {i j : Nat} (hij : j ≤ off ∨ off + v.length ≤ i) :
    slice (patch bs off v) i j = slice bs i j := by
  rcases hij with hj | hi
  · have htake : slice (bs.take off ++ bs.drop off) i j = slice (bs.take off) i j :=
      slice_append_left (by simp; omega) _ i
    rw [patch, List.append_assoc, slice_append_left (by simp; omega), ← htake, List.take_append_drop]
  · obtain ⟨k, rfl⟩ := Nat.exists_eq_add_of_le hi
    have hfront : (bs.take off ++ v).length = off + v.length := by simp [h]
    have hdrop : (patch bs off v).drop (off + v.length + k) = bs.drop (off + v.length + k) := by
      rw [patch, ← List.drop_drop, List.drop_left' hfront, List.drop_drop]
    rw [slice, slice, hdrop]

end

/-! ## A checksum filled in -/

theorem withCksum_length {bs : List Byte} {off : Nat} (h : off + 2 ≤ bs.length) :
    (withCksum bs off).length = bs.length :=
  patch_length (by rwa [bytesBE_length])

/-- A checksum filled into its zero field makes the string verify (R157, R158). -/
theorem onesSum_withCksum {bs : List Byte} {off : Nat} (heven : off % 2 = 0) (hoff : off + 2 ≤ bs.length)
    (hzero : slice bs off (off + 2) = [0#8, 0#8]) : onesSum (withCksum bs off) = 0xFFFF := by
  have hbs : bs.take off ++ [0#8, 0#8] ++ bs.drop (off + 2) = bs := by
    have hend : slice bs (off + 2) bs.length = bs.drop (off + 2) := List.take_of_length_le (by simp)
    have hsplit := slice_append_slice bs (Nat.le_add_right off 2)
    rwa [hzero, hend] at hsplit
  have hok := cksumOk_cksumMake (a := bs.take off) (by simp; omega) (bs.drop (off + 2))
  rw [hbs] at hok
  exact (cksumOk_iff _).mp hok

end Sys2Proof.Machine
end

section
/-! SUPPORT. IPv4 (R210 to R219): what `IP4.PARSE` reads and refuses, the payload that its two hand-overs leave, and the
packet of a reply. -/

namespace Sys2Proof.Machine

variable {s : State} {h : Ip4Rec}

/-! ## `IP4.PARSE` -/

/-- The fields of an IPv4 header, as `IP4.PARSE` latches them (R95, R211). -/
def ip4RecOf (v : List Byte) : Ip4Rec where
  version := (byteAt v 0).extractLsb' 4 4
  ihl := (byteAt v 0).extractLsb' 0 4
  totalLength := ofBE 16 (slice v 2 4)
  header := slice v 0 (4 * ((byteAt v 0).extractLsb' 0 4).toNat)
  protocol := byteAt v 9
  src := ofBE 32 (slice v 12 16)
  dst := ofBE 32 (slice v 16 20)

/-- Why a view holds no IPv4 packet for the device with this address: the checks of R211 in their order. -/
def ip4Reject (own : BitVec 32) (v : List Byte) : Option Cause :=
  if v.length < 20 then some .truncated
  else if (ip4RecOf v).version ≠ 4#4 then some .badVersion
  else if (ip4RecOf v).ihl.toNat < 5 then some .badLength
  else if v.length < (ip4RecOf v).hl then some .badLength
  else if v.length < (ip4RecOf v).totalLength.toNat then some .badLength
  else if (ip4RecOf v).totalLength.toNat < (ip4RecOf v).hl then some .badLength
  else if onesSum (ip4RecOf v).header ≠ 0xFFFF then some .badChecksum
  else if (ip4RecOf v).dst ≠ own then some .notForUs
  else none

/-- The end of `IP4.PARSE`: a drop for the cause, or the header latched for the dispatch. -/
def State.ip4Parsed (s : State) : Option Cause → State
  | some c => s.raiseDrop .ipv4 c
  | none => (s.latch fun l => { l with ip4 := ip4RecOf s.view }).toDispatch

/-- One check of R211: the operation and the list of causes go on alike where it passes. -/
theorem ip4Parsed_check {c : Prop} [Decidable c] {cause : Cause} {o : Out} {r : Option Cause}
    (h : ¬ c → o = .next (s.ip4Parsed r)) :
    (if c then s.drop .ipv4 cause else o) = .next (s.ip4Parsed (if c then some cause else r)) := by
  split
  next => rfl
  next hc => exact h hc

theorem execIp4Parse_eq (hv : s.viewOk) : execIp4Parse s = .next (s.ip4Parsed (ip4Reject s.cfg.ipv4 s.view)) := by
  unfold execIp4Parse ip4Reject
  rw [view_length]
  refine ip4Parsed_check fun hlen => ?_
  rw [get_eq_slice_view hv (by omega), ofBE_slice_one (by rw [view_length]; omega)]
  refine ip4Parsed_check fun _ => ip4Parsed_check fun _ => ip4Parsed_check fun hhl => ?_
  rw [get_eq_slice_view hv (by omega)]
  refine ip4Parsed_check fun _ => ip4Parsed_check fun _ => ?_
  rw [get_eq_slice_view hv (by omega), Nat.zero_add]
  refine ip4Parsed_check fun _ => ?_
  rw [get_eq_slice_view hv (by omega), get_eq_slice_view hv (by omega), get_eq_slice_view hv (by omega),
    ofBE_slice_one (by rw [view_length]; omega)]
  exact ip4Parsed_check fun _ => rfl

/-- Settles O20: the reject chain is `ip4Reject` of the view. -/
theorem ip4ParseValidatesTheHeader : Obligations.Ip4ParseValidatesTheHeader := by
  intro s hv v version ihl hl total reject
  have hexec : exec .ip4Parse s = .next (s.ip4Parsed reject) := execIp4Parse_eq hv
  rw [hexec]
  constructor
  · rintro c hc
    rw [hc]
    rfl
  · intro hnone
    rw [hnone]
    rfl

/-! ## `IP4.ICMP` and `IP4.UDP` -/

/-- Cutting the view to the bytes from `off` up to the end of a packet of `total` bytes. -/
theorem narrow_to_end {off : Nat} {total : Half} (hoff : off ≤ total.toNat) (htotal : total.toNat ≤ s.vlen.toNat)
    (k : State → Out) : s.narrow off (total.toNat - off) k
      = k { s with vbase := s.vbase + BitVec.ofNat 16 off, vlen := total - BitVec.ofNat 16 off } := by
  have hbase : BitVec.ofNat 16 (s.vbase.toNat + off) = s.vbase + BitVec.ofNat 16 off := by
    rw [BitVec.ofNat_add, BitVec.ofNat_toNat, BitVec.setWidth_eq]
  have hlen : BitVec.ofNat 16 (total.toNat - off) = total - BitVec.ofNat 16 off := by bv_omega
  rw [narrow_ok (by omega), State.narrowed, hbase, hlen]

theorem ip4HandOver_eq (hhl : s.latched.ip4.hl ≤ s.latched.ip4.totalLength.toNat)
    (htotal : s.latched.ip4.totalLength.toNat ≤ s.vlen.toNat) (st : Stage) : ip4HandOver st s = .next { s with
      vbase := s.vbase + BitVec.ofNat 16 s.latched.ip4.hl
      vlen := s.latched.ip4.totalLength - BitVec.ofNat 16 s.latched.ip4.hl
      log := s.log ++ [.valid .ipv4], stage := st, phase := .entry } :=
  narrow_to_end (s := s.emit (.valid .ipv4)) hhl htotal fun s => .next (s.goto st)

/-- Settles O21: both operations are `ip4HandOver`, `IP4.UDP` in the network context of R215. -/
theorem ip4HandsOverThePayload : Obligations.Ip4HandsOverThePayload := fun s hhl htotal =>
  ⟨ip4HandOver_eq hhl htotal .icmp4,
    ip4HandOver_eq (s := s.latch fun l => { l with net := .ip4 }) hhl htotal .udp⟩

/-! ## The packet of a reply -/

/-- The reply's header is as long as the request's. -/
theorem ip4ReplyHeader_length (h20 : 20 ≤ h.header.length) (n : Nat) :
    (ip4ReplyHeader h n).length = h.header.length := by
  have hroom {k : Nat} (hk : k ≤ 20) : k ≤ h.header.length := Nat.le_trans hk h20
  simp only [ip4ReplyHeader, patch_length, le_length_patch_iff, hroom, bytesBE_length, toBE_length, List.length_cons,
    List.length_nil, Nat.reduceAdd, Nat.reduceLeDiff, true_or]

/-- The fields of the reply's header that R218 writes, and the places between them, where the request's bytes stay. -/
theorem ip4ReplyHeader_fields (h20 : 20 ≤ h.header.length) (n : Nat) :
    slice (ip4ReplyHeader h n) 0 2 = slice h.header 0 2 ∧
    slice (ip4ReplyHeader h n) 2 4 = bytesBE 2 (h.hl + n) ∧
    slice (ip4ReplyHeader h n) 4 8 = slice h.header 4 8 ∧
    slice (ip4ReplyHeader h n) 8 9 = [64#8] ∧
    slice (ip4ReplyHeader h n) 9 10 = slice h.header 9 10 ∧
    slice (ip4ReplyHeader h n) 10 12 = [0#8, 0#8] ∧
    slice (ip4ReplyHeader h n) 12 16 = toBE 4 h.dst ∧
    slice (ip4ReplyHeader h n) 16 20 = toBE 4 h.src ∧
    (∀ j, slice (ip4ReplyHeader h n) 20 j = slice h.header 20 j) := by
  have hroom {k : Nat} (hk : k ≤ 20) : k ≤ h.header.length := Nat.le_trans hk h20
  simp only [ip4ReplyHeader, slice_patch_inside, slice_patch_outside, le_length_patch_iff, hroom, bytesBE_length,
    toBE_length, List.length_cons, List.length_nil, Nat.reduceAdd, Nat.reduceLeDiff, true_or, or_true, implies_true, and_self]

theorem ip4ReplyHeader_filled_length (h20 : 20 ≤ h.header.length) (n : Nat) :
    (withCksum (ip4ReplyHeader h n) 10).length = h.header.length := by
  have hlen := ip4ReplyHeader_length h20 n
  rw [withCksum_length (by omega), hlen]

/-- Outside the checksum field the packet's header is the one that the checksum is computed over. -/
theorem slice_ip4Reply (h20 : 20 ≤ h.header.length) (payload : List Byte) {i j : Nat} (hj : j ≤ h.header.length)
    (hij : j ≤ 10 ∨ 12 ≤ i) : slice (ip4Reply h payload) i j = slice (ip4ReplyHeader h payload.length) i j := by
  have hlen := ip4ReplyHeader_length h20 payload.length
  have hfilled := ip4ReplyHeader_filled_length h20 payload.length
  rw [ip4Reply, slice_append_left (by omega)]
  exact slice_patch_outside (by omega) hij

/-- The checksum field holds the checksum of the header with the field zero, as it was computed (R157). -/
theorem slice_ip4Reply_cksum (h20 : 20 ≤ h.header.length) (payload : List Byte) :
    slice (ip4Reply h payload) 10 12 = bytesBE 2 (cksumMake (ip4ReplyHeader h payload.length)) := by
  have hlen := ip4ReplyHeader_length h20 payload.length
  have hfilled := ip4ReplyHeader_filled_length h20 payload.length
  rw [ip4Reply, slice_append_left (by omega)]
  exact slice_patch_inside (by omega) rfl

/-- Settles O22: the fields of the header, its checksum, and the payload behind it. -/
theorem ip4ReplyRewritesTheHeader : Obligations.Ip4ReplyRewritesTheHeader := by
  intro h payload hihl hheader hl p
  have hhl : h.header.length = hl := hheader
  have h20 : 20 ≤ h.header.length := by omega
  obtain ⟨hver, htotal, hid, httl, hproto, hzero, hsrc, hdst, hopts⟩ := ip4ReplyHeader_fields h20 payload.length
  have hzeroed := ip4ReplyHeader_length h20 payload.length
  have hlen : (withCksum (ip4ReplyHeader h payload.length) 10).length = hl :=
    (ip4ReplyHeader_filled_length h20 _).trans hhl
  have hp {i j : Nat} : j ≤ hl → j ≤ 10 ∨ 12 ≤ i → slice p i j = slice (ip4ReplyHeader h payload.length) i j :=
    fun hj => slice_ip4Reply h20 payload (hhl ▸ hj)
  have hsplit : slice p 0 10 ++ [0x00#8, 0x00#8] ++ slice p 12 hl = ip4ReplyHeader h payload.length := by
    rw [hp (by omega) (by omega), hp (by omega) (by omega), ← hzero, ← hhl, ← hzeroed]
    exact slice_append_slice _ (by omega)
  refine ⟨?length, List.drop_left' hlen, (hp (by omega) (by omega)).trans hver, (hp (by omega) (by omega)).trans htotal,
    (hp (by omega) (by omega)).trans hid, ?ttl, ?protocol, ?checksum, (hp (by omega) (by omega)).trans hsrc,
    (hp (by omega) (by omega)).trans hdst, (hp (by omega) (by omega)).trans (hopts hl), ?verifies⟩
  case length => exact List.length_append.trans (congrArg (· + payload.length) hlen)
  case ttl =>
    rw [byteAt_eq_slice, hp (by omega) (by omega), httl]
    rfl
  case protocol => rw [byteAt_eq_slice, hp (by omega) (by omega), hproto, ← byteAt_eq_slice]
  case checksum =>
    rw [hsplit]
    exact slice_ip4Reply_cksum h20 payload
  case verifies =>
    have htake : p.take hl = withCksum (ip4ReplyHeader h payload.length) 10 := List.take_left' hlen
    rw [htake]
    exact onesSum_withCksum (by decide) (by omega) hzero

end Sys2Proof.Machine
end

section
/-! SUPPORT. IPv6 (R230 to R239): what `IP6.PARSE` reads and refuses, what the neighbour cache learns, and the header
read back from its bytes. -/

namespace Sys2Proof.Machine

variable {s : State}

/-! ## The header's fields -/

/-- Bits of a word read from the frame are bits of its integer. -/
theorem extractLsb'_ofBE {w i k : Nat} (h : i + k ≤ w) (bs : List Byte) :
    (ofBE w bs).extractLsb' i k = BitVec.ofNat k (beNat bs / 2 ^ i) := by
  refine BitVec.eq_of_getLsbD_eq fun j hj => ?_
  have hw : i + j < w := by omega
  simp only [ofBE, BitVec.getLsbD_extractLsb', BitVec.getLsbD_ofNat, Nat.testBit_div_two_pow, hj, hw, Nat.add_comm j i,
    decide_true, Bool.true_and]

/-- R231 with the bits of the first word as quotients. -/
theorem ip6Fields_eq (v : List Byte) : ip6Fields v =
    { tc := BitVec.ofNat 8 (beNat (slice v 0 4) / 2 ^ 20), fl := BitVec.ofNat 20 (beNat (slice v 0 4))
      plen := ofBE 16 (slice v 4 6), nh := byteAt v 6, hlim := byteAt v 7
      src := ofBE 128 (slice v 8 24), dst := ofBE 128 (slice v 24 40) } := by
  simp only [ip6Fields, extractLsb'_ofBE, Nat.reduceAdd, Nat.reduceLeDiff, Nat.pow_zero, Nat.div_one]

/-- The first word has 32 bits, so the quotient is the version itself. -/
theorem ip6Version_eq_iff (v : List Byte) (n : BitVec 4) :
    ip6Version v = n ↔ beNat (slice v 0 4) / 2 ^ 28 = n.toNat := by
  have hword : beNat (slice v 0 4) < 256 ^ 4 :=
    (beNat_lt _).trans_le (Nat.pow_le_pow_right (by decide) (by simp))
  have hquot : beNat (slice v 0 4) / 2 ^ 28 < 2 ^ 4 := by omega
  rw [ip6Version, extractLsb'_ofBE (by decide), ← BitVec.toNat_inj, BitVec.toNat_ofNat, Nat.mod_eq_of_lt hquot]

/-- The header is all that the extraction looks at. -/
theorem ip6Fields_slice (v : List Byte) : ip6Fields (slice v 0 40) = ip6Fields v := by
  have hbyte {i : Nat} (hi : i < 40) : byteAt (slice v 0 40) i = byteAt v i := by
    rw [byteAt_eq_slice, slice_slice v (by omega), Nat.zero_add, Nat.zero_add, ← byteAt_eq_slice]
  simp only [ip6Fields, hbyte, slice_slice, Nat.reduceAdd, Nat.reduceLeDiff, Nat.reduceLT]

theorem ip6Version_slice (v : List Byte) : ip6Version (slice v 0 40) = ip6Version v := by
  simp only [ip6Version, slice_slice, Nat.reduceAdd, Nat.reduceLeDiff]

/-! ## The header read back -/

/-- The first word of a header (R107): version, traffic class and flow label. -/
def ip6Word (r : Ip6Rec) : Nat := 6 * 2 ^ 28 + r.tc.toNat * 2 ^ 20 + r.fl.toNat

/-- The three fields of the first word do not overlap. -/
theorem ip6Word_parts (r : Ip6Rec) : ip6Word r / 2 ^ 28 = 6 ∧ BitVec.ofNat 8 (ip6Word r / 2 ^ 20) = r.tc ∧
    BitVec.ofNat 20 (ip6Word r) = r.fl := by
  have htc := r.tc.isLt
  have hfl := r.fl.isLt
  refine ⟨?version, BitVec.eq_of_toNat_eq ?tc, BitVec.eq_of_toNat_eq ?fl⟩
  all_goals
    simp only [ip6Word, BitVec.toNat_ofNat]
    omega

theorem beNat_slice_ip6Bytes (r : Ip6Rec) (payload : List Byte) :
    beNat (slice (ip6Bytes r ++ payload) 0 4) = ip6Word r := by
  have hslice : slice (ip6Bytes r ++ payload) 0 4 = bytesBE 4 (ip6Word r) := rfl
  obtain ⟨hversion, -, -⟩ := ip6Word_parts r
  rw [hslice, beNat_bytesBE, Nat.mod_eq_of_lt (by omega)]

theorem ip6Version_ip6Bytes (r : Ip6Rec) (payload : List Byte) : ip6Version (ip6Bytes r ++ payload) = 6#4 := by
  obtain ⟨hversion, -, -⟩ := ip6Word_parts r
  rw [ip6Version_eq_iff, beNat_slice_ip6Bytes, hversion]
  rfl

/-- A header reads back as its fields, whatever payload follows it (R231, R239). -/
theorem ip6Fields_ip6Bytes (r : Ip6Rec) (payload : List Byte) : ip6Fields (ip6Bytes r ++ payload) = r := by
  obtain ⟨-, htc, hfl⟩ := ip6Word_parts r
  have hplen : slice (ip6Bytes r ++ payload) 4 6 = toBE 2 r.plen := rfl
  have hnh : byteAt (ip6Bytes r ++ payload) 6 = r.nh := rfl
  have hhlim : byteAt (ip6Bytes r ++ payload) 7 = r.hlim := rfl
  have hsrc : slice (ip6Bytes r ++ payload) 8 24 = toBE 16 r.src := rfl
  have hdst : slice (ip6Bytes r ++ payload) 24 40 = toBE 16 r.dst := rfl
  simp only [ip6Fields_eq, beNat_slice_ip6Bytes, htc, hfl, hplen, hnh, hhlim, hsrc, hdst, ofBE_toBE]

/-- Settles O41: the length, the version and the fields of a header's bytes. -/
theorem ip6FieldsInvertSerialisation : Obligations.Ip6FieldsInvertSerialisation := fun r payload =>
  ⟨ip6Bytes_length r, ip6Version_ip6Bytes r payload, ip6Fields_ip6Bytes r payload⟩

/-! ## `IP6.PARSE` -/

/-- Cutting the view to as many bytes as a 16-bit field of the header says. -/
theorem narrow_to_field {off : Nat} {len : Half} (h : off + len.toNat ≤ s.vlen.toNat) (k : State → Out) :
    s.narrow off len.toNat k = k { s with vbase := s.vbase + BitVec.ofNat 16 off, vlen := len } := by
  simp only [narrow_ok h, State.narrowed, BitVec.ofNat_add, BitVec.ofNat_toNat, BitVec.setWidth_eq]

/-- Why a view holds no IPv6 packet: the checks of R231 in their order. -/
def ip6Reject (v : List Byte) : Option Cause :=
  if v.length < 40 then some .truncated
  else if ip6Version v ≠ 6#4 then some .badVersion
  else if v.length - 40 < (ip6Fields v).plen.toNat then some .badLength
  else none

/-- The end of a packet that passes: its header latched, its sender learnt (R233), the next header dispatched on. -/
def State.ip6Learnt (s : State) (r : Ip6Rec) : State :=
  (s.latch fun l => { l with ip6 := r }).nbrLearn.toDispatch

/-- The end of `IP6.PARSE` on Ethernet: a drop for the cause, or the view cut to the payload of a packet that passes. -/
def State.ip6Parsed (s : State) : Option Cause → State
  | some c => s.raiseDrop .ipv6 c
  | none => ({ s with vbase := s.vbase + 40#16, vlen := (ip6Fields s.view).plen } : State).ip6Learnt (ip6Fields s.view)

theorem execIp6Parse_eth (hlink : s.cfg.link = .eth) (hv : s.viewOk) :
    execIp6Parse s = .next (s.ip6Parsed (ip6Reject s.view)) := by
  simp only [execIp6Parse, hlink, ip6Reject, view_length]
  split
  case isTrue => rfl
  case isFalse hlen =>
    rw [get_eq_slice_view hv (by omega), Nat.zero_add, ip6Fields_slice, ip6Version_slice]
    split
    case isTrue => rfl
    case isFalse =>
      split
      case isTrue => rfl
      case isFalse hplen =>
        rw [narrow_to_field (by omega)]
        rfl

/-- The decompressor has checked and cut already: the header stands in `SCRATCH` (R231). -/
theorem execIp6Parse_lowpan (hlink : s.cfg.link = .lowpan) :
    execIp6Parse s = .next (s.ip6Learnt (ip6Fields (s.scratchRead 0 40))) := by
  simp only [execIp6Parse, hlink]
  rfl

/-- Settles O24: on Ethernet the reject chain is `ip6Reject` of the view; on 802.15.4 there is none. -/
theorem ip6ParseLearnsTheNeighbour : Obligations.Ip6ParseLearnsTheNeighbour := by
  intro s hv fields v reject
  have hfields : ip6Fields = fields := funext ip6Fields_eq
  have hreject : ip6Reject v = reject := by
    simp only [ip6Reject, hfields, ne_eq, ip6Version_eq_iff]
    rfl
  have heth (hlink : s.cfg.link = .eth) : exec .ip6Parse s = .next (s.ip6Parsed reject) :=
    hreject ▸ execIp6Parse_eth hlink hv
  refine ⟨fun hlink c hc => ?drops, fun hlink hnone => ?passes, fun hlink => ?lowpan⟩
  case drops =>
    rw [heth hlink, hc]
    rfl
  case passes =>
    rw [heth hlink, hnone, ← hfields]
    rfl
  case lowpan =>
    rw [← hfields]
    exact execIp6Parse_lowpan hlink

/-! ## `IP6.ICMP6` and `IP6.UDP` -/

theorem execIp6Udp_forUs (h : s.latched.ip6.dst = s.cfg.ipv6) :
    execIp6Udp s = .next (((s.emit (.valid .ipv6)).latch fun l => { l with net := .ip6 }).goto .udp) :=
  if_neg (not_not.mpr h)

theorem execIp6Udp_notForUs (h : s.latched.ip6.dst ≠ s.cfg.ipv6) :
    execIp6Udp s = .next (s.raiseDrop .ipv6 .notForUs) := if_pos h

/-- Settles O25: `IP6.ICMP6` always hands over, `IP6.UDP` on one side of its test. -/
theorem ip6HandsOverTheMessage : Obligations.Ip6HandsOverTheMessage := fun _ =>
  ⟨rfl, execIp6Udp_forUs, execIp6Udp_notForUs⟩

end Sys2Proof.Machine
end

section
/-! SUPPORT. ICMP (R250 to R263): how the two parsers and the three answering operations end, and why the checksum of
each reply validates. -/

namespace Sys2Proof.Machine

variable {s : State}

/-! ## ICMPv4 -/

theorem execIcmp4Parse_short (hv : s.viewOk) (h : s.view.length < 4) :
    execIcmp4Parse s = .next (s.raiseDrop .icmp4 .truncated) :=
  (getView_ok hv _).trans (if_pos h)

theorem execIcmp4Parse_latches (hv : s.viewOk) (h : 4 ≤ s.view.length) :
    execIcmp4Parse s = .next (s.latch fun l => { l with icmp := ofBE 16 (slice s.view 0 2) }).toDispatch :=
  (getView_ok hv _).trans (if_neg (Nat.not_lt_of_le h))

theorem execIcmp4Echo_short (hv : s.viewOk) (h : s.view.length < 8) :
    execIcmp4Echo s = .next (s.raiseDrop .icmp4 .truncated) :=
  (getView_ok hv _).trans (if_pos h)

theorem execIcmp4Echo_badChecksum (hv : s.viewOk) (h : 8 ≤ s.view.length) (hsum : onesSum s.view ≠ 0xFFFF) :
    execIcmp4Echo s = .next (s.raiseDrop .icmp4 .badChecksum) :=
  (getView_ok hv _).trans <| (if_neg (Nat.not_lt_of_le h)).trans (if_pos hsum)

theorem execIcmp4Echo_answers (hv : s.viewOk) (h : 8 ≤ s.view.length) (hsum : onesSum s.view = 0xFFFF) :
    execIcmp4Echo s = .next
      ((s.emit (.valid .icmp4)).respond .icmp4 (.ip4 (ip4Reply s.latched.ip4 (icmp4Reply s.view)))) :=
  (getView_ok hv _).trans <| (if_neg (Nat.not_lt_of_le h)).trans (if_neg (not_not.mpr hsum))

/-- Settles O23: the two ends of `ICMP4.PARSE` and the three of `ICMP4.ECHO`. -/
theorem icmp4EchoIsAnswered : Obligations.Icmp4EchoIsAnswered := fun _ hv =>
  ⟨execIcmp4Parse_short hv, execIcmp4Parse_latches hv, execIcmp4Echo_short hv, execIcmp4Echo_badChecksum hv,
    execIcmp4Echo_answers hv⟩

/-! ## ICMPv6 -/

/-- The end of an ICMPv6 operation that answers with the message `m`, its checksum bytes still zero (R258, R260). -/
def State.icmp6Answered (s : State) (hlim : Byte) (m : List Byte) : State :=
  (s.emit (.valid .icmp6)).respond .icmp6 (icmp6Resp s.cfg s.latched.ip6 hlim m)

theorem execIcmp6Parse_short (hv : s.viewOk) (h : s.upper.length < 4) :
    execIcmp6Parse s = .next (s.raiseDrop .icmp6 .truncated) :=
  (getUpper_ok hv _).trans (if_pos h)

theorem execIcmp6Parse_latches (hv : s.viewOk) (h : 4 ≤ s.upper.length) :
    execIcmp6Parse s = .next (s.latch fun l => { l with icmp := ofBE 16 (slice s.upper 0 2) }).toDispatch :=
  (getUpper_ok hv _).trans (if_neg (Nat.not_lt_of_le h))

/-! ### `ICMP6.ECHO` -/

theorem execIcmp6Echo_short (hv : s.viewOk) (h : s.upper.length < 8) :
    execIcmp6Echo s = .next (s.raiseDrop .icmp6 .truncated) :=
  (getUpper_ok hv _).trans (if_pos h)

theorem execIcmp6Echo_notForUs (hv : s.viewOk) (h : 8 ≤ s.upper.length) (hdst : s.latched.ip6.dst ≠ s.cfg.ipv6) :
    execIcmp6Echo s = .next (s.raiseDrop .icmp6 .notForUs) :=
  (getUpper_ok hv _).trans <| (if_neg (Nat.not_lt_of_le h)).trans (if_pos hdst)

theorem execIcmp6Echo_badChecksum (hv : s.viewOk) (h : 8 ≤ s.upper.length) (hdst : s.latched.ip6.dst = s.cfg.ipv6)
    (hsum : icmp6Sum s.latched.ip6.src s.latched.ip6.dst s.upper ≠ 0xFFFF) :
    execIcmp6Echo s = .next (s.raiseDrop .icmp6 .badChecksum) :=
  (getUpper_ok hv _).trans <| (if_neg (Nat.not_lt_of_le h)).trans <| (if_neg (not_not.mpr hdst)).trans (if_pos hsum)

theorem execIcmp6Echo_answers (hv : s.viewOk) (h : 8 ≤ s.upper.length) (hdst : s.latched.ip6.dst = s.cfg.ipv6)
    (hsum : icmp6Sum s.latched.ip6.src s.latched.ip6.dst s.upper = 0xFFFF) :
    execIcmp6Echo s = .next (s.icmp6Answered 64#8 (icmp6EchoReply s.upper)) :=
  (getUpper_ok hv _).trans <| (if_neg (Nat.not_lt_of_le h)).trans <| (if_neg (not_not.mpr hdst)).trans
    (if_neg (not_not.mpr hsum))

/-- Settles O26: the two ends of `ICMP6.PARSE` and the four of `ICMP6.ECHO`; the pseudo-header's sum is `icmp6Sum`. -/
theorem icmp6EchoIsAnswered : Obligations.Icmp6EchoIsAnswered := fun _ hv =>
  ⟨execIcmp6Parse_short hv, execIcmp6Parse_latches hv, execIcmp6Echo_short hv, execIcmp6Echo_notForUs hv,
    execIcmp6Echo_badChecksum hv, execIcmp6Echo_answers hv⟩

/-! ### `ICMP6.NS` -/

theorem ndOption_eq (cfg : Straps) : ndOption cfg = if cfg.link = .eth then [0x02#8, 0x01#8] ++ toBE 6 cfg.mac
    else [0x02#8, 0x02#8] ++ toBE 8 cfg.ext ++ zeros 6 := by
  unfold ndOption
  split
  next hlink => rw [if_pos hlink]
  next hlink => rw [if_neg (by simp [hlink])]

/-- Why a message is no solicitation for the device with this address: the checks of R260 in their order. -/
def nsReject (own : BitVec 128) (ip6 : Ip6Rec) (u : List Byte) : Option Cause :=
  if u.length < 24 then some .truncated
  else if icmp6Sum ip6.src ip6.dst u ≠ 0xFFFF then some .badChecksum
  else if ofBE 128 (slice u 8 24) ≠ own then some .notForUs
  else if ip6.src = 0#128 then some .unsupported
  else none

/-- Choosing a cause by a check and then acting on it is checking and acting. -/
theorem elim_check (c : Prop) [Decidable c] (cause : Cause) (r : Option Cause) (pass : Out) (refuse : Cause → Out) :
    (if c then some cause else r).elim pass refuse = if c then refuse cause else r.elim pass refuse :=
  apply_ite (Option.elim · pass refuse) c (some cause) r

/-- `ICMP6.NS` drops for the cause, or advertises the device's address where there is none. -/
theorem execIcmp6Ns_eq (hv : s.viewOk) : execIcmp6Ns s = (nsReject s.cfg.ipv6 s.latched.ip6 s.upper).elim
    (.next (s.icmp6Answered 255#8 (neighborAdvert s.cfg))) (s.drop .icmp6) := by
  simp only [nsReject, elim_check]
  exact getUpper_ok hv _

/-- Settles O27: the reject chain is `nsReject` of the message, and the advertisement is `neighborAdvert`. -/
theorem neighborSolicitationIsAnswered : Obligations.NeighborSolicitationIsAnswered := by
  intro s hv u ip6 pseudo m reject
  have hexec : exec .icmp6Ns s = reject.elim (.next (s.icmp6Answered 255#8 (neighborAdvert s.cfg))) (s.drop .icmp6) :=
    execIcmp6Ns_eq hv
  have hadvert : neighborAdvert s.cfg = m := congrArg (_ ++ ·) (ndOption_eq s.cfg)
  rw [hexec, hadvert]
  constructor
  · rintro c hc
    rw [hc]
    rfl
  · intro hnone
    rw [hnone]
    rfl

/-! ## The checksums of the replies -/

/-- Behind the place written over, the string is as it was. -/
theorem drop_patch {bs v : List Byte} {off k : Nat} (hoff : off ≤ bs.length) (hk : off + v.length ≤ k) :
    (patch bs off v).drop k = bs.drop k := by
  obtain ⟨j, rfl⟩ := Nat.exists_eq_add_of_le hk
  have hfront : (bs.take off ++ v).length = off + v.length := by simp [hoff]
  rw [patch, ← List.drop_drop, List.drop_left' hfront, List.drop_drop]

/-- Writing over the second part of a string. -/
theorem append_patch (a bs : List Byte) (off : Nat) (v : List Byte) :
    a ++ patch bs off v = patch (a ++ bs) (a.length + off) v := by
  rw [patch, patch, List.take_length_add_append, Nat.add_assoc, List.drop_length_add_append, List.append_assoc,
    List.append_assoc, List.append_assoc]

/-- A field that reads as two bytes lies inside the string. -/
theorem le_length_of_slice {m : List Byte} {off : Nat} (hzero : slice m off (off + 2) = [0#8, 0#8]) :
    off + 2 ≤ m.length := by
  have hlen := congrArg List.length hzero
  simp only [slice_length, List.length_cons, List.length_nil] at hlen
  omega

/-- R252: the reply to an ICMPv4 echo verifies and keeps everything behind the checksum. -/
theorem icmp4Reply_validates {u : List Byte} (h : 4 ≤ u.length) :
    onesSum (icmp4Reply u) = 0xFFFF ∧ (icmp4Reply u).drop 4 = u.drop 4 ∧ (icmp4Reply u).length = u.length := by
  have hzero : slice (zeros 4 ++ u.drop 4) 2 4 = [0#8, 0#8] := rfl
  have hroom := le_length_of_slice hzero
  have hlen : (zeros 4 ++ u.drop 4).length = u.length := by
    simp
    omega
  exact ⟨onesSum_withCksum rfl hroom hzero, drop_patch (by omega) (Nat.le_refl 4), (withCksum_length hroom).trans hlen⟩

/-- The pseudo-header of R259 for a message of `n` bytes. -/
def icmp6Pseudo (src dst : BitVec 128) (n : Nat) : List Byte :=
  toBE 16 src ++ toBE 16 dst ++ bytesBE 4 n ++ [0#8, 0#8, 0#8, 0x3A#8]

theorem icmp6Sum_eq (src dst : BitVec 128) (m : List Byte) :
    icmp6Sum src dst m = onesSum (icmp6Pseudo src dst m.length ++ m) := rfl

@[simp] theorem icmp6Pseudo_length (src dst : BitVec 128) (n : Nat) : (icmp6Pseudo src dst n).length = 40 := by
  simp [icmp6Pseudo]

section

variable {src dst : BitVec 128} {m : List Byte}

theorem icmp6Finish_length (h : 4 ≤ m.length) : (icmp6Finish src dst m).length = m.length :=
  patch_length h

/-- The stored checksum is the one filled in over pseudo-header and message together. -/
theorem icmp6Pseudo_append_finish :
    icmp6Pseudo src dst m.length ++ icmp6Finish src dst m = withCksum (icmp6Pseudo src dst m.length ++ m) 42 := by
  rw [icmp6Finish, append_patch, icmp6Pseudo_length]
  rfl

/-- R259: a message whose checksum bytes were zero verifies once it is finished. -/
theorem icmp6Sum_finish (hzero : slice m 2 4 = [0#8, 0#8]) : icmp6Sum src dst (icmp6Finish src dst m) = 0xFFFF := by
  have hroom : 4 ≤ m.length := le_length_of_slice hzero
  have hfield : slice (icmp6Pseudo src dst m.length ++ m) 42 44 = [0#8, 0#8] := hzero
  rw [icmp6Sum_eq, icmp6Finish_length hroom, icmp6Pseudo_append_finish]
  exact onesSum_withCksum rfl (le_length_of_slice hfield) hfield

end

/-- R258, R260: the record of an answer holds the message it was built from, verifying, with only the checksum bytes
written. -/
theorem icmp6Resp_validates (cfg : Straps) (ip6 : Ip6Rec) (hlim : Byte) {m : List Byte}
    (hzero : slice m 2 4 = [0#8, 0#8]) :
    ∃ r m', icmp6Resp cfg ip6 hlim m = .ip6 r m' ∧ icmp6Sum r.src r.dst m' = 0xFFFF ∧
      m'.drop 4 = m.drop 4 ∧ m'.length = m.length := by
  have hroom : 4 ≤ m.length := le_length_of_slice hzero
  exact ⟨_, _, rfl, icmp6Sum_finish hzero, drop_patch (by omega) (Nat.le_refl 4), icmp6Finish_length hroom⟩

theorem icmp6EchoReply_length {u : List Byte} (h : 4 ≤ u.length) : (icmp6EchoReply u).length = u.length := by
  simp [icmp6EchoReply]
  omega

theorem neighborAdvert_length (cfg : Straps) : (neighborAdvert cfg).length = if cfg.link = .eth then 32 else 40 := by
  simp only [neighborAdvert, ndOption_eq]
  split <;> simp

/-- Settles O47: the three builders leave the checksum bytes zero, so what is finished verifies. -/
theorem echoRepliesValidateAndEcho : Obligations.EchoRepliesValidateAndEcho := by
  refine ⟨fun u h => icmp4Reply_validates (by omega), fun cfg ip6 hlim u h => ?echo, fun cfg ip6 hlim => ?advert⟩
  case echo =>
    have hlen : (icmp6EchoReply u).length = u.length := icmp6EchoReply_length (by omega)
    have hvalid := icmp6Resp_validates cfg ip6 hlim (m := icmp6EchoReply u) rfl
    rwa [hlen] at hvalid
  case advert =>
    have hvalid := icmp6Resp_validates cfg ip6 hlim (m := neighborAdvert cfg) rfl
    rwa [neighborAdvert_length] at hvalid

end Sys2Proof.Machine
end

section
/-! SUPPORT. UDP (R280 to R289): what `UDP.PARSE` reads and refuses, what its two hand-overs leave, and why the checksum
of a response is nonzero and verifies. -/

namespace Sys2Proof.Machine

variable {s : State}

/-! ## `UDP.COAP` and `UDP.ECHO` -/

theorem execUdpEcho_eq (dport : Half) : execUdpEcho dport s = .next ((s.emit (.valid .udp)).respond .udp
    (udpWrap s.cfg s.latched s.latched.udp.dport s.latched.udp.sport s.latched.udp.payload)) := rfl

/-- Settles O29: neither operation checks anything, and the echo ignores its operand. -/
theorem udpHandsOverOrEchoes : Obligations.UdpHandsOverOrEchoes := fun _ => ⟨rfl, execUdpEcho_eq⟩

/-! ## `UDP.PARSE` -/

/-- The record of a datagram that passes; its payload ends at the UDP length (R281, R282). -/
def udpFields (u : List Byte) : UdpRec where
  sport := ofBE 16 (slice u 0 2)
  dport := ofBE 16 (slice u 2 4)
  length := ofBE 16 (slice u 4 6)
  checksum := ofBE 16 (slice u 6 8)
  payload := slice u 8 (ofBE 16 (slice u 4 6)).toNat

/-- The verification sum of a received datagram, over its bytes up to the UDP length (R282, R283). -/
def Records.udpSumRead (l : Records) (u : List Byte) : Nat :=
  udpSum l.net l.netAddrs.1 l.netAddrs.2 (u.take (udpFields u).length.toNat)

/-- Why a message is no datagram to hand over: the checks of R281 in their order. -/
def udpReject (l : Records) (u : List Byte) : Option Cause :=
  if u.length < 8 then some .truncated
  else if (udpFields u).length.toNat < 8 then some .badLength
  else if u.length < (udpFields u).length.toNat then some .badLength
  else if (udpFields u).checksum ≠ 0#16 ∧ l.udpSumRead u ≠ 0xFFFF then some .badChecksum
  else none

/-- Cutting a string at the end of a slice does not change the slice. -/
theorem slice_take (bs : List Byte) (i n : Nat) : slice (bs.take n) i n = slice bs i n := by
  simp [slice, List.drop_take]

/-- The end of a datagram that passes: its record latched, the destination port dispatched on. -/
def State.udpParsed (s : State) : State := (s.latch fun l => { l with udp := udpFields s.upper }).toDispatch

/-- `UDP.PARSE` drops for the cause, or latches the record where there is none. -/
theorem execUdpParse_eq (hv : s.viewOk) :
    execUdpParse s = (udpReject s.latched s.upper).elim (.next s.udpParsed) (s.drop .udp) := by
  rw [execUdpParse, getUpper_ok hv]
  simp only [udpReject, elim_check, slice_take]
  rfl

/-- Settles O28: the reject chain is `udpReject` of the message; the sum is that of the network it came over. -/
theorem udpParseValidatesTheDatagram : Obligations.UdpParseValidatesTheDatagram := by
  intro s hv u length checksum d l sum reject
  have hsum : s.latched.udpSumRead s.upper = sum := by
    simp only [sum, l, Records.udpSumRead, udpSum, udpPseudo, Records.netAddrs]
    cases s.latched.net <;> rfl
  have hreject : udpReject s.latched s.upper = reject := by
    simp only [udpReject, hsum]
    rfl
  have hexec : exec .udpParse s = reject.elim (.next s.udpParsed) (s.drop .udp) := hreject ▸ execUdpParse_eq hv
  exact ⟨fun c hc => hexec.trans (by rw [hc]; rfl), fun hnone => hexec.trans (by rw [hnone]; rfl)⟩

/-! ## The response datagram -/

/-- The two ports and the length: what stands in front of the checksum of a response (R288). -/
def udpPorts (sport dport : Half) (n : Nat) : List Byte := toBE 2 sport ++ toBE 2 dport ++ bytesBE 2 (8 + n)

@[simp] theorem udpPorts_length (sport dport : Half) (n : Nat) : (udpPorts sport dport n).length = 6 := by
  simp [udpPorts]

/-- The datagram of R288 with the checksum `ck`. -/
def udpSent (sport dport ck : Half) (payload : List Byte) : List Byte :=
  udpPorts sport dport payload.length ++ toBE 2 ck ++ payload

section

variable {net : Net} {src dst payload : List Byte} {sport dport : Half}

theorem udpSent_length (ck : Half) : (udpSent sport dport ck payload).length = 8 + payload.length := by
  simp [udpSent]
  omega

/-- The model builds the datagram with a zero checksum first. -/
theorem udpDatagram_eq_sent : udpDatagram sport dport payload = udpSent sport dport 0#16 payload := rfl

/-- Writing the checksum over the zero field. -/
theorem patch_udpDatagram {c : Nat} (hc : c < 65536) :
    patch (udpDatagram sport dport payload) 6 (bytesBE 2 c) = udpSent sport dport (BitVec.ofNat 16 c) payload := by
  have hfield : toBE 2 (BitVec.ofNat 16 c) = bytesBE 2 c := congrArg (bytesBE 2) (Nat.mod_eq_of_lt hc)
  rw [udpSent, hfield]
  rfl

/-- The word sum of a response and its pseudo-header without the checksum field. -/
def udpRestSum (net : Net) (src dst : List Byte) (sport dport : Half) (payload : List Byte) : Nat :=
  wordSum (udpPseudo net src dst (8 + payload.length) ++ udpPorts sport dport payload.length) + wordSum payload

theorem udpPseudo_even (hsrc : src.length % 2 = 0) (hdst : dst.length % 2 = 0) (n : Nat) :
    (udpPseudo net src dst n).length % 2 = 0 := by
  cases net <;> simp [udpPseudo] <;> omega

/-- The checksum field adds its value to the sum (R283). -/
theorem udpSum_sent (hsrc : src.length % 2 = 0) (hdst : dst.length % 2 = 0) (ck : Half) :
    udpSum net src dst (udpSent sport dport ck payload)
      = folded (udpRestSum net src dst sport dport payload + ck.toNat) := by
  have hfront : (udpPseudo net src dst (8 + payload.length) ++ udpPorts sport dport payload.length).length % 2 = 0 := by
    have := udpPseudo_even (net := net) hsrc hdst (8 + payload.length)
    simp
    omega
  have hword : wordSum (toBE 2 ck) = ck.toNat := wordSum_bytesBE_two ck.isLt
  rw [udpSum, udpSent_length, onesSum_eq_folded, udpSent, ← List.append_assoc, ← List.append_assoc,
    wordSum_field hfront (toBE_length 2 ck), hword, udpRestSum, Nat.add_right_comm]

/-- R289: a computed zero is sent as all ones. -/
theorem udpCksumOut_range (u : List Byte) : 0 < udpCksumOut net src dst u ∧ udpCksumOut net src dst u < 65536 := by
  unfold udpCksumOut
  dsimp only
  split <;> omega

/-- A nonzero complement of a folded sum completes it to all ones: all ones where the complement is zero (R289). -/
theorem folded_add_nonzero_complement (t : Nat) :
    folded (t + if 0xFFFF - folded t = 0 then 0xFFFF else 0xFFFF - folded t) = 0xFFFF := by
  split
  next hzero =>
    have hmod := folded_mod t
    have hle := folded_le t
    exact folded_congr (u := 0xFFFF) (by omega) (by omega)
  next => exact folded_add_complement t

/-- R288, R289: the datagram with the outbound checksum verifies. -/
theorem udpSum_sent_cksumOut (hsrc : src.length % 2 = 0) (hdst : dst.length % 2 = 0) :
    udpSum net src dst (udpSent sport dport
      (BitVec.ofNat 16 (udpCksumOut net src dst (udpDatagram sport dport payload))) payload) = 0xFFFF := by
  have hlt := (udpCksumOut_range (net := net) (src := src) (dst := dst) (udpDatagram sport dport payload)).2
  rw [udpSum_sent hsrc hdst, BitVec.toNat_ofNat, Nat.mod_eq_of_lt hlt, udpCksumOut, udpDatagram_eq_sent,
    udpSum_sent hsrc hdst]
  exact folded_add_nonzero_complement _

end

/-! ## `udp_wrap` -/

/-- The addresses of a response, source and destination: those of the request, swapped; over IPv6 the source is the
device's own (R288). -/
def udpReplyAddrs (cfg : Straps) (l : Records) : List Byte × List Byte :=
  match l.net with
  | .ip4 => (toBE 4 l.ip4.dst, toBE 4 l.ip4.src)
  | .ip6 => (toBE 16 cfg.ipv6, toBE 16 l.ip6.src)

/-- The response record that carries the datagram `u` (R288). -/
def udpReply (cfg : Straps) (l : Records) (u : List Byte) : Resp :=
  match l.net with
  | .ip4 => .ip4 (ip4Reply l.ip4 u)
  | .ip6 => .ip6 (ip6Reply cfg l.ip6 17#8 64#8 u) u

section

variable (cfg : Straps) (l : Records) (sport dport : Half) (payload : List Byte)

/-- The checksum that `udp_wrap` stores. -/
def udpReplyCksum : Half :=
  BitVec.ofNat 16 (udpCksumOut l.net (udpReplyAddrs cfg l).1 (udpReplyAddrs cfg l).2 (udpDatagram sport dport payload))

theorem udpReplyCksum_ne_zero : udpReplyCksum cfg l sport dport payload ≠ 0#16 := by
  have hrange := udpCksumOut_range (net := l.net) (src := (udpReplyAddrs cfg l).1) (dst := (udpReplyAddrs cfg l).2)
    (udpDatagram sport dport payload)
  rw [udpReplyCksum, ne_eq, BitVec.toNat_eq, BitVec.toNat_ofNat, Nat.mod_eq_of_lt hrange.2]
  exact Nat.ne_of_gt hrange.1

/-- The datagram that `udp_wrap` answers with. -/
def udpReplyDatagram : List Byte := udpSent sport dport (udpReplyCksum cfg l sport dport payload) payload

/-- `udp_wrap` answers with its datagram; the IPv6 header takes its length from the one with a zero checksum. -/
theorem udpWrap_eq : udpWrap cfg l sport dport payload = udpReply cfg l (udpReplyDatagram cfg l sport dport payload) := by
  have hlen : (udpReplyDatagram cfg l sport dport payload).length = (udpDatagram sport dport payload).length := by
    rw [udpDatagram_eq_sent, udpReplyDatagram, udpSent_length, udpSent_length]
  have hpatch : udpReplyDatagram cfg l sport dport payload = patch (udpDatagram sport dport payload) 6
      (bytesBE 2 (udpCksumOut l.net (udpReplyAddrs cfg l).1 (udpReplyAddrs cfg l).2 (udpDatagram sport dport payload))) :=
    (patch_udpDatagram (udpCksumOut_range _).2).symm
  unfold udpWrap udpReply ip6Reply
  rw [hlen, hpatch]
  unfold udpReplyAddrs
  cases l.net <;> rfl

/-- R288: the response verifies under its own pseudo-header. -/
theorem udpSum_udpReplyDatagram : udpSum l.net (udpReplyAddrs cfg l).1 (udpReplyAddrs cfg l).2
    (udpReplyDatagram cfg l sport dport payload) = 0xFFFF := by
  refine udpSum_sent_cksumOut ?_ ?_
  all_goals
    unfold udpReplyAddrs
    split <;> rw [toBE_length]

end

/-- The record of a response, by its network (R288). -/
theorem udpReply_ip4 {cfg : Straps} {l : Records} (h : l.net = .ip4) (u : List Byte) :
    udpReply cfg l u = .ip4 (ip4Reply l.ip4 u) := by
  rw [udpReply, h]

theorem udpReply_ip6 {cfg : Straps} {l : Records} (h : l.net = .ip6) (u : List Byte) :
    udpReply cfg l u = .ip6 (ip6Reply cfg l.ip6 17#8 64#8 u) u := by
  rw [udpReply, h]

/-- Settles O30: `udp_wrap` answers with `udpReplyDatagram`, and `UDP.ECHO` with the record of `udp_wrap`; both
hold without the bound on the payload, since lengths are stored modulo their field. -/
theorem udpResponseIsWellFormed : Obligations.UdpResponseIsWellFormed := by
  refine ⟨fun s d _ => ?echo, fun cfg l sport dport payload _ => ?wrap⟩
  case echo =>
    refine ⟨_, udpReplyCksum_ne_zero s.cfg s.latched s.latched.udp.dport s.latched.udp.sport s.latched.udp.payload, ?_⟩
    intro l u
    have hwrap : udpWrap s.cfg l l.udp.dport l.udp.sport l.udp.payload = udpReply s.cfg l u := udpWrap_eq ..
    have hecho : exec (.udpEcho d) s = .next ((s.emit (.valid .udp)).respond .udp (udpReply s.cfg l u)) :=
      hwrap ▸ execUdpEcho_eq d
    exact hecho
  case wrap =>
    refine ⟨_, udpReplyCksum_ne_zero cfg l sport dport payload, ?_⟩
    intro u
    have hwrap : udpWrap cfg l sport dport payload = udpReply cfg l u := udpWrap_eq ..
    have hsum : udpSum l.net (udpReplyAddrs cfg l).1 (udpReplyAddrs cfg l).2 u = 0xFFFF :=
      udpSum_udpReplyDatagram ..
    refine ⟨fun hnet => ⟨hwrap.trans (udpReply_ip4 hnet u), ?_⟩, fun hnet => ⟨hwrap.trans (udpReply_ip6 hnet u), ?_⟩⟩
    all_goals
      rw [udpReplyAddrs, hnet] at hsum
      exact hsum

end Sys2Proof.Machine
end

section
/-! SUPPORT. What reads of the view and of `SCRATCH` depend on (R12, R21, R45), and slices that meet (R10). -/

namespace Sys2Proof.Machine

/-! ## Slices -/

/-- Two slices that meet. -/
theorem slice_append_adjacent (bs : List Byte) {i j k : Nat} (hij : i ≤ j) (hjk : j ≤ k) :
    slice bs i j ++ slice bs j k = slice bs i k := by
  have hdrop : bs.drop j = (bs.drop i).drop (j - i) := by rw [List.drop_drop, Nat.add_sub_cancel' hij]
  have hlen : k - i = (j - i) + (k - j) := by omega
  rw [slice, slice, slice, hdrop, hlen, List.take_add]

theorem slice_length_of_le {bs : List Byte} {j : Nat} (h : j ≤ bs.length) (i : Nat) : (slice bs i j).length = j - i := by
  rw [slice_length]
  omega

/-! ## Reads -/

variable {s t : State}

theorem memRead_of_same (hmem : t.mem = s.mem) (hepoch : t.epoch = s.epoch) (a n : Nat) :
    t.memRead a n = s.memRead a n :=
  memRead_congr fun _ _ => by rw [State.readBuf, State.readBuf, hmem, hepoch]

theorem view_of_same (hmem : t.mem = s.mem) (hepoch : t.epoch = s.epoch) (hbase : t.vbase = s.vbase)
    (hlen : t.vlen = s.vlen) : t.view = s.view := by
  rw [State.view, State.view, memRead_of_same hmem hepoch, hbase, hlen]

@[simp] theorem State.latch_view (f : Records → Records) : (s.latch f).view = s.view := view_of_same rfl rfl rfl rfl

/-- The end of a view once its front has been taken off. -/
theorem view_narrowed (hv : s.viewOk) (hcap : s.par.bufCap ≤ 65535) {off len : Nat} (h : off + len = s.vlen.toNat) :
    (s.narrowed off len).view = s.view.drop off := by
  obtain ⟨hbase, hlen⟩ := narrowed_registers hv hcap (Nat.le_of_eq h)
  have hall : (s.view.drop off).length ≤ len := by
    rw [List.length_drop, view_length]
    omega
  have hread : s.memRead (s.vbase.toNat + off) len = (s.view.drop off).take len :=
    (memRead_drop_take s _ _ _ _ (Nat.le_of_eq h)).symm
  rw [State.view, hbase, hlen, ← List.take_of_length_le hall, ← hread]
  exact memRead_of_same (State.narrowed_mem ..) (State.narrowed_epoch ..) _ _

/-- Where the view ends with `p`. -/
theorem view_drop_of_suffix {p : List Byte} (h : p <:+ s.view) :
    s.vlen.toNat - p.length + p.length = s.vlen.toNat ∧ s.view.drop (s.vlen.toNat - p.length) = p := by
  rw [← view_length]
  exact ⟨Nat.sub_add_cancel h.length_le, (List.suffix_iff_eq_drop.mp h).symm⟩

theorem scratchRead_of_same (hscratch : t.scratch = s.scratch) (hepoch : t.scratchEpoch = s.scratchEpoch) (a n : Nat) :
    t.scratchRead a n = s.scratchRead a n :=
  scratchRead_congr fun _ _ => by rw [State.readScratch, State.readScratch, hscratch, hepoch]

/-- A write to `SCRATCH` reads back. -/
theorem scratchRead_written (s : State) (a : Nat) {v : List Byte} {n : Nat} (hn : v.length = n) :
    (s.scratchWrite a v).scratchRead a n = v := by
  subst hn
  refine List.ext_getElem (scratchRead_length ..) fun i _ hi => ?_
  rw [scratchRead_getElem, State.readScratch, State.scratchWrite_scratch, memFind_memWriteBytes_inside hi,
    Option.getD_some]

theorem scratchRead_outside {a lo n : Nat} {v : List Byte} (h : a + v.length ≤ lo) :
    (s.scratchWrite a v).scratchRead lo n = s.scratchRead lo n :=
  scratchRead_congr fun i _ => by
    rw [State.readScratch, State.scratchWrite_scratch, memFind_memWriteBytes_outside (by omega), State.readScratch,
      State.scratchWrite_scratchEpoch]

end Sys2Proof.Machine
end

section
/-! SUPPORT. The entry of the `LOWPAN` stage, and `take` on both sides of its bound (R303). -/

namespace Sys2Proof.Machine

/-! ## Taking bytes -/

section

variable {α : Type} {n : Nat} {rest taken : List Byte}

theorem takeN_short (h : rest.length < n) : takeN n rest = .error .truncated := if_pos h

theorem takeN_append (h : taken.length = n) : takeN n (taken ++ rest) = .ok (taken, rest) := by
  subst h
  simp [takeN]

/-- A parser that starts with a `take` ends with it when the bytes are missing. -/
theorem take_then_short (h : rest.length < n) (f : List Byte × List Byte → Except Cause α) :
    (takeN n rest >>= f) = .error .truncated := by
  rw [takeN_short h]
  rfl

theorem take_then_append (h : taken.length = n) (f : List Byte × List Byte → Except Cause α) :
    (takeN n (taken ++ rest) >>= f) = f (taken, rest) := by
  rw [takeN_append h]
  rfl

theorem take_then_cons (b : Byte) (f : List Byte × List Byte → Except Cause α) :
    (takeN 1 (b :: rest) >>= f) = f ([b], rest) := take_then_append (taken := [b]) rfl f

end

/-! ## `LOWPAN.PARSE` -/

theorem execLowpanParse_short {s : State} (h : s.vlen.toNat < 1) :
    execLowpanParse s = .next (s.raiseDrop .lowpan .truncated) := if_pos h

theorem execLowpanParse_latches {s : State} (hv : s.viewOk) (h : 1 ≤ s.vlen.toNat) :
    execLowpanParse s = .next { s with
    latched := { s.latched with iphc := { s.latched.iphc with dispatch := byteAt s.view 0 } }
    phase := .dispatch } := by
  unfold execLowpanParse
  rw [if_neg (by omega), get_eq_slice_view hv (by omega), ofBE_slice_one (by simp; omega)]
  rfl

/-- Settles O35: `LOWPAN.PARSE` on both sides of its bound, and `take` on both sides of its own. -/
theorem lowpanParseReadsTheDispatchByte : Obligations.LowpanParseReadsTheDispatchByte :=
  ⟨fun _ hv => ⟨execLowpanParse_short, execLowpanParse_latches hv⟩, fun _ _ => takeN_short,
    fun _ _ => takeN_append rfl⟩

end Sys2Proof.Machine
end

section
/-! SUPPORT. The inline fields of a compressed header, form by form: what each parser takes and reads (R307, R309 to
R311, R136). -/

namespace Sys2Proof.Machine

variable {rest i : List Byte}

/-! ## Traffic class and flow label (R307) -/

theorem toNat_append_add {m n : Nat} (x : BitVec m) (y : BitVec n) : (x ++ y).toNat = x.toNat * 2 ^ n + y.toNat := by
  rw [BitVec.toNat_append, ← Nat.shiftLeft_add_eq_or_of_lt y.isLt, Nat.shiftLeft_eq]

/-- The byte `ecn ++ dscp` of an inline field as a traffic class. -/
theorem trafficClass_ofInline (b : Byte) :
    b.extractLsb' 0 6 ++ b.extractLsb' 6 2 = BitVec.ofNat 8 (4 * (b.toNat % 64) + b.toNat / 64) := by
  apply BitVec.eq_of_toNat_eq
  have hb := b.isLt
  have hecn : b.toNat / 64 < 4 := by omega
  have hsum : 4 * (b.toNat % 64) + b.toNat / 64 < 256 := by omega
  simp only [toNat_append_add, extractLsb'_eq_ofNat_div, BitVec.toNat_ofNat, Nat.reducePow, Nat.div_one]
  rw [Nat.mod_eq_of_lt hecn, Nat.mod_eq_of_lt hsum, Nat.mul_comm]

/-- The flow label is the low 20 bits of three bytes, whatever stands above them. -/
theorem flowLabel_ofInline (a b c : Byte) : (ofBE 24 [a, b, c]).extractLsb' 0 20 =
    BitVec.ofNat 20 ((65536 * a.toNat + 256 * b.toNat + c.toNat) % 2 ^ 20) := by
  rw [extractLsb'_ofBE (by decide)]
  apply BitVec.eq_of_toNat_eq
  simp [Nat.mul_comm, Nat.add_assoc]

theorem ecn_ofInline (a b c : Byte) : (0#6 ++ (ofBE 24 [a, b, c]).extractLsb' 22 2 : Byte) =
    BitVec.ofNat 8 (a.toNat / 64) := by
  rw [extractLsb'_ofBE (by decide)]
  apply BitVec.eq_of_toNat_eq
  have ha := a.isLt
  have hb := b.isLt
  have hc := c.isLt
  rw [toNat_append_add]
  simp
  omega

section

variable {t : List Byte}

/-- What each form makes of the bits of its bytes. -/
theorem iphcTf_zero_append (b : Byte) (ht : t.length = 3) : iphcTf 0#2 (b :: t ++ rest) =
    .ok (b.extractLsb' 0 6 ++ b.extractLsb' 6 2, (ofBE 24 t).extractLsb' 0 20, rest) := by
  obtain ⟨c, d, e, rfl⟩ := List.length_eq_three.mp ht
  exact take_then_append (taken := [b, c, d, e]) rfl _

theorem iphcTf_one_append (ht : t.length = 3) : iphcTf 1#2 (t ++ rest) =
    .ok (0#6 ++ (ofBE 24 t).extractLsb' 22 2, (ofBE 24 t).extractLsb' 0 20, rest) := take_then_append ht _

theorem iphcTf_two_cons (b : Byte) : iphcTf 2#2 (b :: rest) =
    .ok (b.extractLsb' 0 6 ++ b.extractLsb' 6 2, 0#20, rest) := take_then_cons b _

end

theorem iphcTf_zero (a b c d : Byte) : iphcTf 0#2 (a :: b :: c :: d :: rest) =
    .ok (BitVec.ofNat 8 (4 * (a.toNat % 64) + a.toNat / 64),
      BitVec.ofNat 20 ((65536 * b.toNat + 256 * c.toNat + d.toNat) % 2 ^ 20), rest) := by
  rw [← trafficClass_ofInline, ← flowLabel_ofInline]
  exact iphcTf_zero_append a (t := [b, c, d]) rfl

theorem iphcTf_one (a b c : Byte) : iphcTf 1#2 (a :: b :: c :: rest) =
    .ok (BitVec.ofNat 8 (a.toNat / 64),
      BitVec.ofNat 20 ((65536 * a.toNat + 256 * b.toNat + c.toNat) % 2 ^ 20), rest) := by
  rw [← ecn_ofInline a b c, ← flowLabel_ofInline]
  exact iphcTf_one_append (t := [a, b, c]) rfl

theorem iphcTf_two (a : Byte) : iphcTf 2#2 (a :: rest) =
    .ok (BitVec.ofNat 8 (4 * (a.toNat % 64) + a.toNat / 64), 0#20, rest) := by
  rw [← trafficClass_ofInline, iphcTf_two_cons]

theorem iphcTf_three : iphcTf 3#2 rest = .ok (0#8, 0#20, rest) := rfl

theorem iphcTf_short {tf : BitVec 2}
    (h : rest.length < (if tf = 0#2 then 4 else if tf = 1#2 then 3 else if tf = 2#2 then 1 else 0)) :
    iphcTf tf rest = .error .truncated := by
  unfold iphcTf
  split_ifs at h ⊢
  · exact take_then_short h _
  · exact take_then_short h _
  · exact take_then_short h _
  · exact absurd h (Nat.not_lt_zero _)

/-! ## Next header and hop limit (R309) -/

theorem iphcNh_inline (a : Byte) : iphcNh 0#1 (a :: rest) = .ok (a, rest) := take_then_cons a _

theorem iphcHlim_inline (a : Byte) : iphcHlim 0#2 (a :: rest) = .ok (a, rest) := take_then_cons a _

/-! ## Interface identifiers (R136) -/

/-- The bytes of a 64-bit field are its bits by eights. -/
theorem toBE_eight (v : BitVec 64) : toBE 8 v = [v.extractLsb' 56 8, v.extractLsb' 48 8, v.extractLsb' 40 8,
    v.extractLsb' 32 8, v.extractLsb' 24 8, v.extractLsb' 16 8, v.extractLsb' 8 8, v.extractLsb' 0 8] := by
  simp [toBE, bytesBE, extractLsb'_eq_ofNat_div]

/-- The universal/local bit stands in the first byte. -/
theorem iid_ext (e : BitVec 64) : iid (.ext e) = (byteAt (toBE 8 e) 0 ^^^ 0x02#8) :: (toBE 8 e).drop 1 := by
  simp [iid, toBE_eight, byteAt, BitVec.extractLsb'_xor]

@[simp] theorem iid_length (ll : LlAddr) : (iid ll).length = 8 := by
  cases ll with
  | ext | mac48 => exact toBE_length 8 _
  | short a => simp [iid, shortIidPrefix]

/-! ## Unicast addresses (R310, R311) -/

/-- How many inline bytes a unicast form has. -/
def unicastBytes (mode : BitVec 2) : Nat :=
  if mode = 0#2 then 16 else if mode = 1#2 then 8 else if mode = 2#2 then 2 else 0

/-- The address that the inline bytes `i` of a unicast form stand for. -/
def unicastOfInline (mode : BitVec 2) (ll : LlAddr) (i : List Byte) : List Byte :=
  if mode = 0#2 then i
  else if mode = 1#2 then linkLocalPrefix ++ i
  else if mode = 2#2 then linkLocalPrefix ++ shortIidPrefix ++ i
  else linkLocalPrefix ++ iid ll

section

variable {mode : BitVec 2} {ll : LlAddr}

theorem iphcUnicast_append (h : i.length = unicastBytes mode) :
    iphcUnicast mode ll (i ++ rest) = .ok (unicastOfInline mode ll i, rest) := by
  unfold unicastBytes at h
  unfold iphcUnicast unicastOfInline
  split_ifs at h ⊢
  · exact takeN_append h
  · exact take_then_append h _
  · exact take_then_append h _
  · rw [List.eq_nil_of_length_eq_zero h, List.nil_append]

theorem iphcUnicast_short (h : rest.length < unicastBytes mode) : iphcUnicast mode ll rest = .error .truncated := by
  unfold unicastBytes at h
  unfold iphcUnicast
  split_ifs at h ⊢
  · exact takeN_short h
  · exact take_then_short h _
  · exact take_then_short h _
  · exact absurd h (Nat.not_lt_zero _)

end

/-- With `SAC = 0` and with `M = 0` the two addresses have the same forms. -/
theorem iphcSrc_unicast (mode : BitVec 2) (ll : LlAddr) (rest : List Byte) :
    iphcSrc 0#1 mode ll rest = iphcUnicast mode ll rest := rfl

theorem iphcDst_unicast (mode : BitVec 2) (ll : LlAddr) (rest : List Byte) :
    iphcDst 0#1 mode ll rest = iphcUnicast mode ll rest := rfl

theorem iphcSrc_unspecified (sam : BitVec 2) (ll : LlAddr) : iphcSrc 1#1 sam ll rest = .ok (zeros 16, rest) := rfl

/-! ## Multicast addresses (R311) -/

/-- How many inline bytes a multicast form has. -/
def multicastBytes (dam : BitVec 2) : Nat :=
  if dam = 0#2 then 16 else if dam = 1#2 then 6 else if dam = 2#2 then 4 else 1

/-- The address that the inline bytes `i` of a multicast form stand for. -/
def multicastOfInline (dam : BitVec 2) (i : List Byte) : List Byte :=
  if dam = 0#2 then i
  else if dam = 1#2 then [0xFF#8] ++ slice i 0 1 ++ zeros 9 ++ slice i 1 6
  else if dam = 2#2 then [0xFF#8] ++ slice i 0 1 ++ zeros 11 ++ slice i 1 4
  else [0xFF#8, 0x02#8] ++ zeros 13 ++ i

section

variable {dam : BitVec 2} {ll : LlAddr}

theorem iphcDst_multicast_append (h : i.length = multicastBytes dam) :
    iphcDst 1#1 dam ll (i ++ rest) = .ok (multicastOfInline dam i, rest) := by
  unfold multicastBytes at h
  unfold iphcDst multicastOfInline
  rw [if_neg (by decide)]
  split_ifs at h ⊢
  · exact takeN_append h
  · rw [take_then_append h, ← singleton_byteAt (by omega)]
    rfl
  · rw [take_then_append h, ← singleton_byteAt (by omega)]
    rfl
  · obtain ⟨b, rfl⟩ := List.length_eq_one_iff.mp h
    exact take_then_append h _

theorem iphcDst_multicast_short (h : rest.length < multicastBytes dam) :
    iphcDst 1#1 dam ll rest = .error .truncated := by
  unfold multicastBytes at h
  unfold iphcDst
  rw [if_neg (by decide)]
  split_ifs at h ⊢
  · exact takeN_short h
  · exact take_then_short h _
  · exact take_then_short h _
  · exact take_then_short h _

end

/-- Settles O36, a lemma for each field and form. -/
theorem iphcInlineFieldForms : Obligations.IphcInlineFieldForms :=
  ⟨fun a b c d _ => iphcTf_zero a b c d, fun a b c _ => iphcTf_one a b c, fun a _ => iphcTf_two a,
    fun _ => iphcTf_three, fun _ _ => iphcTf_short, fun a _ => ⟨iphcNh_inline a, iphcHlim_inline a⟩,
    fun _ => ⟨rfl, rfl, rfl, rfl⟩, rfl, rfl, iid_ext, fun _ => rfl, fun ll sam _ => iphcSrc_unspecified sam ll,
    fun _ _ _ _ => ⟨fun h => ⟨iphcUnicast_append h, iphcUnicast_append h⟩,
      fun h => ⟨iphcUnicast_short h, iphcUnicast_short h⟩⟩,
    fun _ _ _ _ => ⟨iphcDst_multicast_append, iphcDst_multicast_short⟩⟩

end Sys2Proof.Machine
end

section
/-! SUPPORT. `LOWPAN.IPHC` (R302): the base header and the order of its fields (R304, R308), and its ends, the hand-off
(R312, R320) or the NHC byte. -/

namespace Sys2Proof.Machine

/-! ## The header in order (R304, R308) -/

section

variable {tf : BitVec 2} {nh : BitVec 1} {hlim : BitVec 2} {llSrc llDst : LlAddr} {v : List Byte}

theorem iphcDecode_short (h : v.length < 2) : iphcDecode tf nh hlim llSrc llDst v = .error .truncated := by
  rcases v with _ | ⟨b0, r⟩
  · rfl
  · obtain rfl : r = [] := by simpa using h
    rfl

theorem iphcUnsupported_iff (b1 : Byte) : iphcUnsupported b1 = true ↔ b1.getLsbD 7 = true ∨
    (b1.getLsbD 6 = true ∧ (b1.toNat / 16) % 4 ≠ 0) ∨ b1.getLsbD 2 = true := by
  have hmode : b1.extractLsb' 4 2 = 0#2 ↔ (b1.toNat / 16) % 4 = 0 := by
    rw [extractLsb'_eq_ofNat_div, ← BitVec.toNat_inj]
    rfl
  have hbit (k : Nat) : b1.extractLsb' k 1 = 1#1 ↔ b1.getLsbD k = true := by
    rw [BitVec.getLsbD_eq_extractLsb', beq_iff_eq]
  simp only [iphcUnsupported, Bool.or_eq_true, Bool.and_eq_true, decide_eq_true_eq, hbit, ne_eq, hmode, or_assoc]

theorem iphcDecode_unsupported {b0 b1 : Byte} {r0 : List Byte} (h : iphcUnsupported b1 = true) :
    iphcDecode tf nh hlim llSrc llDst (b0 :: b1 :: r0) = .error .unsupported := if_pos h

/-- The fields of a supported header are read one after the other (R302). -/
theorem iphcDecode_supported {b0 b1 : Byte} {r0 : List Byte} (h : iphcUnsupported b1 = false) :
    iphcDecode tf nh hlim llSrc llDst (b0 :: b1 :: r0) =
      (iphcTf tf r0 >>= fun (tc, fl, r1) => iphcNh nh r1 >>= fun (next, r2) => iphcHlim hlim r2 >>= fun (hop, r3) =>
        iphcSrc (b1.extractLsb' 6 1) (b1.extractLsb' 4 2) llSrc r3 >>= fun (src, r4) =>
        iphcDst (b1.extractLsb' 3 1) (b1.extractLsb' 0 2) llDst r4 >>= fun (dst, r5) =>
        .ok (⟨0#8, 0#8, tc, fl, next, hop, ofBE 128 src, ofBE 128 dst, 2 + r0.length - r5.length⟩, r5)) := by
  have hlen : (b0 :: b1 :: r0).length = 2 + r0.length := by simp only [List.length_cons]; omega
  rw [← hlen]
  exact if_neg (Bool.eq_false_iff.mp h)

/-- The cursor counts the bytes taken (R303). -/
theorem iphcDecode_cursor {h : IphcRec} {rest : List Byte} (hd : iphcDecode tf nh hlim llSrc llDst v = .ok (h, rest)) :
    h.o + rest.length = v.length := by
  have hcount : Yields (iphcDecode tf nh hlim llSrc llDst v) fun r => r.1.o = v.length - r.2.length := by
    refine yields_bind (takeN_yields 1 v) fun _ _ => yields_bind (takeN_yields 1 _) fun _ _ => ?_
    refine yields_ite (yields_error (by simp)) ?_
    refine yields_bind (iphcTf_yields tf _) fun _ _ => yields_bind (iphcNh_yields nh _) fun _ _ => ?_
    refine yields_bind (iphcHlim_yields hlim _) fun _ _ => yields_bind (iphcSrc_yields _ _ llSrc _) fun _ _ => ?_
    exact yields_bind (iphcDst_yields _ _ llDst _) fun _ _ => yields_ok rfl
  have ho : h.o = v.length - rest.length := hcount.2 _ hd
  have hpos : 0 < h.o := (iphcDecode_advances ..).2 _ hd
  omega

end

/-- Settles O37: a header too short, one of R308's forms, and the fields of any other in their order. -/
theorem iphcHeaderIsReadInOrder : Obligations.IphcHeaderIsReadInOrder := by
  intro tf nh hl lls lld
  refine ⟨fun _ => iphcDecode_short, fun b0 b1 r0 => ⟨fun hbad => ?_, fun hbad => ?_⟩⟩
  · exact iphcDecode_unsupported ((iphcUnsupported_iff b1).mpr hbad)
  rw [iphcDecode_supported (Bool.eq_false_iff.mpr fun h => hbad ((iphcUnsupported_iff b1).mp h))]
  rcases iphcTf tf r0 with _ | ⟨tc, fl, r1⟩
  · rfl
  dsimp only [bind, Except.bind]
  rcases iphcNh nh r1 with _ | ⟨next, r2⟩
  · rfl
  dsimp only
  rcases iphcHlim hl r2 with _ | ⟨hop, r3⟩
  · rfl
  dsimp only
  rcases iphcSrc _ _ lls r3 with _ | ⟨src, r4⟩
  · rfl
  dsimp only
  rcases iphcDst _ _ lld r4 with _ | ⟨dst, r5⟩
  · rfl
  · rfl

/-! ## The hand-off (R312, R320) -/

/-- The state after the hand-off of a header `h` with `n` bytes left in the view. -/
def State.handedOff (s : State) (h : IphcRec) (plen n : Nat) : State :=
  (((s.scratchWrite 0 (ip6Bytes (h.toIp6 plen))).narrowed h.o n).emit (.valid .lowpan)).goto .ipv6

theorem lowpanHandOff_eq {s : State} {h : IphcRec} {n : Nat} (ho : h.o + n = s.vlen.toNat) (plen : Nat) :
    lowpanHandOff h plen s = .next (s.handedOff h plen n) := by
  have hn : s.vlen.toNat - h.o = n := by omega
  rw [lowpanHandOff, hn]
  exact narrow_ok (s := s.scratchWrite 0 _) (Nat.le_of_eq ho) _

/-- The hand-off names the scratch memory, the view, the log and the stage, and nothing else. -/
theorem handedOff_eq (s : State) (h : IphcRec) (plen n : Nat) : s.handedOff h plen n = { s with
    scratch := memWriteBytes 0 (ip6Bytes (h.toIp6 plen)) s.scratch
    vbase := s.vbase + BitVec.ofNat 16 h.o, vlen := BitVec.ofNat 16 n
    log := s.log ++ [.valid .lowpan], stage := .ipv6, phase := .entry } := by
  simp only [State.handedOff, State.scratchWrite, State.narrowed, State.emit, State.goto, BitVec.ofNat_add,
    BitVec.ofNat_toNat, BitVec.setWidth_eq]

/-! ## `LOWPAN.IPHC` (R302) -/

section

variable {s : State} {tf : BitVec 2} {nh : BitVec 1} {hlim : BitVec 2} {h : IphcRec} {rest : List Byte}

/-- What `LOWPAN.IPHC` has latched when a header `h` has been read and its next header is not. -/
def State.iphcRead (s : State) (h : IphcRec) : State :=
  s.latch fun l => { l with iphc := { h with dispatch := s.latched.iphc.dispatch }, udpNhc := false }

/-- What `LOWPAN.IPHC` leaves when the NHC byte `c` comes next (log 19). -/
def State.nhcAwaited (s : State) (h : IphcRec) (c : Byte) : State :=
  { s.iphcRead { h with nhc := c } with phase := .nhc }

/-- The state `LOWPAN.IPHC` ends in, by the decoder's answer: a drop, the NHC byte awaited, or the hand-off (R302,
R319). -/
def State.iphcEnd (s : State) (nh : BitVec 1) : Except Cause (IphcRec × List Byte) → State
  | .error c => s.raiseDrop .lowpan c
  | .ok (h, rest) =>
    if nh = 1#1 then
      match rest with
      | [] => s.raiseDrop .lowpan .truncated
      | c :: _ => s.nhcAwaited h c
    else (s.iphcRead h).handedOff { h with dispatch := s.latched.iphc.dispatch } rest.length rest.length

theorem execLowpanIphc_eq (hv : s.viewOk) : execLowpanIphc tf nh hlim s =
    .next (s.iphcEnd nh (iphcDecode tf nh hlim s.llSrc s.llDst s.view)) := by
  unfold execLowpanIphc
  refine (getView_ok (s := s.latch _) hv _).trans ?_
  simp only [State.latch_llSrc, State.latch_llDst, State.latch_vlen, State.latch_view]
  rcases hd : iphcDecode tf nh hlim s.llSrc s.llDst s.view with c | ⟨h, rest⟩
  · rfl
  have ho : h.o + rest.length = s.vlen.toNat := by rw [iphcDecode_cursor hd, view_length]
  have hrest : s.vlen.toNat - h.o = rest.length := by omega
  by_cases hnh : nh = 1#1
  · simp only [State.iphcEnd, if_pos hnh]
    cases rest <;> rfl
  · simp only [State.iphcEnd, if_neg hnh, hrest]
    exact lowpanHandOff_eq (s := s.iphcRead h) ho _

theorem execLowpanIphc_handsOff (hv : s.viewOk) (hnh : nh = 0#1)
    (hd : iphcDecode tf nh hlim s.llSrc s.llDst s.view = .ok (h, rest)) :
    execLowpanIphc tf nh hlim s =
      .next ((s.iphcRead h).handedOff { h with dispatch := s.latched.iphc.dispatch } rest.length rest.length) := by
  rw [execLowpanIphc_eq hv, hd, hnh]
  rfl

theorem execLowpanIphc_nhc (hv : s.viewOk) (hnh : nh = 1#1) {c : Byte}
    (hd : iphcDecode tf nh hlim s.llSrc s.llDst s.view = .ok (h, c :: rest)) :
    execLowpanIphc tf nh hlim s = .next (s.nhcAwaited h c) := by
  rw [execLowpanIphc_eq hv, hd, hnh]
  rfl

end

/-- Settles O38: each outcome of the decoder is one end of `LOWPAN.IPHC`. -/
theorem iphcReconstructsTheHeader : Obligations.IphcReconstructsTheHeader := by
  refine fun s tf nh hl hv => ⟨fun c hd => ?error, fun h rest hd hnh => ?inline,
    fun h c rest hd hnh => execLowpanIphc_nhc hv hnh hd, fun h hd hnh => ?noByte⟩
  case error => exact (execLowpanIphc_eq hv).trans (by rw [hd]; rfl)
  case noByte => exact (execLowpanIphc_eq hv).trans (by rw [hd, hnh]; rfl)
  case inline =>
    have ho : h.o = s.vlen.toNat - rest.length := by rw [← view_length, ← iphcDecode_cursor hd, Nat.add_sub_cancel]
    refine (execLowpanIphc_handsOff hv hnh hd).trans ?_
    rw [handedOff_eq, ← ho]
    rfl

end Sys2Proof.Machine
end

section
/-! SUPPORT. `NHC.UDP` and `NHC.OTHER` (R318, R319): the ports and the checksum form by form (R137), and the UDP header
rebuilt in `SCRATCH`. -/

namespace Sys2Proof.Machine

variable {rest : List Byte}

/-! ## The ports and the checksum (R318, R137) -/

/-- A 16-bit field holds the low 16 bits of a number, and so do its two bytes. -/
theorem toBE_ofNat_half (v : Nat) : toBE 2 (BitVec.ofNat 16 v) = bytesBE 2 v := by
  have hhigh : BitVec.ofNat 8 (v % 65536 / 256) = BitVec.ofNat 8 (v / 256) := BitVec.eq_of_toNat_eq (by simp; omega)
  have hlow : BitVec.ofNat 8 (v % 65536) = BitVec.ofNat 8 v := BitVec.eq_of_toNat_eq (by simp)
  simp [toBE_half, bytesBE, hhigh, hlow]

theorem ofBE_two (a b : Byte) : ofBE 16 [a, b] = BitVec.ofNat 16 (256 * a.toNat + b.toNat) := by
  simp [ofBE, Nat.mul_comm]

/-- A port of the block `0xF000`, from its low byte. -/
theorem port_of_block_F000 (b : Byte) : (0xF0#8 ++ b : Half) = BitVec.ofNat 16 (0xF000 + b.toNat) := by
  apply BitVec.eq_of_toNat_eq
  rw [toNat_append_add]
  simp
  omega

/-- A port of the block `0xF0B0`, from its low four bits. -/
theorem port_of_block_F0B0 {x : BitVec 4} {n : Nat} (h : x.toNat = n) :
    (0xF0B#12 ++ x : Half) = BitVec.ofNat 16 (0xF0B0 + n) := by
  subst h
  apply BitVec.eq_of_toNat_eq
  rw [toNat_append_add]
  simp
  omega

theorem twoBits_cases (p : BitVec 2) : p = 0#2 ∨ p = 1#2 ∨ p = 2#2 ∨ p = 3#2 := by
  decide +revert

theorem ok_ports_congr {x x' y y' : Half} (hx : x = x') (hy : y = y') :
    (.ok (x, y, rest) : Except Cause (Half × Half × List Byte)) = .ok (x', y', rest) := by rw [hx, hy]

theorem nhcPorts_append {p : BitVec 2} {i : List Byte} (h : i.length = inlinePortBytes p) : nhcPorts p (i ++ rest) =
    .ok (BitVec.ofNat 16 (portsOfInline p i).1, BitVec.ofNat 16 (portsOfInline p i).2, rest) := by
  rcases twoBits_cases p with rfl | rfl | rfl | rfl
  · obtain ⟨a, b, c, d, rfl⟩ := List.length_eq_four.mp h
    refine (take_then_append (taken := [a, b, c, d]) rfl _).trans ?_
    exact ok_ports_congr (ofBE_two a b) (ofBE_two c d)
  · obtain ⟨a, b, c, rfl⟩ := List.length_eq_three.mp h
    refine (take_then_append (taken := [a, b, c]) rfl _).trans ?_
    exact ok_ports_congr (ofBE_two a b) (port_of_block_F000 c)
  · obtain ⟨a, b, c, rfl⟩ := List.length_eq_three.mp h
    refine (take_then_append (taken := [a, b, c]) rfl _).trans ?_
    exact ok_ports_congr (port_of_block_F000 a) (ofBE_two b c)
  · obtain ⟨a, rfl⟩ := List.length_eq_one_iff.mp h
    have hhigh : (a.extractLsb' 4 4).toNat = a.toNat / 16 := by
      rw [extractLsb'_eq_ofNat_div, BitVec.toNat_ofNat]
      omega
    have hlow : (a.extractLsb' 0 4).toNat = a.toNat % 16 := by
      rw [extractLsb'_eq_ofNat_div, BitVec.toNat_ofNat, Nat.pow_zero, Nat.div_one]
    refine (take_then_cons a _).trans ?_
    exact ok_ports_congr (port_of_block_F0B0 hhigh) (port_of_block_F0B0 hlow)

theorem nhcPorts_short {p : BitVec 2} (h : rest.length < inlinePortBytes p) : nhcPorts p rest = .error .truncated := by
  rcases twoBits_cases p with rfl | rfl | rfl | rfl
  all_goals exact take_then_short h _

/-- How many inline bytes the checksum has. -/
def cksumBytes (c : BitVec 1) : Nat := if c = 0#1 then 2 else 0

/-- The checksum field that the inline bytes `i` stand for. -/
def cksumOfInline (c : BitVec 1) (i : List Byte) : List Byte := if c = 0#1 then i else [0x00#8, 0x00#8]

theorem nhcCksum_append {c : BitVec 1} {i : List Byte} (h : i.length = cksumBytes c) :
    nhcCksum c (i ++ rest) = .ok (ofBE 16 (cksumOfInline c i), rest) := by
  unfold cksumBytes at h
  unfold nhcCksum cksumOfInline
  split_ifs at h ⊢
  · exact take_then_append h _
  · rw [List.eq_nil_of_length_eq_zero h]
    rfl

theorem nhcCksum_short {c : BitVec 1} (h : rest.length < cksumBytes c) : nhcCksum c rest = .error .truncated := by
  unfold cksumBytes at h
  unfold nhcCksum
  split_ifs at h ⊢
  · exact take_then_short h _
  · exact absurd h (Nat.not_lt_zero _)

theorem cksumOfInline_length {c : BitVec 1} {i : List Byte} (h : i.length = cksumBytes c) :
    (cksumOfInline c i).length = 2 := by
  unfold cksumBytes at h
  unfold cksumOfInline
  split_ifs at h ⊢
  · exact h
  · rfl

/-! ## The whole NHC header -/

section

variable {c : BitVec 1} {p : BitVec 2}

theorem nhcDecode_append {ports ck : List Byte} (hports : ports.length = inlinePortBytes p)
    (hck : ck.length = cksumBytes c) (b : Byte) (payload : List Byte) :
    nhcDecode c p (b :: (ports ++ ck ++ payload)) =
      .ok (BitVec.ofNat 16 (portsOfInline p ports).1, BitVec.ofNat 16 (portsOfInline p ports).2,
        ofBE 16 (cksumOfInline c ck), payload) := by
  rw [nhcDecode, take_then_cons]
  simp only [List.append_assoc, nhcPorts_append hports, nhcCksum_append hck, bind, Except.bind]

/-- The bytes run out in the NHC byte, in the ports or in the checksum. -/
theorem nhcDecode_short (h : rest.length < 1 + inlinePortBytes p + cksumBytes c) :
    nhcDecode c p rest = .error .truncated := by
  rcases rest with _ | ⟨b, r⟩
  · rfl
  rw [nhcDecode, take_then_cons]
  rw [List.length_cons] at h
  rcases Nat.lt_or_ge r.length (inlinePortBytes p) with hp | hp
  · simp only [nhcPorts_short hp, bind, Except.bind]
  · obtain ⟨ports, r, rfl, hports⟩ : ∃ i t, r = i ++ t ∧ i.length = inlinePortBytes p :=
      ⟨r.take _, r.drop _, (List.take_append_drop ..).symm, List.length_take_of_le hp⟩
    rw [List.length_append] at h
    have hck : r.length < cksumBytes c := by omega
    simp only [nhcPorts_append hports, nhcCksum_short hck, bind, Except.bind]

end

/-! ## The operations -/

section

variable {s : State} {c : BitVec 1} {p : BitVec 2}

theorem execNhcOther_unsupported (hv : s.viewOk) (ho : s.latched.iphc.o < s.vlen.toNat) (b : Byte) :
    execNhcOther b s = .next (s.raiseDrop .lowpan .unsupported) := by
  have hlen : ¬ (s.view.drop s.latched.iphc.o).length < 1 := by
    rw [List.length_drop, view_length]
    omega
  rw [execNhcOther, getView_ok hv, takeN, if_neg hlen]
  rfl

theorem execNhcOther_truncated (hv : s.viewOk) (ho : s.vlen.toNat ≤ s.latched.iphc.o) (b : Byte) :
    execNhcOther b s = .next (s.raiseDrop .lowpan .truncated) := by
  have hlen : (s.view.drop s.latched.iphc.o).length < 1 := by
    rw [List.length_drop, view_length]
    omega
  rw [execNhcOther, getView_ok hv, takeN_short hlen]
  rfl

theorem execNhcUdp_truncated (hv : s.viewOk)
    (h : (s.view.drop s.latched.iphc.o).length < 1 + inlinePortBytes p + cksumBytes c) :
    execNhcUdp c p s = .next (s.raiseDrop .lowpan .truncated) := by
  rw [execNhcUdp, getView_ok hv, nhcDecode_short h]
  rfl

/-- The IPHC record once the NHC header has been read: next header and cursor are set (R318). -/
def State.nhcIphc (s : State) (payload : List Byte) : IphcRec :=
  { s.latched.iphc with nh := 17#8, o := s.vlen.toNat - payload.length }

/-- What `NHC.UDP` has stored and latched before the hand-off: the UDP header `u` and the record (R318). -/
def State.nhcRead (s : State) (u payload : List Byte) : State :=
  (s.scratchWrite 40 u).latch fun l => { l with iphc := s.nhcIphc payload, udpNhc := true }

/-- The UDP header that the inline bytes of an NHC header stand for (R318). -/
def udpOfInline (c : BitVec 1) (p : BitVec 2) (ports ck payload : List Byte) : List Byte :=
  bytesBE 2 (portsOfInline p ports).1 ++ bytesBE 2 (portsOfInline p ports).2 ++ bytesBE 2 (8 + payload.length)
    ++ cksumOfInline c ck

theorem execNhcUdp_handsOff (hv : s.viewOk) {b : Byte} {ports ck payload : List Byte}
    (hview : s.view.drop s.latched.iphc.o = b :: (ports ++ ck ++ payload)) (hports : ports.length = inlinePortBytes p)
    (hck : ck.length = cksumBytes c) : execNhcUdp c p s =
      .next ((s.nhcRead (udpOfInline c p ports ck payload) payload).handedOff (s.nhcIphc payload) (8 + payload.length)
        payload.length) := by
  have hlen : payload.length ≤ s.vlen.toNat := by
    have hcount := congrArg List.length hview
    simp only [List.length_drop, view_length, List.length_cons, List.length_append] at hcount
    omega
  have ho : (s.nhcIphc payload).o + payload.length = s.vlen.toNat := Nat.sub_add_cancel hlen
  have hheader : nhcHeader (BitVec.ofNat 16 (portsOfInline p ports).1) (BitVec.ofNat 16 (portsOfInline p ports).2)
      (8 + payload.length) (ofBE 16 (cksumOfInline c ck)) = udpOfInline c p ports ck payload := by
    rw [nhcHeader, toBE_ofNat_half, toBE_ofNat_half, toBE_ofBE rfl (cksumOfInline_length hck)]
    rfl
  rw [execNhcUdp, getView_ok hv, hview, nhcDecode_append hports hck]
  simp only [hheader, view_length]
  exact lowpanHandOff_eq (s := s.nhcRead _ payload) ho _

end

/-- Settles O39: the two drops of `NHC.OTHER`, and `NHC.UDP` with too few bytes and with enough. -/
theorem nhcReconstructsTheUdpHeader : Obligations.NhcReconstructsTheUdpHeader := by
  refine ⟨fun s b hv => ⟨fun ho => execNhcOther_unsupported hv ho b, fun ho => execNhcOther_truncated hv ho b⟩,
    fun s c p hv => ⟨execNhcUdp_truncated hv, fun b ports ck payload hview hports hck => ?_⟩⟩
  refine (execNhcUdp_handsOff hv hview hports hck).trans ?_
  rw [handedOff_eq]
  rfl

end Sys2Proof.Machine
end

section
/-! SUPPORT. Compression and back (R325 to R328, R332): each field's parser reads what the compressor wrote for it, and
so the decoder returns the header record and the bytes after the compressed header. -/

namespace Sys2Proof.Machine

variable {rest : List Byte}

/-! ## Traffic class and flow label (R326) -/

/-- A traffic class is its two parts, `dscp` above `ecn`. -/
theorem trafficClass_parts (tc : Byte) : tc.extractLsb' 2 6 ++ tc.extractLsb' 0 2 = tc := by
  rw [BitVec.extractLsb'_append_extractLsb'_eq_extractLsb' (Nat.zero_add 2).symm, BitVec.extractLsb'_eq_self]

/-- The byte `ecn ++ dscp` reads back as the traffic class it was made of. -/
theorem trafficClass_inline (tc : Byte) : (tc.extractLsb' 0 2 ++ tc.extractLsb' 2 6 : Byte).extractLsb' 0 6
    ++ (tc.extractLsb' 0 2 ++ tc.extractLsb' 2 6 : Byte).extractLsb' 6 2 = tc := by
  rw [BitVec.extractLsb'_append_eq_right, BitVec.extractLsb'_append_eq_left]
  exact trafficClass_parts tc

/-- The bits of a number stored in three bytes. -/
theorem extractLsb'_bytesBE_three {n : Nat} (hn : n < 2 ^ 24) {i k : Nat} (h : i + k ≤ 24) :
    (ofBE 24 (bytesBE 3 n)).extractLsb' i k = BitVec.ofNat k (n / 2 ^ i) := by
  rw [extractLsb'_ofBE h, beNat_bytesBE, Nat.mod_eq_of_lt (by omega)]

theorem iphcTf_compressTf (tc : Byte) (fl : BitVec 20) :
    iphcTf (compressTf tc fl).1 ((compressTf tc fl).2 ++ rest) = .ok (tc, fl, rest) := by
  have hfl := fl.isLt
  unfold compressTf
  simp only
  split_ifs with hnone hfl0 hdscp
  · obtain ⟨rfl, rfl⟩ := hnone
    rfl
  · rw [hfl0]
    exact (iphcTf_two_cons _).trans (by rw [trafficClass_inline]; rfl)
  · have hecn := (tc.extractLsb' 0 2).isLt
    have htc : 0#6 ++ tc.extractLsb' 0 2 = tc := hdscp ▸ trafficClass_parts tc
    have hn : (tc.extractLsb' 0 2).toNat * 2 ^ 22 + fl.toNat < 2 ^ 24 := by omega
    have hhigh : ((tc.extractLsb' 0 2).toNat * 2 ^ 22 + fl.toNat) / 2 ^ 22 = (tc.extractLsb' 0 2).toNat := by omega
    have hlow : BitVec.ofNat 20 ((tc.extractLsb' 0 2).toNat * 2 ^ 22 + fl.toNat) = fl :=
      BitVec.eq_of_toNat_eq (by rw [BitVec.toNat_ofNat]; omega)
    refine (iphcTf_one_append rfl).trans ?_
    rw [extractLsb'_bytesBE_three hn (by decide), extractLsb'_bytesBE_three hn (by decide), hhigh, Nat.pow_zero,
      Nat.div_one, hlow, BitVec.ofNat_toNat, BitVec.setWidth_eq, htc]
  · refine (iphcTf_zero_append _ rfl).trans ?_
    rw [trafficClass_inline, extractLsb'_bytesBE_three (by omega) (by decide), Nat.pow_zero, Nat.div_one,
      BitVec.ofNat_toNat, BitVec.setWidth_eq]

/-! ## Next header and hop limit (R325) -/

theorem iphcHlim_compressHlim (hlim : Byte) :
    iphcHlim (compressHlim hlim).1 ((compressHlim hlim).2 ++ rest) = .ok (hlim, rest) := by
  unfold compressHlim
  split_ifs with h1 h64 h255
  · rw [h1]
    rfl
  · rw [h64]
    rfl
  · rw [h255]
    rfl
  · exact iphcHlim_inline hlim

/-! ## Addresses (R327) -/

section

variable {a : List Byte} {ll : LlAddr}

theorem slice_address (ha : a.length = 16) : slice a 0 16 = a := List.take_of_length_le (Nat.le_of_eq ha)

/-- An address falls into its first half and its interface identifier, the last two bytes apart. -/
theorem take_append_slice (ha : a.length = 16) : a.take 8 ++ slice a 8 14 ++ slice a 14 16 = a := by
  have htake : a.take 8 = slice a 0 8 := rfl
  rw [htake, slice_append_adjacent a (by decide) (by decide), slice_append_adjacent a (by decide) (by decide),
    slice_address ha]

theorem compressUnicast_inverts (ha : a.length = 16) :
    (compressUnicast a ll).2.length = unicastBytes (compressUnicast a ll).1 ∧
      unicastOfInline (compressUnicast a ll).1 ll (compressUnicast a ll).2 = a := by
  unfold compressUnicast
  split_ifs with hiid hshort hlocal
  · obtain ⟨hlocal, hiid⟩ := hiid
    refine ⟨rfl, ?_⟩
    show linkLocalPrefix ++ iid ll = a
    rw [← hlocal, ← hiid, List.take_append_drop]
  · obtain ⟨hlocal, hshort⟩ := hshort
    refine ⟨by simp [ha, unicastBytes], ?_⟩
    show linkLocalPrefix ++ shortIidPrefix ++ slice a 14 16 = a
    rw [← hlocal, ← hshort, take_append_slice ha]
  · refine ⟨by simp [ha, unicastBytes], ?_⟩
    show linkLocalPrefix ++ a.drop 8 = a
    rw [← hlocal, List.take_append_drop]
  · exact ⟨ha, rfl⟩

theorem iphcUnicast_compressUnicast (ha : a.length = 16) :
    iphcUnicast (compressUnicast a ll).1 ll ((compressUnicast a ll).2 ++ rest) = .ok (a, rest) := by
  obtain ⟨hlen, haddr⟩ := compressUnicast_inverts (ll := ll) ha
  rw [iphcUnicast_append hlen, haddr]

theorem iphcSrc_compressSrc (ha : a.length = 16) :
    iphcSrc (compressSrc a ll).1 (compressSrc a ll).2.1 ll ((compressSrc a ll).2.2 ++ rest) = .ok (a, rest) := by
  unfold compressSrc
  split_ifs with hzero
  · rw [hzero]
    rfl
  · exact iphcUnicast_compressUnicast ha

/-- A multicast address in its parts: the first byte, the byte of flags and scope, and the group. -/
theorem multicast_parts (ha : a.length = 16) {k : Nat} (h2 : 2 ≤ k) (h16 : k ≤ 16) :
    [byteAt a 0] ++ [byteAt a 1] ++ slice a 2 k ++ slice a k 16 = a := by
  rw [singleton_byteAt (by omega), singleton_byteAt (by omega), slice_append_adjacent a (by decide) (by decide),
    slice_append_adjacent a (by decide) h2, slice_append_adjacent a (Nat.zero_le k) h16, slice_address ha]

/-- The form `DAM = 3` carries the last byte of `FF02::00xx`. -/
theorem multicastOfInline_three (ha : a.length = 16) (h0 : byteAt a 0 = 0xFF#8) (h1 : byteAt a 1 = 0x02#8)
    (hzero : slice a 2 15 = zeros 13) : multicastOfInline 3#2 [byteAt a 15] = a := by
  have hparts := multicast_parts ha (k := 15) (by decide) (by decide)
  rw [h0, h1, hzero, ← singleton_byteAt (by omega)] at hparts
  exact hparts

/-- The forms between carry the second byte and the end of the group. -/
theorem multicast_of_zeros (ha : a.length = 16) (h0 : byteAt a 0 = 0xFF#8) {k : Nat} (h2 : 2 ≤ k) (h16 : k ≤ 16)
    {z : List Byte} (hzero : slice a 2 k = z) :
    [0xFF#8] ++ [byteAt a 1] ++ z ++ slice (byteAt a 1 :: slice a k 16) 1 (17 - k) = a := by
  have hrest : slice (byteAt a 1 :: slice a k 16) 1 (17 - k) = slice a k 16 := by
    refine List.take_of_length_le ?_
    simp
    omega
  rw [hrest, ← h0, ← hzero, multicast_parts ha h2 h16]

theorem iphcDst_compressDst (ha : a.length = 16) :
    iphcDst (compressDst a ll).1 (compressDst a ll).2.1 ll ((compressDst a ll).2.2 ++ rest) = .ok (a, rest) := by
  have hform {dam : BitVec 2} {i : List Byte} (hlen : i.length = multicastBytes dam) (h : multicastOfInline dam i = a) :
      iphcDst 1#1 dam ll (i ++ rest) = .ok (a, rest) := by rw [iphcDst_multicast_append hlen, h]
  unfold compressDst
  split_ifs with h3 h2 h1 h0
  · obtain ⟨hff, hscope, hzero⟩ := h3
    exact hform rfl (multicastOfInline_three ha hff hscope hzero)
  · obtain ⟨hff, hzero⟩ := h2
    exact hform (by simp [ha, multicastBytes]) (multicast_of_zeros ha hff (by decide) (by decide) hzero)
  · obtain ⟨hff, hzero⟩ := h1
    exact hform (by simp [ha, multicastBytes]) (multicast_of_zeros ha hff (by decide) (by decide) hzero)
  · exact hform ha rfl
  · exact iphcUnicast_compressUnicast ha

end

end Sys2Proof.Machine
end

section
/-! SUPPORT. The compressed headers as a whole (R325, R328): the UDP header that an NHC header stands for, and the header
record that the decoder reads from an IPHC header. -/

namespace Sys2Proof.Machine

variable {rest : List Byte}

/-! ## The UDP header (R328) -/

theorem compressPorts_length (sport dport : Half) :
    (compressPorts sport dport).2.length = inlinePortBytes (compressPorts sport dport).1 := by
  unfold compressPorts
  simp only
  split_ifs
  all_goals simp [inlinePortBytes]

/-- The inline bytes stand for the two ports, since each form is taken only for ports inside its block (R137). -/
theorem portsOfInline_compressPorts (sport dport : Half) :
    portsOfInline (compressPorts sport dport).1 (compressPorts sport dport).2 = (sport.toNat, dport.toNat) := by
  have hs := sport.isLt
  have hd := dport.isLt
  unfold compressPorts
  simp only
  split_ifs
  all_goals
    simp [portsOfInline, toBE_half, bytesBE, byteAt]
    omega

section

variable {upper : List Byte}

/-- The ports of a UDP message as R328 compresses them. -/
def portsOf (upper : List Byte) : BitVec 2 × List Byte :=
  compressPorts (ofBE 16 (slice upper 0 2)) (ofBE 16 (slice upper 2 4))

theorem nhcApplies_iff (r : Ip6Rec) : nhcApplies r upper = true ↔
    r.nh = 17#8 ∧ 8 ≤ upper.length ∧ beNat (slice upper 4 6) = upper.length := by
  simp [nhcApplies, and_assoc]

/-- The NHC byte, the ports, the checksum and the payload. -/
theorem compressUdp_eq (upper : List Byte) : compressUdp upper =
    (0b11110#5 ++ 0#1 ++ (portsOf upper).1) :: ((portsOf upper).2 ++ slice upper 6 8 ++ upper.drop 8) := by
  simp [compressUdp, portsOf]

/-- The header rebuilt from the inline bytes, with the payload after it, is the message. -/
theorem udpOfInline_compressUdp (h8 : 8 ≤ upper.length) (hlen : beNat (slice upper 4 6) = upper.length) :
    udpOfInline 0#1 (portsOf upper).1 (portsOf upper).2 (slice upper 6 8) (upper.drop 8) = slice upper 0 8 := by
  have htwo {i : Nat} (hi : i + 2 ≤ 8) : (slice upper i (i + 2)).length = 2 := by
    rw [slice_length_of_le (by omega), Nat.add_sub_cancel_left]
  have hport {i : Nat} (hi : i + 2 ≤ 8) : bytesBE 2 (ofBE 16 (slice upper i (i + 2))).toNat = slice upper i (i + 2) :=
    toBE_ofBE rfl (htwo hi)
  have hlength : bytesBE 2 (beNat (slice upper 4 6)) = slice upper 4 6 :=
    (congrArg (bytesBE · _) (htwo (i := 4) (by decide)).symm).trans (bytesBE_beNat _)
  have hulen : 8 + (upper.drop 8).length = beNat (slice upper 4 6) := by
    rw [List.length_drop]
    omega
  rw [udpOfInline, portsOf, portsOfInline_compressPorts, hulen, hlength, hport (i := 0) (by decide),
    hport (i := 2) (by decide)]
  show slice upper 0 2 ++ slice upper 2 4 ++ slice upper 4 6 ++ slice upper 6 8 = slice upper 0 8
  rw [slice_append_adjacent, slice_append_adjacent, slice_append_adjacent]
  all_goals decide

end

/-! ## The IPHC header (R325) -/

/-- The second base byte of R131 from its fields; the compressor sets neither `CID` nor `DAC`. -/
def iphcModes (sac : BitVec 1) (sam : BitVec 2) (m : BitVec 1) (dam : BitVec 2) : Byte :=
  0#1 ++ sac ++ sam ++ m ++ 0#1 ++ dam

theorem iphcModes_fields (sac : BitVec 1) (sam : BitVec 2) (m : BitVec 1) (dam : BitVec 2) :
    (iphcModes sac sam m dam).extractLsb' 6 1 = sac ∧ (iphcModes sac sam m dam).extractLsb' 4 2 = sam ∧
      (iphcModes sac sam m dam).extractLsb' 3 1 = m ∧ (iphcModes sac sam m dam).extractLsb' 0 2 = dam := by
  decide +revert

theorem iphcModes_supported (sac : BitVec 1) (sam : BitVec 2) (m : BitVec 1) (dam : BitVec 2)
    (h : sac = 1#1 → sam = 0#2) : iphcUnsupported (iphcModes sac sam m dam) = false := by
  decide +revert

/-- The compressor never asks for a context (R308, R327). -/
theorem compressSrc_mode (a : List Byte) (ll : LlAddr) :
    (compressSrc a ll).1 = 1#1 → (compressSrc a ll).2.1 = 0#2 := by
  unfold compressSrc
  split_ifs
  · exact fun _ => rfl
  · simp

section

variable (r : Ip6Rec) (nh : BitVec 1) (lls lld : LlAddr)

/-- The first byte of a compressed header (R131). -/
def iphcByte : Byte := 0b011#3 ++ (compressTf r.tc r.fl).1 ++ nh ++ (compressHlim r.hlim).1

/-- The inline fields of a compressed header in their order (R325). -/
def iphcFields : List Byte :=
  (compressTf r.tc r.fl).2 ++ (if nh = 1#1 then [] else [r.nh]) ++ (compressHlim r.hlim).2
    ++ (compressSrc (toBE 16 r.src) lls).2.2 ++ (compressDst (toBE 16 r.dst) lld).2.2

/-- A compressed header up to the message or its NHC form. -/
def iphcHead : List Byte :=
  iphcByte r nh :: iphcModes (compressSrc (toBE 16 r.src) lls).1 (compressSrc (toBE 16 r.src) lls).2.1
    (compressDst (toBE 16 r.dst) lld).1 (compressDst (toBE 16 r.dst) lld).2.1 :: iphcFields r nh lls lld

/-- What decompression makes of `iphcHead`: all fields but a next header that is not inline. -/
def iphcRecOf : IphcRec :=
  ⟨0#8, 0#8, r.tc, r.fl, if nh = 1#1 then 0#8 else r.nh, r.hlim, r.src, r.dst, (iphcHead r nh lls lld).length⟩

theorem iphcNh_inverts : iphcNh nh ((if nh = 1#1 then [] else [r.nh]) ++ rest) =
    .ok (if nh = 1#1 then 0#8 else r.nh, rest) := by
  rcases BitVec.eq_zero_or_eq_one nh with rfl | rfl
  · exact iphcNh_inline r.nh
  · rfl

/-- The decoder returns the header record and what stands after the header (R332). -/
theorem iphcDecode_iphcHead : iphcDecode (compressTf r.tc r.fl).1 nh (compressHlim r.hlim).1 lls lld
    (iphcHead r nh lls lld ++ rest) = .ok (iphcRecOf r nh lls lld, rest) := by
  obtain ⟨hsac, hsam, hm, hdam⟩ := iphcModes_fields (compressSrc (toBE 16 r.src) lls).1
    (compressSrc (toBE 16 r.src) lls).2.1 (compressDst (toBE 16 r.dst) lld).1 (compressDst (toBE 16 r.dst) lld).2.1
  have ho : 2 + (iphcFields r nh lls lld ++ rest).length - rest.length = (iphcHead r nh lls lld).length := by
    simp [iphcHead]
    omega
  rw [iphcHead, List.cons_append, List.cons_append,
    iphcDecode_supported (iphcModes_supported _ _ _ _ (compressSrc_mode _ lls))]
  simp only [iphcFields, List.append_assoc] at ho
  simp only [hsac, hsam, hm, hdam, ho, iphcFields, List.append_assoc, bind, Except.bind, iphcTf_compressTf,
    iphcNh_inverts, iphcHlim_compressHlim, iphcSrc_compressSrc (toBE_length 16 r.src),
    iphcDst_compressDst (toBE_length 16 r.dst), ofBE_toBE]
  rfl

end

theorem iphcCompress_plain {r : Ip6Rec} {upper : List Byte} (h : nhcApplies r upper = false) (lls lld : LlAddr) :
    iphcCompress r upper lls lld = iphcHead r 0#1 lls lld ++ upper := by
  simp only [iphcCompress, h]
  rfl

theorem iphcCompress_nhc {r : Ip6Rec} {upper : List Byte} (h : nhcApplies r upper = true) (lls lld : LlAddr) :
    iphcCompress r upper lls lld = iphcHead r 1#1 lls lld ++ compressUdp upper := by
  simp only [iphcCompress, h]
  rfl

end Sys2Proof.Machine
end

section
/-! SUPPORT. The run of the `LOWPAN` stage on a compressed packet (R332): `LOWPAN.PARSE`, `LOWPAN.IPHC` and, for a UDP
header in NHC form, `NHC.UDP`. -/

namespace Sys2Proof.Machine

variable {s : State}

/-! ## What the hand-off leaves to read (R312, R320) -/

section

variable {h : IphcRec} {plen n : Nat}

/-- Reading `SCRATCH` after the hand-off is reading it after the header has been written. -/
theorem handedOff_scratchRead (a k : Nat) : (s.handedOff h plen n).scratchRead a k =
    (s.scratchWrite 0 (ip6Bytes (h.toIp6 plen))).scratchRead a k :=
  scratchRead_of_same (by simp [State.handedOff]) (by simp [State.handedOff]) a k

theorem handedOff_header : (s.handedOff h plen n).scratchRead 0 40 = ip6Bytes (h.toIp6 plen) := by
  rw [handedOff_scratchRead, scratchRead_written s 0 (ip6Bytes_length _)]

theorem handedOff_udpHeader : (s.handedOff h plen n).scratchRead 40 8 = s.scratchRead 40 8 := by
  rw [handedOff_scratchRead, scratchRead_outside (by rw [ip6Bytes_length])]

theorem handedOff_view (hv : s.viewOk) (hcap : s.par.bufCap ≤ 65535) (ho : h.o + n = s.vlen.toNat) :
    (s.handedOff h plen n).view = s.view.drop h.o := by
  rw [← view_narrowed hv hcap ho]
  apply view_of_same
  all_goals simp [State.handedOff]

/-- `U` of R232 after the hand-off. -/
theorem handedOff_upper (hv : s.viewOk) (hcap : s.par.bufCap ≤ 65535) (hlink : s.cfg.link = .lowpan)
    (ho : h.o + n = s.vlen.toNat) : (s.handedOff h plen n).upper =
      (if s.latched.udpNhc then s.scratchRead 40 8 else []) ++ s.view.drop h.o := by
  have hlow : (s.handedOff h plen n).cfg.link = .lowpan := by simpa [State.handedOff] using hlink
  have hnhc : (s.handedOff h plen n).latched.udpNhc = s.latched.udpNhc := by simp [State.handedOff]
  rw [State.upper, handedOff_view hv hcap ho, handedOff_udpHeader, hlow, hnhc]
  cases s.latched.udpNhc <;> simp

end

/-! ## The states between the steps -/

/-- The state after `LOWPAN.PARSE` has read the dispatch byte `d`. -/
def State.lowpanParsed (s : State) (d : Byte) : State :=
  (s.latch fun l => { l with iphc := { l.iphc with dispatch := d } }).toDispatch

@[simp] theorem lowpanParsed_stage (s : State) (d : Byte) : (s.lowpanParsed d).stage = s.stage := rfl

@[simp] theorem lowpanParsed_host (s : State) (d : Byte) : (s.lowpanParsed d).host = s.host := rfl

@[simp] theorem lowpanParsed_log (s : State) (d : Byte) : (s.lowpanParsed d).log = s.log := rfl

theorem lowpanParsed_view (d : Byte) : (s.lowpanParsed d).view = s.view := view_of_same rfl rfl rfl rfl

theorem lowpanParsed_frameOf (s : State) (d : Byte) : (s.lowpanParsed d).frameOf = s.frameOf := rfl

theorem iphcRead_frameOf (s : State) (h : IphcRec) : (s.iphcRead h).frameOf = s.frameOf := rfl

theorem nhcAwaited_frameOf (s : State) (h : IphcRec) (c : Byte) : (s.nhcAwaited h c).frameOf = s.frameOf := rfl

/-- A record with the two tags of the stage. -/
def IphcRec.withTags (h : IphcRec) (dispatch nhc : Byte) : IphcRec := { h with dispatch := dispatch, nhc := nhc }

theorem nhcAwaited_iphc (s : State) (h : IphcRec) (c : Byte) :
    (s.nhcAwaited h c).latched.iphc = h.withTags s.latched.iphc.dispatch c := rfl

theorem nhcRead_frameOf (s : State) (u payload : List Byte) :
    (s.nhcRead u payload).frameOf = (s.scratchWrite 40 u).frameOf := rfl

@[simp] theorem nhcAwaited_stage (s : State) (h : IphcRec) (c : Byte) : (s.nhcAwaited h c).stage = s.stage := rfl

@[simp] theorem nhcAwaited_phase (s : State) (h : IphcRec) (c : Byte) : (s.nhcAwaited h c).phase = .nhc := rfl

@[simp] theorem nhcAwaited_host (s : State) (h : IphcRec) (c : Byte) : (s.nhcAwaited h c).host = s.host := rfl

@[simp] theorem nhcAwaited_log (s : State) (h : IphcRec) (c : Byte) : (s.nhcAwaited h c).log = s.log := rfl

@[simp] theorem nhcRead_log (s : State) (u payload : List Byte) : (s.nhcRead u payload).log = s.log := rfl

@[simp] theorem nhcRead_udpNhc (s : State) (u payload : List Byte) : (s.nhcRead u payload).latched.udpNhc = true := rfl

theorem nhcRead_udpHeader (s : State) {u : List Byte} (hu : u.length = 8) (payload : List Byte) :
    (s.nhcRead u payload).scratchRead 40 8 = u :=
  (scratchRead_of_same (State.latch_scratch ..) (State.latch_scratchEpoch ..) 40 8).trans (scratchRead_written s 40 hu)

/-! ## The steps -/

theorem step_of_iphc (hst : s.stage = .lowpan) (hph : s.phase = .dispatch) (hhost : s.host = []) {tf : BitVec 2}
    {nh : BitVec 1} {hlim : BitVec 2} (hd : s.latched.iphc.dispatch = 0b011#3 ++ tf ++ nh ++ hlim) :
    step s = execLowpanIphc tf nh hlim s := by
  have hsel : s.selector = .dispatch := by simp [State.selector, State.tagSelector, hph, hst]
  refine step_of_runs (i := .lowpanIphc tf nh hlim) (by simp [hst, stageRuns]) (by simp [State.resetNext, hhost]) ?_
  rw [tagBytes_eq_tag, hsel, ← decodeDispatch_iphc, ← hd]
  rfl

theorem step_of_nhcUdp (hst : s.stage = .lowpan) (hph : s.phase = .nhc) (hhost : s.host = []) {c : BitVec 1}
    {p : BitVec 2} (hn : s.latched.iphc.nhc = 0b11110#5 ++ c ++ p) : step s = execNhcUdp c p s := by
  have hsel : s.selector = .nhc := by simp [State.selector, hph, hst]
  refine step_of_runs (i := .nhcUdp c p) (by simp [hst, stageRuns]) (by simp [State.resetNext, hhost]) ?_
  rw [tagBytes_eq_tag, hsel, ← decodeNhc_udp, ← hn]
  rfl

theorem step_lowpanParse (hv : s.viewOk) (hst : s.stage = .lowpan) (hph : s.phase = .entry) (hhost : s.host = [])
    {d : Byte} {rest : List Byte} (hview : s.view = d :: rest) : step s = .next (s.lowpanParsed d) := by
  have hlen : 1 ≤ s.vlen.toNat := by
    rw [← view_length, hview]
    simp
  have hparse : step s = execLowpanParse s :=
    step_of_entry (i := .lowpanParse) (by simp [hst, decodeEntry]) (by simp [hst, stageRuns]) hph hhost
  rw [hparse, execLowpanParse_latches hv hlen, hview]
  rfl

theorem run_two {u t : State} (h₁ : step s = .next u) (h₂ : step u = .next t) :
    Host.Core.run Sys2Proof.core 2 s = .next t := by
  rw [run_of_step h₁, run_of_step h₂]
  rfl

theorem run_three {u v t : State} (h₁ : step s = .next u) (h₂ : step u = .next v) (h₃ : step v = .next t) :
    Host.Core.run Sys2Proof.core 3 s = .next t := by
  rw [run_of_step h₁, run_two h₂ h₃]

/-! ## The end of the stage -/

/-- The end R332 states for the decompression, started in `s`, of the header `r` and the message `upper`. -/
def State.Decompresses (s : State) (r : Ip6Rec) (upper : List Byte) (t : State) : Prop :=
  t.stage = .ipv6 ∧ t.scratchRead 0 40 = ip6Bytes r ∧ t.upper = upper ∧ t.log = s.log ++ [.valid .lowpan]

section

variable {r : Ip6Rec} {upper : List Byte} {u : State} {h : IphcRec} {plen n : Nat}

/-- The view is read from registers and bytes that no step of the decompression writes before the hand-off. -/
theorem Kept.view_eq (hkept : Kept [.scratch] s u) : u.view = s.view := by
  obtain ⟨hbase, hlen⟩ := Prod.mk.inj (hkept .view (by decide))
  obtain ⟨hepoch, -⟩ := Prod.mk.inj (hkept .epochs (by decide))
  exact view_of_same (hkept .buf (by decide)) hepoch hbase hlen

theorem Kept.vlen_eq (hkept : Kept [.scratch] s u) : u.vlen = s.vlen := (Prod.mk.inj (hkept .view (by decide))).2

theorem Kept.viewOk (hkept : Kept [.scratch] s u) (hv : s.viewOk) : u.viewOk := by
  have hpar : u.par = s.par := hkept .par (by decide)
  obtain ⟨hbase, hlen⟩ := Prod.mk.inj (hkept .view (by decide))
  rwa [State.viewOk, hbase, hlen, hpar]

/-- A hand-off decompresses if its record is the header and the message stands in `SCRATCH` and in the view. -/
theorem handedOff_decompresses (hinv : Inv s) (hlink : s.cfg.link = .lowpan) (hkept : Kept [.scratch] s u)
    (hlog : u.log = s.log) (ho : h.o + n = s.vlen.toNat) (hrec : h.toIp6 plen = r)
    (hupper : (if u.latched.udpNhc then u.scratchRead 40 8 else []) ++ s.view.drop h.o = upper) :
    s.Decompresses r upper (u.handedOff h plen n) := by
  obtain ⟨-, hcap, -⟩ := hinv.par
  have hpar : u.par = s.par := hkept .par (by decide)
  have hcfg : u.cfg = s.cfg := hkept .cfg (by decide)
  refine ⟨by simp [State.handedOff], by rw [handedOff_header, hrec], ?_, by simp [State.handedOff, hlog]⟩
  rw [handedOff_upper (hkept.viewOk hinv.view), hkept.view_eq, hupper]
  · rwa [hpar]
  · rwa [hcfg]
  · rwa [hkept.vlen_eq]

end

/-! ## The run on a compressed packet -/

section

variable {r : Ip6Rec} {nh : BitVec 1} {upper rest : List Byte}

theorem step_iphcHead (hst : s.stage = .lowpan) (hhost : s.host = []) : step (s.lowpanParsed (iphcByte r nh)) =
    execLowpanIphc (compressTf r.tc r.fl).1 nh (compressHlim r.hlim).1 (s.lowpanParsed (iphcByte r nh)) :=
  step_of_iphc (s := s.lowpanParsed (iphcByte r nh)) hst rfl hhost rfl

/-- `LOWPAN.IPHC` reads the header back. -/
theorem iphcDecode_lowpanParsed (hview : s.view = iphcHead r nh s.llSrc s.llDst ++ rest) (d : Byte) :
    iphcDecode (compressTf r.tc r.fl).1 nh (compressHlim r.hlim).1 (s.lowpanParsed d).llSrc (s.lowpanParsed d).llDst
      (s.lowpanParsed d).view = .ok (iphcRecOf r nh s.llSrc s.llDst, rest) := by
  rw [lowpanParsed_view, hview]
  exact iphcDecode_iphcHead r nh s.llSrc s.llDst

/-- With the next header inline the stage ends in two steps. -/
theorem run_iphc_plain (hinv : Inv s) (hlink : s.cfg.link = .lowpan) (hst : s.stage = .lowpan) (hph : s.phase = .entry)
    (hhost : s.host = []) (hplen : r.plen.toNat = upper.length)
    (hview : s.view = iphcHead r 0#1 s.llSrc s.llDst ++ upper) :
    ∃ t, Host.Core.run Sys2Proof.core 2 s = .next t ∧ s.Decompresses r upper t := by
  have hparse : step s = .next (s.lowpanParsed (iphcByte r 0#1)) := step_lowpanParse hinv.view hst hph hhost hview
  have hdecode := iphcDecode_lowpanParsed hview (iphcByte r 0#1)
  have hv : (s.lowpanParsed (iphcByte r 0#1)).viewOk := hinv.view
  have hiphc := (step_iphcHead hst hhost).trans (execLowpanIphc_handsOff hv rfl hdecode)
  have hkept : Kept [.scratch] s ((s.lowpanParsed (iphcByte r 0#1)).iphcRead (iphcRecOf r 0#1 s.llSrc s.llDst)) :=
    .of_frameOf ((iphcRead_frameOf _ _).trans (lowpanParsed_frameOf _ _))
  refine ⟨_, run_two hparse hiphc, ?_⟩
  have ho : (iphcRecOf r 0#1 s.llSrc s.llDst).o + upper.length = s.vlen.toNat := by
    rw [← view_length, hview, List.length_append]
    rfl
  have hrec : (iphcRecOf r 0#1 s.llSrc s.llDst).toIp6 upper.length = r := by
    rw [← hplen, IphcRec.toIp6, BitVec.ofNat_toNat, BitVec.setWidth_eq]
    rfl
  have hdrop : s.view.drop (iphcRecOf r 0#1 s.llSrc s.llDst).o = upper := by
    rw [hview]
    exact List.drop_left' rfl
  exact handedOff_decompresses hinv hlink hkept rfl ho hrec hdrop

/-- The record of R332 once the NHC header has set the next header and the cursor. -/
theorem nhcIphc_toIp6 {u : State} {lls lld : LlAddr} {b c : Byte} {payload : List Byte}
    (hu : u.latched.iphc = (iphcRecOf r 1#1 lls lld).withTags b c) (hnh : r.nh = 17#8)
    (hplen : r.plen.toNat = 8 + payload.length) : (u.nhcIphc payload).toIp6 (8 + payload.length) = r := by
  rw [State.nhcIphc, hu, IphcRec.toIp6, ← hplen, BitVec.ofNat_toNat, BitVec.setWidth_eq, ← hnh]
  rfl

/-- `NHC.UDP` ends the decompression of a packet whose IPHC header has been read in `u`. -/
theorem execNhcUdp_decompresses {u : State} (hinv : Inv s) (hlink : s.cfg.link = .lowpan)
    (hframe : u.frameOf = s.frameOf) (hlog : u.log = s.log) {b c : Byte}
    (hu : u.latched.iphc = (iphcRecOf r 1#1 s.llSrc s.llDst).withTags b c)
    (hplen : r.plen.toNat = upper.length) (hnhc : nhcApplies r upper = true)
    (hview : s.view = iphcHead r 1#1 s.llSrc s.llDst ++ compressUdp upper) :
    ∃ t, execNhcUdp 0#1 (portsOf upper).1 u = .next t ∧ s.Decompresses r upper t := by
  obtain ⟨hnh, h8, hlen⟩ := (nhcApplies_iff r).mp hnhc
  have hpayload : 8 + (upper.drop 8).length = upper.length := by
    rw [List.length_drop]
    omega
  have hck : (slice upper 6 8).length = cksumBytes 0#1 := slice_length_of_le h8 6
  have hkept : Kept [.scratch] s u := .of_frameOf hframe
  have hdrop : u.view.drop u.latched.iphc.o = (0b11110#5 ++ 0#1 ++ (portsOf upper).1) ::
      ((portsOf upper).2 ++ slice upper 6 8 ++ upper.drop 8) := by
    rw [hkept.view_eq, hview, hu, compressUdp_eq]
    exact List.drop_left' rfl
  have hsuffix : upper.drop 8 <:+ s.view := by
    rw [← hkept.view_eq]
    refine List.IsSuffix.trans ?_ (List.drop_suffix u.latched.iphc.o u.view)
    rw [hdrop, ← List.cons_append]
    exact List.suffix_append ..
  have hcursor : (u.nhcIphc (upper.drop 8)).o = s.vlen.toNat - (upper.drop 8).length := by
    rw [State.nhcIphc, hkept.vlen_eq]
  obtain ⟨ho, hend⟩ := view_drop_of_suffix hsuffix
  rw [← hcursor] at ho hend
  refine ⟨_, execNhcUdp_handsOff (hkept.viewOk hinv.view) hdrop (compressPorts_length ..) hck, ?_⟩
  rw [udpOfInline_compressUdp h8 hlen]
  refine handedOff_decompresses hinv hlink ((hkept.trans (.scratchWrite 40 _)).framed (nhcRead_frameOf ..)) ?log ho
    (nhcIphc_toIp6 hu hnh (hplen.trans hpayload.symm)) ?upper
  case log => rw [nhcRead_log, hlog]
  case upper =>
    rw [nhcRead_udpNhc, if_pos rfl, nhcRead_udpHeader u (slice_length_of_le h8 0), hend]
    exact List.take_append_drop 8 upper

/-- With the UDP header in NHC form the stage ends in three steps. -/
theorem run_iphc_nhc (hinv : Inv s) (hlink : s.cfg.link = .lowpan) (hst : s.stage = .lowpan) (hph : s.phase = .entry)
    (hhost : s.host = []) (hplen : r.plen.toNat = upper.length) (hnhc : nhcApplies r upper = true)
    (hview : s.view = iphcHead r 1#1 s.llSrc s.llDst ++ compressUdp upper) :
    ∃ t, Host.Core.run Sys2Proof.core 3 s = .next t ∧ s.Decompresses r upper t := by
  obtain ⟨u, hu⟩ : ∃ u, u = (s.lowpanParsed (iphcByte r 1#1)).nhcAwaited (iphcRecOf r 1#1 s.llSrc s.llDst)
      (0b11110#5 ++ 0#1 ++ (portsOf upper).1) := ⟨_, rfl⟩
  have hparse : step s = .next (s.lowpanParsed (iphcByte r 1#1)) := step_lowpanParse hinv.view hst hph hhost hview
  have hv : (s.lowpanParsed (iphcByte r 1#1)).viewOk := hinv.view
  have hiphc : step (s.lowpanParsed (iphcByte r 1#1)) = .next u := by
    rw [step_iphcHead hst hhost, hu]
    rw [compressUdp_eq] at hview
    exact execLowpanIphc_nhc hv rfl (iphcDecode_lowpanParsed hview _)
  have hframe : u.frameOf = s.frameOf := by rw [hu, nhcAwaited_frameOf, lowpanParsed_frameOf]
  have hrec := congrArg (·.latched.iphc) hu
  rw [nhcAwaited_iphc] at hrec
  have hlog : u.log = s.log := by rw [hu, nhcAwaited_log, lowpanParsed_log]
  have hbyte : u.latched.iphc.nhc = 0b11110#5 ++ 0#1 ++ (portsOf upper).1 := by rw [hrec]; rfl
  obtain ⟨t, hudp, ht⟩ := execNhcUdp_decompresses hinv hlink hframe hlog hrec hplen hnhc hview
  refine ⟨t, run_three hparse hiphc ((step_of_nhcUdp ?stage ?phase ?host hbyte).trans hudp), ht⟩
  case stage => rw [hu, nhcAwaited_stage, lowpanParsed_stage, hst]
  case phase => rw [hu, nhcAwaited_phase]
  case host => rw [hu, nhcAwaited_host, lowpanParsed_host, hhost]

end

/-- Settles O40, by the form of the compressed packet: with the next header inline the stage takes two steps, with a UDP
header in NHC form three. -/
theorem decompressionInvertsCompression : Obligations.DecompressionInvertsCompression := by
  intro s r upper hinv hlink hst hph hhost hplen hview
  rcases hnhc : nhcApplies r upper with _ | _
  · rw [iphcCompress_plain hnhc] at hview
    obtain ⟨t, hrun, ht⟩ := run_iphc_plain hinv hlink hst hph hhost hplen hview
    exact ⟨2, t, by decide, hrun, ht⟩
  · rw [iphcCompress_nhc hnhc] at hview
    obtain ⟨t, hrun, ht⟩ := run_iphc_nhc hinv hlink hst hph hhost hplen hnhc hview
    exact ⟨3, t, by decide, hrun, ht⟩

end Sys2Proof.Machine
end

section
/-! SUPPORT. The host's side of a step, and the exceptions (R400, R403, R424, R434 to R436, R460, R470): what each
sample of the inputs brings about in each stage, equation by equation. -/

namespace Sys2Proof.Machine

section

variable {s t : State} {later : List HostInput}

/-! ## Reset and the exceptions -/

theorem step_reset {straps : Straps} (hhost : s.host = .reset straps :: later) :
    step s = .next (s.hardReset straps later) := by
  unfold step turn
  rw [hhost]

/-- The trap entry of R424, with every byte of the frame forgotten. -/
theorem drop_eq (s : State) (st : Stage) (c : Cause) : s.drop st c = .next { s with
    outcome := .dropped, cause := c, cstage := st
    log := s.log ++ [.drop st c]
    txlen := 0#16
    stage := .idle, phase := .entry
    latched := Records.empty, mem := [], epoch := s.epoch + 1 } := by
  have hmem : (s.raiseDrop st c).mem = [] := filter_below_zero s.mem
  rw [← hmem]
  rfl

/-! ## The host's requests -/

theorem execRxAccept_accepts {len : Half} (h : s.stage = .idle ∧ len.toNat ≤ s.par.bufCap) :
    execRxAccept len s = .next { s with
      rxlen := len, txlen := 0#16, vbase := 0#16, vlen := len
      stage := if s.cfg.link = .eth then .eth else .mac154
      phase := .entry } := by
  unfold execRxAccept
  rw [if_pos h]
  cases s.cfg.link <;> rfl

theorem execRxAccept_refused {len : Half} (h : ¬ (s.stage = .idle ∧ len.toNat ≤ s.par.bufCap)) :
    execRxAccept len s = .next s := if_neg h

theorem execTxTake_takes (h : s.stage = .txPending) : execTxTake s = .next s.toIdle := if_pos h

theorem execTxTake_refused (h : s.stage ≠ .txPending) : execTxTake s = .next s := if_neg h

/-! ## A sample of the inputs -/

theorem step_of_waits (hr : stageRuns s.stage = false) (hreset : s.resetNext = false) : step s = hostTurn s := by
  unfold step turn
  split
  next straps later heq => simp [State.resetNext, heq] at hreset
  next => rw [if_neg (by simp [hr])]

theorem step_lines {fault take : Bool} {rx : Option Half} (hr : stageRuns s.stage = false)
    (hhost : s.host = .lines fault rx take :: later) : step s = linesTurn fault rx take { s with host := later } := by
  rw [step_of_waits hr (by simp [State.resetNext, hhost]), hostTurn, hhost]

theorem step_bufWrite {addr : Half} {data : Byte} (hr : stageRuns s.stage = false)
    (hhost : s.host = .bufWrite addr data :: later) : step s = { s with host := later }.hostWrite addr data := by
  rw [step_of_waits hr (by simp [State.resetNext, hhost]), hostTurn, hhost]

/-- The request of a sample: none, or one of the two host operations on its own (log 10). -/
theorem linesTurn_cases (fault take : Bool) (rx : Option Half) (s : State) :
    (fault = true ∧ linkFaultSeen s.stage = true ∧ linesTurn fault rx take s = .next s.raiseFatal) ∨
    linesTurn fault rx take s = .next s ∨ linesTurn fault rx take s = execTxTake s ∨
    ∃ len, linesTurn fault rx take s = execRxAccept len s := by
  unfold linesTurn
  split
  next hf => exact .inl ⟨hf.1, hf.2, rfl⟩
  next =>
    split
    next => exact .inr (.inl rfl)
    next sel hsel =>
      rcases hostSelector_cases hsel with rfl | ⟨len, rfl⟩
      · exact .inr (.inr (.inl rfl))
      · exact .inr (.inr (.inr ⟨len, rfl⟩))

/-! ## The halting stages -/

theorem stageRuns_halted (hst : s.stage = .haltFatal ∨ s.stage = .haltAbort) : stageRuns s.stage = false := by
  rcases hst with hst | hst <;> rw [hst] <;> rfl

/-- A halted block meets no request's precondition, and `link_fault` is not examined. -/
theorem halted_unseen (hst : s.stage = .haltFatal ∨ s.stage = .haltAbort) :
    s.stage ≠ .idle ∧ s.stage ≠ .txPending ∧ linkFaultSeen s.stage = false := by
  rcases hst with hst | hst <;> rw [hst] <;> exact ⟨by simp, by simp, rfl⟩

/-- No sample moves a halted block: each look at the ports only uses its sample up (R434, R441). -/
theorem hostMove_halted (hst : s.stage = .haltFatal ∨ s.stage = .haltAbort) (hm : HostMove s t) :
    t = { s with host := t.host } := by
  obtain ⟨hidle, hpending, hunseen⟩ := halted_unseen hst
  cases hm with
  | waits | looks => rfl
  | writes later addr data hi => exact absurd hi hidle
  | faults later hseen => simp [hunseen] at hseen
  | accepts later len h =>
    cases (execRxAccept_refused (s := { s with host := later }) fun hc => hidle hc.1).symm.trans h
    rfl
  | takes later h =>
    cases (execTxTake_refused (s := { s with host := later }) hpending).symm.trans h
    rfl

theorem linesTurn_halted (hst : s.stage = .haltFatal ∨ s.stage = .haltAbort) (fault take : Bool) (rx : Option Half) :
    linesTurn fault rx take s = .next s := by
  obtain ⟨hidle, hpending, hunseen⟩ := halted_unseen hst
  rcases linesTurn_cases fault take rx s with ⟨-, hseen, -⟩ | h | h | ⟨len, h⟩
  · simp [hunseen] at hseen
  · exact h
  · exact h.trans (execTxTake_refused hpending)
  · exact h.trans (execRxAccept_refused fun hc => hidle hc.1)

/-! ## The host's accesses to the buffer -/

theorem hostWrite_refused {addr : Half} {data : Byte} (h : s.stage ≠ .idle) :
    s.hostWrite addr data = .refused .hostWriteWindow := if_pos h

theorem hostWrite_stores {addr : Half} {data : Byte} (hst : s.stage = .idle) (ha : addr.toNat < s.par.bufCap) :
    s.hostWrite addr data = .next { s with mem := memWrite addr.toNat data s.mem } := by
  rw [State.hostWrite, if_neg (not_not.mpr hst), if_pos ha]

theorem hostWrite_faults {addr : Half} {data : Byte} (hst : s.stage = .idle) (ha : s.par.bufCap ≤ addr.toNat) :
    s.hostWrite addr data = .fault .noSuchAddress := by
  rw [State.hostWrite, if_neg (not_not.mpr hst), if_neg (by omega)]

theorem readBuf_memWrite_self (s : State) (a : Nat) (b : Byte) :
    ({ s with mem := memWrite a b s.mem } : State).readBuf a = b := by
  rw [State.readBuf, memFind_memWrite_self, Option.getD_some]

theorem readBuf_memWrite_ne (s : State) {a x : Nat} (h : x ≠ a) (b : Byte) :
    ({ s with mem := memWrite a b s.mem } : State).readBuf x = s.readBuf x := by
  rw [State.readBuf, memFind_memWrite_ne h, State.readBuf]

/-- The block waits for the host, or is halted, in the four stages of the read window (R470). -/
theorem stageRuns_iff (st : Stage) :
    stageRuns st = false ↔ st = .idle ∨ st = .txPending ∨ st = .haltFatal ∨ st = .haltAbort := by
  cases st <;> simp [stageRuns]

theorem bufRdata_reads {a : Half} (hr : stageRuns s.stage = false) (ha : a.toNat < s.par.bufCap) :
    s.bufRdata a = some (s.readBuf a.toNat) := by
  rw [State.bufRdata, if_neg (by simp [hr]; omega)]

end

/-! ## The statements -/

/-- Settles O8: the head of the samples is looked at before the stage. -/
theorem resetOverridesEverything : Obligations.ResetOverridesEverything := fun _ _ _ hhost => step_reset hhost

/-- Settles O12. -/
theorem dropIsTheTrapEntry : Obligations.DropIsTheTrapEntry := drop_eq

/-- Settles O9: each request tests its own precondition. -/
theorem hostRequestsMoveTheFrame : Obligations.HostRequestsMoveTheFrame :=
  ⟨fun _ => ⟨execTxTake_takes, execTxTake_refused⟩, fun _ _ => ⟨execRxAccept_accepts, execRxAccept_refused⟩⟩

/-- Settles O13: the abort names the registers it writes, and the halting stage meets neither request's precondition. -/
theorem abortHaltsAndKeepsTheStatus : Obligations.AbortHaltsAndKeepsTheStatus := by
  refine ⟨fun s => ⟨rfl, rfl, rfl, rfl, rfl, rfl, rfl, rfl, rfl, rfl, rfl, rfl, rfl, rfl, rfl⟩,
    fun s len hst => ⟨?_, ?_⟩⟩
  · exact execRxAccept_refused (by simp [hst])
  · exact execTxTake_refused (by simp [hst])

/-- Settles O5: the fetch of a run decodes the tag; a sample with one request runs that request. -/
theorem stepRunsTheDecodedOperation : Obligations.StepRunsTheDecodedOperation := by
  refine ⟨fun s i hr hreset hi => step_of_runs hr hreset hi, fun s len later hr hhost => ?_, fun s later hr hhost => ?_⟩
  · rw [step_lines hr hhost, linesTurn, if_neg (by simp), hostSelector]
    · rfl
    · simp
  · rw [step_lines hr hhost, linesTurn, if_neg (by simp), hostSelector]
    rfl

/-- Settles O11: the stage decides whether the access is taken, the capacity whether the address exists. -/
theorem hostWritesTheBufferInIdle : Obligations.HostWritesTheBufferInIdle := by
  refine ⟨fun s a => ⟨fun hst ha => bufRdata_reads ((stageRuns_iff _).mpr hst) ha, fun hi ht hf hh => ?_, fun ha => ?_⟩,
    fun s a b later hhost => ⟨fun hst ha => ?_, fun hst ha => ?_, fun hst hr => ?_⟩⟩
  · have hr : stageRuns s.stage = true := by
      by_contra hr
      have hstage := (stageRuns_iff s.stage).mp (by simpa using hr)
      simp [hi, ht, hf, hh] at hstage
    exact if_pos (.inl hr)
  · exact if_pos (.inr ha)
  · refine ⟨memWrite a.toNat b s.mem, ?_, readBuf_memWrite_self s _ b, fun x hx => readBuf_memWrite_ne s hx b⟩
    rw [step_bufWrite (by rw [hst]; rfl) hhost]
    exact hostWrite_stores (s := { s with host := later }) hst ha
  · rw [step_bufWrite (by rw [hst]; rfl) hhost]
    exact hostWrite_faults (s := { s with host := later }) hst ha
  · rw [step_bufWrite hr hhost]
    exact hostWrite_refused (s := { s with host := later }) hst

end Sys2Proof.Machine
end

section
/-! SUPPORT. What an operation of a run does in its place (R401, R405, R412, R422, R446): it always answers a next
state, and goes on nearer to the run's end, drops the frame in its own stage, or sends the response. -/

namespace Sys2Proof.Machine

-- One elaboration thread: the case splits over all operations take much memory when they run side by side.
set_option Elab.async false

/-! ## The causes a parser names (R422) -/

/-- A parser that fails names a cause that the matrix allows in the stage `st`. -/
def Raises {α : Type} (st : Stage) (e : Except Cause α) : Prop := ∀ c, e = .error c → dropAllowed st c

section

variable {α β : Type} {st : Stage}

theorem raises_error {c : Cause} (h : dropAllowed st c) : Raises (α := α) st (.error c) := fun _ hc => by
  cases hc
  exact h

theorem raises_ok {a : α} : Raises st (.ok a) := fun _ hc => nomatch hc

theorem raises_bind {e : Except Cause α} {f : α → Except Cause β} (he : Raises st e) (hf : ∀ a, Raises st (f a)) :
    Raises st (e >>= f) := by
  cases e with
  | error c => exact raises_error (he c rfl)
  | ok a => exact hf a

theorem raises_ite {c : Prop} [Decidable c] {a b : Except Cause α} (ha : Raises st a) (hb : Raises st b) :
    Raises st (if c then a else b) := by
  split
  · exact ha
  · exact hb

end

theorem takeN_raises (n : Nat) (rest : List Byte) : Raises .lowpan (takeN n rest) :=
  raises_ite (raises_error rfl) raises_ok

/-- A parser that takes bytes once and then cannot fail. -/
theorem take_then_raises {α : Type} {n : Nat} {rest : List Byte} {f : List Byte × List Byte → α} :
    Raises .lowpan (takeN n rest >>= fun x => .ok (f x)) := raises_bind (takeN_raises n rest) fun _ => raises_ok

theorem iphcTf_raises (tf : BitVec 2) (rest : List Byte) : Raises .lowpan (iphcTf tf rest) :=
  raises_ite take_then_raises <| raises_ite take_then_raises <| raises_ite take_then_raises raises_ok

theorem iphcNh_raises (nh : BitVec 1) (rest : List Byte) : Raises .lowpan (iphcNh nh rest) :=
  raises_ite take_then_raises raises_ok

theorem iphcHlim_raises (hlim : BitVec 2) (rest : List Byte) : Raises .lowpan (iphcHlim hlim rest) :=
  raises_ite take_then_raises <| raises_ite raises_ok <| raises_ite raises_ok raises_ok

theorem iphcUnicast_raises (mode : BitVec 2) (ll : LlAddr) (rest : List Byte) :
    Raises .lowpan (iphcUnicast mode ll rest) :=
  raises_ite (takeN_raises _ _) <| raises_ite take_then_raises <| raises_ite take_then_raises raises_ok

theorem iphcSrc_raises (sac : BitVec 1) (sam : BitVec 2) (ll : LlAddr) (rest : List Byte) :
    Raises .lowpan (iphcSrc sac sam ll rest) := raises_ite raises_ok (iphcUnicast_raises sam ll rest)

theorem iphcDst_raises (m : BitVec 1) (dam : BitVec 2) (ll : LlAddr) (rest : List Byte) :
    Raises .lowpan (iphcDst m dam ll rest) :=
  raises_ite (iphcUnicast_raises dam ll rest) <| raises_ite (takeN_raises _ _) <|
    raises_ite take_then_raises <| raises_ite take_then_raises take_then_raises

theorem iphcDecode_raises (tf : BitVec 2) (nh : BitVec 1) (hlim : BitVec 2) (llSrc llDst : LlAddr) (v : List Byte) :
    Raises .lowpan (iphcDecode tf nh hlim llSrc llDst v) := by
  refine raises_bind (takeN_raises 1 v) fun _ => raises_bind (takeN_raises 1 _) fun _ => ?_
  refine raises_ite (raises_error rfl) ?_
  refine raises_bind (iphcTf_raises tf _) fun _ => raises_bind (iphcNh_raises nh _) fun _ => ?_
  refine raises_bind (iphcHlim_raises hlim _) fun _ => raises_bind (iphcSrc_raises _ _ llSrc _) fun _ => ?_
  exact raises_bind (iphcDst_raises _ _ llDst _) fun _ => raises_ok

theorem nhcPorts_raises (p : BitVec 2) (rest : List Byte) : Raises .lowpan (nhcPorts p rest) :=
  raises_ite take_then_raises <| raises_ite take_then_raises <| raises_ite take_then_raises take_then_raises

theorem nhcCksum_raises (c : BitVec 1) (rest : List Byte) : Raises .lowpan (nhcCksum c rest) :=
  raises_ite take_then_raises raises_ok

theorem nhcDecode_raises (c : BitVec 1) (p : BitVec 2) (rest : List Byte) : Raises .lowpan (nhcDecode c p rest) :=
  raises_bind (takeN_raises 1 rest) fun _ => raises_bind (nhcPorts_raises p _) fun _ =>
    raises_bind (nhcCksum_raises c _) fun _ => raises_ok

theorem arpValid_raises (a : ArpRec) : Raises .arp (arpValid a) :=
  raises_ite (raises_error rfl) <| raises_ite (raises_error rfl) <| raises_ite (raises_error rfl) <|
    raises_ite (raises_error rfl) raises_ok

theorem coapHeader_raises (m : List Byte) : Raises .coap (coapHeader m) :=
  raises_ite (raises_error rfl) <| raises_ite (raises_error rfl) <| raises_ite (raises_error rfl) <|
    raises_ite (raises_error rfl) raises_ok

theorem coapExtend_raises (nibble : BitVec 4) (rest : List Byte) : Raises .coap (coapExtend nibble rest) := by
  unfold coapExtend
  refine raises_ite ?_ (raises_ite ?_ raises_ok)
  all_goals
    split
    · exact raises_ok
    · exact raises_error rfl

theorem coapOptions_raises (fuel num : Nat) (rest : List Byte) : Raises .coap (coapOptions fuel num rest) := by
  induction fuel generalizing num rest with
  | zero => exact raises_ok
  | succ fuel ih =>
    cases rest with
    | nil => exact raises_ok
    | cons b rest =>
      unfold coapOptions
      refine raises_ite (raises_ite (raises_error rfl) raises_ok) (raises_ite (raises_error rfl) ?_)
      split
      next c hd => exact raises_error (coapExtend_raises _ _ c hd)
      split
      next c hl => exact raises_error (coapExtend_raises _ _ c hl)
      refine raises_ite (raises_error rfl) ?_
      split
      next c ho => exact raises_error (ih _ _ c ho)
      exact raises_ok

/-! ## Answering a next state -/

/-- The operation answers a next state, and one that meets `P`: it neither faults nor is refused. -/
def Does (o : Out) (P : State → Prop) : Prop := ∃ t, o = .next t ∧ P t

section

variable {s : State} {P : State → Prop}

theorem does_next {t : State} (h : P t) : Does (.next t) P := ⟨t, rfl, h⟩

theorem does_ite {c : Prop} [Decidable c] {a b : Out} (ha : c → Does a P) (hb : ¬ c → Does b P) :
    Does (if c then a else b) P := by
  split
  · exact ha ‹_›
  · exact hb ‹_›

theorem does_get {off n : Nat} {k : List Byte → Out} (hv : s.viewOk) (h : off + n ≤ s.vlen.toNat)
    (hk : ∀ bs, Does (k bs) P) : Does (s.get off n k) P := by
  rw [get_ok hv h]
  exact hk _

theorem does_narrow {off len : Nat} {k : State → Out} (h : off + len ≤ s.vlen.toNat)
    (hk : Does (k (s.narrowed off len)) P) : Does (s.narrow off len k) P := by
  rw [narrow_ok h]
  exact hk

theorem does_getView {k : List Byte → Out} (hv : s.viewOk) (hk : Does (k s.view) P) : Does (s.getView k) P := by
  rw [getView_ok hv]
  exact hk

theorem does_getUpper {k : List Byte → Out} (hv : s.viewOk) (hk : Does (k s.upper) P) : Does (s.getUpper k) P := by
  rw [getUpper_ok hv]
  exact hk

end

/-! ## How an operation of a run ends -/

/-- From `s` to `u` no event was emitted that ends a run (R446). -/
def Quiet (s u : State) : Prop := ∃ evs, u.log = s.log ++ evs ∧ ∀ e ∈ evs, e.ends = false

/-- A place of a run that a stage and phase lead to: the transition is tabulated (R405), and the run's end is nearer
(R412). -/
abbrev Nearer (st : Stage) (ph : Phase) (st' : Stage) (ph' : Phase) : Prop :=
  stageRuns st' ∧ runRank st' ph' < runRank st ph ∧ (st' = st ∨ legalMove st st')

/-- How an operation of a run leaves the state `s` it runs in. -/
inductive RunMove (s : State) : State → Prop
  | goesOn {t : State} (hlog : Quiet s t) (hnear : Nearer s.stage s.phase t.stage t.phase) : RunMove s t
  | drops {u : State} (hlog : Quiet s u) {c : Cause} (hc : dropAllowed s.stage c) : RunMove s (u.raiseDrop s.stage c)
  | sends {u : State} (hst : s.stage = .build) (hlog : u.log = s.log) : RunMove s (u.finishSent s.latched.hstage)

section

variable {s u t : State}

theorem Quiet.of_log_eq (h : u.log = s.log) : Quiet s u := ⟨[], by simp [h], by simp⟩

theorem Quiet.refl : Quiet s s := .of_log_eq rfl

theorem Quiet.trans (h : Quiet s u) (h' : Quiet u t) : Quiet s t := by
  obtain ⟨evs, hlog, hevs⟩ := h
  obtain ⟨evs', hlog', hevs'⟩ := h'
  refine ⟨evs ++ evs', by rw [hlog', hlog, List.append_assoc], fun e he => ?_⟩
  exact (List.mem_append.mp he).elim (hevs e) (hevs' e)

/-- One event on the way, and it ends no run. -/
theorem Quiet.of_log_emit {ev : Event} (h : u.log = s.log ++ [ev]) (hev : ev.ends = false) : Quiet s u :=
  ⟨[ev], h, by simpa using hev⟩

theorem run_drop {st : Stage} {c : Cause} (hst : s.stage = st) (hlog : Quiet s u) (hc : dropAllowed st c) :
    Does (u.drop st c) (RunMove s) := by
  subst hst
  exact does_next (.drops hlog hc)

theorem run_goto {st st' : Stage} {ph : Phase} (hst : s.stage = st) (hph : s.phase = ph) (hlog : Quiet s u)
    (hnear : Nearer st ph st' .entry) : Does (.next (u.goto st')) (RunMove s) := by
  subst hst hph
  exact does_next (.goesOn hlog hnear)

/-- The stage's entry is done, its tag comes next. -/
theorem run_dispatch {st : Stage} (hst : s.stage = st) (hph : s.phase = .entry) (hlog : Quiet s u)
    (hstays : u.stage = s.stage) (hnear : Nearer st .entry st .dispatch) :
    Does (.next u.toDispatch) (RunMove s) := by
  subst hst
  refine does_next (.goesOn hlog ?_)
  rw [State.toDispatch_stage, State.toDispatch_phase, hstays, hph]
  exact hnear

/-- A handler answers, and `BUILD` comes next (R402). -/
theorem run_respond {st : Stage} {r : Resp} (hst : s.stage = st) (hph : s.phase = .dispatch) (hlog : Quiet s u)
    (hnear : Nearer st .dispatch .build .entry) : Does (.next (u.respond st r)) (RunMove s) :=
  run_goto hst hph hlog hnear

/-! ## The link layer -/

theorem execEthParse_moves (h : Inv s) (hst : s.stage = .eth) (hph : s.phase = .entry) :
    Does (execEthParse s) (RunMove s) := by
  refine does_ite (fun _ => run_drop hst .refl rfl) fun hlen => does_get h.view (by omega) fun _ => ?_
  refine does_get h.view (by omega) fun _ => does_get h.view (by omega) fun _ => ?_
  exact run_dispatch hst hph (.of_log_eq rfl) rfl (by decide)

theorem ethHandOver_moves (h : Inv s) (hst : s.stage = .eth) (hph : s.phase = .dispatch) {st : Stage}
    (hnext : st ∈ [Stage.arp, .ipv4, .ipv6]) : Does (ethHandOver st s) (RunMove s) := by
  have hlen : 14 ≤ s.vlen.toNat := h.ethHeader hst hph
  have hnear : ∀ st ∈ [Stage.arp, .ipv4, .ipv6], Nearer .eth .dispatch st .entry := by decide
  refine does_narrow ?_ (run_goto hst hph (.of_log_emit rfl rfl) (hnear st hnext))
  rw [State.emit_vlen]
  omega

theorem execMac154Parse_moves (h : Inv s) (hst : s.stage = .mac154) (hph : s.phase = .entry) :
    Does (execMac154Parse s) (RunMove s) := by
  refine does_ite (fun _ => run_drop hst .refl rfl) fun hlen => does_get h.view (by omega) fun _ => ?_
  exact does_get h.view (by omega) fun _ => run_dispatch hst hph (.of_log_eq rfl) rfl (by decide)

theorem getSrcPan_does {P : State → Prop} (hv : s.viewOk) {f dstPan : Half} {k : Half → Out}
    (hlen : macHeaderLen f ≤ s.vlen.toNat) (hk : ∀ p, Does (k p) P) : Does (s.getSrcPan f dstPan k) P := by
  refine does_ite (fun hc => does_get hv ?_ fun _ => hk _) fun _ => hk _
  simp only [macHeaderLen, hc] at hlen
  simp at hlen
  omega

theorem execMac154Data_moves (h : Inv s) (hst : s.stage = .mac154) (hph : s.phase = .dispatch) :
    Does (execMac154Data s) (RunMove s) := by
  have drop {c : Cause} (hc : dropAllowed .mac154 c) : Does (s.drop .mac154 c) (RunMove s) := run_drop hst .refl hc
  refine does_ite (fun _ => drop rfl) fun _ => does_ite (fun _ => drop rfl) fun _ => ?_
  refine does_ite (fun _ => drop rfl) fun _ => does_ite (fun _ => drop rfl) fun _ => does_ite (fun _ => drop rfl) ?_
  intro hlen
  have hhl : macHeaderLen s.latched.mac.fcf ≤ s.vlen.toNat := Nat.le_of_not_lt hlen
  have hparts : 5 + addrLen (fcfDstMode s.latched.mac.fcf) + addrLen (fcfSrcMode s.latched.mac.fcf)
      ≤ macHeaderLen s.latched.mac.fcf := by unfold macHeaderLen; omega
  refine does_get h.view (by omega) fun _ => does_get h.view (by omega) fun _ => ?_
  refine getSrcPan_does h.view hhl fun _ => does_get h.view (by omega) fun _ => ?_
  refine does_narrow ?_ (run_goto hst hph (.of_log_emit rfl rfl) (by decide))
  simp only [State.emit_vlen]
  omega

/-! ## 6LoWPAN -/

theorem execLowpanParse_moves (h : Inv s) (hst : s.stage = .lowpan) (hph : s.phase = .entry) :
    Does (execLowpanParse s) (RunMove s) := by
  refine does_ite (fun _ => run_drop hst .refl rfl) fun hlen => does_get h.view (by omega) fun _ => ?_
  exact run_dispatch hst hph (.of_log_eq rfl) rfl (by decide)

/-- The hand-off from either place of the stage (R312, R320). -/
theorem lowpanHandOff_moves (hst : s.stage = .lowpan) (hph : s.phase = .dispatch ∨ s.phase = .nhc)
    (hlog : u.log = s.log) {r : IphcRec} (ho : r.o ≤ u.vlen.toNat) (plen : Nat) :
    Does (lowpanHandOff r plen u) (RunMove s) := by
  have hn : r.o + (u.vlen.toNat - r.o) = u.vlen.toNat := by omega
  have hquiet : Quiet s (u.handedOff r plen (u.vlen.toNat - r.o)) :=
    .of_log_emit (ev := .valid .lowpan) (by simp [State.handedOff, hlog]) rfl
  have hnear : Nearer s.stage s.phase .ipv6 .entry := by rcases hph with hph | hph <;> rw [hst, hph] <;> decide
  rw [lowpanHandOff_eq hn]
  exact does_next (.goesOn hquiet hnear)

/-- The NHC byte is the next tag (log 19). -/
theorem run_nhc (hst : s.stage = .lowpan) (hph : s.phase = .dispatch) (hlog : u.log = s.log)
    (hstays : u.stage = s.stage) (hnhc : u.phase = .nhc) : Does (.next u) (RunMove s) := by
  refine does_next (.goesOn (.of_log_eq hlog) ?_)
  rw [hstays, hnhc, hst, hph]
  decide

theorem execLowpanIphc_moves (h : Inv s) (hst : s.stage = .lowpan) (hph : s.phase = .dispatch) (tf : BitVec 2)
    (nh : BitVec 1) (hlim : BitVec 2) : Does (execLowpanIphc tf nh hlim s) (RunMove s) := by
  refine does_getView h.view ?_
  split
  next c hc => exact run_drop hst (.of_log_eq rfl) (iphcDecode_raises _ _ _ _ _ _ c hc)
  next r rest hr =>
    have ho : r.o ≤ s.vlen.toNat := by simpa using (iphcDecode_yields ..).2 _ hr
    refine does_ite (fun _ => ?_) fun _ => ?_
    · split
      next => exact run_drop hst (.of_log_eq rfl) rfl
      next c _ => exact run_nhc hst hph rfl rfl rfl
    · refine lowpanHandOff_moves hst (.inl hph) ?_ ?_ _
      · rfl
      · exact ho

theorem execNhcUdp_moves (h : Inv s) (hst : s.stage = .lowpan) (hph : s.phase = .nhc) (c : BitVec 1) (p : BitVec 2) :
    Does (execNhcUdp c p s) (RunMove s) := by
  refine does_getView h.view ?_
  split
  next e he => exact run_drop hst .refl (nhcDecode_raises _ _ _ e he)
  next sport dport ck payload _ =>
    have ho : s.view.length - payload.length ≤ s.vlen.toNat := by
      rw [view_length]
      exact Nat.sub_le _ _
    refine lowpanHandOff_moves hst (.inr hph) ?_ ho _
    rfl

theorem execNhcOther_moves (h : Inv s) (hst : s.stage = .lowpan) (c : Byte) : Does (execNhcOther c s) (RunMove s) := by
  refine does_getView h.view ?_
  split
  next e he => exact run_drop hst .refl (takeN_raises _ _ e he)
  next => exact run_drop hst .refl rfl

/-! ## ARP -/

theorem execArpParse_moves (h : Inv s) (hst : s.stage = .arp) (hph : s.phase = .entry) :
    Does (execArpParse s) (RunMove s) := by
  refine does_ite (fun _ => run_drop hst .refl rfl) fun hlen => ?_
  iterate 9 refine does_get h.view (by omega) fun _ => ?_
  dsimp only
  split
  next c hc => exact run_drop hst .refl (arpValid_raises _ c hc)
  next => exact run_dispatch hst hph (.of_log_eq rfl) rfl (by decide)

theorem arpLearn_quiet (s : State) : Quiet s s.arpLearn := .of_log_emit (ev := .cache .arp) rfl rfl

theorem execArpRequest_moves (hst : s.stage = .arp) (hph : s.phase = .dispatch) :
    Does (execArpRequest s) (RunMove s) := by
  refine does_ite (fun _ => run_drop hst (arpLearn_quiet s) rfl) fun _ => run_respond hst hph ?_ (by decide)
  exact (arpLearn_quiet s).trans (.of_log_emit (ev := .valid .arp) rfl rfl)

/-! ## IPv4 -/

theorem execIp4Parse_moves (h : Inv s) (hst : s.stage = .ipv4) (hph : s.phase = .entry) :
    Does (execIp4Parse s) (RunMove s) := by
  have drop {c : Cause} (hc : dropAllowed .ipv4 c) : Does (s.drop .ipv4 c) (RunMove s) := run_drop hst .refl hc
  refine does_ite (fun _ => drop rfl) fun hlen => does_get h.view (by omega) fun _ => ?_
  refine does_ite (fun _ => drop rfl) fun _ => does_ite (fun _ => drop rfl) fun _ => ?_
  refine does_ite (fun _ => drop rfl) fun hhl => does_get h.view (by omega) fun _ => ?_
  refine does_ite (fun _ => drop rfl) fun _ => does_ite (fun _ => drop rfl) fun _ => ?_
  refine does_get h.view (by omega) fun _ => does_ite (fun _ => drop rfl) fun _ => ?_
  refine does_get h.view (by omega) fun _ => does_get h.view (by omega) fun _ => does_get h.view (by omega) fun _ => ?_
  exact does_ite (fun _ => drop rfl) fun _ => run_dispatch hst hph (.of_log_eq rfl) rfl (by decide)

/-- The header and the packet lie inside the view, so the hand-over never drops (R211, R422). -/
theorem ip4HandOver_moves (h : Inv s) (hst : s.stage = .ipv4) (hph : s.phase = .dispatch) {u : State}
    (hvlen : u.vlen = s.vlen) (hlog : u.log = s.log) (hip4 : u.latched.ip4 = s.latched.ip4) {st : Stage}
    (hnear : Nearer .ipv4 .dispatch st .entry) : Does (ip4HandOver st u) (RunMove s) := by
  obtain ⟨-, hhl, htotal⟩ := h.ip4Header hst hph
  unfold ip4HandOver
  refine does_narrow ?_ (run_goto hst hph ?_ hnear)
  · rw [State.emit_vlen, hvlen, hip4]
    omega
  · exact .of_log_emit (ev := .valid .ipv4) (congrArg (· ++ _) hlog) rfl

/-! ## IPv6 -/

theorem nbrLearn_quiet (u : State) : Quiet u u.nbrLearn := .of_log_emit (ev := .cache .ipv6) rfl rfl

theorem execIp6Parse_moves (h : Inv s) (hst : s.stage = .ipv6) (hph : s.phase = .entry) :
    Does (execIp6Parse s) (RunMove s) := by
  have learns (u : State) (hlog : u.log = s.log) (hstays : u.stage = s.stage) :
      Does (.next u.nbrLearn.toDispatch) (RunMove s) :=
    run_dispatch hst hph ((Quiet.of_log_eq hlog).trans (nbrLearn_quiet u)) hstays (by decide)
  unfold execIp6Parse
  split
  · refine does_ite (fun _ => run_drop hst .refl rfl) fun hlen => does_get h.view (by omega) fun header => ?_
    refine does_ite (fun _ => run_drop hst .refl rfl) fun _ => ?_
    refine does_ite (fun _ => run_drop hst .refl rfl) fun hplen => ?_
    exact does_narrow (by omega) (learns _ rfl rfl)
  · exact learns _ rfl rfl

theorem execIp6Udp_moves (hst : s.stage = .ipv6) (hph : s.phase = .dispatch) : Does (execIp6Udp s) (RunMove s) :=
  does_ite (fun _ => run_drop hst .refl rfl) fun _ =>
    run_goto hst hph (.of_log_emit (ev := .valid .ipv6) rfl rfl) (by decide)

/-! ## ICMP -/

theorem execIcmp4Parse_moves (h : Inv s) (hst : s.stage = .icmp4) (hph : s.phase = .entry) :
    Does (execIcmp4Parse s) (RunMove s) :=
  does_getView h.view <| does_ite (fun _ => run_drop hst .refl rfl) fun _ =>
    run_dispatch hst hph (.of_log_eq rfl) rfl (by decide)

theorem execIcmp4Echo_moves (h : Inv s) (hst : s.stage = .icmp4) (hph : s.phase = .dispatch) :
    Does (execIcmp4Echo s) (RunMove s) := by
  refine does_getView h.view <| does_ite (fun _ => run_drop hst .refl rfl) fun _ => ?_
  exact does_ite (fun _ => run_drop hst .refl rfl) fun _ =>
    run_respond hst hph (.of_log_emit (ev := .valid .icmp4) rfl rfl) (by decide)

theorem execIcmp6Parse_moves (h : Inv s) (hst : s.stage = .icmp6) (hph : s.phase = .entry) :
    Does (execIcmp6Parse s) (RunMove s) :=
  does_getUpper h.view <| does_ite (fun _ => run_drop hst .refl rfl) fun _ =>
    run_dispatch hst hph (.of_log_eq rfl) rfl (by decide)

theorem execIcmp6Echo_moves (h : Inv s) (hst : s.stage = .icmp6) (hph : s.phase = .dispatch) :
    Does (execIcmp6Echo s) (RunMove s) := by
  refine does_getUpper h.view <| does_ite (fun _ => run_drop hst .refl rfl) fun _ => ?_
  refine does_ite (fun _ => run_drop hst .refl rfl) fun _ => does_ite (fun _ => run_drop hst .refl rfl) fun _ => ?_
  exact run_respond hst hph (.of_log_emit (ev := .valid .icmp6) rfl rfl) (by decide)

theorem execIcmp6Ns_moves (h : Inv s) (hst : s.stage = .icmp6) (hph : s.phase = .dispatch) :
    Does (execIcmp6Ns s) (RunMove s) := by
  refine does_getUpper h.view <| does_ite (fun _ => run_drop hst .refl rfl) fun _ => ?_
  refine does_ite (fun _ => run_drop hst .refl rfl) fun _ => does_ite (fun _ => run_drop hst .refl rfl) fun _ => ?_
  refine does_ite (fun _ => run_drop hst .refl rfl) fun _ => ?_
  exact run_respond hst hph (.of_log_emit (ev := .valid .icmp6) rfl rfl) (by decide)

/-! ## UDP and CoAP -/

theorem execUdpParse_moves (h : Inv s) (hst : s.stage = .udp) (hph : s.phase = .entry) :
    Does (execUdpParse s) (RunMove s) := by
  refine does_getUpper h.view <| does_ite (fun _ => run_drop hst .refl rfl) fun _ => ?_
  refine does_ite (fun _ => run_drop hst .refl rfl) fun _ => does_ite (fun _ => run_drop hst .refl rfl) fun _ => ?_
  exact does_ite (fun _ => run_drop hst .refl rfl) fun _ => run_dispatch hst hph (.of_log_eq rfl) rfl (by decide)

theorem execCoapParse_moves (hst : s.stage = .coap) (hph : s.phase = .entry) : Does (execCoapParse s) (RunMove s) := by
  unfold execCoapParse
  dsimp only
  split
  next c hc => exact run_drop hst .refl (coapHeader_raises _ c hc)
  next =>
    refine does_ite (fun _ => ?_) fun _ => run_dispatch hst hph (.of_log_eq rfl) rfl (by decide)
    split
    next c hc => exact run_drop hst .refl (coapOptions_raises _ _ _ c hc)
    next => exact run_dispatch hst hph (.of_log_eq rfl) rfl (by decide)

theorem coapRespond_moves (hst : s.stage = .coap) (hph : s.phase = .dispatch) (hlog : u.log = s.log) (rcode : Byte)
    (body : List Byte) : Does (coapRespond rcode body u) (RunMove s) :=
  run_respond hst hph (.of_log_emit (ev := .valid .coap) (congrArg (· ++ _) hlog) rfl) (by decide)

theorem execCoapPutLed_moves (hst : s.stage = .coap) (hph : s.phase = .dispatch) :
    Does (execCoapPutLed s) (RunMove s) := by
  unfold execCoapPutLed
  split
  · refine coapRespond_moves hst hph ?_ _ _
    rfl
  · exact coapRespond_moves hst hph rfl _ _

/-! ## BUILD -/

theorem execBuild_moves (h : Inv s) (hst : s.stage = .build) : Does (execBuild s) (RunMove s) := by
  obtain ⟨frame, hframe⟩ := h.frame_isSome hst
  rw [execBuild_of_frame h.par.2.1 hframe]
  exact does_ite (fun _ => run_drop hst .refl rfl) fun _ => does_next (.sends hst (State.advanceDsn_log _))

/-! ## The operation in its place -/

theorem exec_moves (h : Inv s) (hr : stageRuns s.stage) (i : Instr) (hplace : place i = (s.stage, s.phase)) :
    Does (exec i s) (RunMove s) := by
  have hst : s.stage = (place i).1 := (congrArg Prod.fst hplace).symm
  have hph : s.phase = (place i).2 := (congrArg Prod.snd hplace).symm
  cases i with
  | rxAccept | txTake => simp [hst, place, stageRuns] at hr
  | ethParse => exact execEthParse_moves h hst hph
  | ethArp | ethIpv4 | ethIpv6 => exact ethHandOver_moves h hst hph (by simp)
  | mac154Parse => exact execMac154Parse_moves h hst hph
  | mac154Data => exact execMac154Data_moves h hst hph
  | lowpanParse => exact execLowpanParse_moves h hst hph
  | lowpanIphc tf nh hlim => exact execLowpanIphc_moves h hst hph tf nh hlim
  | nhcUdp c p => exact execNhcUdp_moves h hst hph c p
  | nhcOther c => exact execNhcOther_moves h hst c
  | arpParse => exact execArpParse_moves h hst hph
  | arpRequest => exact execArpRequest_moves hst hph
  | arpReply => exact run_drop hst (arpLearn_quiet s) rfl
  | ip4Parse => exact execIp4Parse_moves h hst hph
  | ip4Icmp => exact ip4HandOver_moves h hst hph rfl rfl rfl (by decide)
  | ip4Udp => exact ip4HandOver_moves h hst hph (u := s.latch fun l => { l with net := .ip4 }) rfl rfl rfl (by decide)
  | ip6Parse => exact execIp6Parse_moves h hst hph
  | ip6Icmp6 => exact run_goto hst hph (.of_log_emit (ev := .valid .ipv6) rfl rfl) (by decide)
  | ip6Udp => exact execIp6Udp_moves hst hph
  | icmp4Parse => exact execIcmp4Parse_moves h hst hph
  | icmp4Echo => exact execIcmp4Echo_moves h hst hph
  | icmp6Parse => exact execIcmp6Parse_moves h hst hph
  | icmp6Echo => exact execIcmp6Echo_moves h hst hph
  | icmp6Ns => exact execIcmp6Ns_moves h hst hph
  | udpParse => exact execUdpParse_moves h hst hph
  | udpCoap => exact run_goto hst hph (.of_log_emit (ev := .valid .udp) rfl rfl) (by decide)
  | udpEcho dport => exact run_respond hst hph (.of_log_emit (ev := .valid .udp) rfl rfl) (by decide)
  | coapParse => exact execCoapParse_moves hst hph
  | coapPutLed => exact execCoapPutLed_moves hst hph
  | coapGetLed | coapNotFound | coapNotAllowed => exact coapRespond_moves hst hph rfl _ _
  | build => exact execBuild_moves h hst
  | ethOther | mac154Other | lowpanOther | arpOther | ip4Other | ip6Other | icmp4Other | icmp6Other | coapOther =>
    exact run_drop hst .refl rfl

end

end Sys2Proof.Machine
end

section
/-! SUPPORT. Runs to their end (R401, R405, R412, R422, R448): the step of a run, the host's step, and by induction over
the rank the whole run of a frame. -/

namespace Sys2Proof.Machine

/-! ## The tables on the stages of a run -/

theorem legalMove_idle {st : Stage} (h : stageRuns st) : legalMove st .idle := by
  cases st with
  | idle | txPending | haltFatal | haltAbort => cases h
  | _ => rfl

theorem runRank_pos {st : Stage} (h : stageRuns st) (ph : Phase) : 0 < runRank st ph := by
  cases st with
  | idle | txPending | haltFatal | haltAbort => cases h
  | _ => cases ph <;> decide

theorem runRank_le (st : Stage) (ph : Phase) : runRank st ph ≤ 12 := by
  cases st <;> cases ph <;> decide

section

variable {s u t : State}

/-! ## What a move of a run does to the registers the statements speak of -/

namespace RunMove

theorem rank_lt (hm : RunMove s t) (hr : stageRuns s.stage) : runRank t.stage t.phase < runRank s.stage s.phase := by
  cases hm with
  | goesOn _ hnear => exact hnear.2.1
  | drops | sends => exact runRank_pos hr _

theorem legal (hm : RunMove s t) (hr : stageRuns s.stage) : t.stage = s.stage ∨ legalMove s.stage t.stage := by
  cases hm with
  | goesOn _ hnear => exact hnear.2.2
  | drops => exact .inr (legalMove_idle hr)
  | sends hst => exact .inr (by rw [hst]; rfl)

theorem of_idle (hm : RunMove s t) (hst : t.stage = .idle) : t.outcome = .dropped ∧ t.cstage = s.stage ∧
    dropAllowed s.stage t.cause ∧ ∃ evs, t.log = s.log ++ evs ++ [.drop s.stage t.cause] := by
  cases hm with
  | goesOn _ hnear =>
    have hr := hnear.1
    rw [hst] at hr
    cases hr
  | drops hlog hc =>
    obtain ⟨evs, hevs, -⟩ := hlog
    exact ⟨rfl, rfl, hc, evs, congrArg (· ++ _) hevs⟩
  | sends => cases hst

theorem of_txPending (hm : RunMove s t) (hst : t.stage = .txPending) : s.stage = .build ∧ t.outcome = .sent ∧
    t.cause = .none ∧ t.cstage = s.latched.hstage ∧ t.log = s.log ++ [.send s.latched.hstage t.txlen] := by
  cases hm with
  | goesOn _ hnear =>
    have hr := hnear.1
    rw [hst] at hr
    cases hr
  | drops => cases hst
  | sends hb hlog => exact ⟨hb, rfl, rfl, rfl, congrArg (· ++ _) hlog⟩

end RunMove

/-! ## The step of a run -/

/-- In a run a step always answers, moves as tabulated and leaves the host's samples and `FAULT` alone. -/
theorem step_moves (h : Inv s) (hr : stageRuns s.stage) (hreset : s.resetNext = false) :
    ∃ t, step s = .next t ∧ RunMove s t ∧ Inv t ∧ t.host = s.host ∧ t.fault = s.fault := by
  obtain ⟨i, hi⟩ := decode_of_runs hr
  have hstep : step s = exec i s := step_of_runs hr hreset hi
  obtain ⟨t, ht, hm⟩ := exec_moves h hr i (place_of_decode h hi)
  have hinv : Inv t := stepKeepsTheMachineInvariant s t h (hstep.trans ht)
  have hfault : t.fault = s.fault := (exec_fault ht).resolve_right fun ha => hinv.noAbort ha.2
  exact ⟨t, hstep.trans ht, hm, hinv, exec_keeps_config ht (r := .host) (by simp), hfault⟩

theorem move_of_step (h : Inv s) (hr : stageRuns s.stage) (hreset : s.resetNext = false) (hstep : step s = .next t) :
    RunMove s t := by
  obtain ⟨u, hu, hm, -⟩ := step_moves h hr hreset
  cases hu.symm.trans hstep
  exact hm

/-! ## The host's step -/

theorem hostMove_legal (hm : HostMove s t) : t.stage = s.stage ∨ legalMove s.stage t.stage := by
  cases hm with
  | waits | looks | writes => exact .inl rfl
  | faults later hseen =>
    refine .inr ?_
    cases hst : s.stage with
    | idle | txPending => rfl
    | _ => simp [hst, linkFaultSeen] at hseen
  | accepts later len hx =>
    by_cases hc : s.stage = .idle ∧ len.toNat ≤ s.par.bufCap
    · cases (execRxAccept_accepts (s := { s with host := later }) hc).symm.trans hx
      refine .inr ?_
      rw [hc.1]
      dsimp only
      split <;> rfl
    · cases (execRxAccept_refused (s := { s with host := later }) hc).symm.trans hx
      exact .inl rfl
  | takes later hx =>
    by_cases hc : s.stage = .txPending
    · cases (execTxTake_takes (s := { s with host := later }) hc).symm.trans hx
      exact .inr (by rw [hc]; rfl)
    · cases (execTxTake_refused (s := { s with host := later }) hc).symm.trans hx
      exact .inl rfl

theorem execRxAccept_does (len : Half) (s : State) : ∃ t, execRxAccept len s = .next t := by
  by_cases h : s.stage = .idle ∧ len.toNat ≤ s.par.bufCap
  · exact ⟨_, execRxAccept_accepts h⟩
  · exact ⟨_, execRxAccept_refused h⟩

theorem execTxTake_does (s : State) : ∃ t, execTxTake s = .next t := by
  by_cases h : s.stage = .txPending
  · exact ⟨_, execTxTake_takes h⟩
  · exact ⟨_, execTxTake_refused h⟩

theorem linesTurn_does (fault take : Bool) (rx : Option Half) (s : State) :
    ∃ t, linesTurn fault rx take s = .next t := by
  rcases linesTurn_cases fault take rx s with ⟨-, -, h⟩ | h | h | ⟨len, h⟩
  · exact ⟨_, h⟩
  · exact ⟨_, h⟩
  · rw [h]
    exact execTxTake_does s
  · rw [h]
    exact execRxAccept_does len s

/-- A waiting block takes every sample, a write to `BUF` inside the host's window (R470). -/
theorem hostTurn_does (hr : stageRuns s.stage = false) (hok : s.inputOk) : ∃ t, hostTurn s = .next t := by
  unfold hostTurn
  split
  next => exact ⟨_, rfl⟩
  next => exact ⟨_, rfl⟩
  next addr data later heq =>
    have hwindow : s.stage = .idle ∧ addr.toNat < s.par.bufCap := by simpa [State.inputOk, heq, hr] using hok
    exact ⟨_, hostWrite_stores (s := { s with host := later }) hwindow.1 hwindow.2⟩
  next => exact linesTurn_does _ _ _ _

/-! ## A run to its end -/

/-- The frame of the run in `s` has been processed to its end in `t`. -/
structure FrameEnds (s t : State) : Prop where
  inv : Inv t
  host : t.host = s.host
  done : t.stage = .idle ∧ t.outcome = .dropped ∨ t.stage = .txPending ∧ t.outcome = .sent
  log : ∃ evs ev, t.log = s.log ++ evs ++ [ev] ∧ (∀ e ∈ evs, e.ends = false) ∧ ev.ends = true

theorem FrameEnds.of_quiet (h : FrameEnds u t) (hlog : Quiet s u) (hhost : u.host = s.host) : FrameEnds s t where
  inv := h.inv
  host := h.host.trans hhost
  done := h.done
  log := by
    obtain ⟨evs, hu, hevs⟩ := hlog
    obtain ⟨evs', ev, ht, hevs', hev⟩ := h.log
    refine ⟨evs ++ evs', ev, by rw [ht, hu, List.append_assoc s.log], fun e he => ?_, hev⟩
    exact (List.mem_append.mp he).elim (hevs e) (hevs' e)

/-- A move of a run goes on quietly or ends the frame. -/
theorem RunMove.goesOn_or_ends (hm : RunMove s t) (hinv : Inv t) (hhost : t.host = s.host) :
    (Quiet s t ∧ stageRuns t.stage) ∨ FrameEnds s t := by
  cases hm with
  | goesOn hlog hnear => exact .inl ⟨hlog, hnear.1⟩
  | drops hlog =>
    obtain ⟨evs, hevs, hquiet⟩ := hlog
    exact .inr ⟨hinv, hhost, .inl ⟨rfl, rfl⟩, evs, _, congrArg (· ++ _) hevs, hquiet, rfl⟩
  | @sends u _ hlog =>
    exact .inr ⟨hinv, hhost, .inr ⟨rfl, rfl⟩, [], .send s.latched.hstage u.txlen, by simp [hlog], by simp, rfl⟩

/-- The run ends within its rank (R412). -/
theorem run_ends (k : Nat) : ∀ s : State, Inv s → stageRuns s.stage → s.resetNext = false →
    runRank s.stage s.phase ≤ k → ∃ n t, n ≤ k ∧ Host.Core.run Sys2Proof.core n s = .next t ∧ FrameEnds s t := by
  induction k with
  | zero =>
    intro s _ hr _ hk
    have hpos := runRank_pos hr s.phase
    omega
  | succ k ih =>
    intro s h hr hreset hk
    obtain ⟨u, hstep, hm, hinv, hhost, -⟩ := step_moves h hr hreset
    have hrank := hm.rank_lt hr
    rcases hm.goesOn_or_ends hinv hhost with ⟨hlog, hru⟩ | hend
    · have hreset' : u.resetNext = false := by simpa [State.resetNext, hhost] using hreset
      obtain ⟨n, t, hn, hrun, hend⟩ := ih u hinv hru hreset' (by omega)
      exact ⟨n + 1, t, by omega, (run_of_step hstep n).trans hrun, hend.of_quiet hlog hhost⟩
    · exact ⟨1, u, by omega, run_of_step hstep 0, hend⟩

/-! ## A frame from the host -/

theorem run_append {m : Nat} (h : Host.Core.run Sys2Proof.core m s = .next u) (n : Nat) :
    Host.Core.run Sys2Proof.core (m + n) s = Host.Core.run Sys2Proof.core n u := by
  induction m generalizing s with
  | zero =>
    cases h
    rw [Nat.zero_add]
  | succ m ih =>
    rw [Nat.succ_add]
    simp only [Host.Core.run] at h ⊢
    split at h
    next s' hs' => exact ih h
    next => cases h
    next => cases h

/-- The block waits in `IDLE` for the samples `later`, and no event has been emitted since `s`. -/
structure Loaded (s : State) (later : List HostInput) (t : State) : Prop where
  inv : Inv t
  idle : t.stage = .idle
  host : t.host = later
  par : t.par = s.par
  log : t.log = s.log

theorem step_write {addr : Half} {data : Byte} {later : List HostInput} (h : Inv s) (hst : s.stage = .idle)
    (hhost : s.host = .bufWrite addr data :: later) (ha : addr.toNat < s.par.bufCap) :
    ∃ t, step s = .next t ∧ Loaded s later t := by
  have hstep := (step_bufWrite (by rw [hst]; rfl) hhost).trans (hostWrite_stores (s := { s with host := later }) hst ha)
  exact ⟨_, hstep, stepKeepsTheMachineInvariant _ _ h hstep, hst, rfl, rfl, rfl⟩

/-- The host's writes are taken one by one (R463, R470). -/
theorem run_writes {later : List HostInput} (ws : List (Half × Byte)) : ∀ s : State, Inv s → s.stage = .idle →
    s.host = ws.map (fun w => .bufWrite w.1 w.2) ++ later → (∀ w ∈ ws, w.1.toNat < s.par.bufCap) →
    ∃ t, Host.Core.run Sys2Proof.core ws.length s = .next t ∧ Loaded s later t := by
  induction ws with
  | nil => exact fun s h hst hhost _ => ⟨s, rfl, h, hst, hhost, rfl, rfl⟩
  | cons w ws ih =>
    intro s h hst hhost hin
    obtain ⟨u, hstep, hu⟩ := step_write h hst hhost (hin w (by simp))
    have hin' : ∀ w ∈ ws, w.1.toNat < u.par.bufCap := fun w hw => hu.par ▸ hin w (by simp [hw])
    obtain ⟨t, hrun, ht⟩ := ih u hu.inv hu.idle hu.host hin'
    refine ⟨t, (run_of_step hstep _).trans hrun, ht.inv, ht.idle, ht.host, ht.par.trans hu.par, ht.log.trans hu.log⟩

/-- The writes of `frameInputs`. -/
def frameWrites (f : List Byte) : List (Half × Byte) := f.zipIdx.map fun b => (BitVec.ofNat 16 b.2, b.1)

theorem frameInputs_eq (f : List Byte) : frameInputs f =
    (frameWrites f).map (fun w => .bufWrite w.1 w.2) ++ [.lines false (some (BitVec.ofNat 16 f.length)) false] := by
  simp [frameInputs, frameWrites]

@[simp] theorem frameWrites_length (f : List Byte) : (frameWrites f).length = f.length := by simp [frameWrites]

theorem frameWrites_lt {f : List Byte} {cap : Nat} (h : f.length ≤ cap) : ∀ w ∈ frameWrites f, w.1.toNat < cap := by
  intro w hw
  obtain ⟨⟨b, i⟩, hmem, rfl⟩ := List.mem_map.mp hw
  have hi : i < f.length := by simpa using List.snd_lt_of_mem_zipIdx hmem
  have hmod : (BitVec.ofNat 16 i).toNat ≤ i := by simpa using Nat.mod_le i 65536
  exact Nat.lt_of_le_of_lt hmod (by omega)

/-- `RX_ACCEPT` of a frame that fits starts a run (R400). -/
theorem step_accept {len : Half} (h : Inv s) (hst : s.stage = .idle) (hhost : s.host = [.lines false (some len) false])
    (hlen : len.toNat ≤ s.par.bufCap) :
    ∃ t, step s = .next t ∧ Inv t ∧ stageRuns t.stage ∧ t.host = [] ∧ t.log = s.log := by
  have hstep : step s = exec (.rxAccept len) { s with host := [] } :=
    stepRunsTheDecodedOperation.2.1 s len [] (by rw [hst]; rfl) hhost
  have hnext := hstep.trans (execRxAccept_accepts (s := { s with host := [] }) ⟨hst, hlen⟩)
  refine ⟨_, hnext, stepKeepsTheMachineInvariant _ _ h hnext, ?_, rfl, rfl⟩
  dsimp only
  split <;> rfl

/-- The host loads the frame and the block runs it to its end. -/
theorem run_frame {f : List Byte} (h : Inv s) (hst : s.stage = .idle) (hhost : s.host = frameInputs f)
    (hfits : f.length ≤ s.par.bufCap) :
    ∃ n t, n ≤ f.length + 13 ∧ Host.Core.run Sys2Proof.core n s = .next t ∧ FrameEnds { s with host := [] } t := by
  rw [frameInputs_eq] at hhost
  obtain ⟨u, hload, hu⟩ := run_writes (frameWrites f) s h hst hhost (frameWrites_lt hfits)
  have hcap : s.par.bufCap ≤ 65535 := h.par.2.1
  have hlen : (BitVec.ofNat 16 f.length).toNat ≤ u.par.bufCap := by
    rw [hu.par, BitVec.toNat_ofNat, Nat.mod_eq_of_lt (by omega)]
    exact hfits
  obtain ⟨v, hacc, hinv, hr, hvhost, hvlog⟩ := step_accept hu.inv hu.idle hu.host hlen
  obtain ⟨n, t, hn, hrun, hend⟩ := run_ends 12 v hinv hr (by simp [State.resetNext, hvhost]) (runRank_le _ _)
  refine ⟨f.length + (n + 1), t, by omega, ?_, hend.of_quiet (.of_log_eq (hvlog.trans hu.log)) hvhost⟩
  rw [frameWrites_length] at hload
  exact (run_append hload (n + 1)).trans ((run_of_step hacc n).trans hrun)

end

/-! ## The statements -/

/-- Settles O52: the rank falls with every operation, and it bounds the run. -/
theorem everyRunEndsWithinTwelveOperations : Obligations.EveryRunEndsWithinTwelveOperations := by
  intro s h hr hreset
  obtain ⟨u, hstep, hm, -⟩ := step_moves h hr hreset
  obtain ⟨n, t, hn, hrun, hend⟩ := run_ends 12 s h hr hreset (runRank_le _ _)
  exact ⟨⟨u, hstep, hm.rank_lt hr⟩, n, t, hn, hrun, hend.done.imp And.left And.left, hend.host⟩

/-- Settles O53: a run's moves are tabulated, and so are the host's. -/
theorem onlyTabulatedStageTransitions : Obligations.OnlyTabulatedStageTransitions := by
  intro s t h hreset hstep
  rcases step_cases hstep with ⟨straps, later, hhost, -⟩ | ⟨hr, -⟩ | ⟨-, hm⟩
  · simp [State.resetNext, hhost] at hreset
  · exact (move_of_step h hr hreset hstep).legal hr
  · exact hostMove_legal hm

/-- Settles O50: a reset is always taken, a run always has a next operation that answers, and a waiting block takes what
the host may present. -/
theorem stepNeverGetsStuck : Obligations.StepNeverGetsStuck := by
  intro s h hok
  cases hreset : s.resetNext with
  | true =>
    unfold State.resetNext at hreset
    split at hreset
    next straps later hhost => exact ⟨_, step_reset hhost⟩
    next => cases hreset
  | false =>
    cases hr : stageRuns s.stage with
    | true =>
      obtain ⟨t, ht, -⟩ := step_moves h hr hreset
      exact ⟨t, ht⟩
    | false =>
      rw [step_of_waits hr hreset]
      exact hostTurn_does hr hok

/-- Settles O54: how a move ends is in its form, and the invariant names the handler. -/
theorem dropsLieInsideTheMatrix : Obligations.DropsLieInsideTheMatrix := by
  intro s t h hr hreset hstep
  have hm : RunMove s t := move_of_step h hr hreset hstep
  refine ⟨hm.of_idle, fun hst => ?_⟩
  obtain ⟨hbuild, houtcome, hcause, hcstage, hlog⟩ := hm.of_txPending hst
  rw [hcstage]
  exact ⟨houtcome, hcause, rfl, h.handler hbuild, hlog⟩

/-- Settles O51: the invariant does not speak of the host's samples, so the run of the frame starts from it. -/
theorem everyFrameIsSentOrDropped : Obligations.EveryFrameIsSentOrDropped := by
  intro s f h hst hfits
  obtain ⟨n, t, hn, hrun, hend⟩ := run_frame (h.withHost (frameInputs f)) hst rfl hfits
  exact ⟨n, t, hn, hrun, hend.inv, hend.host, hend.done, hend.log⟩

/-- Settles O10: between runs the lines are examined at once; a run's step leaves the sample and `FAULT` alone. -/
theorem linkFaultHaltsBetweenRuns : Obligations.LinkFaultHaltsBetweenRuns := by
  refine ⟨fun s rx take later hst hhost => ?_, fun s fault rx take later hst hhost => ?_,
    fun s fault rx take later h hr hhost => ?_, fun s t hst hreset hstep => ?_⟩
  · have hwaits : stageRuns s.stage = false ∧ linkFaultSeen s.stage = true := by
      rcases hst with hst | hst <;> rw [hst] <;> exact ⟨rfl, rfl⟩
    rw [step_lines hwaits.1 hhost]
    exact if_pos ⟨rfl, hwaits.2⟩
  · rw [step_lines (stageRuns_halted hst) hhost]
    exact linesTurn_halted (s := { s with host := later }) hst fault take rx
  · obtain ⟨t, hstep, -, -, hkept, hfault⟩ := step_moves h hr (by simp [State.resetNext, hhost])
    exact ⟨t, hstep, hkept, hfault⟩
  · rw [step_of_waits (stageRuns_halted hst) hreset] at hstep
    exact hostMove_halted hst (hostTurn_move hreset hstep)

end Sys2Proof.Machine
end

section
/-! SUPPORT. CoAP messages (R351 to R359, R362 to R365): what `COAP.PARSE` reads and refuses, and the routed operations
with their response messages. -/

namespace Sys2Proof.Machine

/-! ## The header (R352, R355) -/

/-- The header fields of a message (R120, R352), no options and no payload read. -/
def coapRecOf (m : List Byte) : CoapRec where
  ver := (byteAt m 0).extractLsb' 6 2
  t := (byteAt m 0).extractLsb' 4 2
  tkl := (byteAt m 0).extractLsb' 0 4
  code := byteAt m 1
  mid := ofBE 16 (slice m 2 4)
  token := slice m 4 (4 + ((byteAt m 0).extractLsb' 0 4).toNat)
  segs := []
  payload := []

/-- The checks of R352 in their order: the cause of the first that fails. -/
def coapReject (m : List Byte) : Option Cause :=
  if m.length < 4 then some .truncated
  else if (coapRecOf m).ver ≠ 1#2 then some .badVersion
  else if 8 < (coapRecOf m).tkl.toNat then some .badLength
  else if m.length < 4 + (coapRecOf m).tkl.toNat then some .badLength
  else none

theorem coapHeader_eq (m : List Byte) : coapHeader m = (coapReject m).elim (.ok (coapRecOf m)) .error := by
  simp only [coapReject,
    apply_ite fun r : Option Cause => r.elim (Except.ok (ε := Cause) (coapRecOf m)) Except.error]
  rfl

theorem coapHeader_rejected {m : List Byte} {c : Cause} (h : coapReject m = some c) : coapHeader m = .error c := by
  rw [coapHeader_eq, h]
  rfl

theorem coapHeader_accepted {m : List Byte} (h : coapReject m = none) : coapHeader m = .ok (coapRecOf m) := by
  rw [coapHeader_eq, h]
  rfl

/-- A request has a method code and is confirmable or not (R355). -/
theorem isRequest_iff (r : CoapRec) : r.isRequest = true ↔ r.code ≠ 0x00#8 ∧ r.code.toNat < 0x20 ∧ r.t.toNat < 2 := by
  have htype : ∀ t : BitVec 2, (¬ t = 2#2 ∧ ¬ t = 3#2) ↔ t.toNat < 2 := by decide
  simp [CoapRec.isRequest, htype, and_assoc]

/-! ## `COAP.PARSE` (R351) -/

section

variable {s : State}

theorem execCoapParse_rejected {c : Cause} (h : coapReject s.latched.udp.payload = some c) :
    execCoapParse s = s.drop .coap c := by
  simp only [execCoapParse, coapHeader_rejected h]

/-- A message that is no request goes to its dispatch with its options unread. -/
theorem execCoapParse_noRequest {r : CoapRec} (h : coapHeader s.latched.udp.payload = .ok r)
    (hreq : r.isRequest = false) : execCoapParse s = .next (s.latch fun l => { l with coap := r }).toDispatch := by
  simp [execCoapParse, h, hreq]

theorem execCoapParse_badOptions {r : CoapRec} {rest : List Byte} {c : Cause}
    (h : coapHeader s.latched.udp.payload = .ok r) (hreq : r.isRequest = true)
    (hrest : s.latched.udp.payload.drop (4 + r.tkl.toNat) = rest) (hopts : coapOptions rest.length 0 rest = .error c) :
    execCoapParse s = s.drop .coap c := by
  simp only [execCoapParse, h, hreq, hrest, hopts, if_true]

theorem execCoapParse_request {r : CoapRec} {rest : List Byte} {segs : List (List Byte)} {payload : List Byte}
    (h : coapHeader s.latched.udp.payload = .ok r) (hreq : r.isRequest = true)
    (hrest : s.latched.udp.payload.drop (4 + r.tkl.toNat) = rest)
    (hopts : coapOptions rest.length 0 rest = .ok (segs, payload)) :
    execCoapParse s
      = .next (s.latch fun l => { l with coap := { r with segs := segs, payload := payload } }).toDispatch := by
  simp only [execCoapParse, h, hreq, hrest, hopts, if_true]

/-! ## The responses (R357, R358) -/

/-- The answer of a routed operation (R358): the message goes back to the port it came from. -/
def State.coapAnswered (s : State) (msg : List Byte) : State :=
  { s with
    log := s.log ++ [.valid .coap]
    latched := { s.latched with
      resp := some (udpWrap s.cfg s.latched s.latched.udp.dport s.latched.udp.sport msg), hstage := .coap }
    stage := .build, phase := .entry }

theorem coapRespond_eq (rcode : Byte) (body : List Byte) (s : State) :
    coapRespond rcode body s = .next (s.coapAnswered (coapResp s.latched.coap rcode body)) := rfl

/-- The message of R357 byte for byte: no marker before an empty body. -/
theorem coapResp_eq (c : CoapRec) (rcode : Byte) (body : List Byte) : coapResp c rcode body =
    [BitVec.ofNat 8 (0x40 + 16 * (if c.t = 0#2 then 2 else 1) + c.tkl.toNat), rcode]
      ++ toBE 2 c.mid ++ c.token ++ (if body.length = 0 then [] else [0xFF#8] ++ body) := by
  simp only [coapResp, List.length_eq_zero_iff]
  rfl

theorem execCoapPutLed_parsed {v : Bool} (h : parseLed s.latched.coap.payload = some v) :
    execCoapPutLed s = coapRespond 0x44#8 [] { s with led := v } := by
  simp only [execCoapPutLed, h]

theorem execCoapPutLed_unparsed (h : parseLed s.latched.coap.payload = none) :
    execCoapPutLed s = coapRespond 0x80#8 [] s := by
  simp only [execCoapPutLed, h]

end

/-! ## The statements -/

/-- Settles O31: the header's checks, the request test and the options in turn. -/
theorem coapParseValidatesTheMessage : Obligations.CoapParseValidatesTheMessage := by
  intro s
  have accepted (h : coapReject s.latched.udp.payload = none) := coapHeader_accepted h
  refine ⟨fun c h => execCoapParse_rejected h, fun h hreq => ?_, fun h hreq c hopts => ?_,
    fun h hreq segs payload hopts => ?_⟩
  · exact execCoapParse_noRequest (accepted h) (Bool.eq_false_iff.mpr ((isRequest_iff _).not.mpr hreq))
  · exact execCoapParse_badOptions (accepted h) ((isRequest_iff _).mpr hreq) rfl hopts
  · exact execCoapParse_request (accepted h) ((isRequest_iff _).mpr hreq) rfl hopts

/-- Settles O33: each operation is one response with its code and body, and only the parsed PUT writes `LED` before
it. -/
theorem coapRequestsAreAnswered : Obligations.CoapRequestsAreAnswered := by
  intro s
  have answer (rcode : Byte) (body : List Byte) (u : State) := (coapRespond_eq rcode body u).trans
    (congrArg (fun msg => Host.Outcome.next (u.coapAnswered msg)) (coapResp_eq u.latched.coap rcode body))
  refine ⟨answer _ (ledBody s.led) s, fun v h => ?_, fun h => ?_, fun _ => answer _ [] s, fun _ => answer _ [] s⟩
  · exact (execCoapPutLed_parsed h).trans (answer _ [] { s with led := v })
  · exact (execCoapPutLed_unparsed h).trans (answer _ [] s)

end Sys2Proof.Machine
end

section
/-! SUPPORT. The grammar of the LED body (R360): one rule per terminal of `parse_led`, each with the white space before
it. -/

namespace Sys2Proof.Machine

/-- A string of `ws*` (R360). -/
abbrev IsBlank (w : List Byte) : Prop := ∀ b ∈ w, isWs b = true

theorem isWs_iff (b : Byte) : isWs b = true ↔ b ∈ [0x20#8, 0x09#8, 0x0A#8, 0x0D#8] := by
  simp [isWs, or_assoc]

section

variable {w s rest : List Byte}

/-- White space is skipped up to the first byte that is none. -/
theorem skipWs_append {b : Byte} (hw : IsBlank w) (hb : isWs b = false) : skipWs (w ++ b :: rest) = b :: rest := by
  rw [skipWs, List.dropWhile_append_of_pos hw]
  exact List.dropWhile_cons_of_neg (by simp [hb])

theorem skipWs_eq_nil_iff : skipWs s = [] ↔ IsBlank s := List.dropWhile_eq_nil_iff

/-- The white space that is skipped stands before the rest. -/
theorem exists_blank_append_skipWs (s : List Byte) : ∃ w, IsBlank w ∧ s = w ++ skipWs s :=
  ⟨s.takeWhile isWs, fun _ => List.mem_takeWhile_imp, List.takeWhile_append_dropWhile.symm⟩

/-- A terminal that does not begin with white space is taken where it stands next. -/
theorem expect_iff {b : Byte} {lit : List Byte} (hb : isWs b = false) :
    expect (b :: lit) s = some rest ↔ ∃ w, IsBlank w ∧ s = w ++ (b :: lit) ++ rest := by
  constructor
  · intro h
    obtain ⟨w, hw, hs⟩ := exists_blank_append_skipWs s
    unfold expect at h
    split at h
    next hpre =>
      obtain ⟨tail, htail⟩ := List.isPrefixOf_iff_prefix.mp hpre
      rw [← htail, List.drop_left, Option.some.injEq] at h
      exact ⟨w, hw, by rw [List.append_assoc, ← h, htail, ← hs]⟩
    next => cases h
  · rintro ⟨w, hw, rfl⟩
    have hskip : skipWs (w ++ (b :: lit) ++ rest) = (b :: lit) ++ rest := by
      rw [List.append_assoc]
      exact skipWs_append hw hb
    rw [expect, hskip, if_pos (List.isPrefixOf_iff_prefix.mpr (List.prefix_append _ _)), List.drop_left]

/-- The literal of a truth value (R360). -/
def boolLit (v : Bool) : List Byte :=
  if v then [0x74#8, 0x72#8, 0x75#8, 0x65#8] else [0x66#8, 0x61#8, 0x6C#8, 0x73#8, 0x65#8]

/-- The two literals begin differently, so `true` is not found where `false` stands. -/
theorem expect_true_of_false (hw : IsBlank w) : expect (boolLit true) (w ++ boolLit false ++ rest) = none := by
  have hskip : skipWs (w ++ boolLit false ++ rest) = boolLit false ++ rest := by
    rw [List.append_assoc]
    exact skipWs_append hw rfl
  rw [expect, hskip]
  rfl

theorem expectBool_iff {v : Bool} :
    expectBool s = some (v, rest) ↔ ∃ w, IsBlank w ∧ s = w ++ boolLit v ++ rest := by
  have htrue {r : List Byte} : expect (boolLit true) s = some r ↔ ∃ w, IsBlank w ∧ s = w ++ boolLit true ++ r :=
    expect_iff rfl
  have hfalse {r : List Byte} : expect (boolLit false) s = some r ↔ ∃ w, IsBlank w ∧ s = w ++ boolLit false ++ r :=
    expect_iff rfl
  have hdef : expectBool s = match expect (boolLit true) s with
      | some r => some (true, r)
      | none => (expect (boolLit false) s).map fun r => (false, r) := rfl
  rw [hdef]
  cases hexp : expect (boolLit true) s with
  | some r =>
    cases v with
    | true => rw [← htrue, hexp]; simp
    | false =>
      refine iff_of_false (by simp) ?_
      rintro ⟨w, hw, rfl⟩
      rw [expect_true_of_false hw] at hexp
      cases hexp
  | none =>
    cases v with
    | true => rw [← htrue, hexp]; simp
    | false => rw [← hfalse]; simp

end

/-- The grammar as a chain of rests: each terminal leaves what the next one reads. -/
theorem parseLed_iff {s : List Byte} {v : Bool} : parseLed s = some v ↔
    ∃ s₁ s₂ s₃ s₄ s₅, expect [0x7B#8] s = some s₁ ∧ expect [0x22#8, 0x6C#8, 0x65#8, 0x64#8, 0x22#8] s₁ = some s₂ ∧
      expect [0x3A#8] s₂ = some s₃ ∧ expectBool s₃ = some (v, s₄) ∧ expect [0x7D#8] s₄ = some s₅ ∧ skipWs s₅ = [] := by
  simp only [parseLed, Option.bind_eq_bind, Option.bind_eq_some_iff, Option.ite_none_right_eq_some, Option.some.injEq,
    Prod.exists]
  constructor
  · rintro ⟨s₁, h₁, s₂, h₂, s₃, h₃, v', s₄, h₄, s₅, h₅, h₆, rfl⟩
    exact ⟨s₁, s₂, s₃, s₄, s₅, h₁, h₂, h₃, h₄, h₅, h₆⟩
  · rintro ⟨s₁, s₂, s₃, s₄, s₅, h₁, h₂, h₃, h₄, h₅, h₆⟩
    exact ⟨s₁, h₁, s₂, h₂, s₃, h₃, v, s₄, h₄, s₅, h₅, h₆, rfl⟩

/-- Settles O34: each rest in the chain is the white space, the terminal and the next rest. -/
theorem parseLedAcceptsTheGrammar : Obligations.ParseLedAcceptsTheGrammar := by
  intro s v
  have terminal {b : Byte} {lit s rest : List Byte} (hb : isWs b = false) := @expect_iff s rest b lit hb
  have blank {w : List Byte} : (∀ b ∈ w, b ∈ [0x20#8, 0x09#8, 0x0A#8, 0x0D#8]) ↔ IsBlank w := by
    simp only [IsBlank, isWs_iff]
  rw [parseLed_iff]
  constructor
  · rintro ⟨s₁, s₂, s₃, s₄, s₅, h₁, h₂, h₃, h₄, h₅, h₆⟩
    obtain ⟨w₀, hw₀, rfl⟩ := (terminal rfl).mp h₁
    obtain ⟨w₁, hw₁, rfl⟩ := (terminal rfl).mp h₂
    obtain ⟨w₂, hw₂, rfl⟩ := (terminal rfl).mp h₃
    obtain ⟨w₃, hw₃, rfl⟩ := expectBool_iff.mp h₄
    obtain ⟨w₄, hw₄, rfl⟩ := (terminal rfl).mp h₅
    refine ⟨w₀, w₁, w₂, w₃, w₄, s₅, ?_, by simp [boolLit]⟩
    simp only [blank, List.forall_mem_cons]
    exact ⟨hw₀, hw₁, hw₂, hw₃, hw₄, skipWs_eq_nil_iff.mp h₆, fun _ h => nomatch h⟩
  · rintro ⟨w₀, w₁, w₂, w₃, w₄, w₅, hblank, hs⟩
    simp only [blank, List.forall_mem_cons] at hblank
    obtain ⟨hw₀, hw₁, hw₂, hw₃, hw₄, hw₅, -⟩ := hblank
    refine ⟨_, _, _, _, w₅, (terminal rfl).mpr ⟨w₀, hw₀, ?_⟩, (terminal rfl).mpr ⟨w₁, hw₁, rfl⟩,
      (terminal rfl).mpr ⟨w₂, hw₂, rfl⟩, expectBool_iff.mpr ⟨w₃, hw₃, rfl⟩, (terminal rfl).mpr ⟨w₄, hw₄, rfl⟩,
      skipWs_eq_nil_iff.mpr hw₅⟩
    simp [hs, boolLit]

end Sys2Proof.Machine
end

section
/-! SUPPORT. The CoAP option parser (R353, R122 to R124): one equation per kind of first byte, what an extension reads
and when it is missing, and the sequences of options that are read back. -/

namespace Sys2Proof.Machine

/-! ## Extensions (R122) -/

/-- How many extension bytes a nibble asks for. -/
def extLength (nibble : Nat) : Nat := if nibble = 13 then 1 else if nibble = 14 then 2 else 0

/-- The delta or length that a nibble and the bytes after it stand for. -/
def extValue (nibble : Nat) (rest : List Byte) : Nat :=
  if nibble = 13 then 13 + beNat (slice rest 0 1) else if nibble = 14 then 269 + beNat (slice rest 0 2) else nibble

section

variable {rest : List Byte}

theorem coapExtend_thirteen (rest : List Byte) : coapExtend 13#4 rest =
    if rest.length < 1 then .error .truncated else .ok (13 + beNat (slice rest 0 1), rest.drop 1) := by
  match rest with
  | [] => rfl
  | a :: rest => simp [coapExtend, slice]

theorem coapExtend_fourteen (rest : List Byte) : coapExtend 14#4 rest =
    if rest.length < 2 then .error .truncated else .ok (269 + beNat (slice rest 0 2), rest.drop 2) := by
  match rest with
  | [] | [_] => rfl
  | a :: b :: rest => simp [coapExtend, slice]

theorem coapExtend_plain {n : BitVec 4} (h13 : n ≠ 13#4) (h14 : n ≠ 14#4) (rest : List Byte) :
    coapExtend n rest = .ok (n.toNat, rest) := (if_neg h13).trans (if_neg h14)

/-- An extension is read when its bytes are there (R353). -/
theorem coapExtend_eq (n : BitVec 4) (rest : List Byte) : coapExtend n rest =
    if rest.length < extLength n.toNat then .error .truncated
    else .ok (extValue n.toNat rest, rest.drop (extLength n.toNat)) := by
  by_cases h13 : n = 13#4
  · rw [h13]
    exact coapExtend_thirteen rest
  · by_cases h14 : n = 14#4
    · rw [h14]
      exact coapExtend_fourteen rest
    · have hn13 : n.toNat ≠ 13 := fun h => h13 (BitVec.eq_of_toNat_eq h)
      have hn14 : n.toNat ≠ 14 := fun h => h14 (BitVec.eq_of_toNat_eq h)
      rw [coapExtend_plain h13 h14]
      simp [extLength, extValue, hn13, hn14]

theorem coapExtend_short {n : BitVec 4} (h : rest.length < extLength n.toNat) :
    coapExtend n rest = .error .truncated := by
  rw [coapExtend_eq, if_pos h]

theorem coapExtend_ok {n : BitVec 4} (h : extLength n.toNat ≤ rest.length) :
    coapExtend n rest = .ok (extValue n.toNat rest, rest.drop (extLength n.toNat)) := by
  rw [coapExtend_eq, if_neg (by omega)]

theorem coapExtend_length {n : BitVec 4} {x : Nat × List Byte} (h : coapExtend n rest = .ok x) :
    x.2.length ≤ rest.length := by
  rw [coapExtend_eq] at h
  split at h
  · cases h
  · cases h
    simp

/-! ## One option (R353) -/

variable {fuel num : Nat} {b : Byte}

/-- What an option numbered `num` adds to what the rest of the message gives: its value, when it is a Uri-Path. -/
def optionBefore (num : Nat) (value : List Byte) (x : List (List Byte) × List Byte) : List (List Byte) × List Byte :=
  ((if num = 11 then [value] else []) ++ x.1, x.2)

theorem coapOptions_nil (fuel num : Nat) : coapOptions fuel num [] = .ok ([], []) := by
  cases fuel <;> rfl

theorem coapOptions_marker (fuel num : Nat) (rest : List Byte) : coapOptions (fuel + 1) num (0xFF#8 :: rest) =
    if rest = [] then .error .badLength else .ok ([], rest) := by
  rw [coapOptions, if_pos rfl]

theorem highNibble_toNat (b : Byte) : (b.extractLsb' 4 4).toNat = b.toNat / 16 := by
  have hb := b.isLt
  rw [BitVec.extractLsb'_toNat, Nat.shiftRight_eq_div_pow]
  omega

theorem lowNibble_toNat (b : Byte) : (b.extractLsb' 0 4).toNat = b.toNat % 16 := by
  rw [BitVec.extractLsb'_toNat, Nat.shiftRight_zero]

theorem reserved_iff (b : Byte) :
    (b.extractLsb' 4 4 = 15#4 ∨ b.extractLsb' 0 4 = 15#4) ↔ (b.toNat / 16 = 15 ∨ b.toNat % 16 = 15) := by
  rw [← highNibble_toNat, ← lowNibble_toNat, BitVec.toNat_eq, BitVec.toNat_eq]
  rfl

theorem coapOptions_reserved (hb : b ≠ 0xFF#8) (h : b.toNat / 16 = 15 ∨ b.toNat % 16 = 15) :
    coapOptions (fuel + 1) num (b :: rest) = .error .unsupported := by
  rw [coapOptions, if_neg hb, if_pos ((reserved_iff b).mpr h)]

/-- An option proper: its delta, its length, its value and the options after it. -/
theorem coapOptions_option (hd : b.toNat / 16 ≠ 15) (hl : b.toNat % 16 ≠ 15) :
    coapOptions (fuel + 1) num (b :: rest) =
      coapExtend (b.extractLsb' 4 4) rest >>= fun x => coapExtend (b.extractLsb' 0 4) x.2 >>= fun y =>
        if y.2.length < y.1 then .error .badLength
        else optionBefore (num + x.1) (y.2.take y.1) <$> coapOptions fuel (num + x.1) (y.2.drop y.1) := by
  have hb : b ≠ 0xFF#8 := fun h => hd (by rw [h]; rfl)
  have hres : ¬ (b.extractLsb' 4 4 = 15#4 ∨ b.extractLsb' 0 4 = 15#4) := by
    rw [reserved_iff]
    omega
  rw [coapOptions, if_neg hb, if_neg hres]
  rcases coapExtend (b.extractLsb' 4 4) rest with c | ⟨delta, rest₁⟩
  · rfl
  simp only [bind, Except.bind]
  rcases coapExtend (b.extractLsb' 0 4) rest₁ with c | ⟨len, rest₂⟩
  · rfl
  dsimp only
  split
  · rfl
  rcases coapOptions fuel (num + delta) (rest₂.drop len) with c | ⟨segs, payload⟩
  · rfl
  · simp only [optionBefore, Functor.map, Except.map]
    split <;> rfl

/-- The bound of the rounds has no part in the result once it covers the bytes left (log 26). -/
theorem coapOptions_fuel (n : Nat) : ∀ (m num : Nat) (rest : List Byte), rest.length ≤ n → rest.length ≤ m →
    coapOptions n num rest = coapOptions m num rest := by
  induction n with
  | zero =>
    intro m num rest hn _
    rw [List.length_eq_zero_iff.mp (Nat.le_zero.mp hn), coapOptions_nil, coapOptions_nil]
  | succ n ih =>
    intro m num rest hn hm
    match rest, m with
    | [], _ => rw [coapOptions_nil, coapOptions_nil]
    | b :: rest, m + 1 =>
      by_cases hb : b = 0xFF#8
      · rw [hb, coapOptions_marker, coapOptions_marker]
      by_cases hres : b.toNat / 16 = 15 ∨ b.toNat % 16 = 15
      · rw [coapOptions_reserved hb hres, coapOptions_reserved hb hres]
      obtain ⟨hd, hl⟩ := not_or.mp hres
      rw [coapOptions_option hd hl, coapOptions_option hd hl]
      cases hx : coapExtend (b.extractLsb' 4 4) rest with
      | error c => rfl
      | ok x =>
        simp only [bind, Except.bind]
        cases hy : coapExtend (b.extractLsb' 0 4) x.2 with
        | error c => rfl
        | ok y =>
          have hxlen := coapExtend_length hx
          have hylen := coapExtend_length hy
          simp only [List.length_cons] at hn hm
          have hleft : (y.2.drop y.1).length ≤ y.2.length := by simp
          dsimp only
          rw [ih m (num + x.1) (y.2.drop y.1) (by omega) (by omega)]

/-! ## A sequence of options -/

theorem slice_append_self {v : List Byte} {n : Nat} (h : v.length = n) (rest : List Byte) : slice (v ++ rest) 0 n = v :=
  List.take_left' h

theorem coapNibble_le {n : Nat} : (coapNibble n).1 ≤ 14 := by
  unfold coapNibble
  split_ifs with h13
  · exact Nat.le_of_lt (Nat.lt_succ_of_lt h13)
  · exact Nat.le_succ 13
  · exact Nat.le_refl 14

/-- The extension reads back the number its nibble and bytes were made of (R122). -/
theorem coapExtend_coapNibble {n : Nat} (h : n < 65805) (rest : List Byte) :
    coapExtend (BitVec.ofNat 4 (coapNibble n).1) ((coapNibble n).2 ++ rest) = .ok (n, rest) := by
  unfold coapNibble
  split_ifs with h13 h269
  · have hn : (BitVec.ofNat 4 n).toNat = n := Nat.mod_eq_of_lt (by omega)
    have hne {k : BitVec 4} (hk : 13 ≤ k.toNat) : BitVec.ofNat 4 n ≠ k := by
      rintro rfl
      omega
    exact (coapExtend_plain (hne (by decide)) (hne (by decide)) rest).trans (by rw [hn])
  · have hread : beNat (slice (bytesBE 1 (n - 13) ++ rest) 0 1) = n - 13 := by
      rw [slice_append_self (bytesBE_length ..), beNat_bytesBE]
      omega
    have hn : 13 + (n - 13) = n := by omega
    rw [coapExtend_thirteen, if_neg (by simp), hread, hn, List.drop_left' (bytesBE_length ..)]
  · have hread : beNat (slice (bytesBE 2 (n - 269) ++ rest) 0 2) = n - 269 := by
      rw [slice_append_self (bytesBE_length ..), beNat_bytesBE]
      omega
    have hn : 269 + (n - 269) = n := by omega
    rw [coapExtend_fourteen, if_neg (by simp; omega), hread, hn, List.drop_left' (bytesBE_length ..)]

/-- The first byte of an option holds the two nibbles. -/
theorem optionByte_nibbles {d l : Nat} (hd : d ≤ 14) (hl : l ≤ 14) :
    (BitVec.ofNat 8 (16 * d + l)).extractLsb' 4 4 = BitVec.ofNat 4 d ∧
      (BitVec.ofNat 8 (16 * d + l)).extractLsb' 0 4 = BitVec.ofNat 4 l ∧
      (BitVec.ofNat 8 (16 * d + l)).toNat = 16 * d + l := by
  have hbyte : (BitVec.ofNat 8 (16 * d + l)).toNat = 16 * d + l := by
    rw [BitVec.toNat_ofNat]
    omega
  refine ⟨BitVec.eq_of_toNat_eq ?_, BitVec.eq_of_toNat_eq ?_, hbyte⟩
  · rw [highNibble_toNat, hbyte, BitVec.toNat_ofNat]
    omega
  · rw [lowNibble_toNat, hbyte, BitVec.toNat_ofNat]
    omega

/-- An option is taken off the front of a message, whatever form its delta and its length take. -/
theorem coapOptions_optionBytes {delta : Nat} {value : List Byte} (hdelta : delta < 65805)
    (hvalue : value.length < 65805) (fuel num : Nat) (rest : List Byte) : coapOptions (fuel + 1) num (coapOptionBytes delta value ++ rest) =
      optionBefore (num + delta) value <$> coapOptions fuel (num + delta) rest := by
  have hd := coapNibble_le (n := delta)
  have hl := coapNibble_le (n := value.length)
  obtain ⟨hhigh, hlow, hbyte⟩ := optionByte_nibbles hd hl
  have hbytes : coapOptionBytes delta value ++ rest =
      BitVec.ofNat 8 (16 * (coapNibble delta).1 + (coapNibble value.length).1) ::
        ((coapNibble delta).2 ++ ((coapNibble value.length).2 ++ (value ++ rest))) := by simp [coapOptionBytes]
  rw [hbytes, coapOptions_option (by omega) (by omega), hhigh, hlow, coapExtend_coapNibble hdelta]
  simp only [bind, Except.bind]
  rw [coapExtend_coapNibble hvalue]
  dsimp only
  rw [if_neg (by simp), List.take_left, List.drop_left]

/-- The options in front of a message's tail, as one string. -/
def optionsBytes (opts : List (Nat × List Byte)) : List Byte := opts.flatMap fun o => coapOptionBytes o.1 o.2

theorem optionsBytes_length_le (opts : List (Nat × List Byte)) : opts.length ≤ (optionsBytes opts).length := by
  induction opts with
  | nil => exact Nat.le_refl 0
  | cons o opts ih =>
    have hpos : 0 < (coapOptionBytes o.1 o.2).length := Nat.succ_pos _
    simp only [optionsBytes, List.flatMap_cons, List.length_append, List.length_cons] at ih ⊢
    omega

/-- A sequence of options is read back, and what the tail gives stands after it (R353). -/
theorem coapOptions_optionsBytes (opts : List (Nat × List Byte)) (tail : List Byte) :
    ∀ fuel num : Nat, (∀ o ∈ opts, o.1 < 65805 ∧ o.2.length < 65805) →
      coapOptions (fuel + opts.length) num (optionsBytes opts ++ tail) =
        (fun x => (uriPathOf num opts ++ x.1, x.2)) <$> coapOptions fuel (num + (opts.map Prod.fst).sum) tail := by
  induction opts with
  | nil =>
    intro fuel num _
    show coapOptions fuel num tail = _ <$> coapOptions fuel num tail
    exact (id_map (coapOptions fuel num tail)).symm
  | cons o opts ih =>
    intro fuel num hopts
    obtain ⟨hdelta, hvalue⟩ := hopts o (by simp)
    have hbytes : optionsBytes (o :: opts) ++ tail = coapOptionBytes o.1 o.2 ++ (optionsBytes opts ++ tail) := by
      simp [optionsBytes]
    rw [hbytes, List.length_cons, ← Nat.add_assoc, coapOptions_optionBytes hdelta hvalue,
      ih fuel _ fun o ho => hopts o (by simp [ho]), List.map_cons, List.sum_cons, Nat.add_assoc]
    cases coapOptions fuel (num + (o.1 + (opts.map Prod.fst).sum)) tail with
    | error c => rfl
    | ok x => simp [optionBefore, uriPathOf, Functor.map, Except.map]

/-- With the message's own length as the bound. -/
theorem coapOptions_message {opts : List (Nat × List Byte)} (hopts : ∀ o ∈ opts, o.1 < 65805 ∧ o.2.length < 65805)
    (num : Nat) (tail : List Byte) : coapOptions (optionsBytes opts ++ tail).length num (optionsBytes opts ++ tail) =
      (fun x => (uriPathOf num opts ++ x.1, x.2)) <$>
        coapOptions tail.length (num + (opts.map Prod.fst).sum) tail := by
  have hlen := optionsBytes_length_le opts
  rw [List.length_append]
  have hfuel : (optionsBytes opts).length + tail.length
      = ((optionsBytes opts).length - opts.length + tail.length) + opts.length := by omega
  rw [hfuel, coapOptions_optionsBytes opts tail _ num hopts,
    coapOptions_fuel _ tail.length _ tail (by omega) (Nat.le_refl _)]

/-- What stands after the options: the payload with its marker, or nothing. -/
theorem coapOptions_payload (num : Nat) (payload : List Byte) :
    coapOptions (if payload = [] then [] else 0xFF#8 :: payload).length num
      (if payload = [] then [] else 0xFF#8 :: payload) = .ok ([], payload) := by
  split
  next h => rw [h, coapOptions_nil]
  next h => rw [List.length_cons, coapOptions_marker, if_neg h]

/-! ## What ends the parse with a drop -/

theorem coapOptions_truncated (hd : b.toNat / 16 ≠ 15) (hl : b.toNat % 16 ≠ 15)
    (h : rest.length < extLength (b.toNat / 16) + extLength (b.toNat % 16)) :
    coapOptions (fuel + 1) num (b :: rest) = .error .truncated := by
  rw [← highNibble_toNat, ← lowNibble_toNat] at h
  rw [coapOptions_option hd hl]
  by_cases hshort : rest.length < extLength (b.extractLsb' 4 4).toNat
  · rw [coapExtend_short hshort]
    rfl
  · rw [coapExtend_ok (by omega)]
    simp only [bind, Except.bind]
    rw [coapExtend_short (by rw [List.length_drop]; omega)]

/-- The length is read after the delta's extension. -/
theorem coapOptions_pastEnd (hd : b.toNat / 16 ≠ 15) (hl : b.toNat % 16 ≠ 15)
    (hext : extLength (b.toNat / 16) + extLength (b.toNat % 16) ≤ rest.length)
    (h : rest.length < extLength (b.toNat / 16) + extLength (b.toNat % 16)
      + extValue (b.toNat % 16) (rest.drop (extLength (b.toNat / 16)))) :
    coapOptions (fuel + 1) num (b :: rest) = .error .badLength := by
  rw [← highNibble_toNat, ← lowNibble_toNat] at hext h
  rw [coapOptions_option hd hl, coapExtend_ok (by omega)]
  simp only [bind, Except.bind]
  rw [coapExtend_ok (by rw [List.length_drop]; omega)]
  refine if_pos ?_
  dsimp only
  rw [List.length_drop, List.length_drop]
  omega

theorem slice_drop (bs : List Byte) (i k : Nat) : slice (bs.drop i) 0 k = slice bs i (i + k) := by
  rw [slice, slice, List.drop_zero, Nat.sub_zero, Nat.add_sub_cancel_left]

end

/-- Settles O32: the options are taken off the front one by one; what ends the parse is read off the equation for its
first byte. -/
theorem coapOptionsAreReadBack : Obligations.CoapOptionsAreReadBack := by
  refine ⟨fun opts payload hopts => ?_, fun opts num tail c hopts herror => ?_, fun fuel num b rest => ⟨?_, ?_, ?_, ?_⟩⟩
  · refine (coapOptions_message hopts 0 _).trans ?_
    rw [coapOptions_payload]
    simp [Functor.map, Except.map]
  · refine (coapOptions_message hopts num tail).trans ?_
    rw [herror]
    rfl
  · rintro rfl rfl
    exact coapOptions_marker fuel num []
  · exact coapOptions_reserved
  · exact coapOptions_truncated
  · intro hd hl hext hlen
    refine coapOptions_pastEnd hd hl hext ?_
    rw [extValue, slice_drop, slice_drop]
    exact hlen

end Sys2Proof.Machine
end

section
/-! SUPPORT. The response frame and `BUILD` (R402, R406 to R409, R179, R330): the frame of each pair of link and record,
and the store. -/

namespace Sys2Proof.Machine

section

variable {s : State}

/-! ## The frame (R407, R408) -/

theorem resolve6_eq (s : State) (ip : BitVec 128) : s.resolve6 ip = (cacheLookup ip s.nbr).getD s.llSrc := by
  unfold State.resolve6
  cases cacheLookup ip s.nbr <;> rfl

theorem frame_arp {ip : BitVec 32} {pkt : List Byte} {m : BitVec 48} (hlink : s.cfg.link = .eth)
    (hresp : s.latched.resp = some (.arp ip pkt)) (hdst : s.resolve4 ip = .mac48 m) :
    s.frame = some (ethBuild s.cfg m 0x0806#16 pkt) := by
  simp only [State.frame, hlink, hresp, hdst, macOf]

theorem frame_ip4 {pkt : List Byte} {m : BitVec 48} (hlink : s.cfg.link = .eth)
    (hresp : s.latched.resp = some (.ip4 pkt)) (hdst : s.resolve4 s.latched.ip4.src = .mac48 m) :
    s.frame = some (ethBuild s.cfg m 0x0800#16 pkt) := by
  simp only [State.frame, hlink, hresp, hdst, macOf]

theorem frame_ip6_eth {r : Ip6Rec} {upper : List Byte} {m : BitVec 48} (hlink : s.cfg.link = .eth)
    (hresp : s.latched.resp = some (.ip6 r upper)) (hdst : s.resolve6 r.dst = .mac48 m) :
    s.frame = some (ethBuild s.cfg m 0x86DD#16 (ip6Bytes r ++ upper)) := by
  simp only [State.frame, hlink, hresp, hdst, macOf]

theorem frame_ip6_lowpan {r : Ip6Rec} {upper : List Byte} {lld : LlAddr} (hlink : s.cfg.link = .lowpan)
    (hresp : s.latched.resp = some (.ip6 r upper)) (hdst : s.resolve6 r.dst = lld) :
    s.frame = some (mac154Build s.cfg s.dsn s.panSrc lld (iphcCompress r upper (.ext s.cfg.ext) lld)) := by
  simp only [State.frame, hlink, hresp, hdst]

/-- R407 has no case for a record that its link cannot carry. -/
theorem frame_none (h : s.latched.resp = none ∨ ∃ r, s.latched.resp = some r ∧ r.fits s.cfg.link = false) :
    s.frame = none := by
  unfold State.frame
  rcases h with h | ⟨r, h, hfits⟩
  · rw [h]
    cases s.cfg.link <;> rfl
  · cases hl : s.cfg.link <;> cases r <;> simp [h, Resp.fits, hl] at hfits ⊢

theorem execBuild_noCase (h : s.frame = none) : execBuild s = .fault .noBuildCase := by
  simp only [execBuild, h]

/-! ## The framers byte for byte (R179, R330) -/

/-- The frame control fields of R330, for an extended and for a short destination. -/
theorem fcf_ext : bytesLE 2 (1 + 2 ^ 6 + 3 * 2 ^ 10 + 0 * 2 ^ 12 + 3 * 2 ^ 14) = [0x41#8, 0xCC#8] := by decide

theorem fcf_short : bytesLE 2 (1 + 2 ^ 6 + 2 * 2 ^ 10 + 0 * 2 ^ 12 + 3 * 2 ^ 14) = [0x41#8, 0xC8#8] := by decide

theorem mac154Build_ext (cfg : Straps) (dsn : Byte) (pan : Half) (e : BitVec 64) (payload : List Byte) :
    mac154Build cfg dsn pan (.ext e) payload = [0x41#8, 0xCC#8, dsn] ++ toLE 2 pan ++ (toBE 8 e).reverse
      ++ (toBE 8 cfg.ext).reverse ++ payload := by
  show bytesLE 2 (1 + 2 ^ 6 + 3 * 2 ^ 10 + 0 * 2 ^ 12 + 3 * 2 ^ 14) ++ [dsn] ++ toLE 2 pan ++ (toBE 8 e).reverse
    ++ (toBE 8 cfg.ext).reverse ++ payload = _
  rw [fcf_ext]
  rfl

theorem mac154Build_short (cfg : Straps) (dsn : Byte) (pan : Half) (a : BitVec 16) (payload : List Byte) :
    mac154Build cfg dsn pan (.short a) payload = [0x41#8, 0xC8#8, dsn] ++ toLE 2 pan ++ (toBE 2 a).reverse
      ++ (toBE 8 cfg.ext).reverse ++ payload := by
  show bytesLE 2 (1 + 2 ^ 6 + 2 * 2 ^ 10 + 0 * 2 ^ 12 + 3 * 2 ^ 14) ++ [dsn] ++ toLE 2 pan ++ (toBE 2 a).reverse
    ++ (toBE 8 cfg.ext).reverse ++ payload = _
  rw [fcf_short]
  rfl

/-! ## `BUILD` (R409, R402) -/

theorem txLimit_eq (s : State) : s.txLimit = min s.par.bufCap (if s.cfg.link = .eth then 1514 else 125) := by
  unfold State.txLimit
  cases s.cfg.link <;> rfl

/-- What `BUILD` writes when the frame fits, the stored bytes apart. -/
theorem sent_eq (s : State) (frame : List Byte) : s.sent frame = { s with
    mem := (s.sent frame).mem, epoch := s.epoch + 1
    vbase := 0#16, vlen := BitVec.ofNat 16 s.txLimit, txlen := BitVec.ofNat 16 frame.length
    dsn := if s.cfg.link = .lowpan then s.dsn + 1 else s.dsn
    outcome := .sent, cause := .none, cstage := s.latched.hstage
    log := s.log ++ [.send s.latched.hstage (BitVec.ofNat 16 frame.length)]
    stage := .txPending, phase := .entry } := by
  unfold State.sent State.advanceDsn
  cases hl : (s.withResponse frame).cfg.link
  · rw [if_neg (by rw [show s.cfg.link = .eth from hl]; simp)]
    rfl
  · rw [if_pos (show s.cfg.link = .lowpan from hl)]
    rfl

theorem sent_txlen_toNat {frame : List Byte} (hlen : frame.length < 65536) :
    (s.sent frame).txlen.toNat = frame.length := by
  rw [State.sent_txlen, BitVec.toNat_ofNat, Nat.mod_eq_of_lt hlen]

/-- Only bytes of the response keep a specified value (R66). -/
theorem sent_mem_lt {frame : List Byte} (hlen : frame.length < 65536) :
    ∀ c ∈ (s.sent frame).mem, c.1 < frame.length := by
  intro c hc
  have htx : ((s.withResponse frame).advanceDsn).txlen.toNat = frame.length := sent_txlen_toNat hlen
  rw [State.sent, State.finishSent_mem, htx] at hc
  simpa using (List.mem_filter.mp hc).2

end

/-- Settles O43: the frame is longer than the limit, or it is stored from address 0 on and its end forgets the rest. -/
theorem buildStoresTheResponse : Obligations.BuildStoresTheResponse := by
  intro s f hcap hframe limit
  have hlimit : s.txLimit = limit := txLimit_eq s
  have hle : limit ≤ s.par.bufCap := Nat.min_le_left _ _
  refine ⟨fun hlong => ?_, fun hfits => ⟨s.sent f, ?_, ?_, ?_, ?_, ?_⟩⟩
  · exact (execBuild_of_frame hcap hframe).trans (if_pos (hlimit ▸ hlong))
  · exact execBuild_sends hcap hframe (hlimit ▸ hfits)
  · rw [← hlimit]
    exact sent_eq s f
  · rw [sent_txlen_toNat (by omega)]
    exact memRead_sent s (by omega)
  · exact sent_txlen_toNat (by omega)
  · exact sent_mem_lt (by omega)

end Sys2Proof.Machine
end

section
/-! SUPPORT. The compressor's choices (R325 to R328): the form of each field case by case, the first case that holds
taken, and the bytes of the header; then the response frame as a whole. -/

namespace Sys2Proof.Machine

/-! ## Traffic class, flow label and hop limit (R325, R326) -/

theorem ecn_toNat (tc : Byte) : (tc.extractLsb' 0 2).toNat = tc.toNat % 4 := by
  rw [extractLsb'_eq_ofNat_div, BitVec.toNat_ofNat, Nat.pow_zero, Nat.div_one]

theorem dscp_toNat (tc : Byte) : (tc.extractLsb' 2 6).toNat = tc.toNat / 4 := by
  have htc := tc.isLt
  rw [extractLsb'_eq_ofNat_div, BitVec.toNat_ofNat]
  omega

/-- The inline byte of a traffic class holds `ecn` above `dscp` (R131). -/
theorem trafficClass_byte (tc : Byte) :
    tc.extractLsb' 0 2 ++ tc.extractLsb' 2 6 = BitVec.ofNat 8 (64 * (tc.toNat % 4) + tc.toNat / 4) := by
  have htc := tc.isLt
  apply BitVec.eq_of_toNat_eq
  rw [toNat_append_add, ecn_toNat, dscp_toNat, BitVec.toNat_ofNat]
  omega

theorem dscp_eq_zero_iff (tc : Byte) : tc.extractLsb' 2 6 = 0#6 ↔ tc.toNat / 4 = 0 := by
  rw [← dscp_toNat, BitVec.toNat_eq]
  rfl

theorem compressTf_eq (tc : Byte) (fl : BitVec 20) : compressTf tc fl =
    if tc = 0#8 ∧ fl = 0#20 then (3#2, [])
    else if fl = 0#20 then (2#2, [BitVec.ofNat 8 (64 * (tc.toNat % 4) + tc.toNat / 4)])
    else if tc.toNat / 4 = 0 then (1#2, bytesBE 3 (tc.toNat % 4 * 2 ^ 22 + fl.toNat))
    else (0#2, [BitVec.ofNat 8 (64 * (tc.toNat % 4) + tc.toNat / 4)] ++ bytesBE 3 fl.toNat) := by
  simp only [compressTf, trafficClass_byte, dscp_eq_zero_iff, ecn_toNat]
  rfl

theorem compressHlim_eq (hlim : Byte) : compressHlim hlim =
    if hlim.toNat = 1 then (1#2, []) else if hlim.toNat = 64 then (2#2, [])
    else if hlim.toNat = 255 then (3#2, []) else (0#2, [hlim]) := by
  simp only [compressHlim, BitVec.toNat_eq]
  rfl

/-! ## Addresses (R327) -/

section

variable {a : List Byte} {ll : LlAddr}

/-- A string of zero bytes, read byte by byte. -/
theorem forall_eq_zero_iff {bs : List Byte} {n : Nat} (h : bs.length = n) : (∀ b ∈ bs, b = 0x00#8) ↔ bs = zeros n := by
  rw [zeros, List.eq_replicate_iff]
  exact (and_iff_right h).symm

theorem forall_slice_eq_zero_iff (ha : a.length = 16) {i j : Nat} (hj : j ≤ 16) :
    (∀ b ∈ slice a i j, b = 0x00#8) ↔ slice a i j = zeros (j - i) :=
  forall_eq_zero_iff (slice_length_of_le (by omega) i)

theorem drop_eight (ha : a.length = 16) : a.drop 8 = slice a 8 16 := (List.take_of_length_le (by simp [ha])).symm

theorem compressUnicast_iid (ha : a.length = 16) (hlocal : slice a 0 8 = linkLocalPrefix)
    (hiid : slice a 8 16 = iid ll) : compressUnicast a ll = (3#2, []) := if_pos ⟨hlocal, (drop_eight ha).trans hiid⟩

theorem compressUnicast_short (ha : a.length = 16) (hlocal : slice a 0 8 = linkLocalPrefix)
    (hiid : slice a 8 16 ≠ iid ll) (hshort : slice a 8 14 = shortIidPrefix) : compressUnicast a ll = (2#2, slice a 14 16) := by
  rw [compressUnicast, drop_eight ha, if_neg fun h => hiid h.2]
  exact if_pos ⟨hlocal, hshort⟩

theorem compressUnicast_local (ha : a.length = 16) (hlocal : slice a 0 8 = linkLocalPrefix)
    (hiid : slice a 8 16 ≠ iid ll) (hshort : slice a 8 14 ≠ shortIidPrefix) : compressUnicast a ll = (1#2, slice a 8 16) := by
  rw [compressUnicast, drop_eight ha, if_neg fun h => hiid h.2, if_neg fun h => hshort h.2]
  exact if_pos hlocal

theorem compressUnicast_full (hlocal : slice a 0 8 ≠ linkLocalPrefix) : compressUnicast a ll = (0#2, a) := by
  rw [compressUnicast, if_neg fun h => hlocal h.1, if_neg fun h => hlocal h.1]
  exact if_neg hlocal

theorem byteAt_local (h : slice a 0 8 = linkLocalPrefix) : byteAt a 0 = 0xFE#8 := by
  have hbyte : byteAt (slice a 0 8) 0 = byteAt a 0 := by
    cases a <;> rfl
  rw [← hbyte, h]
  rfl

theorem compressSrc_zero (h : a = zeros 16) : compressSrc a ll = (1#1, 0#2, []) := if_pos h

theorem compressSrc_unicast (h : a ≠ zeros 16) : compressSrc a ll = (0#1, compressUnicast a ll) := if_neg h

theorem ne_zeros_of_local (h : slice a 0 8 = linkLocalPrefix) : a ≠ zeros 16 := by
  rintro rfl
  exact absurd (byteAt_local h) (by decide)

/-- A group with zeros up to `k` has them up to every place before. -/
theorem slice_zeros_of_le {k n : Nat} (hnk : n ≤ k) (h : ∀ b ∈ slice a 2 k, b = 0x00#8) :
    ∀ b ∈ slice a 2 n, b = 0x00#8 := fun b hb =>
  h b ((List.take_sublist_take_left (by omega)).mem hb)

theorem compressDst_unicast (h : byteAt a 0 ≠ 0xFF#8) : compressDst a ll = (0#1, compressUnicast a ll) := by
  rw [compressDst, if_neg fun hc => h hc.1, if_neg fun hc => h hc.1, if_neg fun hc => h hc.1, if_neg h]

theorem compressDst_three (ha : a.length = 16) (h0 : byteAt a 0 = 0xFF#8) (h1 : byteAt a 1 = 0x02#8)
    (hz : ∀ b ∈ slice a 2 15, b = 0x00#8) : compressDst a ll = (1#1, 3#2, slice a 15 16) := by
  rw [← singleton_byteAt (i := 15) (by omega)]
  exact if_pos ⟨h0, h1, (forall_slice_eq_zero_iff ha (by decide)).mp hz⟩

theorem compressDst_two (ha : a.length = 16) (h0 : byteAt a 0 = 0xFF#8)
    (hnot : ¬ (byteAt a 1 = 0x02#8 ∧ ∀ b ∈ slice a 2 15, b = 0x00#8)) (hz : ∀ b ∈ slice a 2 13, b = 0x00#8) :
    compressDst a ll = (1#1, 2#2, slice a 1 2 ++ slice a 13 16) := by
  rw [forall_slice_eq_zero_iff ha (by decide)] at hnot hz
  rw [compressDst, if_neg fun h => hnot h.2, if_pos ⟨h0, hz⟩, ← singleton_byteAt (i := 1) (by omega)]
  rfl

theorem compressDst_one (ha : a.length = 16) (h0 : byteAt a 0 = 0xFF#8) (hnot : ¬ ∀ b ∈ slice a 2 13, b = 0x00#8)
    (hz : ∀ b ∈ slice a 2 11, b = 0x00#8) : compressDst a ll = (1#1, 1#2, slice a 1 2 ++ slice a 11 16) := by
  have hnot15 := mt (slice_zeros_of_le (a := a) (k := 15) (n := 13) (by decide)) hnot
  rw [forall_slice_eq_zero_iff ha (by decide)] at hnot hnot15 hz
  rw [compressDst, if_neg fun h => hnot15 h.2.2, if_neg fun h => hnot h.2, if_pos ⟨h0, hz⟩,
    ← singleton_byteAt (i := 1) (by omega)]
  rfl

theorem compressDst_zero (ha : a.length = 16) (h0 : byteAt a 0 = 0xFF#8) (hnot : ¬ ∀ b ∈ slice a 2 11, b = 0x00#8) :
    compressDst a ll = (1#1, 0#2, a) := by
  have hnot15 := mt (slice_zeros_of_le (a := a) (k := 15) (n := 11) (by decide)) hnot
  have hnot13 := mt (slice_zeros_of_le (a := a) (k := 13) (n := 11) (by decide)) hnot
  rw [forall_slice_eq_zero_iff ha (by decide)] at hnot hnot15 hnot13
  rw [compressDst, if_neg fun h => hnot15 h.2.2, if_neg fun h => hnot13 h.2, if_neg fun h => hnot h.2, if_pos h0]

theorem compressDst_local (h : slice a 0 8 = linkLocalPrefix) : compressDst a ll = (0#1, compressUnicast a ll) :=
  compressDst_unicast (by rw [byteAt_local h]; decide)

end

/-! ## The UDP header (R328) -/

theorem compressPorts_eq (sport dport : Half) (bs : List Byte) :
    (0b11110#5 ++ 0#1 ++ (compressPorts sport dport).1 : Byte) :: ((compressPorts sport dport).2 ++ bs) =
      (if 0xF0B0 ≤ sport.toNat ∧ sport.toNat ≤ 0xF0BF ∧ 0xF0B0 ≤ dport.toNat ∧ dport.toNat ≤ 0xF0BF then
        [0xF3#8, BitVec.ofNat 8 (16 * (sport.toNat - 0xF0B0) + (dport.toNat - 0xF0B0))]
      else if 0xF000 ≤ dport.toNat ∧ dport.toNat ≤ 0xF0FF then
        [0xF1#8] ++ toBE 2 sport ++ [BitVec.ofNat 8 (dport.toNat - 0xF000)]
      else if 0xF000 ≤ sport.toNat ∧ sport.toNat ≤ 0xF0FF then
        [0xF2#8, BitVec.ofNat 8 (sport.toNat - 0xF000)] ++ toBE 2 dport
      else [0xF0#8] ++ toBE 2 sport ++ toBE 2 dport) ++ bs := by
  have hone (n : Nat) : bytesBE 1 n = [BitVec.ofNat 8 n] := by rw [bytesBE, Nat.pow_zero, Nat.div_one]; rfl
  simp only [compressPorts, hone]
  split_ifs
  all_goals simp

/-- The fields of a UDP message that was put together. -/
theorem compressUdp_message (sport dport : Half) {check : List Byte} (hcheck : check.length = 2) (l0 l1 : Byte)
    (data : List Byte) : compressUdp (toBE 2 sport ++ toBE 2 dport ++ [l0, l1] ++ check ++ data) =
      (0b11110#5 ++ 0#1 ++ (compressPorts sport dport).1) :: ((compressPorts sport dport).2 ++ (check ++ data)) := by
  obtain ⟨c0, c1, rfl⟩ := List.length_eq_two.mp hcheck
  obtain ⟨s0, s1, hs⟩ := List.length_eq_two.mp (toBE_length 2 sport)
  obtain ⟨d0, d1, hd⟩ := List.length_eq_two.mp (toBE_length 2 dport)
  have hsport : ofBE 16 [s0, s1] = sport := hs ▸ ofBE_toBE (n := 2) rfl sport
  have hdport : ofBE 16 [d0, d1] = dport := hd ▸ ofBE_toBE (n := 2) rfl dport
  have hports : portsOf ([s0, s1] ++ [d0, d1] ++ [l0, l1] ++ [c0, c1] ++ data) = compressPorts sport dport := by
    rw [← hsport, ← hdport]
    rfl
  rw [hs, hd, compressUdp_eq, hports]
  simp [slice]

/-! ## The base header (R131, R325) -/

theorem iphcByte_eq (r : Ip6Rec) (nh : BitVec 1) : iphcByte r nh =
    BitVec.ofNat 8 (0x60 + 8 * (compressTf r.tc r.fl).1.toNat + 4 * nh.toNat + (compressHlim r.hlim).1.toNat) := by
  have hbits : ∀ (tf hl : BitVec 2) (nh : BitVec 1),
      0b011#3 ++ tf ++ nh ++ hl = BitVec.ofNat 8 (0x60 + 8 * tf.toNat + 4 * nh.toNat + hl.toNat) := by decide
  exact hbits _ _ _

theorem iphcModes_eq (sac : BitVec 1) (sam : BitVec 2) (m : BitVec 1) (dam : BitVec 2) : iphcModes sac sam m dam =
    BitVec.ofNat 8 (64 * sac.toNat + 16 * sam.toNat + 8 * m.toNat + dam.toNat) := by
  decide +revert

/-! ## The statement -/

/-- Settles O42: the compressor's fields form by form, its header, and the frame of each pair of link and record. -/
theorem responseFrameIsResolvedAndFramed : Obligations.ResponseFrameIsResolvedAndFramed := by
  refine ⟨compressTf_eq, compressHlim_eq, fun a ll ha => ?addresses, fun sport dport check data l0 l1 hcheck => ?udp,
    fun r upper lls lld => ?header, fun s => ?frame⟩
  case addresses =>
    have hzero : (∀ b ∈ a, b = 0x00#8) ↔ a = zeros 16 := forall_eq_zero_iff ha
    have src {p} (h : slice a 0 8 = linkLocalPrefix) (hu : compressUnicast a ll = p) : compressSrc a ll = (0#1, p) := by
      rw [compressSrc_unicast (ne_zeros_of_local h), hu]
    have dst {p} (h : slice a 0 8 = linkLocalPrefix) (hu : compressUnicast a ll = p) : compressDst a ll = (0#1, p) := by
      rw [compressDst_local h, hu]
    rw [hzero]
    refine ⟨compressSrc_zero, fun _ h hi => src h (compressUnicast_iid ha h hi),
      fun h hi hs => src h (compressUnicast_short ha h hi hs), fun h hi hs => src h (compressUnicast_local ha h hi hs),
      fun hz h => ?_, compressDst_three ha, compressDst_two ha, compressDst_one ha, compressDst_zero ha,
      fun h hi => dst h (compressUnicast_iid ha h hi), fun h hi hs => dst h (compressUnicast_short ha h hi hs),
      fun h hi hs => dst h (compressUnicast_local ha h hi hs), fun h0 h => ?_⟩
    · rw [compressSrc_unicast hz, compressUnicast_full h]
    · rw [compressDst_unicast h0, compressUnicast_full h]
  case udp =>
    refine (compressUdp_message sport dport hcheck l0 l1 data).trans ((compressPorts_eq ..).trans ?_)
    exact (List.append_assoc ..).symm
  case header =>
    refine ⟨fun hudp => ?_, fun hudp => ?_⟩
    · rw [iphcCompress_nhc ((nhcApplies_iff r).mpr hudp), iphcHead, iphcByte_eq, iphcModes_eq, iphcFields]
      simp
    · rw [iphcCompress_plain (Bool.eq_false_iff.mpr ((nhcApplies_iff r).not.mpr hudp)), iphcHead, iphcByte_eq,
        iphcModes_eq, iphcFields]
      simp
  case frame =>
    refine ⟨fun ip pkt m hlink hresp hdst => ?_, fun pkt m hlink hresp hdst => ?_,
      fun r upper m hlink hresp hdst => ?_, fun r upper e hlink hresp hdst => ?_,
      fun r upper a hlink hresp hdst => ?_, fun h => execBuild_noCase (frame_none h)⟩
    · exact frame_arp hlink hresp hdst
    · exact frame_ip4 hlink hresp hdst
    · rw [frame_ip6_eth hlink hresp ((resolve6_eq s r.dst).trans hdst), List.append_assoc]
      rfl
    · rw [frame_ip6_lowpan hlink hresp ((resolve6_eq s r.dst).trans hdst), mac154Build_ext]
    · rw [frame_ip6_lowpan hlink hresp ((resolve6_eq s r.dst).trans hdst), mac154Build_short]

end Sys2Proof.Machine
end
